-- ==== Sys2Proof/Word.lean ====
section
/-! DEFINITION. The word types of HUFF-CORE and its two shapes of data: a bit sequence and a table
with one entry per symbol (00_scope.md R8, R9). -/

namespace Sys2Proof

/-- A byte, which is also a symbol (R8: "symbol width 8 bits, values 0 to 255"). -/
abbrev Byte := BitVec 8

/-- A 32-bit register or a 32-bit host word (R8, R23). -/
abbrev Word := BitVec 32

/-- A bit sequence, indexed from its first bit (R9). -/
abbrev Bits := List Bool

/-- One entry for each of the 256 symbols (R40 to R42). -/
abbrev Table (α : Type) := Vector α 256

/-- A buffer capacity of 1 to 2^28 bytes (R7), held as the capacity less one so that no other capacity
can be written down. -/
abbrev Capacity := Fin (2 ^ 28)

/-- The capacity in bytes (R7). -/
def Capacity.bytes (c : Capacity) : Nat := c.val + 1

end Sys2Proof
end

