-- ==== Sys2Proof/Syntax.lean ====
section
/-! DEFINITION. The command set of HUFF-CORE: the fields of a command word (30_encoding.md R100) and the
twelve commands of the opcode map (R102). -/

namespace Sys2Proof

/-- The commands, one constructor per row of spec/opcode_table.json. None has an operand (R101). -/
inductive Instr where
  | nop
  | clear
  | encFreq
  | encTree
  | encCodes
  | encHeader
  | encPayload
  | encode
  | decTable
  | decTree
  | decPayload
  | decode
  deriving DecidableEq, Repr

/-- The fields of a command word, format CMD32 (R100): OP in bits 7:0, RSVD in bits 31:8. -/
structure Cmd32 where
  rsvd : BitVec 24
  op   : Byte
  deriving DecidableEq, Repr

end Sys2Proof
end

