-- ==== Sys2Proof/WellFormed.lean ====
section
/-! DEFINITION. When the fields of a command word, and a command, are well formed
(30_encoding.md R100, R103). -/

namespace Sys2Proof

/-- The opcodes of the map (R102, and the set written out in 40_common.md R135). -/
def opcodes : List Byte :=
  [0x00, 0x01, 0x10, 0x11, 0x12, 0x13, 0x14, 0x1F, 0x20, 0x21, 0x22, 0x2F]

/-- RSVD "must be 0" (R100). -/
def Cmd32.reservedZero (c : Cmd32) : Bool := c.rsvd == 0

/-- OP is one of the map's (R103). -/
def Cmd32.opKnown (c : Cmd32) : Bool := opcodes.contains c.op

/-- The word is not an illegal one of R103. -/
def Cmd32.wellFormed (c : Cmd32) : Bool := c.reservedZero && c.opKnown

/-- A command has no operand (R101), so there is nothing in it to be ill formed: every constructor is. -/
def Instr.wellFormed : Instr → Bool
  | .nop => true
  | .clear => true
  | .encFreq => true
  | .encTree => true
  | .encCodes => true
  | .encHeader => true
  | .encPayload => true
  | .encode => true
  | .decTable => true
  | .decTree => true
  | .decPayload => true
  | .decode => true

end Sys2Proof
end

