-- ==== Sys2Proof/Decode.lean ====
section
/-! DEFINITION. The decoder of command words, total on every 32-bit word and rejecting by name, and the
encoder (30_encoding.md R100 to R105). -/

namespace Sys2Proof

/-- Why a word is no command (R103). -/
inductive DecodeRefusal where
  /-- RSVD, bits 31:8, is not 0. -/
  | reservedBits (rsvd : BitVec 24)
  /-- OP, bits 7:0, is not in the opcode map. -/
  | unknownOpcode (op : Byte)
  deriving DecidableEq, Repr

/-- The fields of a word (R100). -/
def Cmd32.ofWord (w : Word) : Cmd32 :=
  { rsvd := w.extractLsb' 8 24, op := w.extractLsb' 0 8 }

/-- The word of the fields (R100). -/
def Cmd32.toWord (c : Cmd32) : Word := c.rsvd ++ c.op

/-- The opcode map (R102), row by row. -/
def opcodeMap : List (Byte × Instr) :=
  [ (0x00, .nop),
    (0x01, .clear),
    (0x10, .encFreq),
    (0x11, .encTree),
    (0x12, .encCodes),
    (0x13, .encHeader),
    (0x14, .encPayload),
    (0x1F, .encode),
    (0x20, .decTable),
    (0x21, .decTree),
    (0x22, .decPayload),
    (0x2F, .decode) ]

/-- The command of a word, or why there is none (R102, R103, R105: every command is one 32-bit word, and
no mode bit changes how it decodes). -/
def decode (w : Word) : Except DecodeRefusal Instr :=
  let c := Cmd32.ofWord w
  if c.reservedZero then
    match opcodeMap.lookup c.op with
    | some i => .ok i
    | none => .error (.unknownOpcode c.op)
  else .error (.reservedBits c.rsvd)

/-- The opcode of a command (R102). -/
def Instr.opcode : Instr → Byte
  | .nop => 0x00
  | .clear => 0x01
  | .encFreq => 0x10
  | .encTree => 0x11
  | .encCodes => 0x12
  | .encHeader => 0x13
  | .encPayload => 0x14
  | .encode => 0x1F
  | .decTable => 0x20
  | .decTree => 0x21
  | .decPayload => 0x22
  | .decode => 0x2F

/-- The word of a command: its opcode, RSVD = 0 (R100, R102). -/
def encode (i : Instr) : Word := Cmd32.toWord { rsvd := 0, op := i.opcode }

/-- The word that stands in the low `nbits` bits of `w`, every bit above them 0. -/
def tableWord (nbits w : Nat) : Word := BitVec.ofNat 32 (w % 2 ^ nbits)

/-- What the decoder reads from an instruction given as spec/opcode_table.json numbers its bits. A
command word is one 32-bit register write (R100), so no byte order intervenes. -/
def decodeTableWord (nbits w : Nat) : Option Instr :=
  match decode (tableWord nbits w) with
  | .ok i => some i
  | .error _ => none

end Sys2Proof
end

