-- ==== Sys2Proof/Config.lean ====
section
/-! DEFINITION. What an instance of HUFF-CORE fixes (the parameters of 00_scope.md R7) and the free
values the spec leaves open (93_implementation_defined.md U1 to U3). Every constant here is
uninterpreted: no proof can see a value of it. -/

namespace Sys2Proof.Config

/-- Parameter P1, IN_CAP (R7, D27): any capacity of 1 to 2^28 bytes. Log 4. -/
opaque inCap : Capacity

/-- Parameter P2, OUT_CAP (R7, D27): any capacity of 1 to 2^28 bytes. Log 4. -/
opaque outCap : Capacity

/-- Free value U1: the byte of IN_MEM at an offset (second argument) drawn at a reset (first argument:
the number of the reset) (R49, R241). Log 5. -/
opaque inDraw : Nat → Nat → Byte

/-- Free value U1: the byte of OUT_MEM at an offset (second argument) drawn at a reset (first argument)
(R49, R241). Log 5. -/
opaque outDraw : Nat → Nat → Byte

/-- Free value U3: what the port returns at the `n`-th unspecified read (R246: "an arbitrary 32-bit
value, a fresh draw at every read"). Log 7. -/
opaque busyRead : Nat → Word

end Sys2Proof.Config
end

