-- ==== Sys2Proof/Machine/State.lean ====
section
/-! DEFINITION. The state of HUFF-CORE (10_state.md) as plain data, the two reason types of a step, and
the state after reset (R49). -/

namespace Sys2Proof.Machine

/-- Why the machine would stop with a fault. It has no constructor: "No behaviour of HUFF-CORE is `stuck`.
Every command completes (40_common.md rule R134), and the host port always responds"
(93_implementation_defined.md). An error of the spec is a next state (R226). Log 13. -/
inductive Fault
  deriving DecidableEq, Repr

/-- Why a command has no meaning in the model. -/
inductive Refusal where
  /-- The command's meaning is not modelled; raised by no command of this model (every arm of `exec`
  has its meaning). Safe. -/
  | notModelled (mnemonic : String)
  deriving DecidableEq, Repr

/-- CTRL (R25). The reserved bits are RAZ/WI and hold nothing (log 10). -/
structure Ctrl where
  ie      : Bool
  limitEn : Bool
  deriving DecidableEq, Repr

/-- STATUS (R27). The reserved bits are RAZ/WI and hold nothing (log 10). -/
structure Status where
  busy    : Bool
  done    : Bool
  err     : Bool
  wrBusy  : Bool
  errCode : Byte
  errOp   : Byte
  deriving DecidableEq, Repr

/-- STAGE, one valid bit per stage (R29). The reserved bits are RAZ and hold nothing (log 10). -/
structure Stage where
  freqV  : Bool
  treeV  : Bool
  codesV : Bool
  hdrV   : Bool
  payV   : Bool
  tabV   : Bool
  dtreeV : Bool
  decV   : Bool
  deriving DecidableEq, Repr

/-- CODE_LEN[s] (R41). The reserved bits are RAZ and hold nothing (log 10). -/
structure CodeLen where
  len     : Byte
  present : Bool
  deriving DecidableEq, Repr

/-- An entry of the tree arena (R44). A child is a node index or NIL, here `none`. -/
inductive Node where
  | leaf (sym : Byte) (freq : Word)
  | internal (left right : Option Nat) (freq : Word)
  deriving DecidableEq, Repr

/-- The stage commands (R136). -/
inductive StageOp where
  | encFreq
  | encTree
  | encCodes
  | encHeader
  | encPayload
  | decTable
  | decTree
  | decPayload
  deriving DecidableEq, Repr

/-- The errors a command can end with (R211). -/
inductive ErrCode where
  | illegalCmd
  | sequence
  | inLenRange
  | symbolOverflow
  | outOverflow
  | fmtTruncated
  | fmtCodeLen
  | fmtDupSymbol
  | fmtPrefix
  | malformedTraversal
  deriving DecidableEq, Repr

/-- What a stage body raises: `raise E(info)` (R11, R210). -/
structure Raise where
  code : ErrCode
  info : Nat
  deriving DecidableEq, Repr

/-- `Error(code, op, info)`, the failing result of `Execute` (R135, R210). -/
structure Err where
  code : ErrCode
  op   : Byte
  info : Nat
  deriving DecidableEq, Repr

/-- The size of a host access: 1, 2 or 4 bytes (R70). -/
inductive Size where
  | b1
  | b2
  | b4
  deriving DecidableEq, Repr

/-- A transaction on the host port (R70). -/
inductive Txn where
  | read (size : Size) (addr : Word)
  | write (size : Size) (addr : Word) (wdata : Word)
  deriving DecidableEq, Repr

/-- What the port answers (R70): OKAY with `rdata`, OKAY to a write, or BUSERR. -/
inductive Reply where
  | data (rdata : Word)
  | okay
  | busErr
  deriving DecidableEq, Repr

/-- One move of the machine's environment: a host transaction, a point at which the engine takes its
completion step (the marker STEP of R115), or a reset (R240). Log 1. -/
inductive Input where
  | host (t : Txn)
  | engine
  | reset
  deriving DecidableEq, Repr

/-- The bytes of a memory that were written since reset, as address and byte pairs, addresses strictly
rising. An unlisted address has no stored byte; it reads as its reset draw (R87, log 5). -/
abbrev Memory := List Host.Cell

/-- The state of the machine. -/
structure State where
  /-- CTRL (R25). -/
  ctrl        : Ctrl
  /-- STATUS (R27). -/
  status      : Status
  /-- ERR_INFO (R28). -/
  errInfo     : Word
  /-- STAGE (R29). -/
  stage       : Stage
  /-- IN_LEN (R30). -/
  inLen       : Word
  /-- OUT_LEN (R31). -/
  outLen      : Word
  /-- OUT_LIMIT (R32). -/
  outLimit    : Word
  /-- NSYM, bits [8:0] (R33). -/
  nsym        : BitVec 9
  /-- HDR_LEN (R34). -/
  hdrLen      : Word
  /-- PAYLOAD_BITS (R35). -/
  payloadBits : Word
  /-- RESID (R36). -/
  resid       : Word
  /-- IN_CAP, a parameter, constant (R7, R38). -/
  inCap       : Capacity
  /-- OUT_CAP, a parameter, constant (R7, R38). -/
  outCap      : Capacity
  /-- FREQ[0..255] (R40). -/
  freq        : Table Word
  /-- CODE_LEN[0..255] (R41). -/
  codeLen     : Table CodeLen
  /-- CODE_BITS[0..255]: the eight words of a symbol as one 256-bit value, word 0 in its top 32 bits, so
  code bit `i` is bit `255 - i` (R42, R8). -/
  codeBits    : Table (BitVec 256)
  /-- CMDL, hidden (R43). -/
  cmdl        : Word
  /-- LIMSNAP, hidden (R43). -/
  limsnap     : Bool
  /-- The live entries of the tree arena, entry 0 first; their number is NODES (R44, R37, log 9). -/
  arena       : List Node
  /-- ROOT, hidden; `none` is NIL (R44). -/
  root        : Option Nat
  /-- ORDER, hidden (R45). -/
  order       : List Byte
  /-- IN_MEM (R46). -/
  inMem       : Memory
  /-- OUT_MEM (R47). -/
  outMem      : Memory
  /-- The model's own: the moves of the environment still to come, the next first (log 1). -/
  inputs      : List Input
  /-- The model's own: what the port answered to the last transaction (log 8). -/
  reply       : Option Reply
  /-- The model's own: how many unspecified reads were answered (log 7). -/
  draws       : Nat
  /-- The model's own: how many resets happened after the first (log 6). -/
  resets      : Nat
  deriving DecidableEq, Repr

/-- The state after reset (R49). The parameters are the instance's; the four fields of the model's own
are empty or zero (log 14). -/
def State.reset : State where
  ctrl        := { ie := false, limitEn := false }
  status      := { busy := false, done := false, err := false, wrBusy := false, errCode := 0, errOp := 0 }
  errInfo     := 0
  stage       := { freqV := false, treeV := false, codesV := false, hdrV := false, payV := false,
                   tabV := false, dtreeV := false, decV := false }
  inLen       := 0
  outLen      := 0
  outLimit    := 0
  nsym        := 0
  hdrLen      := 0
  payloadBits := 0
  resid       := 0
  inCap       := Config.inCap
  outCap      := Config.outCap
  freq        := Vector.replicate 256 0
  codeLen     := Vector.replicate 256 { len := 0, present := false }
  codeBits    := Vector.replicate 256 0
  cmdl        := 0
  limsnap     := false
  arena       := []
  root        := none
  order       := []
  inMem       := []
  outMem      := []
  inputs      := []
  reply       := none
  draws       := 0
  resets      := 0

end Sys2Proof.Machine
end

