-- ==== Sys2Proof/Machine/Flags.lean ====
section
/-! DEFINITION. The words of CTRL, STATUS, STAGE and CODE_LEN, their bit rules, the stages' prerequisite
and valid bits, the numbers of opcodes and error codes, and the interrupt output. -/

namespace Sys2Proof.Machine

/-- CTRL as the host reads it (R25). -/
def Ctrl.toWord (c : Ctrl) : Word :=
  0#30 ++ BitVec.ofBool c.limitEn ++ BitVec.ofBool c.ie

/-- CTRL as a host write leaves it: the reserved bits are ignored (R25). -/
def Ctrl.ofWord (w : Word) : Ctrl :=
  { ie := w.getLsbD 0, limitEn := w.getLsbD 1 }

/-- STATUS as the host reads it (R27). -/
def Status.toWord (t : Status) : Word :=
  0#8 ++ t.errOp ++ t.errCode ++ 0#4 ++ BitVec.ofBool t.wrBusy ++ BitVec.ofBool t.err ++
    BitVec.ofBool t.done ++ BitVec.ofBool t.busy

/-- A host write of `w` to STATUS: DONE, ERR and WR_BUSY are W1C, every other field is RO (R27, R12). This
is the host's return from an error (R228); ERR_CODE and ERR_OP hold. -/
def Status.acknowledge (t : Status) (w : Word) : Status :=
  { t with done := t.done && !w.getLsbD 1
           err := t.err && !w.getLsbD 2
           wrBusy := t.wrBusy && !w.getLsbD 3 }

/-- STAGE as the host reads it (R29). -/
def Stage.toWord (g : Stage) : Word :=
  0#21 ++ BitVec.ofBool g.decV ++ BitVec.ofBool g.dtreeV ++ BitVec.ofBool g.tabV ++ 0#3 ++
    BitVec.ofBool g.payV ++ BitVec.ofBool g.hdrV ++ BitVec.ofBool g.codesV ++
    BitVec.ofBool g.treeV ++ BitVec.ofBool g.freqV

/-- STAGE = 0 (R29, R80, R137). -/
def Stage.none : Stage where
  freqV := false
  treeV := false
  codesV := false
  hdrV := false
  payV := false
  tabV := false
  dtreeV := false
  decV := false

/-- CODE_LEN[s] as the host reads it (R41). -/
def CodeLen.toWord (c : CodeLen) : Word :=
  0#23 ++ BitVec.ofBool c.present ++ c.len

/-- No entry in the code table: LEN = 0, PRESENT = 0 (R41, R137). -/
def CodeLen.absent : CodeLen := { len := 0, present := false }

/-- The opcode of a stage command (R136). -/
def StageOp.opcode : StageOp → Byte
  | .encFreq => 0x10
  | .encTree => 0x11
  | .encCodes => 0x12
  | .encHeader => 0x13
  | .encPayload => 0x14
  | .decTable => 0x20
  | .decTree => 0x21
  | .decPayload => 0x22

/-- `(STAGE & REQ(op)) = REQ(op)`: the prerequisite bit of the stage is set (R136). -/
def Stage.meets (g : Stage) : StageOp → Bool
  | .encFreq => true
  | .encTree => g.freqV
  | .encCodes => g.treeV
  | .encHeader => g.codesV
  | .encPayload => g.hdrV
  | .decTable => true
  | .decTree => g.tabV
  | .decPayload => g.dtreeV

/-- `STAGE | SET(op)`: the stage's own bit is set (R136). -/
def Stage.mark (g : Stage) : StageOp → Stage
  | .encFreq => { g with freqV := true }
  | .encTree => { g with treeV := true }
  | .encCodes => { g with codesV := true }
  | .encHeader => { g with hdrV := true }
  | .encPayload => { g with payV := true }
  | .decTable => { g with tabV := true }
  | .decTree => { g with dtreeV := true }
  | .decPayload => { g with decV := true }

/-- The STAGE bits `Invalidate(op)` clears (R137). -/
def Stage.invalidate (g : Stage) : StageOp → Stage
  | .encFreq => Stage.none
  | .encTree => { g with treeV := false, codesV := false, hdrV := false, payV := false }
  | .encCodes => { g with codesV := false, hdrV := false, payV := false }
  | .encHeader => { g with hdrV := false, payV := false }
  | .encPayload => { g with payV := false }
  | .decTable => Stage.none
  | .decTree => { g with dtreeV := false, decV := false }
  | .decPayload => { g with decV := false }

/-- The stages that check IN_LEN against IN_CAP (R138, R214). -/
def StageOp.checksInLen : StageOp → Bool
  | .encFreq => true
  | .encTree => false
  | .encCodes => false
  | .encHeader => false
  | .encPayload => false
  | .decTable => true
  | .decTree => false
  | .decPayload => false

/-- The number recorded in STATUS.ERR_CODE (R211). -/
def ErrCode.toByte : ErrCode → Byte
  | .illegalCmd => 0x01
  | .sequence => 0x02
  | .inLenRange => 0x03
  | .symbolOverflow => 0x04
  | .outOverflow => 0x05
  | .fmtTruncated => 0x06
  | .fmtCodeLen => 0x07
  | .fmtDupSymbol => 0x08
  | .fmtPrefix => 0x09
  | .malformedTraversal => 0x0A

/-- The interrupt output: `irq = CTRL.IE & (STATUS.DONE | STATUS.ERR)` (R229). -/
def State.irq (s : State) : Bool := s.ctrl.ie && (s.status.done || s.status.err)

end Sys2Proof.Machine
end

