-- ==== Sys2Proof/Machine/Operands.lean ====
section
/-! DEFINITION. The operands of commands and transactions: entries of the symbol tables, codes as bit
sequences, tree nodes, and the register map of the host port (10_state.md R23, R40 to R44). -/

namespace Sys2Proof

/-- The entry of symbol `s`. -/
def Table.at {α : Type} (t : Table α) (s : Byte) : α := t[s.toNat]'s.isLt

/-- The table with `v` as the entry of symbol `s`. -/
def Table.put {α : Type} (t : Table α) (s : Byte) (v : α) : Table α := t.set s.toNat v s.isLt

/-- Every entry the same. -/
def Table.fill {α : Type} (v : α) : Table α := Vector.replicate 256 v

/-- The 256 symbols in ascending order. -/
def symbols : List Byte := (List.range 256).map (BitVec.ofNat 8)

/-- The number of bytes needed for `n` bits (R10). -/
def ceil8 (n : Nat) : Nat := (n + 7) / 8

/-- The bits of `c` placed from the most significant bit of a `w`-bit value down, the rest 0 (R9, R42,
R143). -/
def msbFirst (w : Nat) : Bits → BitVec w
  | [] => 0
  | b :: c => (if b then BitVec.twoPow w (w - 1) else 0) ||| (msbFirst w c >>> 1)

/-- The first `n` bits of a value, from its most significant bit down (R42). -/
def firstBits {w : Nat} (n : Nat) (v : BitVec w) : Bits :=
  (List.range n).map fun i => v.getMsbD i

namespace Machine

/-- The code of symbol `sym`: `CODE_BITS[sym]`, of length `CODE_LEN[sym].LEN` (R42). -/
def State.codeOf (s : State) (sym : Byte) : Bits :=
  firstBits (s.codeLen.at sym).len.toNat (s.codeBits.at sym)

/-- `PRESENT[sym]` (R41). -/
def State.present (s : State) (sym : Byte) : Bool := (s.codeLen.at sym).present

/-- `CODE_LEN[sym] <- |c|; PRESENT[sym] <- 1; CODE_BITS[sym] <- c`, zeroing the other bits (R41, R42). -/
def State.setCode (s : State) (sym : Byte) (c : Bits) : State :=
  { s with codeLen := s.codeLen.put sym { len := BitVec.ofNat 8 c.length, present := true }
           codeBits := s.codeBits.put sym (msbFirst 256 c) }

/-- The symbols with an entry in the code table, ascending. -/
def State.presentSymbols (s : State) : List Byte := symbols.filter s.present

/-- The weight of a node (R44). -/
def Node.freq : Node → Word
  | .leaf _ f => f
  | .internal _ _ f => f

/-- `child(k, b)` of a node: left for 0, right for 1 (R44). A leaf has no child. -/
def Node.child : Node → Bool → Option Nat
  | .leaf _ _, _ => none
  | .internal l _ _, false => l
  | .internal _ r _, true => r

/-- The node with `child(k, b)` set to `v`. -/
def Node.setChild : Node → Bool → Nat → Node
  | .leaf s f, _, _ => .leaf s f
  | .internal _ r f, false, v => .internal (some v) r f
  | .internal l _ f, true, v => .internal l (some v) f

/-- `child(k, b)` in the arena; an entry that is not live has no child (log 11). -/
def childAt (ar : List Node) (k : Nat) (b : Bool) : Option Nat :=
  match ar[k]? with
  | some nd => nd.child b
  | none => none

/-- The symbol of entry `k` if it is a LEAF. -/
def leafAt (ar : List Node) (k : Nat) : Option Byte :=
  match ar[k]? with
  | some (.leaf sym _) => some sym
  | some (.internal _ _ _) => none
  | none => none

/-- NODES (R37, R44). -/
def State.nodes (s : State) : Nat := s.arena.length

/-- The registers of the map (R23). -/
inductive Reg where
  | id
  | ctrl
  | cmd
  | status
  | errInfo
  | stage
  | inLen
  | outLen
  | outLimit
  | nsym
  | hdrLen
  | payloadBits
  | resid
  | nodes
  | inCap
  | outCap
  | freq (s : Byte)
  | codeLen (s : Byte)
  | codeBits (s : Byte) (w : Fin 8)
  deriving DecidableEq, Repr

/-- The offset of a register (R23). -/
def Reg.offset : Reg → Nat
  | .id => 0x0000
  | .ctrl => 0x0004
  | .cmd => 0x0008
  | .status => 0x000C
  | .errInfo => 0x0010
  | .stage => 0x0014
  | .inLen => 0x0018
  | .outLen => 0x001C
  | .outLimit => 0x0020
  | .nsym => 0x0024
  | .hdrLen => 0x0028
  | .payloadBits => 0x002C
  | .resid => 0x0030
  | .nodes => 0x0034
  | .inCap => 0x0038
  | .outCap => 0x003C
  | .freq s => 0x0400 + 4 * s.toNat
  | .codeLen s => 0x0800 + 4 * s.toNat
  | .codeBits s w => 0x1000 + 32 * s.toNat + 4 * w.val

/-- The registers that stand alone, by offset (R23). -/
def singleRegs : List (Nat × Reg) :=
  [ (0x0000, .id),
    (0x0004, .ctrl),
    (0x0008, .cmd),
    (0x000C, .status),
    (0x0010, .errInfo),
    (0x0014, .stage),
    (0x0018, .inLen),
    (0x001C, .outLen),
    (0x0020, .outLimit),
    (0x0024, .nsym),
    (0x0028, .hdrLen),
    (0x002C, .payloadBits),
    (0x0030, .resid),
    (0x0034, .nodes),
    (0x0038, .inCap),
    (0x003C, .outCap) ]

/-- The register at a 4-byte-aligned offset of the region; `none` is a reserved offset (R23, R39). -/
def regAt (off : Nat) : Option Reg :=
  if off < 0x0400 then singleRegs.lookup off
  else if off < 0x0800 then some (.freq (BitVec.ofNat 8 ((off - 0x0400) / 4)))
  else if off < 0x0C00 then some (.codeLen (BitVec.ofNat 8 ((off - 0x0800) / 4)))
  else if off < 0x1000 then none
  else if off < 0x3000 then
    some (.codeBits (BitVec.ofNat 8 ((off - 0x1000) / 32)) (Fin.ofNat 8 ((off - 0x1000) % 32 / 4)))
  else none

/-- ID: "HU" and the edition 7, constant (R24). -/
def idWord : Word := 0x48550007

/-- The word stored in a register (R23 to R42); CMD reads 0 (R26). -/
def State.readReg (s : State) : Reg → Word
  | .id => idWord
  | .ctrl => s.ctrl.toWord
  | .cmd => 0
  | .status => s.status.toWord
  | .errInfo => s.errInfo
  | .stage => s.stage.toWord
  | .inLen => s.inLen
  | .outLen => s.outLen
  | .outLimit => s.outLimit
  | .nsym => s.nsym.setWidth 32
  | .hdrLen => s.hdrLen
  | .payloadBits => s.payloadBits
  | .resid => s.resid
  | .nodes => BitVec.ofNat 32 s.nodes
  | .inCap => BitVec.ofNat 32 s.inCap.bytes
  | .outCap => BitVec.ofNat 32 s.outCap.bytes
  | .freq sym => s.freq.at sym
  | .codeLen sym => (s.codeLen.at sym).toWord
  | .codeBits sym w => (s.codeBits.at sym).extractLsb' (32 * (7 - w.val)) 32

/-- The registers whose reads are unspecified while BUSY = 1 (R246). -/
def Reg.unspecifiedWhileBusy : Reg → Bool
  | .id => false
  | .ctrl => false
  | .cmd => false
  | .status => false
  | .errInfo => false
  | .stage => true
  | .inLen => false
  | .outLen => true
  | .outLimit => false
  | .nsym => true
  | .hdrLen => true
  | .payloadBits => true
  | .resid => true
  | .nodes => true
  | .inCap => false
  | .outCap => false
  | .freq _ => true
  | .codeLen _ => true
  | .codeBits _ _ => true

end Machine
end Sys2Proof
end

