-- ==== Sys2Proof/Machine/Ops.lean ====
section
/-! DEFINITION. The operations the commands share: memory, the bit packer and the bit reader
(40_common.md R143 to R145), invalidation and the stage wrapper (R137, R138), and the life of a command:
accept (R131), completion and the taking of an error (R133, R226). -/

namespace Sys2Proof.Machine

/-! ### Memory -/

/-- The byte written at address `a` since reset, if any. -/
def Memory.stored : Memory → Nat → Option Byte
  | [], _ => none
  | (k, v) :: m, a => if k = a then some v else Memory.stored m a

/-- The memory with byte `v` written at address `a`, addresses still rising. -/
def Memory.write : Memory → Nat → Byte → Memory
  | [], a, v => [(a, v)]
  | (k, x) :: m, a, v =>
    if a < k then (a, v) :: (k, x) :: m
    else if a = k then (a, v) :: m
    else (k, x) :: Memory.write m a v

/-- The bytes `vs` written from address `a` up, one at a time. -/
def Memory.writeBytes (m : Memory) (a : Nat) : List Byte → Memory
  | [] => m
  | v :: vs => Memory.writeBytes (Memory.write m a v) (a + 1) vs

/-- The canonical form: addresses strictly rising. An unlisted address has no stored byte, so no entry can
equal what an unlisted address holds (log 5). -/
def Memory.wf : Memory → Bool
  | [] => true
  | [_] => true
  | (a, _) :: (b, y) :: m => a < b && Memory.wf ((b, y) :: m)

/-- Every address written lies below the capacity. -/
def Memory.within (m : Memory) (cap : Nat) : Bool := m.all fun c => c.1 < cap

/-- The byte of IN_MEM at offset `a`: the one written there, or its reset draw (R46, R87). -/
def State.inByte (s : State) (a : Nat) : Byte :=
  (Memory.stored s.inMem a).getD (Config.inDraw s.resets a)

/-- The byte of OUT_MEM at offset `a`: the one written there, or its reset draw (R47, R87). -/
def State.outByte (s : State) (a : Nat) : Byte :=
  (Memory.stored s.outMem a).getD (Config.outDraw s.resets a)

/-- The input of a command, IN_MEM[0 .. IN_LEN-1] (R30). -/
def State.input (s : State) : List Byte := (List.range s.inLen.toNat).map s.inByte

/-! ### The bit packer and the bit reader -/

/-- The bytes `Pack(c, a)` writes (R143): most significant bit first, the last byte zero-padded. -/
def pack (c : Bits) : List Byte :=
  (List.range (ceil8 c.length)).map fun j => msbFirst 8 ((c.drop (8 * j)).take 8)

/-- `ReadBits(a, L)` over the bytes that `byte` gives (R144). -/
def readBits (byte : Nat → Byte) (a n : Nat) : Bits :=
  (List.range n).map fun i => (byte (a + i / 8)).getLsbD (7 - i % 8)

/-- The bit of IN_MEM at absolute bit index `x = 8·a + j` (R145). -/
def State.bitAt (s : State) (x : Nat) : Bool := (s.inByte (x / 8)).getLsbD (7 - x % 8)

/-! ### Products and invalidation (R137) -/

/-- Group FREQ. -/
def State.resetFreq (s : State) : State := { s with freq := Table.fill 0, nsym := 0 }

/-- Group TREE: "the arena is emptied". -/
def State.resetTree (s : State) : State := { s with root := none, arena := [] }

/-- Group CODE. -/
def State.resetCode (s : State) : State :=
  { s with codeLen := Table.fill CodeLen.absent, codeBits := Table.fill 0, order := [] }

/-- Group HDR. -/
def State.resetHdr (s : State) : State := { s with hdrLen := 0, outLen := 0 }

/-- Group PAY. -/
def State.resetPay (s : State) : State := { s with payloadBits := 0, resid := 0, outLen := 0 }

/-- `Invalidate(CLEAR)`, which ENC_FREQ and DEC_TABLE also make: STAGE <- 0 and every group reset. -/
def State.invalidateAll (s : State) : State :=
  { s.resetFreq.resetTree.resetCode.resetHdr.resetPay with stage := Stage.none }

/-- `Invalidate(op)` of a stage. -/
def State.invalidate (s : State) (op : StageOp) : State :=
  match op with
  | .encFreq => s.invalidateAll
  | .encTree =>
    { s.resetTree.resetCode.resetHdr.resetPay with stage := s.stage.invalidate .encTree }
  | .encCodes => { s.resetCode.resetHdr.resetPay with stage := s.stage.invalidate .encCodes }
  | .encHeader => { s.resetHdr.resetPay with stage := s.stage.invalidate .encHeader }
  | .encPayload => { s.resetPay with stage := s.stage.invalidate .encPayload }
  | .decTable => s.invalidateAll
  | .decTree => { s.resetTree.resetPay with stage := s.stage.invalidate .decTree }
  | .decPayload => { s.resetPay with stage := s.stage.invalidate .decPayload }

/-! ### Running stages -/

/-- What `Execute` gives (R135): the state it leaves, and the error it ended with, if any. -/
abbrev Result := State × Option Err

/-- The stage wrapper (R138): prerequisite, IN_LEN check, invalidation, body, and on a raise the
invalidation again. `body` answers the state it leaves and what it raised. -/
def runStage (op : StageOp) (body : State → State × Option Raise) (s : State) : Result :=
  if s.stage.meets op = false then
    (s, some { code := .sequence, op := op.opcode, info := s.stage.toWord.toNat })
  else if op.checksInLen && s.inCap.bytes < s.inLen.toNat then
    (s, some { code := .inLenRange, op := op.opcode, info := s.inLen.toNat })
  else
    match body (s.invalidate op) with
    | (t, some e) => (t.invalidate op, some { code := e.code, op := op.opcode, info := e.info })
    | (t, none) => ({ t with stage := t.stage.mark op }, none)

/-- The next stage of a composite runs only if no error was raised before it (R139). -/
def Result.andThen (r : Result) (next : State → Result) : Result :=
  match r with
  | (s, none) => next s
  | (s, some e) => (s, some e)

/-! ### The life of a command -/

/-- *Accept* of word `w` while idle (R131). -/
def State.accept (s : State) (w : Word) : State :=
  { s with cmdl := w
           limsnap := s.ctrl.limitEn
           status := { s.status with busy := true, done := false, err := false, errCode := 0, errOp := 0 }
           errInfo := 0 }

/-- What the completion step records of an error (R133, R226): the code, the opcode of the stage, and
`min(info, 0xFFFFFFFF)`. -/
def State.takeError (s : State) (e : Err) : State :=
  { s with status := { s.status with err := true, errCode := e.code.toByte, errOp := e.op }
           errInfo := BitVec.ofNat 32 (min e.info 0xFFFFFFFF) }

/-- `STATUS.BUSY <- 0; STATUS.DONE <- 1` (R133). -/
def State.finish (s : State) : State :=
  { s with status := { s.status with busy := false, done := true } }

/-- The state the completion step leaves (R133). -/
def Result.completed : Result → State
  | (s, none) => s.finish
  | (s, some e) => (s.takeError e).finish

/-- The completion step as an outcome of the machine (R133). -/
def complete (r : Result) : Host.Outcome State Fault Refusal := .next r.completed

/-- The error of an illegal word (R135, R212). -/
def illegalErr (w : Word) : Err :=
  { code := .illegalCmd, op := w.extractLsb' 0 8, info := w.toNat }

/-- The completion of an illegal command word `w`: "It changes no other state" (R103, R212). -/
def completeIllegal (w : Word) (s : State) : Host.Outcome State Fault Refusal :=
  complete (s, some (illegalErr w))

end Sys2Proof.Machine
end

