-- ==== Sys2Proof/Machine/Control.lean ====
section
/-! DEFINITION. The control commands NOP and CLEAR (40_common.md R141, R142). -/

namespace Sys2Proof.Machine

/-- NOP (R141): "`Execute` returns OK and does nothing else". -/
def execNop (s : State) : Host.Outcome State Fault Refusal := complete (s, none)

/-- CLEAR (R142): `Invalidate(CLEAR)`. -/
def execClear (s : State) : Host.Outcome State Fault Refusal := complete (s.invalidateAll, none)

end Sys2Proof.Machine
end

