-- ==== Sys2Proof/Machine/Decoder.lean ====
section
/-! DEFINITION. The decoder commands (42_decoder.md R180 to R183). Each body is the pseudocode of its
rule; `runStage` is the wrapper around it. -/

namespace Sys2Proof.Machine

/-! ### DEC_TABLE (R180) -/

/-- The loop over the entries still to read: `n` is the container's symbol count, the first argument how
many entries are left, `p` the offset of the next one. -/
def readEntries (n : Nat) : Nat → Nat → State → State × Option Raise
  | 0, p, s => ({ s with nsym := BitVec.ofNat 9 n, hdrLen := BitVec.ofNat 32 p }, none)
  | left + 1, p, s =>
    if s.inLen.toNat < p + 2 then (s, some { code := .fmtTruncated, info := p })
    else
      let sym := s.inByte p
      let len := (s.inByte (p + 1)).toNat
      if len = 0 ∧ n ≠ 1 then (s, some { code := .fmtCodeLen, info := p })
      else if s.inLen.toNat < p + 2 + ceil8 len then (s, some { code := .fmtTruncated, info := p })
      else if s.present sym then (s, some { code := .fmtDupSymbol, info := p })
      else
        let t := s.setCode sym (readBits s.inByte (p + 2) len)
        readEntries n left (p + 2 + ceil8 len) { t with order := t.order ++ [sym] }

/-- The body of DEC_TABLE. -/
def bodyDecTable (s : State) : State × Option Raise :=
  if s.inLen.toNat < 1 then (s, some { code := .fmtTruncated, info := 0 })
  else readEntries (s.inByte 0).toNat (s.inByte 0).toNat 1 s

/-! ### DEC_TREE (R181) -/

/-- An INTERNAL node with no child. -/
def bareNode : Node := .internal none none 0

/-- The arena with `child(k, b) <- v`. -/
def linkChild (ar : List Node) (k : Nat) (b : Bool) (v : Nat) : List Node :=
  match ar[k]? with
  | some nd => ar.set k (nd.setChild b v)
  | none => ar

/-- The walk of a code of one bit or more from entry `cur`, creating INTERNAL nodes along its path and a
LEAF at its end; `none` where it conflicts with an earlier code. The empty code does not come here. -/
def insertPath (sym : Byte) : Bits → Nat → List Node → Option (List Node)
  | [], _, ar => some ar
  | [b], cur, ar =>
    match childAt ar cur b with
    | some _ => none
    | none => some (linkChild (ar ++ [.leaf sym 0]) cur b ar.length)
  | b :: b' :: c, cur, ar =>
    match childAt ar cur b with
    | none => insertPath sym (b' :: c) ar.length (linkChild (ar ++ [bareNode]) cur b ar.length)
    | some nx =>
      match leafAt ar nx with
      | some _ => none
      | none => insertPath sym (b' :: c) nx ar

/-- The insertion of one (symbol, code) pair, from node 0. -/
def insertCode (ar : List Node) (sym : Byte) (c : Bits) : Option (List Node) :=
  match leafAt ar 0 with
  | some _ => none
  | none =>
    match c with
    | [] =>
      if (childAt ar 0 false).isNone && (childAt ar 0 true).isNone then some (ar.set 0 (.leaf sym 0))
      else none
    | b :: c => insertPath sym (b :: c) 0 ar

/-- The loop over ORDER; `i` is the position of the next symbol. It answers the arena it leaves and the
position of the code that failed, if one did. -/
def insertAll (s : State) : List Byte → Nat → List Node → List Node × Option Nat
  | [], _, ar => (ar, none)
  | sym :: rest, i, ar =>
    match insertCode ar sym (s.codeOf sym) with
    | none => (ar, some i)
    | some ar' => insertAll s rest (i + 1) ar'

/-- The body of DEC_TREE. -/
def bodyDecTree (s : State) : State × Option Raise :=
  let (ar, failed) := insertAll s s.order 0 [bareNode]
  ({ s with arena := ar, root := some 0 },
    match failed with
    | none => none
    | some i => some { code := .fmtPrefix, info := i })

/-! ### DEC_PAYLOAD (R182) -/

/-- `node[ROOT]`, if ROOT names a live LEAF: its symbol (log 11 for a ROOT that names no live entry). -/
def State.rootLeaf (s : State) : Option Byte :=
  match s.root with
  | some k => leafAt s.arena k
  | none => none

/-- `child(cur, b)`; there is no child of NIL (log 11). -/
def State.childOf (s : State) (cur : Option Nat) (b : Bool) : Option Nat :=
  match cur with
  | some k => childAt s.arena k b
  | none => none

/-- The loop of a leaf root: `k` copies of `sym`. It answers the memory, the count, and whether the output
would have passed OUT_CAP. -/
def emitCopies (cap : Nat) (sym : Byte) : Nat → Nat → Memory → Memory × Nat × Bool
  | 0, count, m => (m, count, false)
  | k + 1, count, m =>
    if count = cap then (m, count, true)
    else emitCopies cap sym k (count + 1) (Memory.write m count sym)

/-- The variables of the payload walk. -/
structure Walk where
  /-- OUT_MEM. -/
  out      : Memory
  count    : Nat
  cur      : Option Nat
  depth    : Nat
  examined : Nat
  deriving DecidableEq, Repr

/-- The bits of the payload still to read, from absolute bit index `x` (R145). -/
def walkPayload (s : State) : Nat → Nat → Walk → Walk × Option Raise
  | 0, _, w => (w, none)
  | left + 1, x, w =>
    if s.limsnap && w.count == s.outLimit.toNat then (w, none)
    else
      match s.childOf w.cur (s.bitAt x) with
      | none =>
        ({ w with examined := w.examined + 1 }, some { code := .malformedTraversal, info := x })
      | some nx =>
        match leafAt s.arena nx with
        | some sym =>
          if w.count = s.outCap.bytes then
            ({ w with examined := w.examined + 1 }, some { code := .outOverflow, info := x })
          else
            walkPayload s left (x + 1)
              { out := Memory.write w.out w.count sym, count := w.count + 1, cur := s.root, depth := 0,
                examined := w.examined + 1 }
        | none =>
          walkPayload s left (x + 1)
            { w with cur := some nx, depth := w.depth + 1, examined := w.examined + 1 }

/-- The body of DEC_PAYLOAD for a leaf root. -/
def bodyLeafRoot (s : State) (sym : Byte) : State × Option Raise :=
  let copies := if s.limsnap then s.outLimit.toNat else 0
  match emitCopies s.outCap.bytes sym copies 0 s.outMem with
  | (m, _, true) => ({ s with outMem := m }, some { code := .outOverflow, info := 8 * s.hdrLen.toNat })
  | (m, count, false) =>
    ({ s with outMem := m, outLen := BitVec.ofNat 32 count, payloadBits := 0, resid := 0 }, none)

/-- The body of DEC_PAYLOAD. -/
def bodyDecPayload (s : State) : State × Option Raise :=
  match s.rootLeaf with
  | some sym => bodyLeafRoot s sym
  | none =>
    let w0 : Walk := { out := s.outMem, count := 0, cur := s.root, depth := 0, examined := 0 }
    match walkPayload s (8 * (s.inLen.toNat - s.hdrLen.toNat)) (8 * s.hdrLen.toNat) w0 with
    | (w, some e) => ({ s with outMem := w.out }, some e)
    | (w, none) =>
      ({ s with outMem := w.out
                outLen := BitVec.ofNat 32 w.count
                payloadBits := BitVec.ofNat 32 w.examined
                resid := BitVec.ofNat 32 w.depth }, none)

/-! ### The commands -/

/-- `RunStage(DEC_TABLE)`. -/
def stageDecTable (s : State) : Result := runStage .decTable bodyDecTable s

/-- `RunStage(DEC_TREE)`. -/
def stageDecTree (s : State) : Result := runStage .decTree bodyDecTree s

/-- `RunStage(DEC_PAYLOAD)`. -/
def stageDecPayload (s : State) : Result := runStage .decPayload bodyDecPayload s

/-- The three stages of DECODE, up to the first that raises (R183, R139). -/
def runDecode (s : State) : Result :=
  ((stageDecTable s).andThen stageDecTree).andThen stageDecPayload

/-- DEC_TABLE (R180). -/
def execDecTable (s : State) : Host.Outcome State Fault Refusal := complete (stageDecTable s)

/-- DEC_TREE (R181). -/
def execDecTree (s : State) : Host.Outcome State Fault Refusal := complete (stageDecTree s)

/-- DEC_PAYLOAD (R182). -/
def execDecPayload (s : State) : Host.Outcome State Fault Refusal := complete (stageDecPayload s)

/-- DECODE (R183). -/
def execDecode (s : State) : Host.Outcome State Fault Refusal := complete (runDecode s)

end Sys2Proof.Machine
end

