-- ==== Sys2Proof/Machine/Encoder.lean ====
section
/-! DEFINITION. The encoder commands (41_encoder.md R150 to R158). Each body is the pseudocode of its
rule; `runStage` is the wrapper around it. -/

namespace Sys2Proof.Machine

/-! ### ENC_FREQ (R150) -/

/-- `FREQ[s] <- FREQ[s] + 1`. -/
def countSymbol (t : Table Word) (sym : Byte) : Table Word := t.put sym (t.at sym + 1)

/-- `|{ s in 0..255 : FREQ[s] > 0 }|`. -/
def distinctCount (t : Table Word) : Nat := symbols.countP fun sym => t.at sym != 0

/-- The body of ENC_FREQ. -/
def bodyEncFreq (s : State) : State × Option Raise :=
  let t := s.input.foldl countSymbol s.freq
  ({ s with freq := t, nsym := BitVec.ofNat 9 (distinctCount t) }, none)

/-! ### ENC_TREE (R151, R152) -/

/-- The weight of entry `k`. -/
def weightAt (ar : List Node) (k : Nat) : Word :=
  match ar[k]? with
  | some nd => nd.freq
  | none => 0

/-- `key(p) < key(q)` with `key(k) = (node[k].freq, k)`, compared lexicographically (R151). -/
def keyLess (ar : List Node) (p q : Nat) : Bool :=
  (weightAt ar p).toNat < (weightAt ar q).toNat ||
    ((weightAt ar p).toNat == (weightAt ar q).toNat && p < q)

/-- The one of `m` and the listed indices that has the smallest key (R151). -/
def smallestKey (ar : List Node) (m : Nat) : List Nat → Nat
  | [] => m
  | q :: qs => smallestKey ar (if keyLess ar q m then q else m) qs

/-- `a <- the q in Q with the smallest key(q); Q <- Q \ {a}`; nothing where Q is empty. -/
def extractMin (ar : List Node) : List Nat → Option (Nat × List Nat)
  | [] => none
  | q :: qs => some (smallestKey ar q qs, (q :: qs).erase (smallestKey ar q qs))

/-- `while |Q| > 1`: the arena with every merge made. `fuel` bounds the number of merges; `|Q|` is enough
(log 11). -/
def mergeNodes : Nat → List Node → List Nat → List Node
  | 0, ar, _ => ar
  | fuel + 1, ar, q =>
    match extractMin ar q with
    | none => ar
    | some (a, q1) =>
      match extractMin ar q1 with
      | none => ar
      | some (b, q2) =>
        mergeNodes fuel (ar ++ [.internal (some a) (some b) (weightAt ar a + weightAt ar b)])
          (q2 ++ [ar.length])

/-- The LEAF of a symbol of the mapping. -/
def leafOf (freq : Table Word) (sym : Byte) : Node := .leaf sym (freq.at sym)

/-- The symbols of the mapping, ascending: `[ s in 0..255 ascending : FREQ[s] > 0 ]` (R40, R152). -/
def mappedSymbols (freq : Table Word) : List Byte := symbols.filter fun sym => freq.at sym != 0

/-- The arena and ROOT of the mapping. -/
def buildTree (freq : Table Word) : List Node × Option Nat :=
  let leaves := (mappedSymbols freq).map (leafOf freq)
  match leaves with
  | [] => ([], none)
  | [l] => ([l, .internal (some 0) none l.freq], some 1)
  | _ =>
    let ar := mergeNodes leaves.length leaves (List.range leaves.length)
    (ar, some (ar.length - 1))

/-- The body of ENC_TREE. -/
def bodyEncTree (s : State) : State × Option Raise :=
  ({ s with arena := (buildTree s.freq).1, root := (buildTree s.freq).2 }, none)

/-! ### ENC_CODES (R154) -/

/-- `Walk(k, p)`. `fuel` bounds the depth; the number of live entries is enough for a tree (log 11). -/
def walkCodes (ar : List Node) : Nat → Nat → Bits → State → State
  | 0, _, _, s => s
  | fuel + 1, k, p, s =>
    match ar[k]? with
    | none => s
    | some (.leaf sym _) => s.setCode sym p
    | some (.internal l r _) =>
      let s1 := l.elim s fun x => walkCodes ar fuel x (p ++ [false]) s
      r.elim s1 fun x => walkCodes ar fuel x (p ++ [true]) s1

/-- The body of ENC_CODES. -/
def bodyEncCodes (s : State) : State × Option Raise :=
  match s.root with
  | none => (s, none)
  | some k => (walkCodes s.arena s.arena.length k [] s, none)

/-! ### ENC_HEADER (R156) -/

/-- `2 + ceil8(CODE_LEN[s])`, the size of an entry (R108). -/
def State.entrySize (s : State) (sym : Byte) : Nat := 2 + ceil8 (s.codeLen.at sym).len.toNat

/-- The header's size: `1 + Σ over s with PRESENT[s] = 1 of (2 + ceil8(CODE_LEN[s]))`. -/
def State.headerSize (s : State) : Nat := 1 + (s.presentSymbols.map s.entrySize).sum

/-- One entry written at offset `p`: symbol, code_length, code bits; answers the memory and the next
offset. -/
def writeEntry (s : State) (mp : Memory × Nat) (sym : Byte) : Memory × Nat :=
  let m1 := Memory.write mp.1 mp.2 sym
  let m2 := Memory.write m1 (mp.2 + 1) (s.codeLen.at sym).len
  let code := pack (s.codeOf sym)
  (Memory.writeBytes m2 (mp.2 + 2) code, mp.2 + 2 + code.length)

/-- The body of ENC_HEADER. -/
def bodyEncHeader (s : State) : State × Option Raise :=
  if 255 < s.nsym.toNat then (s, some { code := .symbolOverflow, info := s.nsym.toNat })
  else if s.outCap.bytes < s.headerSize then
    (s, some { code := .outOverflow, info := s.headerSize })
  else
    let m0 := Memory.write s.outMem 0 (s.nsym.setWidth 8)
    let (m, p) := s.presentSymbols.foldl (writeEntry s) (m0, 1)
    ({ s with outMem := m, hdrLen := BitVec.ofNat 32 p, outLen := BitVec.ofNat 32 p }, none)

/-! ### ENC_PAYLOAD (R157) -/

/-- The codes of the input bytes, concatenated in input order. -/
def State.payload (s : State) : Bits := s.input.flatMap s.codeOf

/-- The body of ENC_PAYLOAD. -/
def bodyEncPayload (s : State) : State × Option Raise :=
  let nbits := s.payload.length
  let nbytes := ceil8 nbits
  let total := s.hdrLen.toNat + nbytes
  if s.outCap.bytes < total then (s, some { code := .outOverflow, info := total })
  else
    ({ s with outMem := Memory.writeBytes s.outMem s.hdrLen.toNat (pack s.payload)
              payloadBits := BitVec.ofNat 32 nbits
              resid := BitVec.ofNat 32 (8 * nbytes - nbits)
              outLen := BitVec.ofNat 32 total }, none)

/-! ### The commands -/

/-- `RunStage(ENC_FREQ)`. -/
def stageEncFreq (s : State) : Result := runStage .encFreq bodyEncFreq s

/-- `RunStage(ENC_TREE)`. -/
def stageEncTree (s : State) : Result := runStage .encTree bodyEncTree s

/-- `RunStage(ENC_CODES)`. -/
def stageEncCodes (s : State) : Result := runStage .encCodes bodyEncCodes s

/-- `RunStage(ENC_HEADER)`. -/
def stageEncHeader (s : State) : Result := runStage .encHeader bodyEncHeader s

/-- `RunStage(ENC_PAYLOAD)`. -/
def stageEncPayload (s : State) : Result := runStage .encPayload bodyEncPayload s

/-- The five stages of ENCODE, up to the first that raises (R158, R139). -/
def runEncode (s : State) : Result :=
  ((((stageEncFreq s).andThen stageEncTree).andThen stageEncCodes).andThen stageEncHeader).andThen
    stageEncPayload

/-- ENC_FREQ (R150). -/
def execEncFreq (s : State) : Host.Outcome State Fault Refusal := complete (stageEncFreq s)

/-- ENC_TREE (R152). -/
def execEncTree (s : State) : Host.Outcome State Fault Refusal := complete (stageEncTree s)

/-- ENC_CODES (R154). -/
def execEncCodes (s : State) : Host.Outcome State Fault Refusal := complete (stageEncCodes s)

/-- ENC_HEADER (R156). -/
def execEncHeader (s : State) : Host.Outcome State Fault Refusal := complete (stageEncHeader s)

/-- ENC_PAYLOAD (R157). -/
def execEncPayload (s : State) : Host.Outcome State Fault Refusal := complete (stageEncPayload s)

/-- ENCODE (R158). -/
def execEncode (s : State) : Host.Outcome State Fault Refusal := complete (runEncode s)

end Sys2Proof.Machine
end

