-- ==== Sys2Proof/Machine/Dispatch.lean ====
section
/-! DEFINITION. The dispatch of a command to its meaning (40_common.md R135). -/

namespace Sys2Proof.Machine

def exec (i : Instr) (s : State) : Host.Outcome State Fault Refusal :=
  match i with
  | .nop => Sys2Proof.Machine.execNop s
  | .clear => Sys2Proof.Machine.execClear s
  | .encFreq => Sys2Proof.Machine.execEncFreq s
  | .encTree => Sys2Proof.Machine.execEncTree s
  | .encCodes => Sys2Proof.Machine.execEncCodes s
  | .encHeader => Sys2Proof.Machine.execEncHeader s
  | .encPayload => Sys2Proof.Machine.execEncPayload s
  | .encode => Sys2Proof.Machine.execEncode s
  | .decTable => Sys2Proof.Machine.execDecTable s
  | .decTree => Sys2Proof.Machine.execDecTree s
  | .decPayload => Sys2Proof.Machine.execDecPayload s
  | .decode => Sys2Proof.Machine.execDecode s

end Sys2Proof.Machine
end

