-- ==== Sys2Proof/Machine/Port.lean ====
section
/-! DEFINITION. The host port (20_memory.md R70 to R80, 70_reset_and_hazards.md R246, R247): reads and
writes of the register region, IN_MEM and OUT_MEM, with their responses; and reset (R240). -/

namespace Sys2Proof.Machine

/-- The number of bytes of an access (R70). -/
def Size.bytes : Size → Nat
  | .b1 => 1
  | .b2 => 2
  | .b4 => 4

/-- The regions of the host address space (R71). -/
inductive Region where
  | reg
  | input
  | output
  | absent
  deriving DecidableEq, Repr

/-- The region that `addr[31:30]` selects (R71). -/
def regionOf (addr : Word) : Region :=
  match (addr.extractLsb' 30 2).toNat with
  | 0 => .reg
  | 1 => .input
  | 2 => .output
  | _ => .absent

/-- The offset of an address in its region (R71). -/
def offsetOf (addr : Word) : Nat := (addr.extractLsb' 0 30).toNat

/-- In region REG "only 4-byte accesses at 4-byte-aligned addresses are legal" (R72). -/
def regAccessLegal (size : Size) (off : Nat) : Bool := size == .b4 && off % 4 == 0

/-- In regions IN and OUT: naturally aligned, and `a + n` within the capacity (R74, R75). -/
def memAccessLegal (cap : Nat) (size : Size) (off : Nat) : Bool :=
  off % size.bytes == 0 && off + size.bytes ≤ cap

/-- The word of at most four bytes, the first in bits 7:0, the bits above the last one 0 (R77, R70). -/
def littleEndian : List Byte → Word
  | [] => 0
  | b :: bs => b.setWidth 32 ||| (littleEndian bs <<< 8)

/-- The `n` bytes a write of `w` stores, lowest address first (R77). -/
def bytesOfWord (n : Nat) (w : Word) : List Byte :=
  (List.range n).map fun k => w.extractLsb' (8 * k) 8

/-- The low `n` bytes of a word, the rest 0 (R70). -/
def lowBytes (n : Nat) (w : Word) : Word := littleEndian (bytesOfWord n w)

/-- The port answers `r`. -/
def State.answer (s : State) (r : Reply) : State := { s with reply := some r }

/-- An unspecified read answers a fresh draw (R246), of the size read (R70, log 7). -/
def State.answerDraw (s : State) (size : Size) : State :=
  { s with reply := some (.data (lowBytes size.bytes (Config.busyRead s.draws))), draws := s.draws + 1 }

/-- A host write dropped because BUSY = 1: OKAY, and WR_BUSY is set (R132, R225, R247). -/
def State.dropWrite (s : State) : State :=
  { s with status := { s.status with wrBusy := true }, reply := some .okay }

/-- A read of the register region (R72, R73, R39, R246). -/
def readRegion (size : Size) (off : Nat) (s : State) : State :=
  if regAccessLegal size off then
    match regAt off with
    | none => s.answer (.data 0)
    | some r =>
      if s.status.busy && r.unspecifiedWhileBusy then s.answerDraw size
      else s.answer (.data (s.readReg r))
  else s.answer .busErr

/-- A legal write of `v` to register `r` (R25 to R32, R73, R80, R131, R132, R247). -/
def writeReg (r : Reg) (v : Word) (s : State) : State :=
  match r with
  | .ctrl => { s with ctrl := Ctrl.ofWord v, reply := some .okay }
  | .cmd => if s.status.busy then s.dropWrite else (s.accept v).answer .okay
  | .status => { s with status := s.status.acknowledge v, reply := some .okay }
  | .inLen =>
    if s.status.busy then s.dropWrite
    else { s with inLen := v, stage := Stage.none, reply := some .okay }
  | .outLimit =>
    if s.status.busy then s.dropWrite else { s with outLimit := v, reply := some .okay }
  | .id => s.answer .okay
  | .errInfo => s.answer .okay
  | .stage => s.answer .okay
  | .outLen => s.answer .okay
  | .nsym => s.answer .okay
  | .hdrLen => s.answer .okay
  | .payloadBits => s.answer .okay
  | .resid => s.answer .okay
  | .nodes => s.answer .okay
  | .inCap => s.answer .okay
  | .outCap => s.answer .okay
  | .freq _ => s.answer .okay
  | .codeLen _ => s.answer .okay
  | .codeBits _ _ => s.answer .okay

/-- A write to the register region (R72, R39). -/
def writeRegion (size : Size) (off : Nat) (v : Word) (s : State) : State :=
  if regAccessLegal size off then
    match regAt off with
    | none => s.answer .okay
    | some r => writeReg r v s
  else s.answer .busErr

/-- A read of IN_MEM (R74, R77). -/
def readIn (size : Size) (off : Nat) (s : State) : State :=
  if memAccessLegal s.inCap.bytes size off then
    s.answer (.data (littleEndian ((List.range size.bytes).map fun k => s.inByte (off + k))))
  else s.answer .busErr

/-- A write to IN_MEM, which clears STAGE, or is dropped while busy (R74, R77, R80, R247). -/
def writeIn (size : Size) (off : Nat) (v : Word) (s : State) : State :=
  if memAccessLegal s.inCap.bytes size off then
    if s.status.busy then s.dropWrite
    else
      { s with inMem := Memory.writeBytes s.inMem off (bytesOfWord size.bytes v)
               stage := Stage.none
               reply := some .okay }
  else s.answer .busErr

/-- A read of OUT_MEM, unspecified while busy (R75, R77, R246). -/
def readOut (size : Size) (off : Nat) (s : State) : State :=
  if memAccessLegal s.outCap.bytes size off then
    if s.status.busy then s.answerDraw size
    else s.answer (.data (littleEndian ((List.range size.bytes).map fun k => s.outByte (off + k))))
  else s.answer .busErr

/-- One host transaction (R70 to R76). -/
def transact (t : Txn) (s : State) : State :=
  match t with
  | .read size addr =>
    match regionOf addr with
    | .reg => readRegion size (offsetOf addr) s
    | .input => readIn size (offsetOf addr) s
    | .output => readOut size (offsetOf addr) s
    | .absent => s.answer .busErr
  | .write size addr v =>
    match regionOf addr with
    | .reg => writeRegion size (offsetOf addr) v s
    | .input => writeIn size (offsetOf addr) v s
    | .output => s.answer .busErr
    | .absent => s.answer .busErr

/-- Reset (R240, R241): the state of R49, for the same instance, with memory drawn anew. The moves still to
come and the number of the next unspecified read are the environment's and go on (log 6). -/
def resetMachine (s : State) : State :=
  { State.reset with inCap := s.inCap
                     outCap := s.outCap
                     inputs := s.inputs
                     draws := s.draws
                     resets := s.resets + 1 }

end Sys2Proof.Machine
end

