-- ==== Sys2Proof/Machine/Step.lean ====
section
/-! DEFINITION. One step of the machine: one move of one of its agents (10_state.md R20,
20_memory.md R82), and how a command word is put in place for the engine to run. -/

namespace Sys2Proof.Machine

/-- The engine's completion step of the command latched in CMDL (40_common.md R133, R135). -/
def engineStep (s : State) : Host.Outcome State Fault Refusal :=
  match decode s.cmdl with
  | .ok i => exec i s
  | .error _ => completeIllegal s.cmdl s

/-- The engine's turn: its step is enabled only while BUSY = 1 (R130, R133); idle, nothing happens (log 2). -/
def engineTurn (s : State) : Host.Outcome State Fault Refusal :=
  if s.status.busy then engineStep s else .next s

/-- One step. The next move of the environment is taken. When none is left, a command in flight completes
(R134, weak fairness), and an idle machine waits (R130). Log 1, log 2. -/
def step (s : State) : Host.Outcome State Fault Refusal :=
  match s.inputs with
  | [] => engineTurn s
  | .host t :: rest => .next (transact t { s with inputs := rest })
  | .engine :: rest => engineTurn { s with inputs := rest }
  | .reset :: rest => .next (resetMachine { s with inputs := rest })

/-- `s` with the word accepted as a command (R131) and the engine's completion step as the next move, so
that the next step runs it (log 3). -/
def State.withFetchWord (s : State) (nbits w : Nat) : State :=
  { s.accept (tableWord nbits w) with inputs := .engine :: s.inputs }

end Sys2Proof.Machine
end

