-- ==== Sys2Proof/Machine/HostProgram.lean ====
section
/-! DEFINITION. Host programs (30_encoding.md R114, R115): every form as the list of moves it stands for.
The loops and reads of WAIT and COPYOUT are expanded for the interleaving and the state at hand (log 17). -/

namespace Sys2Proof.Machine.HostProgram

/-- The base of region IN (R71). -/
def inBase : Nat := 0x40000000

/-- The base of region OUT (R71). -/
def outBase : Nat := 0x80000000

/-- `W32 <reg>, <v>` (R114). -/
def w32 (r : Reg) (v : Word) : Input := .host (.write .b4 (BitVec.ofNat 32 r.offset) v)

/-- `R32 <reg>` (R114). -/
def r32 (r : Reg) : Input := .host (.read .b4 (BitVec.ofNat 32 r.offset))

/-- `W32 / W16 / W8 IN+<a>, <v>` (R114). -/
def writeIn (size : Size) (a : Nat) (v : Word) : Input :=
  .host (.write size (BitVec.ofNat 32 (inBase + a)) v)

/-- `R32 / R16 / R8 IN+<a>` (R114). -/
def readIn (size : Size) (a : Nat) : Input := .host (.read size (BitVec.ofNat 32 (inBase + a)))

/-- `R32 / R16 / R8 OUT+<a>` (R114). -/
def readOut (size : Size) (a : Nat) : Input := .host (.read size (BitVec.ofNat 32 (outBase + a)))

/-- `W<n> @<addr>, <v>` (R114). -/
def writeRaw (size : Size) (addr v : Word) : Input := .host (.write size addr v)

/-- `R<n> @<addr>` (R114). -/
def readRaw (size : Size) (addr : Word) : Input := .host (.read size addr)

/-- `CMD <mnemonic>` (R115, R116). -/
def cmd (i : Instr) : Input := w32 .cmd (encode i)

/-- `STEP` (R115). -/
def step : Input := .engine

/-- `WAIT` (R115) in the interleaving in which the completion step comes after `polls` polls. -/
def wait (polls : Nat) : List Input := List.replicate polls (r32 .status) ++ [step, r32 .status]

/-- The byte writes of LOAD and COPYOUT, from offset `a`. -/
def writeBytes (a : Nat) : List Byte → List Input
  | [] => []
  | b :: bs => writeIn .b1 a (b.setWidth 32) :: writeBytes (a + 1) bs

/-- `LOAD "<bytes>"` (R115). -/
def load (bytes : List Byte) : List Input :=
  writeBytes 0 bytes ++ [w32 .inLen (BitVec.ofNat 32 bytes.length)]

/-- The reads and writes of COPYOUT: for each byte, `R8 OUT+i` then `W8 IN+i` with the value read. -/
def copyBytes (a : Nat) : List Byte → List Input
  | [] => []
  | b :: bs => readOut .b1 a :: writeIn .b1 a (b.setWidth 32) :: copyBytes (a + 1) bs

/-- `COPYOUT` (R115) from a state in which it is issued while idle: OUT_LEN is read once, first. -/
def copyOut (s : State) : List Input :=
  r32 .outLen :: copyBytes 0 ((List.range s.outLen.toNat).map s.outByte) ++ [w32 .inLen s.outLen]

/-- `ACK` (R115): clears DONE, ERR and WR_BUSY. -/
def ack : Input := w32 .status 0x0000000E

end Sys2Proof.Machine.HostProgram
end

