-- ==== Sys2Proof/Safety.lean ====
section
/-! DEFINITION. The terms in which claims about the machine are made: what a command leaves alone, the
invariants that every reachable state meets, and the words for trees, codes and containers. -/

namespace Sys2Proof.Machine

/-! ### Frames -/

/-- What no command writes (R79, R137: "OUT_MEM, IN_MEM, IN_LEN, OUT_LIMIT and CTRL are never products"; R43,
R38): everything but the products, OUT_MEM, STAGE, STATUS and ERR_INFO. -/
structure HostSideKept (s t : State) : Prop where
  ctrl     : t.ctrl = s.ctrl
  inLen    : t.inLen = s.inLen
  outLimit : t.outLimit = s.outLimit
  inCap    : t.inCap = s.inCap
  outCap   : t.outCap = s.outCap
  cmdl     : t.cmdl = s.cmdl
  limsnap  : t.limsnap = s.limsnap
  inMem    : t.inMem = s.inMem
  inputs   : t.inputs = s.inputs
  reply    : t.reply = s.reply
  draws    : t.draws = s.draws
  resets   : t.resets = s.resets

/-- Every byte of OUT_MEM reads in `t` as in `s`, except those at the offsets in `[lo, hi)`. -/
def OutKeptOutside (s t : State) (lo hi : Nat) : Prop :=
  ∀ a, a < lo ∨ hi ≤ a → t.outByte a = s.outByte a

/-- Every byte of OUT_MEM reads in `t` as in `s`. -/
def OutKept (s t : State) : Prop := ∀ a, t.outByte a = s.outByte a

/-- The products of group FREQ are the same in both states (R137). -/
structure FreqKept (s t : State) : Prop where
  freq : t.freq = s.freq
  nsym : t.nsym = s.nsym

/-- The products of group TREE are the same in both states (R137). -/
structure TreeKept (s t : State) : Prop where
  arena : t.arena = s.arena
  root  : t.root = s.root

/-- The products of group CODE are the same in both states (R137). -/
structure CodeKept (s t : State) : Prop where
  codeLen  : t.codeLen = s.codeLen
  codeBits : t.codeBits = s.codeBits
  order    : t.order = s.order

/-- The products of group FREQ are at their reset values (R137). -/
structure State.FreqReset (s : State) : Prop where
  freq : ∀ sym, s.freq.at sym = 0
  nsym : s.nsym = 0

/-- The products of group TREE are at their reset values (R137). -/
structure State.TreeReset (s : State) : Prop where
  nodes : s.nodes = 0
  root  : s.root = none

/-- The products of group CODE are at their reset values (R137). -/
structure State.CodeReset (s : State) : Prop where
  codeLen  : ∀ sym, s.codeLen.at sym = { len := 0, present := false }
  codeBits : ∀ sym, s.codeBits.at sym = 0
  order    : s.order = []

/-- The products of group PAY are at their reset values (R137). -/
structure State.PayReset (s : State) : Prop where
  payloadBits : s.payloadBits = 0
  resid       : s.resid = 0
  outLen      : s.outLen = 0

/-- The products of groups HDR and PAY are at their reset values (R137). -/
structure State.OutputReset (s : State) : Prop where
  hdrLen : s.hdrLen = 0
  pay    : s.PayReset

/-- The STATUS a command leaves that ends without error (R133). -/
def Status.completedOk (t : Status) : Status := { t with busy := false, done := true }

/-- The STATUS a command leaves that ends with an error (R133, R226). -/
def Status.completedErr (t : Status) (code : ErrCode) (op : Byte) : Status :=
  { t with busy := false, done := true, err := true, errCode := code.toByte, errOp := op }

/-- The command that took `s` to `t` ended without error (R133), and wrote nothing of the host's side. -/
structure EndsOk (s t : State) : Prop where
  host    : HostSideKept s t
  status  : t.status = s.status.completedOk
  errInfo : t.errInfo = s.errInfo

/-- `exec` ends with the error `code` of `op` and `info`, and the state it leaves is otherwise `u`
(R133, R226). -/
def EndsWithError (o : Host.Outcome State Fault Refusal) (u : State) (code : ErrCode) (op : Byte)
    (info : Nat) : Prop :=
  o = .next { u with status := u.status.completedErr code op
                     errInfo := BitVec.ofNat 32 (min info 0xFFFFFFFF) }

/-- The stage a stage command runs (R136). -/
def stageOf : Instr → Option StageOp
  | .nop => none
  | .clear => none
  | .encFreq => some .encFreq
  | .encTree => some .encTree
  | .encCodes => some .encCodes
  | .encHeader => some .encHeader
  | .encPayload => some .encPayload
  | .encode => none
  | .decTable => some .decTable
  | .decTree => some .decTree
  | .decPayload => some .decPayload
  | .decode => none

/-- The codes and ERR_OPs a command can end with (R211 and the exceptions of R150 to R183). -/
def errorsOf : Instr → List (ErrCode × Byte)
  | .nop => []
  | .clear => []
  | .encFreq => [(.inLenRange, 0x10)]
  | .encTree => [(.sequence, 0x11)]
  | .encCodes => [(.sequence, 0x12)]
  | .encHeader => [(.sequence, 0x13), (.symbolOverflow, 0x13), (.outOverflow, 0x13)]
  | .encPayload => [(.sequence, 0x14), (.outOverflow, 0x14)]
  | .encode => [(.inLenRange, 0x10), (.symbolOverflow, 0x13), (.outOverflow, 0x13), (.outOverflow, 0x14)]
  | .decTable => [(.inLenRange, 0x20), (.fmtTruncated, 0x20), (.fmtCodeLen, 0x20), (.fmtDupSymbol, 0x20)]
  | .decTree => [(.sequence, 0x21), (.fmtPrefix, 0x21)]
  | .decPayload => [(.sequence, 0x22), (.malformedTraversal, 0x22), (.outOverflow, 0x22)]
  | .decode => [(.inLenRange, 0x20), (.fmtTruncated, 0x20), (.fmtCodeLen, 0x20), (.fmtDupSymbol, 0x20),
      (.fmtPrefix, 0x21), (.malformedTraversal, 0x22), (.outOverflow, 0x22)]

/-- Commands completed one after the other, up to the first that records an error (R139). -/
def execChain : List Instr → State → Host.Outcome State Fault Refusal
  | [], s => .next s
  | i :: is, s =>
    match exec i s with
    | .next t => if t.status.err then .next t else execChain is t
    | .fault r => .fault r
    | .refused r => .refused r

/-! ### The host port -/

/-- The transactions R72 to R76 refuse, by the address ranges of R71. -/
def State.Refuses (s : State) : Txn → Prop
  | .read size addr =>
    (addr.toNat < 0x40000000 ∧ ¬ (size = .b4 ∧ addr.toNat % 4 = 0)) ∨
    (0x40000000 ≤ addr.toNat ∧ addr.toNat < 0x80000000 ∧
      (addr.toNat % size.bytes ≠ 0 ∨ s.inCap.bytes < addr.toNat - 0x40000000 + size.bytes)) ∨
    (0x80000000 ≤ addr.toNat ∧ addr.toNat < 0xC0000000 ∧
      (addr.toNat % size.bytes ≠ 0 ∨ s.outCap.bytes < addr.toNat - 0x80000000 + size.bytes)) ∨
    0xC0000000 ≤ addr.toNat
  | .write size addr _ =>
    (addr.toNat < 0x40000000 ∧ ¬ (size = .b4 ∧ addr.toNat % 4 = 0)) ∨
    (0x40000000 ≤ addr.toNat ∧ addr.toNat < 0x80000000 ∧
      (addr.toNat % size.bytes ≠ 0 ∨ s.inCap.bytes < addr.toNat - 0x40000000 + size.bytes)) ∨
    0x80000000 ≤ addr.toNat

/-- A 4-byte write of `v` to a register (R114). -/
def writesReg (r : Reg) (v : Word) : Txn := .write .b4 (BitVec.ofNat 32 r.offset) v

/-- A 4-byte read of a register (R114). -/
def readsReg (r : Reg) : Txn := .read .b4 (BitVec.ofNat 32 r.offset)

/-- An access of IN_MEM at offset `a` (R71). -/
def inAddr (a : Nat) : Word := BitVec.ofNat 32 (0x40000000 + a)

/-- An access of OUT_MEM at offset `a` (R71). -/
def outAddr (a : Nat) : Word := BitVec.ofNat 32 (0x80000000 + a)

/-! ### Trees and codes -/

/-- The entry reached from entry `k` along the bits of a path, left for 0 and right for 1 (R44). -/
def follow (ar : List Node) (k : Nat) : Bits → Option Nat
  | [] => some k
  | b :: p =>
    match childAt ar k b with
    | some x => follow ar x p
    | none => none

/-- The path `p` leads from entry `k` to a LEAF of `sym`. -/
def LeadsTo (ar : List Node) (k : Nat) (p : Bits) (sym : Byte) : Prop :=
  ∃ x, follow ar k p = some x ∧ leafAt ar x = some sym

/-- `p` is the path of bits from ROOT to a LEAF of `sym`. -/
def State.LeafPath (s : State) (p : Bits) (sym : Byte) : Prop :=
  ∃ r, s.root = some r ∧ LeadsTo s.arena r p sym

/-- `p` is a path of bits from ROOT to entry `k`, which is no LEAF. -/
def State.InnerPath (s : State) (p : Bits) (k : Nat) : Prop :=
  ∃ r, s.root = some r ∧ follow s.arena r p = some k ∧ leafAt s.arena k = none

/-- `key(p) < key(q)`, the order of nodes (R151). -/
def KeyBefore (ar : List Node) (p q : Nat) : Prop :=
  (weightAt ar p).toNat < (weightAt ar q).toNat ∨
    ((weightAt ar p).toNat = (weightAt ar q).toNat ∧ p < q)

/-- Entry `j` is in `Q` when entry `k` is made: it was made before, and no entry before `k` has it as a child
(R152). -/
def Waiting (ar : List Node) (k j : Nat) : Prop :=
  j < k ∧ ∀ m b, m < k → childAt ar m b ≠ some j

/-- The arena of a mapping with two symbols or more (R152): the leaves ascending, then one INTERNAL entry per
merge, of the two entries of `Q` with the smallest keys, the smaller one left. -/
structure MergeTree (freq : Table Word) (ar : List Node) : Prop where
  nodes  : ar.length = 2 * (mappedSymbols freq).length - 1
  leaves : ∀ j (h : j < (mappedSymbols freq).length),
    ar[j]? = some (.leaf (mappedSymbols freq)[j] (freq.at (mappedSymbols freq)[j]))
  merges : ∀ k, (mappedSymbols freq).length ≤ k → k < ar.length → ∃ a b,
    ar[k]? = some (.internal (some a) (some b) (weightAt ar a + weightAt ar b)) ∧
    Waiting ar k a ∧ Waiting ar k b ∧ a ≠ b ∧
    (∀ j, Waiting ar k j → j ≠ a → KeyBefore ar a j) ∧
    (∀ j, Waiting ar k j → j ≠ a → j ≠ b → KeyBefore ar b j)

/-- The symbols that occur in the input, ascending: the mapping's symbols (R40, R150). -/
def State.inputSymbols (s : State) : List Byte := symbols.filter fun sym => s.input.contains sym

/-- No code of the table is a prefix of another symbol's code (R155). -/
def State.PrefixFree (s : State) : Prop :=
  ∀ a b, s.present a = true → s.present b = true → a ≠ b → ¬ s.codeOf a <+: s.codeOf b

/-- The total encoded length of the input under the code lengths `len`, "summed over leaves" (R153). -/
def State.encodedLength (s : State) (len : Byte → Nat) : Nat :=
  (s.inputSymbols.map fun sym => s.input.count sym * len sym).sum

/-! ### Containers -/

/-- One entry of a container's header: symbol, code_length, code bits (R108). -/
def entryBytes (sym : Byte) (c : Bits) : List Byte := sym :: BitVec.ofNat 8 c.length :: pack c

/-- The header of a container: symbol_count, then the entries (R106 to R108). -/
def headerBytes (entries : List (Byte × Bits)) : List Byte :=
  BitVec.ofNat 8 entries.length :: entries.flatMap fun e => entryBytes e.1 e.2

/-- The entries of the code table, in ascending order of symbol (R109). -/
def State.entries (s : State) : List (Byte × Bits) :=
  s.presentSymbols.map fun sym => (sym, s.codeOf sym)

/-- The container of the code table and the input: header, then payload (R106, R110). -/
def State.container (s : State) : List Byte := headerBytes s.entries ++ pack s.payload

/-- The entries `l` stand in the input back to back from offset `p` up to offset `q`, within IN_LEN (R108). The
pad bits of an entry's last code byte are free (R180). -/
def State.EntriesAt (s : State) : Nat → List (Byte × Bits) → Nat → Prop
  | p, [], q => p = q
  | p, e :: l, q =>
    p + 2 + ceil8 e.2.length ≤ s.inLen.toNat ∧ s.inByte p = e.1 ∧
      (s.inByte (p + 1)).toNat = e.2.length ∧ readBits s.inByte (p + 2) e.2.length = e.2 ∧
      s.EntriesAt (p + 2 + ceil8 e.2.length) l q

/-- The bits of the input from absolute bit index `x` are `c` (R145). -/
def State.BitsAt (s : State) (x : Nat) (c : Bits) : Prop :=
  ∀ i, i < c.length → s.bitAt (x + i) = c.getD i false

/-- The bits `c` are, one after the other, the paths from ROOT to leaves of the symbols `l`. -/
def State.Spells (s : State) : List Byte → Bits → Prop
  | [], c => c = []
  | sym :: l, c => ∃ p q, c = p ++ q ∧ s.LeafPath p sym ∧ s.Spells l q

/-- The absolute index of the first payload bit (R145). -/
def State.payloadStart (s : State) : Nat := 8 * s.hdrLen.toNat

/-- The number of payload bits of the input, from HDR_LEN to IN_LEN (R182). -/
def State.payloadSize (s : State) : Nat := 8 * (s.inLen.toNat - s.hdrLen.toNat)

/-- The first `n` bytes of OUT_MEM. -/
def State.output (s : State) (n : Nat) : List Byte := (List.range n).map s.outByte

/-- The input holds `bytes` at its start, followed by anything. -/
def State.inputStarts (s : State) (bytes : List Byte) : Prop := bytes <+: s.input

/-! ### Invariants -/

/-- Both memories are in canonical form, with no address at or beyond the capacity (R79, R88). -/
structure State.MemoryOk (s : State) : Prop where
  inWf      : Memory.wf s.inMem = true
  outWf     : Memory.wf s.outMem = true
  inWithin  : Memory.within s.inMem s.inCap.bytes = true
  outWithin : Memory.within s.outMem s.outCap.bytes = true

/-- STATUS and ERR_INFO: while busy the outcome fields read as accept left them (R131, R246), only the codes
of R211 are recorded (R222), and an error on record was raised. -/
structure State.StatusOk (s : State) : Prop where
  busyClean : s.status.busy = true →
    s.status.done = false ∧ s.status.err = false ∧ s.status.errCode = 0 ∧ s.status.errOp = 0 ∧
      s.errInfo = 0
  codeLegal : s.status.errCode.toNat ≤ 0x0A
  errCoded  : s.status.err = true → s.status.errCode ≠ 0

/-- The STAGE bits follow the one-way data flow of R136 and R137, and vouch for an input within IN_CAP whose
bytes were counted (R29, R138, R140). -/
structure State.StageOk (s : State) : Prop where
  tree    : s.stage.treeV = true → s.stage.freqV = true
  codes   : s.stage.codesV = true → s.stage.treeV = true
  hdr     : s.stage.hdrV = true → s.stage.codesV = true
  pay     : s.stage.payV = true → s.stage.hdrV = true
  dtree   : s.stage.dtreeV = true → s.stage.tabV = true
  dec     : s.stage.decV = true → s.stage.dtreeV = true
  oneSide : ¬ (s.stage.freqV = true ∧ s.stage.tabV = true)
  inRange : s.stage.freqV = true ∨ s.stage.tabV = true → s.inLen.toNat ≤ s.inCap.bytes
  counted : s.stage.freqV = true →
    (∀ sym, (s.freq.at sym).toNat = s.input.count sym) ∧ s.nsym.toNat = s.inputSymbols.length

/-- The ranges 10_state.md gives the product registers (R31, R33 to R37, R41, R42, R45). -/
structure State.RangesOk (s : State) : Prop where
  nsym        : s.nsym.toNat ≤ 256
  hdrLen      : s.hdrLen.toNat ≤ max s.inCap.bytes s.outCap.bytes
  outLen      : s.outLen.toNat ≤ s.outCap.bytes
  payloadBits : s.payloadBits.toNat < 2 ^ 31
  resid       : s.resid.toNat ≤ 254
  nodes       : s.nodes ≤ 65026
  order       : s.order.length ≤ 255
  absentLen   : ∀ sym, (s.codeLen.at sym).present = false → (s.codeLen.at sym).len = 0
  codeTail    : ∀ sym i, (s.codeLen.at sym).len.toNat ≤ i → (s.codeBits.at sym).getMsbD i = false

/-- While its STAGE bit is set, a stage's products are those of the current input (R29, R140). -/
structure State.ProductsOk (s : State) : Prop where
  tree    : s.stage.treeV = true → (s.arena, s.root) = buildTree s.freq
  codes   : s.stage.codesV = true →
    (∀ sym, s.present sym = true ↔ sym ∈ s.input) ∧ ∀ sym ∈ s.input, s.LeafPath (s.codeOf sym) sym
  header  : s.stage.hdrV = true → s.entries.length ≤ 255 ∧
    s.hdrLen.toNat = (headerBytes s.entries).length ∧ s.hdrLen.toNat ≤ s.outCap.bytes ∧
    s.output s.hdrLen.toNat = headerBytes s.entries
  payload : s.stage.payV = true → s.outLen.toNat = s.container.length ∧
    s.output s.outLen.toNat = s.container ∧ s.payloadBits.toNat = s.payload.length ∧
    s.resid.toNat = 8 * ceil8 s.payload.length - s.payload.length
  table   : s.stage.tabV = true → ∃ l, 1 ≤ s.inLen.toNat ∧ l.length = (s.inByte 0).toNat ∧
    s.EntriesAt 1 l s.hdrLen.toNat ∧ s.hdrLen.toNat ≤ s.inLen.toNat ∧ s.order = l.map Prod.fst ∧
    s.order.Nodup ∧ s.nsym.toNat = l.length ∧ (∀ e ∈ l, s.codeOf e.1 = e.2) ∧
    ∀ sym, s.present sym = true ↔ sym ∈ s.order
  dtree   : s.stage.dtreeV = true → (∃ r, s.root = some r) ∧
    (∀ sym ∈ s.order, s.LeafPath (s.codeOf sym) sym) ∧
    (∀ p sym, s.LeafPath p sym → sym ∈ s.order ∧ p = s.codeOf sym) ∧
    ∀ p k, s.InnerPath p k → p ≠ [] → ∃ sym ∈ s.order, p <+: s.codeOf sym
  decoded : s.stage.decV = true → s.rootLeaf = none → ∃ l c d k, s.Spells l c ∧ s.InnerPath d k ∧
    s.BitsAt s.payloadStart (c ++ d) ∧ (c ++ d).length ≤ s.payloadSize ∧
    s.output s.outLen.toNat = l ∧ s.outLen.toNat = l.length ∧ s.payloadBits.toNat = (c ++ d).length ∧
    s.resid.toNat = d.length
  copies  : s.stage.decV = true → ∀ sym, s.rootLeaf = some sym →
    s.output s.outLen.toNat = List.replicate s.outLen.toNat sym ∧ s.payloadBits = 0 ∧ s.resid = 0

/-- The invariant of HUFF-CORE: what holds after reset and after every step. -/
structure State.Ok (s : State) : Prop where
  memory   : s.MemoryOk
  status   : s.StatusOk
  stage    : s.StageOk
  ranges   : s.RangesOk
  products : s.ProductsOk

end Sys2Proof.Machine
end

