-- ==== Sys2Proof/Certificates/Slice0/Obligations.lean ====
section
/-! DEFINITION. The statements about HUFF-CORE that the provers are asked for. Each docstring names the rules
of spec/ it formalises. -/

open Sys2Proof Sys2Proof.Machine

/-! ### Command words (30_encoding.md R100 to R105) -/

/-- R102, R103: the words of the opcode map, and no others, are commands; an illegal word is refused by its
name, in one of two ways. -/
def Obligations.DecodesExactlyTheOpcodeMap : Prop :=
  (∀ (w : Word) (i : Instr), decode w = .ok i ↔
    (w, i) ∈ ([(0x00000000, .nop), (0x00000001, .clear), (0x00000010, .encFreq),
      (0x00000011, .encTree), (0x00000012, .encCodes), (0x00000013, .encHeader),
      (0x00000014, .encPayload), (0x0000001F, .encode), (0x00000020, .decTable),
      (0x00000021, .decTree), (0x00000022, .decPayload), (0x0000002F, .decode)] : List (Word × Instr))) ∧
  ∀ w : Word,
    (w.extractLsb' 8 24 ≠ 0 → decode w = .error (.reservedBits (w.extractLsb' 8 24))) ∧
    (w.extractLsb' 8 24 = 0 → w.extractLsb' 0 8 ∉ opcodes →
      decode w = .error (.unknownOpcode (w.extractLsb' 0 8))) ∧
    (w.extractLsb' 8 24 = 0 → w.extractLsb' 0 8 ∈ opcodes → ∃ i, decode w = .ok i)

/-- R100, R102: every command decodes from its own word, and a word that decodes is the word of its
command, so the decoder drops no bit. -/
def Obligations.EncodeAndDecodeAgree : Prop :=
  (∀ i : Instr, i.wellFormed = true → decode (encode i) = .ok i) ∧
    ∀ (w : Word) (i : Instr), decode w = .ok i → encode i = w

/-- A sanity statement: words written out from R100 and R102, read through the opcode table's numbering. -/
def Obligations.WordsOfTheTableDecode : Prop :=
  decodeTableWord 32 0b00000000000000000000000000000001 = some .clear ∧
  decodeTableWord 32 0b00000000000000000000000000010011 = some .encHeader ∧
  decodeTableWord 32 0b00000000000000000000000000011111 = some .encode ∧
  decodeTableWord 32 0b00000000000000000000000000100010 = some .decPayload ∧
  decodeTableWord 32 0b00000000000000000000000000101111 = some .decode ∧
  decodeTableWord 32 0b00000000000000000000000000010101 = none ∧
  decodeTableWord 32 0b00000000000000000000000100010000 = none

/-! ### Steps and the life of a command (10_state.md R20, 40_common.md R130 to R135) -/

/-- R133, R135: while BUSY = 1 the completion step runs the command latched in CMDL, at the point the
environment gives it, or when nothing else is left to happen (the model's choice, log 1 and log 2). A word put in place
by `withFetchWord` runs next (log 3). -/
def Obligations.StepRunsTheDecodedCommand : Prop :=
  ∀ (s : State) (rest : List Input) (i : Instr), s.status.busy = true → decode s.cmdl = .ok i →
    (s.inputs = .engine :: rest → step s = exec i { s with inputs := rest }) ∧
    (s.inputs = [] → step s = exec i s) ∧
    ∀ (u : State) (nbits w : Nat), decodeTableWord nbits w = some i →
      step (u.withFetchWord nbits w) = exec i (u.accept (tableWord nbits w))

/-- R130, R82 and log 1, log 2: the other moves. A host transaction and a reset are one step each; while
BUSY = 0 the engine has no step, and the machine waits. -/
def Obligations.OtherMovesAreOneStepEach : Prop :=
  ∀ (s : State) (rest : List Input),
    (∀ t, s.inputs = .host t :: rest → step s = .next (transact t { s with inputs := rest })) ∧
    (s.inputs = .reset :: rest → step s = .next (resetMachine { s with inputs := rest })) ∧
    (s.status.busy = false → s.inputs = .engine :: rest → step s = .next { s with inputs := rest }) ∧
    (s.status.busy = false → s.inputs = [] → step s = .next s)

/-- R131: accepting a command word, in one step, with the interrupt deasserted. Illegal words are accepted
too. -/
def Obligations.AcceptLatchesTheWord : Prop :=
  ∀ (s : State) (w : Word), s.status.busy = false →
    transact (writesReg .cmd w) s =
      { s with cmdl := w
               limsnap := s.ctrl.limitEn
               status := { busy := true, done := false, err := false, wrBusy := s.status.wrBusy,
                           errCode := 0, errOp := 0 }
               errInfo := 0
               reply := some .okay } ∧
    (transact (writesReg .cmd w) s).irq = false

/-- R103, R212: an illegal word completes with ILLEGAL_CMD and changes no other state. -/
def Obligations.IllegalWordCompletesWithItsError : Prop :=
  ∀ (s : State) (rest : List Input), s.status.busy = true → s.inputs = .engine :: rest →
    (s.cmdl.extractLsb' 8 24 ≠ 0 ∨ s.cmdl.extractLsb' 0 8 ∉ opcodes) →
    step s = .next { s with
      inputs := rest
      status := { busy := false, done := true, err := true, wrBusy := s.status.wrBusy,
                  errCode := 0x01, errOp := s.cmdl.extractLsb' 0 8 }
      errInfo := s.cmdl }

/-- R134, which the spec marks as derived: every step answers a next state, and the completion step ends the command
in flight. That a busy
machine with no move left completes is the weak fairness R134 assumes (log 2). -/
def Obligations.EveryStepAnswersAndCommandsComplete : Prop :=
  ∀ s : State, ∃ t, step s = .next t ∧
    (s.status.busy = true → (s.inputs = [] ∨ ∃ rest, s.inputs = .engine :: rest) →
      t.status.busy = false ∧ t.status.done = true)

/-- R133, R79, R137: whatever its outcome, a command leaves BUSY = 0 and DONE = 1, and writes nothing of the
host's side: not CTRL, IN_LEN, OUT_LIMIT, IN_MEM, the parameters, CMDL, LIMSNAP or WR_BUSY. -/
def Obligations.CommandsKeepTheHostSide : Prop :=
  ∀ (i : Instr) (s : State), ∃ t : State, exec i s = .next t ∧ HostSideKept s t ∧
    t.status.busy = false ∧ t.status.done = true ∧ t.status.wrBusy = s.status.wrBusy

/-- R211, R222: the ten codes have the numbers of the table; a command that ends with an error records a code and an
ERR_OP of its own rows of the table, and one that ends without leaves ERR_CODE, ERR_OP and ERR_INFO as accept left
them. -/
def Obligations.ErrorsAreThoseOfTheTable : Prop :=
  (ErrCode.illegalCmd.toByte = 0x01 ∧ ErrCode.sequence.toByte = 0x02 ∧
    ErrCode.inLenRange.toByte = 0x03 ∧ ErrCode.symbolOverflow.toByte = 0x04 ∧
    ErrCode.outOverflow.toByte = 0x05 ∧ ErrCode.fmtTruncated.toByte = 0x06 ∧
    ErrCode.fmtCodeLen.toByte = 0x07 ∧ ErrCode.fmtDupSymbol.toByte = 0x08 ∧
    ErrCode.fmtPrefix.toByte = 0x09 ∧ ErrCode.malformedTraversal.toByte = 0x0A) ∧
  ∀ (i : Instr) (s t : State), s.status.err = false → exec i s = .next t →
    (t.status.err = true →
      ∃ e ∈ errorsOf i, t.status.errCode = e.1.toByte ∧ t.status.errOp = e.2) ∧
    (t.status.err = false → t.status.errCode = s.status.errCode ∧ t.status.errOp = s.status.errOp ∧
      t.errInfo = s.errInfo)

/-! ### Control commands, invalidation and the stage wrapper (R136 to R142) -/

/-- R141: NOP does nothing but complete. -/
def Obligations.NopOnlyCompletes : Prop :=
  encode .nop = 0x00000000 ∧
  ∀ s : State, exec .nop s = .next { s with status := { s.status with busy := false, done := true } }

/-- R142: CLEAR resets every product and STAGE, and nothing else. -/
def Obligations.ClearResetsTheProducts : Prop :=
  encode .clear = 0x00000001 ∧
  ∀ s : State, ∃ t : State, exec .clear s = .next t ∧ t.stage.toWord = 0 ∧ t.FreqReset ∧ t.TreeReset ∧
    t.CodeReset ∧ t.OutputReset ∧ EndsOk s t ∧ OutKept s t

/-- R137: the table of invalidations, STAGE bits and product groups, and what no invalidation touches. CLEAR's
invalidation, `invalidateAll`, is that of ENC_FREQ. -/
def Obligations.InvalidationFollowsTheTable : Prop :=
  ∀ s : State,
    (∀ op, HostSideKept s (s.invalidate op) ∧ OutKept s (s.invalidate op) ∧
      (s.invalidate op).status = s.status ∧ (s.invalidate op).errInfo = s.errInfo) ∧
    s.invalidateAll = s.invalidate .encFreq ∧
    (∀ op, op = .encFreq ∨ op = .decTable → (s.invalidate op).stage.toWord = 0 ∧
      (s.invalidate op).FreqReset ∧ (s.invalidate op).TreeReset ∧ (s.invalidate op).CodeReset ∧
      (s.invalidate op).OutputReset) ∧
    ((s.invalidate .encTree).stage =
        { s.stage with treeV := false, codesV := false, hdrV := false, payV := false } ∧
      FreqKept s (s.invalidate .encTree) ∧ (s.invalidate .encTree).TreeReset ∧
      (s.invalidate .encTree).CodeReset ∧ (s.invalidate .encTree).OutputReset) ∧
    ((s.invalidate .encCodes).stage = { s.stage with codesV := false, hdrV := false, payV := false } ∧
      FreqKept s (s.invalidate .encCodes) ∧ TreeKept s (s.invalidate .encCodes) ∧
      (s.invalidate .encCodes).CodeReset ∧ (s.invalidate .encCodes).OutputReset) ∧
    ((s.invalidate .encHeader).stage = { s.stage with hdrV := false, payV := false } ∧
      FreqKept s (s.invalidate .encHeader) ∧ TreeKept s (s.invalidate .encHeader) ∧
      CodeKept s (s.invalidate .encHeader) ∧ (s.invalidate .encHeader).OutputReset) ∧
    ((s.invalidate .encPayload).stage = { s.stage with payV := false } ∧
      FreqKept s (s.invalidate .encPayload) ∧ TreeKept s (s.invalidate .encPayload) ∧
      CodeKept s (s.invalidate .encPayload) ∧ (s.invalidate .encPayload).hdrLen = s.hdrLen ∧
      (s.invalidate .encPayload).PayReset) ∧
    ((s.invalidate .decTree).stage = { s.stage with dtreeV := false, decV := false } ∧
      FreqKept s (s.invalidate .decTree) ∧ (s.invalidate .decTree).TreeReset ∧
      CodeKept s (s.invalidate .decTree) ∧ (s.invalidate .decTree).hdrLen = s.hdrLen ∧
      (s.invalidate .decTree).PayReset) ∧
    ((s.invalidate .decPayload).stage = { s.stage with decV := false } ∧
      FreqKept s (s.invalidate .decPayload) ∧ TreeKept s (s.invalidate .decPayload) ∧
      CodeKept s (s.invalidate .decPayload) ∧ (s.invalidate .decPayload).hdrLen = s.hdrLen ∧
      (s.invalidate .decPayload).PayReset)

/-- R213, R136: a stage whose prerequisite bit is not set ends with SEQUENCE, STAGE in ERR_INFO, and changes
nothing else. -/
def Obligations.MissingPrerequisiteIsRefused : Prop :=
  ∀ s : State,
    (s.stage.freqV = false → EndsWithError (exec .encTree s) s .sequence 0x11 s.stage.toWord.toNat) ∧
    (s.stage.treeV = false → EndsWithError (exec .encCodes s) s .sequence 0x12 s.stage.toWord.toNat) ∧
    (s.stage.codesV = false → EndsWithError (exec .encHeader s) s .sequence 0x13 s.stage.toWord.toNat) ∧
    (s.stage.hdrV = false → EndsWithError (exec .encPayload s) s .sequence 0x14 s.stage.toWord.toNat) ∧
    (s.stage.tabV = false → EndsWithError (exec .decTree s) s .sequence 0x21 s.stage.toWord.toNat) ∧
    (s.stage.dtreeV = false → EndsWithError (exec .decPayload s) s .sequence 0x22 s.stage.toWord.toNat)

/-- R214: IN_LEN above IN_CAP ends ENC_FREQ and DEC_TABLE, alone or in their composites, with IN_LEN_RANGE, and
changes nothing else. -/
def Obligations.InputBeyondCapacityIsRefused : Prop :=
  ∀ s : State, s.inCap.bytes < s.inLen.toNat →
    EndsWithError (exec .encFreq s) s .inLenRange 0x10 s.inLen.toNat ∧
    EndsWithError (exec .encode s) s .inLenRange 0x10 s.inLen.toNat ∧
    EndsWithError (exec .decTable s) s .inLenRange 0x20 s.inLen.toNat ∧
    EndsWithError (exec .decode s) s .inLenRange 0x20 s.inLen.toNat

/-- R138, R226: a stage command that fails in its body leaves the state of its invalidation, but for STATUS,
ERR_INFO and the bytes of OUT_MEM its body wrote: none, but for DEC_PAYLOAD, whose bytes lie below OUT_CAP. -/
def Obligations.FailedStageLeavesNoProduct : Prop :=
  ∀ (i : Instr) (op : StageOp) (s t : State), stageOf i = some op → s.status.err = false →
    exec i s = .next t → t.status.err = true → t.status.errCode ≠ ErrCode.sequence.toByte →
    t.status.errCode ≠ ErrCode.inLenRange.toByte →
    t = { s.invalidate op with outMem := t.outMem, status := t.status, errInfo := t.errInfo } ∧
    (op ≠ .decPayload → OutKept s t) ∧ OutKeptOutside s t 0 s.outCap.bytes

/-- R158, R183, R139: ENCODE and DECODE are their stages, one after the other, up to the first that raises. -/
def Obligations.CompositesRunTheirStages : Prop :=
  ∀ s : State, s.status.err = false →
    exec .encode s = execChain [.encFreq, .encTree, .encCodes, .encHeader, .encPayload] s ∧
    exec .decode s = execChain [.decTable, .decTree, .decPayload] s

/-! ### The encoder (41_encoder.md) -/

/-- R150: ENC_FREQ counts every byte value of the input, and resets every other product. -/
def Obligations.EncFreqCountsTheInput : Prop :=
  ∀ s : State, s.inLen.toNat ≤ s.inCap.bytes → ∃ t : State, exec .encFreq s = .next t ∧
    (∀ sym, (t.freq.at sym).toNat = s.input.count sym) ∧
    t.nsym.toNat = s.inputSymbols.length ∧
    t.stage = { Stage.none with freqV := true } ∧
    t.TreeReset ∧ t.CodeReset ∧ t.OutputReset ∧ EndsOk s t ∧ OutKept s t

/-- R152, R151: ENC_TREE makes no tree of an empty mapping, the one-bit tree of one symbol, and else merges the two
entries of the smallest keys until one is left. -/
def Obligations.EncTreeMergesTheTwoSmallest : Prop :=
  ∀ s : State, s.stage.freqV = true → ∃ t : State, exec .encTree s = .next t ∧
    (mappedSymbols s.freq = [] → t.root = none ∧ t.nodes = 0) ∧
    (∀ sym, mappedSymbols s.freq = [sym] → t.root = some 1 ∧
      t.arena = [.leaf sym (s.freq.at sym), .internal (some 0) none (s.freq.at sym)]) ∧
    (2 ≤ (mappedSymbols s.freq).length → MergeTree s.freq t.arena ∧
      t.root = some (2 * (mappedSymbols s.freq).length - 2)) ∧
    t.stage = { s.stage with treeV := true, codesV := false, hdrV := false, payV := false } ∧
    FreqKept s t ∧ t.CodeReset ∧ t.OutputReset ∧ EndsOk s t ∧ OutKept s t

/-- R153, which the spec marks as derived from R152: the shape of the tree ENC_TREE leaves: its size, two children for
every INTERNAL entry, one leaf for each symbol of the mapping, at a depth of at most n-1 and at most 255, and a
leftmost leaf. -/
def Obligations.EncoderTreeShape : Prop :=
  ∀ s : State, s.stage.freqV = true → ∃ t : State, exec .encTree s = .next t ∧
    (∀ sym ∈ mappedSymbols s.freq, ∃ p, t.LeafPath p sym ∧ 1 ≤ p.length ∧ p.length ≤ 255) ∧
    (∀ p q sym, t.LeafPath p sym → t.LeafPath q sym → p = q) ∧
    (∀ p sym, t.LeafPath p sym → sym ∈ mappedSymbols s.freq) ∧
    (1 ≤ (mappedSymbols s.freq).length →
      ∃ k0 sym, 1 ≤ k0 ∧ t.LeafPath (List.replicate k0 false) sym) ∧
    ((mappedSymbols s.freq).length = 1 → ∀ p sym, t.LeafPath p sym → p.length = 1) ∧
    (2 ≤ (mappedSymbols s.freq).length →
      t.nodes = 2 * (mappedSymbols s.freq).length - 1 ∧
      t.root = some (2 * (mappedSymbols s.freq).length - 2) ∧
      (∀ (k : Nat) l r f, t.arena[k]? = some (.internal l r f) → l ≠ none ∧ r ≠ none) ∧
      ∀ p sym, t.LeafPath p sym → p.length ≤ (mappedSymbols s.freq).length - 1)

/-- R153, which the spec marks as derived from R152, for two symbols or more: no prefix-free code of the symbols of
the input encodes it in fewer bits than the tree ENC_TREE leaves. -/
def Obligations.EncoderTreeIsOptimal : Prop :=
  ∀ (s : State) (depth code : Byte → Bits), s.Ok → s.stage.treeV = true →
    2 ≤ s.inputSymbols.length →
    (∀ sym ∈ s.inputSymbols, s.LeafPath (depth sym) sym) →
    (∀ a ∈ s.inputSymbols, ∀ b ∈ s.inputSymbols, a ≠ b → ¬ code a <+: code b) →
    s.encodedLength (fun sym => (depth sym).length) ≤ s.encodedLength fun sym => (code sym).length

/-- R154: ENC_CODES gives each symbol of the input the one path from ROOT to its leaf as its code, and no other
symbol an entry. -/
def Obligations.EncCodesRecordsTheTreePaths : Prop :=
  ∀ s : State, s.Ok → s.stage.treeV = true → ∃ t : State, exec .encCodes s = .next t ∧
    (∀ sym ∈ s.input, t.present sym = true ∧ t.LeafPath (t.codeOf sym) sym ∧
      (∀ p, t.LeafPath p sym → p = t.codeOf sym) ∧
      1 ≤ (t.codeOf sym).length ∧ (t.codeOf sym).length ≤ 255) ∧
    (∀ sym, sym ∉ s.input → t.codeLen.at sym = { len := 0, present := false } ∧
      t.codeBits.at sym = 0) ∧
    (∀ sym i, (t.codeLen.at sym).len.toNat ≤ i → (t.codeBits.at sym).getMsbD i = false) ∧
    t.order = [] ∧
    t.stage = { s.stage with codesV := true, hdrV := false, payV := false } ∧
    FreqKept s t ∧ TreeKept s t ∧ t.OutputReset ∧ EndsOk s t ∧ OutKept s t

/-- R155, which the spec marks as derived from R152 and R154: while CODES_V = 1 every symbol of the input has one
code, the codes are prefix-free, and the leftmost leaf's code, all zeros, is the only one that is. -/
def Obligations.EncoderCodesArePrefixFree : Prop :=
  ∀ s : State, s.Ok → s.stage.codesV = true →
    (∀ sym, s.present sym = true ↔ sym ∈ s.input) ∧ s.PrefixFree ∧
    (s.input ≠ [] → ∃ k0 s0, 1 ≤ k0 ∧ s0 ∈ s.input ∧ s.LeafPath (List.replicate k0 false) s0 ∧
      s.codeOf s0 = List.replicate k0 false ∧
      ∀ sym ∈ s.input, sym ≠ s0 → ∃ b ∈ s.codeOf sym, b = true)

/-- R156, R107 to R109: ENC_HEADER writes the symbol count and the entries of the code table, ascending. -/
def Obligations.EncHeaderWritesTheEntries : Prop :=
  ∀ (s : State) (need : Nat), s.stage.codesV = true → s.nsym.toNat ≤ 255 →
    need = 1 + (s.presentSymbols.map fun sym => 2 + ceil8 (s.codeLen.at sym).len.toNat).sum →
    need ≤ s.outCap.bytes → ∃ t : State, exec .encHeader s = .next t ∧
    t.output need = s.nsym.setWidth 8 ::
      s.presentSymbols.flatMap (fun sym => sym :: (s.codeLen.at sym).len :: pack (s.codeOf sym)) ∧
    OutKeptOutside s t 0 need ∧
    t.hdrLen.toNat = need ∧ t.outLen.toNat = need ∧ t.payloadBits = 0 ∧ t.resid = 0 ∧
    t.stage = { s.stage with hdrV := true, payV := false } ∧
    FreqKept s t ∧ TreeKept s t ∧ CodeKept s t ∧ EndsOk s t

/-- R215: 256 distinct symbols end ENC_HEADER with SYMBOL_OVERFLOW, with nothing written to OUT_MEM and the
earlier stages' bits kept, so that STAGE is 0x007 where the encoder's chain has set them. -/
def Obligations.AllSymbolsOverflowTheHeader : Prop :=
  ∀ s : State, s.stage.codesV = true → s.nsym.toNat = 256 →
    ∃ t : State, exec .encHeader s = .next t ∧
      t.status = s.status.completedErr .symbolOverflow 0x13 ∧ t.errInfo = 256 ∧
      t.stage = { s.stage with hdrV := false, payV := false } ∧
      (s.stage.freqV = true → s.stage.treeV = true → s.stage.tabV = false → s.stage.dtreeV = false →
        s.stage.decV = false → t.stage.toWord = 0x007) ∧
      t.OutputReset ∧ FreqKept s t ∧ TreeKept s t ∧ CodeKept s t ∧ HostSideKept s t ∧ OutKept s t

/-- R216, the encoder's part: a header or a container that would not fit OUT_CAP ends the stage with OUT_OVERFLOW
and the size needed, before anything is written. -/
def Obligations.EncoderOverflowWritesNothing : Prop :=
  ∀ (s : State) (need : Nat),
    (s.stage.codesV = true → s.nsym.toNat ≤ 255 →
      need = 1 + (s.presentSymbols.map fun sym => 2 + ceil8 (s.codeLen.at sym).len.toNat).sum →
      s.outCap.bytes < need →
      EndsWithError (exec .encHeader s) (s.invalidate .encHeader) .outOverflow 0x13 need) ∧
    (s.stage.hdrV = true →
      need = s.hdrLen.toNat + ceil8 (s.input.flatMap s.codeOf).length →
      s.outCap.bytes < need →
      EndsWithError (exec .encPayload s) (s.invalidate .encPayload) .outOverflow 0x14 need)

/-- R157: ENC_PAYLOAD packs the codes of the input bytes after the header. -/
def Obligations.EncPayloadPacksTheCodes : Prop :=
  ∀ (s : State) (bits : Bits), s.stage.hdrV = true → bits = s.input.flatMap s.codeOf →
    s.hdrLen.toNat + ceil8 bits.length ≤ s.outCap.bytes → ∃ t : State, exec .encPayload s = .next t ∧
    (∀ j, j < ceil8 bits.length → t.outByte (s.hdrLen.toNat + j) = (pack bits).getD j 0) ∧
    OutKeptOutside s t s.hdrLen.toNat (s.hdrLen.toNat + ceil8 bits.length) ∧
    t.payloadBits.toNat = bits.length ∧ t.resid.toNat = 8 * ceil8 bits.length - bits.length ∧
    t.outLen.toNat = s.hdrLen.toNat + ceil8 bits.length ∧ t.hdrLen = s.hdrLen ∧
    t.stage = { s.stage with payV := true } ∧
    FreqKept s t ∧ TreeKept s t ∧ CodeKept s t ∧ EndsOk s t

/-- R158, R106 to R111: where the input has at most 255 distinct symbols and its container fits, ENCODE ends without
error. `freq` counts the input, `code` gives each of its symbols the path to its leaf in the tree of `freq` (R152,
R154), and ENCODE writes the container of that code table and of the input. The second clause says the same of the
code table that the first three stages leave, run as commands. -/
def Obligations.EncodeWritesTheContainer : Prop :=
  (∀ (s : State) (freq : Table Word) (code : Byte → Bits) (need : Nat), s.status.err = false →
    s.inLen.toNat ≤ s.inCap.bytes → s.inputSymbols.length ≤ 255 →
    (∀ sym, (freq.at sym).toNat = s.input.count sym) →
    (∀ sym ∈ s.inputSymbols, ∃ r, (buildTree freq).2 = some r ∧
      LeadsTo (buildTree freq).1 r (code sym) sym) →
    need = 1 + (s.inputSymbols.map fun sym => 2 + ceil8 (code sym).length).sum +
      ceil8 (s.encodedLength fun sym => (code sym).length) →
    need ≤ s.outCap.bytes →
    ∃ u : State, exec .encode s = .next u ∧
      u.output need = headerBytes (s.inputSymbols.map fun sym => (sym, code sym)) ++
        pack (s.input.flatMap code) ∧
      OutKeptOutside s u 0 need ∧ u.outLen.toNat = need ∧
      u.hdrLen.toNat = 1 + (s.inputSymbols.map fun sym => 2 + ceil8 (code sym).length).sum ∧
      u.payloadBits.toNat = s.encodedLength (fun sym => (code sym).length) ∧
      u.resid.toNat = 8 * ceil8 u.payloadBits.toNat - u.payloadBits.toNat ∧
      u.freq = freq ∧ u.nsym.toNat = s.inputSymbols.length ∧ (u.arena, u.root) = buildTree freq ∧
      (∀ sym ∈ s.inputSymbols, u.present sym = true ∧ u.codeOf sym = code sym) ∧
      (∀ sym, sym ∉ s.inputSymbols → u.codeLen.at sym = { len := 0, present := false } ∧
        u.codeBits.at sym = 0) ∧
      u.order = [] ∧ u.stage.toWord = 0x01F ∧ EndsOk s u) ∧
  ∀ s t : State, s.status.err = false → s.inLen.toNat ≤ s.inCap.bytes →
    execChain [.encFreq, .encTree, .encCodes] s = .next t →
    s.inputSymbols.length ≤ 255 → t.container.length ≤ t.outCap.bytes →
    ∃ u : State, exec .encode s = .next u ∧ u.output t.container.length = t.container ∧
      OutKeptOutside s u 0 t.container.length ∧
      u.outLen.toNat = t.container.length ∧
      t.container.length =
        1 + (s.inputSymbols.map fun sym => 2 + ceil8 (t.codeOf sym).length).sum +
          ceil8 (s.encodedLength fun sym => (t.codeOf sym).length) ∧
      u.hdrLen.toNat = (headerBytes t.entries).length ∧
      u.payloadBits.toNat = s.encodedLength (fun sym => (t.codeOf sym).length) ∧
      u.resid.toNat = 8 * ceil8 u.payloadBits.toNat - u.payloadBits.toNat ∧
      u.stage.toWord = 0x01F ∧ FreqKept t u ∧ TreeKept t u ∧ CodeKept t u ∧ EndsOk s u

/-- R158, "The same input always gives byte-identical output", which the spec marks as derived from R151: ENCODE's
outcome and output depend on the input and the capacities only. -/
def Obligations.EncodeDependsOnTheInputOnly : Prop :=
  ∀ s s' t t' : State, s.status.err = false → s'.status.err = false → s.input = s'.input →
    s.inCap = s'.inCap → s.outCap = s'.outCap → exec .encode s = .next t → exec .encode s' = .next t' →
    t.status.err = t'.status.err ∧
    (t.status.err = true → t.status.errCode = t'.status.errCode ∧ t.status.errOp = t'.status.errOp ∧
      t.errInfo = t'.errInfo) ∧
    (t.status.err = false → t.outLen = t'.outLen ∧ t.output t.outLen.toNat = t'.output t'.outLen.toNat)

/-! ### The decoder (42_decoder.md) -/

/-- R180, R108: DEC_TABLE reads back a header whose entries are complete, each symbol once, and whose only zero-length
code stands alone; the pad bits of its code bytes are free. -/
def Obligations.DecTableReadsTheHeader : Prop :=
  ∀ (s : State) (l : List (Byte × Bits)) (q : Nat), 1 ≤ s.inLen.toNat → s.inLen.toNat ≤ s.inCap.bytes →
    (s.inByte 0).toNat = l.length → s.EntriesAt 1 l q → (l.map Prod.fst).Nodup →
    (∀ e ∈ l, e.2 = [] → l.length = 1) → ∃ t : State, exec .decTable s = .next t ∧
    t.order = l.map Prod.fst ∧
    (∀ e ∈ l, t.codeLen.at e.1 = { len := BitVec.ofNat 8 e.2.length, present := true } ∧
      t.codeOf e.1 = e.2) ∧
    (∀ sym, sym ∉ l.map Prod.fst → t.codeLen.at sym = { len := 0, present := false } ∧
      t.codeBits.at sym = 0) ∧
    (∀ sym i, (t.codeLen.at sym).len.toNat ≤ i → (t.codeBits.at sym).getMsbD i = false) ∧
    t.nsym.toNat = l.length ∧ t.hdrLen.toNat = q ∧ q ≤ s.inLen.toNat ∧
    t.stage = { Stage.none with tabV := true } ∧
    (∀ sym, t.freq.at sym = 0) ∧ t.TreeReset ∧ t.PayReset ∧ EndsOk s t ∧ OutKept s t

/-- R217, R218, R219, R227: the first bad entry of a header, at its start offset `p` after the good entries `l`, ends
DEC_TABLE with the first of its checks that fails, and every product is reset. -/
def Obligations.FirstBadEntryEndsDecTable : Prop :=
  ∀ (s : State) (l : List (Byte × Bits)) (p : Nat), s.inLen.toNat ≤ s.inCap.bytes →
    (s.inLen.toNat = 0 → EndsWithError (exec .decTable s) s.invalidateAll .fmtTruncated 0x20 0) ∧
    (1 ≤ s.inLen.toNat → l.length < (s.inByte 0).toNat → s.EntriesAt 1 l p → (l.map Prod.fst).Nodup →
      (∀ e ∈ l, e.2 ≠ []) →
      (s.inLen.toNat < p + 2 → EndsWithError (exec .decTable s) s.invalidateAll .fmtTruncated 0x20 p) ∧
      (p + 2 ≤ s.inLen.toNat → s.inByte (p + 1) = 0 → (s.inByte 0).toNat ≠ 1 →
        EndsWithError (exec .decTable s) s.invalidateAll .fmtCodeLen 0x20 p) ∧
      (p + 2 ≤ s.inLen.toNat → s.inByte (p + 1) ≠ 0 →
        s.inLen.toNat < p + 2 + ceil8 (s.inByte (p + 1)).toNat →
        EndsWithError (exec .decTable s) s.invalidateAll .fmtTruncated 0x20 p) ∧
      (p + 2 + ceil8 (s.inByte (p + 1)).toNat ≤ s.inLen.toNat → s.inByte (p + 1) ≠ 0 →
        s.inByte p ∈ l.map Prod.fst →
        EndsWithError (exec .decTable s) s.invalidateAll .fmtDupSymbol 0x20 p))

/-- R181: DEC_TREE builds, from codes none of which is a prefix of another, the tree that leads each code, and
nothing else, to its symbol. -/
def Obligations.DecTreeLeadsCodesToSymbols : Prop :=
  ∀ s : State, s.stage.tabV = true →
    (s.order.Pairwise fun a b => ¬ s.codeOf a <+: s.codeOf b ∧ ¬ s.codeOf b <+: s.codeOf a) →
    ∃ t : State, exec .decTree s = .next t ∧ t.root = some 0 ∧
      (∀ sym ∈ s.order, t.LeafPath (s.codeOf sym) sym) ∧
      (∀ p sym, t.LeafPath p sym → sym ∈ s.order ∧ p = s.codeOf sym) ∧
      (s.order = [] → t.arena = [.internal none none 0]) ∧
      1 ≤ t.nodes ∧ t.nodes ≤ 1 + (s.order.map fun sym => (s.codeOf sym).length).sum ∧
      t.stage = { s.stage with dtreeV := true, decV := false } ∧
      FreqKept s t ∧ CodeKept s t ∧ t.hdrLen = s.hdrLen ∧ t.PayReset ∧ EndsOk s t ∧ OutKept s t

/-- R220: the first code in ORDER that has an earlier one as a prefix, or is a prefix of it, or equals it, ends
DEC_TREE with FMT_PREFIX and its position, and the arena is emptied. -/
def Obligations.ConflictingCodesEndDecTree : Prop :=
  ∀ (s : State) (done : List Byte) (sym : Byte) (rest : List Byte), s.stage.tabV = true →
    s.order = done ++ sym :: rest →
    (done.Pairwise fun a b => ¬ s.codeOf a <+: s.codeOf b ∧ ¬ s.codeOf b <+: s.codeOf a) →
    (∃ a ∈ done, s.codeOf a <+: s.codeOf sym ∨ s.codeOf sym <+: s.codeOf a) →
    EndsWithError (exec .decTree s) (s.invalidate .decTree) .fmtPrefix 0x21 done.length

/-- R182, for a ROOT that is no LEAF: DEC_PAYLOAD walks the payload bits, emits a symbol at each leaf, and ends without
error when the limit is reached, or when the bits run out, within a code or not. -/
def Obligations.DecPayloadEmitsTheSymbols : Prop :=
  ∀ (s : State) (l : List Byte) (c d : Bits) (k : Nat), s.stage.dtreeV = true → s.rootLeaf = none →
    s.Spells l c → s.InnerPath d k → l.length ≤ s.outCap.bytes →
    s.BitsAt s.payloadStart (c ++ d) → (c ++ d).length ≤ s.payloadSize →
    ((s.limsnap = true ∧ l.length = s.outLimit.toNat ∧ d = []) ∨
      ((c ++ d).length = s.payloadSize ∧ (s.limsnap = true → l.length < s.outLimit.toNat))) →
    ∃ t : State, exec .decPayload s = .next t ∧ t.output l.length = l ∧ OutKeptOutside s t 0 l.length ∧
      t.outLen.toNat = l.length ∧ t.payloadBits = BitVec.ofNat 32 (c ++ d).length ∧
      t.resid = BitVec.ofNat 32 d.length ∧ t.hdrLen = s.hdrLen ∧
      t.stage = { s.stage with decV := true } ∧
      FreqKept s t ∧ TreeKept s t ∧ CodeKept s t ∧ EndsOk s t

/-- R182, R216: a LEAF as ROOT. With LIMSNAP = 1 its symbol is emitted OUT_LIMIT times, or up to OUT_CAP and then
OUT_OVERFLOW; with LIMSNAP = 0 nothing is emitted. No payload bit is examined. -/
def Obligations.LeafRootEmitsTheLimit : Prop :=
  ∀ (s : State) (sym : Byte) (n : Nat), s.stage.dtreeV = true → s.rootLeaf = some sym →
    n = (if s.limsnap then s.outLimit.toNat else 0) →
    (n ≤ s.outCap.bytes → ∃ t : State, exec .decPayload s = .next t ∧ t.output n = List.replicate n sym ∧
      OutKeptOutside s t 0 n ∧ t.outLen.toNat = n ∧ t.payloadBits = 0 ∧ t.resid = 0 ∧
      t.hdrLen = s.hdrLen ∧ t.stage = { s.stage with decV := true } ∧
      FreqKept s t ∧ TreeKept s t ∧ CodeKept s t ∧ EndsOk s t) ∧
    (s.outCap.bytes < n → ∃ m,
      EndsWithError (exec .decPayload s) { s.invalidate .decPayload with outMem := m } .outOverflow 0x22
        (8 * s.hdrLen.toNat) ∧
      ({ s with outMem := m } : State).output s.outCap.bytes = List.replicate s.outCap.bytes sym ∧
      OutKeptOutside s { s with outMem := m } 0 s.outCap.bytes)

/-- R221: a payload bit that leads from an INTERNAL entry to no child ends DEC_PAYLOAD with MALFORMED_TRAVERSAL and
its absolute bit index; the symbols already emitted stay in OUT_MEM. -/
def Obligations.MissingChildEndsDecPayload : Prop :=
  ∀ (s : State) (l : List Byte) (c d : Bits) (b : Bool) (k : Nat), s.stage.dtreeV = true →
    s.rootLeaf = none → s.Spells l c → s.InnerPath d k → childAt s.arena k b = none →
    l.length ≤ s.outCap.bytes → (s.limsnap = true → l.length < s.outLimit.toNat) →
    s.BitsAt s.payloadStart (c ++ d ++ [b]) → (c ++ d ++ [b]).length ≤ s.payloadSize →
    ∃ m, EndsWithError (exec .decPayload s) { s.invalidate .decPayload with outMem := m }
        .malformedTraversal 0x22 (s.payloadStart + (c ++ d).length) ∧
      ({ s with outMem := m } : State).output l.length = l ∧
      OutKeptOutside s { s with outMem := m } 0 l.length

/-- R216, the decoder's part: the symbol that would be written at offset OUT_CAP ends DEC_PAYLOAD with OUT_OVERFLOW and
the absolute index of the bit that completed it; OUT_MEM holds the symbols before it. -/
def Obligations.DecoderOverflowKeepsTheOutput : Prop :=
  ∀ (s : State) (l : List Byte) (c p : Bits) (sym : Byte), s.stage.dtreeV = true → s.rootLeaf = none →
    s.Spells l c → s.LeafPath p sym → l.length = s.outCap.bytes →
    (s.limsnap = true → l.length < s.outLimit.toNat) →
    s.BitsAt s.payloadStart (c ++ p) → (c ++ p).length ≤ s.payloadSize →
    ∃ m, EndsWithError (exec .decPayload s) { s.invalidate .decPayload with outMem := m }
        .outOverflow 0x22 (s.payloadStart + (c ++ p).length - 1) ∧
      ({ s with outMem := m } : State).output s.outCap.bytes = l ∧
      OutKeptOutside s { s with outMem := m } 0 s.outCap.bytes

/-- R183, R180 to R182, for a header whose codes are none of them empty: DECODE of an input that holds the entries
`entries`, and as its payload the codes of `coded` and then the beginning `d` of a code, emits the symbols of `coded`.
It ends without error when the limit is reached, or when the bits run out, within a code or not. -/
def Obligations.DecodeReadsTheContainer : Prop :=
  ∀ (s : State) (entries coded : List (Byte × Bits)) (q : Nat) (d : Bits),
    s.status.err = false → 1 ≤ s.inLen.toNat → s.inLen.toNat ≤ s.inCap.bytes →
    (s.inByte 0).toNat = entries.length → s.EntriesAt 1 entries q →
    (entries.map Prod.fst).Nodup → (∀ e ∈ entries, e.2 ≠ []) →
    (entries.Pairwise fun a b => ¬ a.2 <+: b.2 ∧ ¬ b.2 <+: a.2) →
    (∀ e ∈ coded, e ∈ entries) → (d = [] ∨ ∃ e ∈ entries, d <+: e.2 ∧ d ≠ e.2) →
    coded.length ≤ s.outCap.bytes → s.BitsAt (8 * q) (coded.flatMap Prod.snd ++ d) →
    (coded.flatMap Prod.snd ++ d).length ≤ 8 * (s.inLen.toNat - q) →
    ((s.limsnap = true ∧ coded.length = s.outLimit.toNat ∧ d = []) ∨
      ((coded.flatMap Prod.snd ++ d).length = 8 * (s.inLen.toNat - q) ∧
        (s.limsnap = true → coded.length < s.outLimit.toNat))) →
    ∃ t : State, exec .decode s = .next t ∧ t.output coded.length = coded.map Prod.fst ∧
      OutKeptOutside s t 0 coded.length ∧ t.outLen.toNat = coded.length ∧
      t.payloadBits.toNat = (coded.flatMap Prod.snd ++ d).length ∧ t.resid.toNat = d.length ∧
      t.nsym.toNat = entries.length ∧ t.hdrLen.toNat = q ∧ t.order = entries.map Prod.fst ∧
      (∀ e ∈ entries, t.codeOf e.1 = e.2 ∧ t.LeafPath e.2 e.1) ∧ (∀ sym, t.freq.at sym = 0) ∧
      t.stage.toWord = 0x700 ∧ EndsOk s t

/-- R186, which the spec marks as derived from R152 to R157 and R180 to R182: DEC_TABLE and DEC_TREE accept what
ENCODE wrote and rebuild a tree with the same codes, and DECODE can fail on it by OUT_OVERFLOW only. -/
def Obligations.DecoderAcceptsEveryContainer : Prop :=
  ∀ s t u : State, s.status.err = false → exec .encode s = .next t → t.status.err = false →
    u.status.err = false → u.inLen.toNat ≤ u.inCap.bytes → u.input = t.output t.outLen.toNat →
    (∃ v w, exec .decTable u = .next v ∧ v.status.err = false ∧ exec .decTree v = .next w ∧
      w.status.err = false ∧ (∀ p sym, w.LeafPath p sym ↔ t.LeafPath p sym) ∧
      (2 ≤ s.inputSymbols.length →
        w.nodes = 2 * s.inputSymbols.length - 1 ∧ t.nodes = 2 * s.inputSymbols.length - 1) ∧
      (s.inputSymbols.length = 1 → w.nodes = 2 ∧ t.nodes = 2) ∧
      (s.input = [] → t.nodes = 0 ∧ w.nodes = 1)) ∧
    ∃ v : State, exec .decode u = .next v ∧
      (v.status.err = true → v.status.errCode = ErrCode.outOverflow.toByte ∧ v.status.errOp = 0x22)

/-- R184, which the spec marks as derived from R152 to R157 and R180 to R182: DECODE of the container ENCODE wrote,
limited to the number of bytes encoded, gives the bytes back. -/
def Obligations.DecodeInvertsEncode : Prop :=
  ∀ s t u : State, s.status.err = false → exec .encode s = .next t → t.status.err = false →
    u.inLen.toNat ≤ u.inCap.bytes → u.input = t.output t.outLen.toNat →
    u.limsnap = true → u.outLimit.toNat = s.input.length → s.input.length ≤ u.outCap.bytes →
    ∃ v : State, exec .decode u = .next v ∧ EndsOk u v ∧ v.outLen.toNat = s.input.length ∧
      v.output s.input.length = s.input ∧ OutKeptOutside u v 0 s.input.length ∧
      v.payloadBits = t.payloadBits ∧ v.resid = 0 ∧ v.stage.toWord = 0x700

/-- R185, which the spec marks as derived from R157 and R182: without the limit, the pad bits of a non-empty input's
container give as many further copies of the leftmost leaf's symbol as they hold codes of it. -/
def Obligations.PadBitsRepeatTheLeftmostSymbol : Prop :=
  ∀ s t u : State, s.status.err = false → exec .encode s = .next t → t.status.err = false →
    s.input ≠ [] → u.inLen.toNat ≤ u.inCap.bytes → u.input = t.output t.outLen.toNat →
    u.limsnap = false →
    ∃ k0 s0, 1 ≤ k0 ∧ t.LeafPath (List.replicate k0 false) s0 ∧ t.resid.toNat ≤ 7 ∧
      (s.input.length + t.resid.toNat / k0 ≤ u.outCap.bytes →
        ∃ v : State, exec .decode u = .next v ∧ EndsOk u v ∧
          v.outLen.toNat = s.input.length + t.resid.toNat / k0 ∧
          v.output v.outLen.toNat = s.input ++ List.replicate (t.resid.toNat / k0) s0 ∧
          v.resid.toNat = t.resid.toNat % k0 ∧ v.stage.toWord = 0x700)

/-! ### The bit packer and the bit reader (R143, R144) -/

/-- R143: Pack gives `ceil8 |c|` bytes, bit `8j+k` of the sequence in bit `7-k` of byte `j`, and zero pad bits; writing
them leaves every other byte alone. -/
def Obligations.PackIsMostSignificantBitFirst : Prop :=
  ∀ (c : Bits) (m : Memory) (a : Nat), (pack c).length = ceil8 c.length ∧
    (∀ j k, j < ceil8 c.length → k < 8 →
      ((pack c).getD j 0).getLsbD (7 - k) = c.getD (8 * j + k) false) ∧
    ∀ b, Memory.stored (Memory.writeBytes m a (pack c)) b =
      if a ≤ b ∧ b < a + ceil8 c.length then (pack c)[b - a]? else Memory.stored m b

/-- R144, R143: ReadBits takes `L` bits from the most significant bit of byte `a` on, and takes back what Pack wrote,
whatever stands in the pad bits. -/
def Obligations.ReadBitsTakesBackWhatPackWrote : Prop :=
  ∀ (byte : Nat → Byte) (a : Nat) (c : Bits),
    (∀ n i, i < n → (readBits byte a n).getD i false = (byte (a + i / 8)).getLsbD (7 - i % 8)) ∧
    (∀ n, (readBits byte a n).length = n) ∧
    ((∀ i, i < c.length → (byte (a + i / 8)).getLsbD (7 - i % 8) =
        ((pack c).getD (i / 8) 0).getLsbD (7 - i % 8)) → readBits byte a c.length = c)

/-! ### The host port (20_memory.md) -/

/-- R72, R74, R75, R76, R223: BUSERR exactly where those rules refuse an access, and then nothing changes. -/
def Obligations.RefusedAccessesGetBusErr : Prop :=
  ∀ (s : State) (t : Txn),
    (s.Refuses t → transact t s = { s with reply := some .busErr }) ∧
    (¬ s.Refuses t → ∃ r, (transact t s).reply = some r ∧ r ≠ .busErr)

/-- R23, R39: the register map is one to one, and every other aligned offset of the region is reserved: it reads 0
and ignores writes. -/
def Obligations.RegisterMapIsExact : Prop :=
  (∀ r : Reg, regAt r.offset = some r) ∧
  ∀ (s : State) (off : Nat) (v : Word), off < 0x40000000 → off % 4 = 0 →
    (∀ r : Reg, r.offset ≠ off) →
    transact (.read .b4 (BitVec.ofNat 32 off)) s = { s with reply := some (.data 0) } ∧
    transact (.write .b4 (BitVec.ofNat 32 off) v) s = { s with reply := some .okay }

/-- R73, R82, R246: a register read answers the stored word and changes nothing, except that while BUSY = 1 STAGE and
the product registers answer some word. While BUSY = 1, STATUS reads BUSY and WR_BUSY alone and ERR_INFO 0, in the
states of the invariant of STATUS. -/
def Obligations.RegisterReadsHaveNoSideEffect : Prop :=
  ∀ (s : State) (r : Reg),
    (s.status.busy = false → transact (readsReg r) s = { s with reply := some (.data (s.readReg r)) }) ∧
    ((r = .id ∨ r = .ctrl ∨ r = .cmd ∨ r = .status ∨ r = .errInfo ∨ r = .inLen ∨ r = .outLimit ∨
        r = .inCap ∨ r = .outCap) →
      transact (readsReg r) s = { s with reply := some (.data (s.readReg r)) }) ∧
    ((r = .stage ∨ r = .outLen ∨ r = .nsym ∨ r = .hdrLen ∨ r = .payloadBits ∨ r = .resid ∨
        r = .nodes ∨ ∃ sym, r = .freq sym ∨ r = .codeLen sym ∨ ∃ w, r = .codeBits sym w) →
      s.status.busy = true → ∃ w n,
        transact (readsReg r) s = { s with reply := some (.data w), draws := n }) ∧
    (s.StatusOk → s.status.busy = true → s.readReg .errInfo = 0 ∧
      s.readReg .status = if s.status.wrBusy then 0x00000009 else 0x00000001)

/-- R24 to R38, R40, R41: the words of the registers: the fields of ID, CTRL, CMD, STATUS, STAGE, NSYM and CODE_LEN bit
by bit, with the reserved bits 0, and the others whole. CODE_BITS has a statement of its own. -/
def Obligations.RegisterWordsHaveTheirLayout : Prop :=
  ∀ (s : State) (sym : Byte),
    s.readReg .id = 0x48550007 ∧ s.readReg .cmd = 0 ∧
    (∀ k, (s.readReg .ctrl).getLsbD k =
      ((k == 0 && s.ctrl.ie) || (k == 1 && s.ctrl.limitEn))) ∧
    (∀ k, (s.readReg .status).getLsbD k =
      ((k == 0 && s.status.busy) || (k == 1 && s.status.done) || (k == 2 && s.status.err) ||
        (k == 3 && s.status.wrBusy) ||
        (decide (8 ≤ k ∧ k < 16) && s.status.errCode.getLsbD (k - 8)) ||
        (decide (16 ≤ k ∧ k < 24) && s.status.errOp.getLsbD (k - 16)))) ∧
    (∀ k, (s.readReg .stage).getLsbD k =
      ((k == 0 && s.stage.freqV) || (k == 1 && s.stage.treeV) || (k == 2 && s.stage.codesV) ||
        (k == 3 && s.stage.hdrV) || (k == 4 && s.stage.payV) || (k == 8 && s.stage.tabV) ||
        (k == 9 && s.stage.dtreeV) || (k == 10 && s.stage.decV))) ∧
    (∀ k, (s.readReg .nsym).getLsbD k = (decide (k < 9) && s.nsym.getLsbD k)) ∧
    (∀ k, (s.readReg (.codeLen sym)).getLsbD k =
      ((decide (k < 8) && (s.codeLen.at sym).len.getLsbD k) ||
        (k == 8 && (s.codeLen.at sym).present))) ∧
    (s.readReg .inCap).toNat = s.inCap.bytes ∧ (s.readReg .outCap).toNat = s.outCap.bytes ∧
    s.readReg .errInfo = s.errInfo ∧ s.readReg .inLen = s.inLen ∧ s.readReg .outLen = s.outLen ∧
    s.readReg .outLimit = s.outLimit ∧ s.readReg .hdrLen = s.hdrLen ∧
    s.readReg .payloadBits = s.payloadBits ∧ s.readReg .resid = s.resid ∧
    (s.Ok → (s.readReg .nodes).toNat = s.nodes) ∧ s.readReg (.freq sym) = s.freq.at sym

/-- R42: code bit `i` of a symbol is bit `31 - (i mod 32)` of its word `i div 32`, and every bit at index LEN or above
reads 0. -/
def Obligations.CodeBitsReadMostSignificantFirst : Prop :=
  ∀ (s : State) (sym : Byte) (i : Fin 256), s.Ok →
    (s.readReg (.codeBits sym (Fin.ofNat 8 (i.val / 32)))).getLsbD (31 - i.val % 32) =
      (s.codeOf sym).getD i.val false

/-- R25, R27, R30, R32, R80, R228: the writes that store, while BUSY = 0: what each changes, in full. R73: a write to
any register but these and CMD is ignored with OKAY, busy or not. -/
def Obligations.RegisterWritesStoreOrAreIgnored : Prop :=
  (∀ (s : State) (v : Word), s.status.busy = false →
    transact (writesReg .ctrl v) s =
      { s with ctrl := { ie := v.getLsbD 0, limitEn := v.getLsbD 1 }, reply := some .okay } ∧
    transact (writesReg .status v) s =
      { s with status := { s.status with done := s.status.done && !v.getLsbD 1
                                         err := s.status.err && !v.getLsbD 2
                                         wrBusy := s.status.wrBusy && !v.getLsbD 3 }
               reply := some .okay } ∧
    transact (writesReg .inLen v) s =
      { s with inLen := v, stage := Stage.none, reply := some .okay } ∧
    transact (writesReg .outLimit v) s = { s with outLimit := v, reply := some .okay }) ∧
  ∀ (s : State) (r : Reg) (v : Word), r ≠ .ctrl → r ≠ .cmd → r ≠ .status → r ≠ .inLen → r ≠ .outLimit →
    transact (writesReg r v) s = { s with reply := some .okay }

/-- R247, R132, R225: the same writes while BUSY = 1, and writes to IN_MEM within bounds: those that could change the
running command's inputs are dropped and set WR_BUSY, CTRL and STATUS are written. -/
def Obligations.WritesWhileBusy : Prop :=
  ∀ (s : State) (v : Word) (size : Size) (a : Nat), s.status.busy = true →
    (∀ r, r = .cmd ∨ r = .inLen ∨ r = .outLimit → transact (writesReg r v) s =
      { s with status := { s.status with wrBusy := true }, reply := some .okay }) ∧
    (a % size.bytes = 0 → a + size.bytes ≤ s.inCap.bytes →
      transact (.write size (inAddr a) v) s =
        { s with status := { s.status with wrBusy := true }, reply := some .okay }) ∧
    transact (writesReg .ctrl v) s =
      { s with ctrl := { ie := v.getLsbD 0, limitEn := v.getLsbD 1 }, reply := some .okay } ∧
    transact (writesReg .status v) s =
      { s with status := { s.status with done := s.status.done && !v.getLsbD 1
                                         err := s.status.err && !v.getLsbD 2
                                         wrBusy := s.status.wrBusy && !v.getLsbD 3 }
               reply := some .okay }

/-- R74, R77, R80: a legal write to IN_MEM while BUSY = 0 stores its bytes, the lowest offset from bits 7:0, clears
STAGE, and changes nothing else. -/
def Obligations.InputWritesAreLittleEndian : Prop :=
  ∀ (s : State) (size : Size) (a : Nat) (v : Word), s.status.busy = false → a % size.bytes = 0 →
    a + size.bytes ≤ s.inCap.bytes → ∃ m,
      transact (.write size (inAddr a) v) s =
        { s with inMem := m, stage := Stage.none, reply := some .okay } ∧
      (∀ k, k < size.bytes → ({ s with inMem := m } : State).inByte (a + k) = v.extractLsb' (8 * k) 8) ∧
      ∀ b, b < a ∨ a + size.bytes ≤ b → ({ s with inMem := m } : State).inByte b = s.inByte b

/-- R74, R75, R77, R70, R246: a legal read of IN_MEM, or of OUT_MEM while BUSY = 0, answers the bytes, the lowest offset
in bits 7:0 and zeros above the last, and changes nothing; OUT_MEM read while BUSY = 1 answers some word. -/
def Obligations.MemoryReadsAreLittleEndian : Prop :=
  ∀ (s : State) (size : Size) (a : Nat), a % size.bytes = 0 →
    (a + size.bytes ≤ s.inCap.bytes → ∃ w,
      transact (.read size (inAddr a)) s = { s with reply := some (.data w) } ∧
      ∀ k, k < 4 → w.extractLsb' (8 * k) 8 = if k < size.bytes then s.inByte (a + k) else 0) ∧
    (a + size.bytes ≤ s.outCap.bytes → s.status.busy = false → ∃ w,
      transact (.read size (outAddr a)) s = { s with reply := some (.data w) } ∧
      ∀ k, k < 4 → w.extractLsb' (8 * k) 8 = if k < size.bytes then s.outByte (a + k) else 0) ∧
    (a + size.bytes ≤ s.outCap.bytes → s.status.busy = true → ∃ w n,
      transact (.read size (outAddr a)) s = { s with reply := some (.data w), draws := n })

/-- R81, R79, R38: no host transaction writes a product, OUT_MEM or a parameter. -/
def Obligations.HostNeverWritesProducts : Prop :=
  ∀ (s : State) (t : Txn),
    FreqKept s (transact t s) ∧ TreeKept s (transact t s) ∧ CodeKept s (transact t s) ∧
    (transact t s).hdrLen = s.hdrLen ∧ (transact t s).outLen = s.outLen ∧
    (transact t s).payloadBits = s.payloadBits ∧ (transact t s).resid = s.resid ∧
    OutKept s (transact t s) ∧ (transact t s).inCap = s.inCap ∧ (transact t s).outCap = s.outCap ∧
    (s.stage ≠ (transact t s).stage → (transact t s).stage.toWord = 0)

/-- R25, R249: a running command does not see a write to CTRL: writing CTRL before its completion step or after it
gives the same state. -/
def Obligations.RunningCommandIgnoresCtrl : Prop :=
  ∀ (s t : State) (v : Word), s.status.busy = true → engineStep s = .next t →
    engineStep (transact (writesReg .ctrl v) s) =
      .next (transact (writesReg .ctrl v) t)

/-- R229, R230: the interrupt output is asserted at the completion of any command with IE = 1, by setting IE while DONE
or ERR is set, and not by WR_BUSY; it falls when both are cleared, when IE is cleared, and at an accept. -/
def Obligations.InterruptFollowsStatus : Prop :=
  ∀ (s t : State) (i : Instr) (v : Word),
    (exec i s = .next t → t.irq = s.ctrl.ie) ∧
    (v.getLsbD 0 = true → (transact (writesReg .ctrl v) s).irq = (s.status.done || s.status.err)) ∧
    (v.getLsbD 0 = false → (transact (writesReg .ctrl v) s).irq = false) ∧
    (v.getLsbD 1 = true → v.getLsbD 2 = true → (transact (writesReg .status v) s).irq = false) ∧
    (v.getLsbD 2 = false → s.status.err = true →
      (transact (writesReg .status v) s).irq = s.ctrl.ie) ∧
    (∀ w, s.status.busy = true → (transact (writesReg .cmd w) s).irq = s.irq) ∧
    State.reset.irq = false ∧ (resetMachine s).irq = false

/-! ### Reset and invariants (70_reset_and_hazards.md, 10_state.md R49) -/

/-- R49, R240: reset sets every register to its reset value, whatever was in flight; the parameters stay. The model's
own clauses: every byte of both memories reads as a draw of its own (log 5), the moves to come stay, and the resets are
numbered (log 6). -/
def Obligations.ResetSetsEveryRegister : Prop :=
  ∀ (s : State) (rest : List Input), s.inputs = .reset :: rest → ∃ t, step s = .next t ∧
    t.readReg .id = 0x48550007 ∧ t.readReg .ctrl = 0 ∧ t.readReg .status = 0 ∧ t.errInfo = 0 ∧
    t.readReg .stage = 0 ∧ t.inLen = 0 ∧
    t.outLimit = 0 ∧ t.FreqReset ∧ t.TreeReset ∧ t.CodeReset ∧ t.OutputReset ∧ t.cmdl = 0 ∧
    t.limsnap = false ∧ t.irq = false ∧ t.inCap = s.inCap ∧ t.outCap = s.outCap ∧ t.inputs = rest ∧
    (∀ a, t.inByte a = Config.inDraw t.resets a) ∧ (∀ a, t.outByte a = Config.outDraw t.resets a) ∧
    t.resets ≠ s.resets

/-- The memory invariant holds after every step: the canonical form, which is the model's (log 5), and no byte beyond
the capacities (R79, R88). -/
def Obligations.StepKeepsMemoryInBounds : Prop :=
  ∀ s t : State, s.MemoryOk → step s = .next t → t.MemoryOk

/-- R222, R131, R246: the invariant of STATUS and ERR_INFO holds after every step. -/
def Obligations.StepKeepsStatusLegal : Prop :=
  ∀ s t : State, s.StatusOk → step s = .next t → t.StatusOk

/-- R29, R140 (which the spec marks as derived from R136, R138 and R80) and the ranges of 10_state.md: the whole
invariant of the machine holds after every step, from every state that meets it: each STAGE bit vouches for products
made from the current input. That the memories' lists are in canonical form, one part of the invariant, is the model's
(log 5). -/
def Obligations.StepKeepsTheMachineConsistent : Prop :=
  ∀ s t : State, s.Ok → step s = .next t → t.Ok

/-- The invariant holds after reset. -/
def Obligations.ResetIsConsistent : Prop := State.reset.Ok
end

