-- ==== Sys2Proof/Laws/Table.lean ====
section
/-! SUPPORT. The laws of the symbol tables, of the list of symbols and of `ceil8`. -/

namespace Sys2Proof

variable {α : Type}

theorem Table.at_put_self (t : Table α) (a : Byte) (v : α) : Table.at (Table.put t a v) a = v := by
  simp [Table.at, Table.put]

theorem Table.at_put_other (t : Table α) {a b : Byte} (v : α) (h : a ≠ b) :
    Table.at (Table.put t a v) b = Table.at t b := by
  simp only [Table.at, Table.put]
  exact Vector.getElem_set_ne _ _ fun e => h (BitVec.eq_of_toNat_eq e)

theorem Table.at_put (t : Table α) (a b : Byte) (v : α) :
    Table.at (Table.put t a v) b = if a = b then v else Table.at t b := by
  by_cases h : a = b
  · subst h; simp [Table.at_put_self]
  · simp [h, Table.at_put_other]

@[simp] theorem Table.at_fill (v : α) (a : Byte) : Table.at (Table.fill v) a = v := by
  simp [Table.at, Table.fill]

/-- Tables that agree at every symbol are equal. -/
theorem Table.ext_at {t u : Table α} (h : ∀ a : Byte, Table.at t a = Table.at u a) : t = u := by
  apply Vector.ext
  intro i hi
  have := h (BitVec.ofNat 8 i)
  simpa only [Table.at, BitVec.toNat_ofNat, Nat.mod_eq_of_lt hi] using this

theorem mem_symbols (a : Byte) : a ∈ symbols := by
  simp only [symbols, List.mem_map, List.mem_range]
  exact ⟨a.toNat, a.isLt, by simp⟩

theorem symbols_length : symbols.length = 256 := by simp [symbols]

theorem symbols_nodup : symbols.Nodup := by
  unfold symbols
  refine List.Nodup.map_on ?_ List.nodup_range
  intro x hx y hy h
  have := congrArg BitVec.toNat h
  simp only [List.mem_range] at hx hy
  simpa [Nat.mod_eq_of_lt hx, Nat.mod_eq_of_lt hy] using this

/-- The symbols stand in ascending order. -/
theorem symbols_sorted : symbols.Pairwise fun a b => a.toNat < b.toNat := by
  unfold symbols
  rw [List.pairwise_map]
  refine List.Pairwise.imp_of_mem ?_ List.pairwise_lt_range
  intro a b ha hb h
  simp only [List.mem_range] at ha hb
  simpa [Nat.mod_eq_of_lt ha, Nat.mod_eq_of_lt hb] using h

@[simp] theorem ceil8_zero : ceil8 0 = 0 := rfl

theorem le_eight_mul_ceil8 (n : Nat) : n ≤ 8 * ceil8 n := by unfold ceil8; omega

theorem eight_mul_ceil8_lt (n : Nat) : 8 * ceil8 n < n + 8 := by unfold ceil8; omega

end Sys2Proof
end

