-- ==== Sys2Proof/Laws/Bits.lean ====
section
/-! SUPPORT. The laws of the bit layout: codes stored MSB first (10_state.md R42), the bit packer and the
bit reader (40_common.md R143, R144). -/

namespace Sys2Proof

/-- Bit `i` from the top is bit `i` of the sequence, and 0 past its end. -/
theorem getMsbD_msbFirst {w : Nat} (c : Bits) (i : Nat) (hi : i < w) :
    (msbFirst w c).getMsbD i = c.getD i false := by
  induction c generalizing i with
  | nil => simp [msbFirst]
  | cons b c ih =>
    rw [msbFirst, BitVec.getMsbD_or, BitVec.getMsbD_ushiftRight]
    cases i with
    | zero =>
      cases b <;> simp [BitVec.getMsbD, hi]
    | succ i =>
      have h1 : i < w := by omega
      have h2 : (if b then BitVec.twoPow w (w - 1) else (0 : BitVec w)).getMsbD (i + 1) = false := by
        cases b
        · simp
        · have : w - 1 ≠ w - 1 - (i + 1) := by omega
          simp [BitVec.getMsbD, BitVec.getLsbD_twoPow, this]
      rw [h2]
      simp [ih i h1, hi]

theorem length_firstBits {w : Nat} (n : Nat) (v : BitVec w) : (firstBits n v).length = n := by
  simp [firstBits]

/-- The bits stored are the bits read back. -/
theorem firstBits_msbFirst {w : Nat} (c : Bits) (h : c.length ≤ w) :
    firstBits c.length (msbFirst w c) = c := by
  apply List.ext_getElem
  · simp [firstBits]
  · intro i h1 h2
    simp only [firstBits, List.getElem_map, List.getElem_range]
    rw [getMsbD_msbFirst c i (by omega)]
    simp [h2]

namespace Machine

theorem length_pack (c : Bits) : (pack c).length = ceil8 c.length := by simp [pack]

@[simp] theorem pack_nil : pack [] = [] := rfl

/-- The bit reader takes back what the bit packer wrote: bit `i` of the packed bytes. -/
theorem pack_bit (c : Bits) (i : Nat) (h : i < 8 * (pack c).length) :
    ((pack c).getD (i / 8) 0).getLsbD (7 - i % 8) = c.getD i false := by
  rw [length_pack] at h
  have hj : i / 8 < ceil8 c.length := by omega
  have hb : (pack c).getD (i / 8) 0 = msbFirst 8 ((c.drop (8 * (i / 8))).take 8) := by
    simp [pack, hj, List.getD]
  rw [hb]
  have hm : i % 8 < 8 := Nat.mod_lt _ (by omega)
  have := getMsbD_msbFirst (w := 8) ((c.drop (8 * (i / 8))).take 8) (i % 8) hm
  rw [BitVec.getMsbD] at this
  simp only [hm, decide_true, Bool.true_and] at this
  rw [show 7 - i % 8 = 8 - 1 - i % 8 from rfl, this]
  have hi : 8 * (i / 8) + i % 8 = i := Nat.div_add_mod i 8
  simp only [List.getD, List.getElem?_take, hm, if_true, List.getElem?_drop, hi]

/-- ReadBits after Pack gives the sequence back (R143, R144): `byte` holds the packed bytes from `a` up. -/
theorem readBits_pack (byte : Nat → Byte) (a : Nat) (c : Bits)
    (h : ∀ j, j < (pack c).length → byte (a + j) = (pack c).getD j 0) :
    readBits byte a c.length = c := by
  apply List.ext_getElem
  · simp [readBits]
  · intro i h1 h2
    have hl := le_eight_mul_ceil8 c.length
    have hp := length_pack c
    simp only [readBits, List.getElem_map, List.getElem_range]
    rw [h (i / 8) (by omega), pack_bit c i (by omega)]
    simp [h2]

theorem length_readBits (byte : Nat → Byte) (a n : Nat) : (readBits byte a n).length = n := by
  simp [readBits]

theorem State.codeOf_setCode_self (s : State) (sym : Byte) (c : Bits) (h : c.length < 256) :
    (s.setCode sym c).codeOf sym = c := by
  simp only [State.codeOf, State.setCode, Table.at_put_self, BitVec.toNat_ofNat]
  rw [Nat.mod_eq_of_lt (by omega : c.length < 2 ^ 8)]
  exact firstBits_msbFirst c (by omega)

theorem State.codeOf_setCode_other (s : State) {sym x : Byte} (c : Bits) (h : sym ≠ x) :
    (s.setCode sym c).codeOf x = s.codeOf x := by
  simp only [State.codeOf, State.setCode, Table.at_put_other _ _ h]

theorem State.present_setCode (s : State) (sym x : Byte) (c : Bits) :
    (s.setCode sym c).present x = (decide (sym = x) || s.present x) := by
  by_cases h : sym = x
  · subst h; simp [State.present, State.setCode, Table.at_put_self]
  · simp [State.present, State.setCode, Table.at_put_other _ _ h, h]

end Machine
end Sys2Proof
end

