-- ==== Sys2Proof/Laws/Tree.lean ====
section
/-! SUPPORT. Paths in a node arena: they are determined by their start, they survive the growth of the arena,
and a path to a leaf is no proper prefix of another path to a leaf. -/

namespace Sys2Proof.Machine

variable {ar ar' : List Node} {k x y : Nat} {p q : Bits}

@[simp] theorem follow_nil (ar : List Node) (k : Nat) : follow ar k [] = some k := rfl

theorem follow_cons (ar : List Node) (k : Nat) (b : Bool) (p : Bits) :
    follow ar k (b :: p) = (childAt ar k b).bind fun x => follow ar x p := by
  rw [follow]
  cases childAt ar k b <;> rfl

theorem follow_append (ar : List Node) (k : Nat) (p q : Bits) :
    follow ar k (p ++ q) = (follow ar k p).bind fun x => follow ar x q := by
  induction p generalizing k with
  | nil => simp
  | cons b p ih =>
    simp only [List.cons_append, follow_cons]
    cases childAt ar k b <;> simp [ih]

theorem follow_concat (ar : List Node) (k : Nat) (p : Bits) (b : Bool) :
    follow ar k (p ++ [b]) = (follow ar k p).bind fun x => childAt ar x b := by
  rw [follow_append]
  congr 1
  funext x
  rw [follow_cons]
  cases childAt ar x b <;> rfl

/-- A LEAF has no child. -/
theorem childAt_leaf {sym : Byte} (h : leafAt ar k = some sym) (b : Bool) : childAt ar k b = none := by
  unfold leafAt at h
  unfold childAt
  split at h
  · rename_i heq; rw [heq]; rfl
  · exact absurd h (by simp)
  · exact absurd h (by simp)

theorem leafAt_of_childAt {b : Bool} (h : childAt ar k b = some x) : leafAt ar k = none := by
  cases hl : leafAt ar k with
  | none => rfl
  | some sym => rw [childAt_leaf hl b] at h; exact absurd h (by simp)

/-- A path that goes on past a LEAF does not go on. -/
theorem follow_leaf {sym : Byte} (h : leafAt ar k = some sym) (hp : follow ar k p = some x) :
    p = [] ∧ x = k := by
  cases p with
  | nil => simpa using hp.symm
  | cons b p => rw [follow_cons, childAt_leaf h b] at hp; exact absurd hp (by simp)

/-- Two paths to leaves, one a prefix of the other, are one path. -/
theorem follow_prefix {a b : Byte} (hp : follow ar k p = some x) (ha : leafAt ar x = some a)
    (hq : follow ar k q = some y) (_hb : leafAt ar y = some b) (h : p <+: q) : p = q ∧ x = y := by
  obtain ⟨r, rfl⟩ := h
  rw [follow_append, hp] at hq
  obtain ⟨rfl, rfl⟩ := follow_leaf ha hq
  simp

/-- The arena `ar'` grows out of `ar`: children and leaves of `ar` are children and leaves of `ar'`. -/
structure Grows (ar ar' : List Node) : Prop where
  child : ∀ {k b x}, childAt ar k b = some x → childAt ar' k b = some x
  leaf  : ∀ {k sym}, leafAt ar k = some sym → leafAt ar' k = some sym

theorem Grows.refl (ar : List Node) : Grows ar ar := ⟨id, id⟩

theorem Grows.trans {ar'' : List Node} (h : Grows ar ar') (g : Grows ar' ar'') : Grows ar ar'' :=
  ⟨fun e => g.child (h.child e), fun e => g.leaf (h.leaf e)⟩

theorem Grows.follow (h : Grows ar ar') (hp : follow ar k p = some x) : follow ar' k p = some x := by
  induction p generalizing k with
  | nil => simpa using hp
  | cons b p ih =>
    rw [follow_cons] at hp ⊢
    cases hc : childAt ar k b with
    | none => rw [hc] at hp; exact absurd hp (by simp)
    | some y =>
      rw [hc] at hp
      rw [h.child hc]
      exact ih hp

theorem childAt_lt {b : Bool} (h : childAt ar k b = some x) : k < ar.length := by
  unfold childAt at h
  split at h
  · rename_i heq; exact (List.getElem?_eq_some_iff.1 heq).1
  · exact absurd h (by simp)

theorem leafAt_lt {sym : Byte} (h : leafAt ar k = some sym) : k < ar.length := by
  unfold leafAt at h
  split at h
  · rename_i heq; exact (List.getElem?_eq_some_iff.1 heq).1
  · exact absurd h (by simp)
  · exact absurd h (by simp)

theorem childAt_append_left (l : List Node) (b : Bool) (hk : k < ar.length) :
    childAt (ar ++ l) k b = childAt ar k b := by
  simp [childAt, List.getElem?_append_left hk]

theorem leafAt_append_left (l : List Node) (hk : k < ar.length) :
    leafAt (ar ++ l) k = leafAt ar k := by
  simp [leafAt, List.getElem?_append_left hk]

theorem childAt_append_new (nd : Node) (b : Bool) :
    childAt (ar ++ [nd]) ar.length b = nd.child b := by
  simp [childAt]

theorem leafAt_append_new (nd : Node) :
    leafAt (ar ++ [nd]) ar.length = leafAt [nd] 0 := by
  simp [leafAt]

theorem grows_append (ar l : List Node) : Grows ar (ar ++ l) :=
  ⟨fun h => by rw [childAt_append_left _ _ (childAt_lt h)]; exact h,
   fun h => by rw [leafAt_append_left _ (leafAt_lt h)]; exact h⟩

/-! ### Each entry is the child of at most one -/

/-- No two slots hold the same child. -/
def SlotsDistinct (ar : List Node) : Prop :=
  ∀ {k k' b b' x}, childAt ar k b = some x → childAt ar k' b' = some x → k = k' ∧ b = b'

/-- Entry `r` is nobody's child. -/
def NoParent (ar : List Node) (r : Nat) : Prop := ∀ k b, childAt ar k b ≠ some r

/-- From an entry without parent, an entry is reached along one path only. -/
theorem follow_unique (hd : SlotsDistinct ar) (hr : NoParent ar k) (hp : follow ar k p = some x)
    (hq : follow ar k q = some x) : p = q := by
  induction p using List.reverseRecOn generalizing q x with
  | nil =>
    simp at hp
    subst hp
    rcases List.eq_nil_or_concat q with rfl | ⟨q', b, rfl⟩
    · rfl
    · exfalso
      rw [List.concat_eq_append, follow_concat] at hq
      obtain ⟨y, _, hy⟩ := Option.bind_eq_some_iff.1 hq
      exact hr y b hy
  | append_singleton p b ih =>
    rw [follow_concat] at hp
    obtain ⟨y, hy, hyb⟩ := Option.bind_eq_some_iff.1 hp
    rcases List.eq_nil_or_concat q with rfl | ⟨q', b', rfl⟩
    · exfalso
      simp at hq
      subst hq
      exact hr y b hyb
    · rw [List.concat_eq_append, follow_concat] at hq
      obtain ⟨z, hz, hzb⟩ := Option.bind_eq_some_iff.1 hq
      obtain ⟨rfl, rfl⟩ := hd hyb hzb
      rw [ih hy hz, List.concat_eq_append]

/-- The paths from entry `r`. -/
def pathsFrom (ar : List Node) (r : Nat) : Set Bits := { p | ∃ x, follow ar r p = some x }

/-- A tree has as many entries as paths from its root, where each live entry is reached, and along one path. -/
theorem ncard_pathsFrom {r : Nat} (hd : SlotsDistinct ar) (hr : NoParent ar r)
    (hlt : ∀ {p x}, follow ar r p = some x → x < ar.length)
    (hall : ∀ x, x < ar.length → ∃ p, follow ar r p = some x) :
    (pathsFrom ar r).ncard = ar.length := by
  choose f hf using hall
  have hset : pathsFrom ar r = Set.range fun i : Fin ar.length => f i.val i.isLt := by
    ext p
    constructor
    · rintro ⟨x, hx⟩
      exact ⟨⟨x, hlt hx⟩, follow_unique hd hr (hf x (hlt hx)) hx⟩
    · rintro ⟨i, rfl⟩
      exact ⟨i.val, hf i.val i.isLt⟩
  have hinj : Function.Injective fun i : Fin ar.length => f i.val i.isLt := by
    intro i j h
    have h' : f i.val i.isLt = f j.val j.isLt := h
    have h1 := hf i.val i.isLt
    rw [h', hf j.val j.isLt] at h1
    exact Fin.ext (Option.some.inj h1).symm
  rw [hset, ← Set.image_univ, Set.ncard_image_of_injective _ hinj, Set.ncard_univ]
  simp

end Sys2Proof.Machine
end

