-- ==== Sys2Proof/Laws/Huffman.lean ====
section
/-! SUPPORT. The tree ENC_TREE builds (41_encoder.md R151 to R153): the extraction takes a smallest key, and
the merges turn the row of leaves into one tree of `2n-1` entries. -/

namespace Sys2Proof.Machine

/-! ### Extraction (R151) -/

theorem keyLess_iff (ar : List Node) (p q : Nat) :
    keyLess ar p q = true ↔ (weightAt ar p).toNat < (weightAt ar q).toNat ∨
      ((weightAt ar p).toNat = (weightAt ar q).toNat ∧ p < q) := by
  simp [keyLess]

theorem smallestKey_mem (ar : List Node) (m : Nat) (qs : List Nat) :
    smallestKey ar m qs ∈ m :: qs := by
  induction qs generalizing m with
  | nil => simp [smallestKey]
  | cons q qs ih =>
    rw [smallestKey]
    split
    · exact List.mem_cons_of_mem _ (ih q)
    · rcases List.mem_cons.1 (ih m) with h | h
      · rw [h]; exact List.mem_cons_self
      · exact List.mem_cons_of_mem _ (List.mem_cons_of_mem _ h)

/-- No listed index has a smaller key than the one chosen. -/
theorem smallestKey_least (ar : List Node) (m : Nat) (qs : List Nat) :
    ∀ x ∈ m :: qs, keyLess ar x (smallestKey ar m qs) = false := by
  induction qs generalizing m with
  | nil =>
    intro x hx
    simp only [List.mem_singleton] at hx
    subst hx
    simp [smallestKey, keyLess]
  | cons q qs ih =>
    intro x hx
    rw [smallestKey]
    have key : ∀ y z w : Nat, keyLess ar y z = false → keyLess ar z w = false → keyLess ar y w = false := by
      intro y z w h1 h2
      rw [Bool.eq_false_iff, Ne, keyLess_iff] at h1 h2 ⊢
      omega
    split
    · rename_i hlt
      rcases List.mem_cons.1 hx with rfl | hx
      · have h1 := ih q q List.mem_cons_self
        refine key x q _ ?_ h1
        rw [keyLess_iff] at hlt
        rw [Bool.eq_false_iff, Ne, keyLess_iff]
        omega
      · exact ih q x hx
    · rename_i hge
      rcases List.mem_cons.1 hx with rfl | hx
      · exact ih x x List.mem_cons_self
      · rcases List.mem_cons.1 hx with rfl | hx
        · exact key x m _ (by simpa using hge) (ih m m List.mem_cons_self)
        · exact ih m x (List.mem_cons_of_mem _ hx)

/-- What an extraction gives. -/
theorem extractMin_some {ar : List Node} {q q' : List Nat} {a : Nat}
    (h : extractMin ar q = some (a, q')) :
    a ∈ q ∧ q' = q.erase a ∧ ∀ x ∈ q, keyLess ar x a = false := by
  cases q with
  | nil => simp [extractMin] at h
  | cons m qs =>
    simp only [extractMin, Option.some.injEq, Prod.mk.injEq] at h
    obtain ⟨rfl, rfl⟩ := h
    exact ⟨smallestKey_mem ar m qs, rfl, smallestKey_least ar m qs⟩

theorem extractMin_none {ar : List Node} {q : List Nat} : extractMin ar q = none ↔ q = [] := by
  cases q <;> simp [extractMin]

/-! ### The forest of the merges (R152, R153) -/

/-- The arena and the queue between two merges: `n` leaves of the symbols `syms`, then internal nodes with
two children, and every entry below exactly one queued one. -/
structure Forest (syms : List Byte) (ar : List Node) (q : List Nat) : Prop where
  count     : ar.length + q.length = 2 * syms.length
  nonempty  : q ≠ []
  nodup     : q.Nodup
  inRange   : ∀ k ∈ q, k < ar.length
  leaves    : ∀ k (h : k < syms.length), leafAt ar k = some syms[k]
  internals : ∀ k, syms.length ≤ k → k < ar.length →
    ∃ l r f, ar[k]? = some (.internal (some l) (some r) f) ∧ l < k ∧ r < k ∧ l ≠ r
  noParent  : ∀ k ∈ q, NoParent ar k
  distinct  : SlotsDistinct ar
  reached   : ∀ k, k < ar.length → ∃ r ∈ q, ∃ p, follow ar r p = some k

variable {syms : List Byte} {ar : List Node} {q : List Nat}

/-- The children in a forest: below their parent, and only of internal nodes. -/
theorem Forest.child_lt (h : Forest syms ar q) {k x : Nat} {b : Bool} (hc : childAt ar k b = some x) :
    syms.length ≤ k ∧ x < k := by
  have hk := childAt_lt hc
  by_cases hn : syms.length ≤ k
  · refine ⟨hn, ?_⟩
    obtain ⟨l, r, f, he, hl, hr, -⟩ := h.internals k hn hk
    simp only [childAt, he] at hc
    cases b <;> simp only [Node.child, Option.some.injEq] at hc <;> omega
  · exact absurd hc (by rw [childAt_leaf (h.leaves k (by omega)) b]; simp)

theorem Forest.child_internal (h : Forest syms ar q) {k : Nat} (hn : syms.length ≤ k)
    (hk : k < ar.length) (b : Bool) : ∃ x, childAt ar k b = some x := by
  obtain ⟨l, r, f, he, -⟩ := h.internals k hn hk
  cases b
  · exact ⟨l, by simp [childAt, he, Node.child]⟩
  · exact ⟨r, by simp [childAt, he, Node.child]⟩

/-- A path in a forest is no longer than the internal nodes it may pass. -/
theorem Forest.path_length (h : Forest syms ar q) {k x : Nat} {p : Bits} (hp : follow ar k p = some x) :
    p.length ≤ k + 1 - syms.length := by
  induction p generalizing k with
  | nil => simp
  | cons b p ih =>
    rw [follow_cons] at hp
    obtain ⟨y, hy, hp⟩ := Option.bind_eq_some_iff.1 hp
    have := h.child_lt hy
    have := ih hp
    simp only [List.length_cons]
    omega

/-- The row of leaves, all queued. -/
theorem forest_leaves {syms : List Byte} (freq : Table Word) (hn : syms ≠ []) :
    Forest syms (syms.map (leafOf freq)) (List.range syms.length) where
  count := by simp; omega
  nonempty := by simpa [List.range_eq_nil] using hn
  nodup := List.nodup_range
  inRange := by simp
  leaves := by intro k hk; simp [leafAt, hk, leafOf]
  internals := by intro k h1 h2; simp at h2; omega
  noParent := by
    intro k hk j b hc
    have hj := childAt_lt hc
    simp at hj
    rw [childAt_leaf (sym := syms[j]) (by simp [leafAt, hj, leafOf])] at hc
    exact absurd hc (by simp)
  distinct := by
    intro k k' b b' x hc hc'
    have hj := childAt_lt hc
    simp at hj
    rw [childAt_leaf (sym := syms[k]) (by simp [leafAt, hj, leafOf])] at hc
    exact absurd hc (by simp)
  reached := by
    intro k hk
    exact ⟨k, by simpa using hk, [], rfl⟩

/-- One merge keeps the forest. -/
theorem Forest.merge (h : Forest syms ar q) {a b : Nat} (ha : a ∈ q) (hb : b ∈ q.erase a) (w : Word) :
    Forest syms (ar ++ [.internal (some a) (some b) w]) ((q.erase a).erase b ++ [ar.length]) := by
  have hbq : b ∈ q := List.mem_of_mem_erase hb
  have hab : b ≠ a := fun e => by
    subst e
    exact (List.Nodup.not_mem_erase h.nodup) hb
  have hqa : (q.erase a).length + 1 = q.length := by
    rw [List.length_erase_of_mem ha]; have := List.length_pos_of_mem ha; omega
  have hqb : ((q.erase a).erase b).length + 1 = (q.erase a).length := by
    rw [List.length_erase_of_mem hb]; have := List.length_pos_of_mem hb; omega
  have hsub : ∀ k ∈ (q.erase a).erase b, k ∈ q ∧ k ≠ a ∧ k ≠ b := by
    intro k hk
    have h1 := (List.Nodup.mem_erase_iff (h.nodup.erase a)).1 hk
    have h2 := (List.Nodup.mem_erase_iff h.nodup).1 h1.2
    exact ⟨h2.2, h2.1, h1.1⟩
  have hra := h.inRange a ha
  have hrb := h.inRange b hbq
  have hnew : ∀ {k : Nat} {c : Bool} {x : Nat},
      childAt (ar ++ [.internal (some a) (some b) w]) k c = some x →
      (childAt ar k c = some x) ∨ (k = ar.length ∧ x = if c then b else a) := by
    intro k c x hc
    have hlt := childAt_lt hc
    simp only [List.length_append, List.length_singleton] at hlt
    by_cases hk : k < ar.length
    · exact .inl (by rwa [childAt_append_left _ _ hk] at hc)
    · have hk' : k = ar.length := by omega
      subst hk'
      rw [childAt_append_new] at hc
      refine .inr ⟨rfl, ?_⟩
      cases c <;> simp only [Node.child, Option.some.injEq] at hc <;> simp [hc]
  have hlen : syms.length ≤ ar.length := by
    by_contra hlt
    have := h.count
    have hle : q.length ≤ ar.length := by
      have := List.Nodup.subperm h.nodup (l₂ := List.range ar.length)
        (fun k hk => List.mem_range.2 (h.inRange k hk))
      simpa using this.length_le
    omega
  refine
    { count := ?_, nonempty := by simp, nodup := ?_, inRange := ?_, leaves := ?_, internals := ?_,
      noParent := ?_, distinct := ?_, reached := ?_ }
  · have := h.count
    simp only [List.length_append, List.length_singleton]
    omega
  · refine List.Nodup.append ((h.nodup.erase a).erase b) (by simp) ?_
    intro k hk hk'
    simp only [List.mem_singleton] at hk'
    have := h.inRange k (hsub k hk).1
    omega
  · intro k hk
    simp only [List.mem_append, List.mem_singleton] at hk
    simp only [List.length_append, List.length_singleton]
    rcases hk with hk | rfl
    · have := h.inRange k (hsub k hk).1; omega
    · omega
  · intro k hk
    exact (grows_append ar _).leaf (h.leaves k hk)
  · intro k h1 h2
    simp only [List.length_append, List.length_singleton] at h2
    by_cases hk : k < ar.length
    · obtain ⟨l, r, f, he, hl⟩ := h.internals k h1 hk
      exact ⟨l, r, f, by rw [List.getElem?_append_left hk]; exact he, hl⟩
    · have hk' : k = ar.length := by omega
      subst hk'
      exact ⟨a, b, w, by simp, hra, hrb, fun e => hab e.symm⟩
  · intro k hk j c hc
    simp only [List.mem_append, List.mem_singleton] at hk
    rcases hnew hc with hc | ⟨rfl, rfl⟩
    · rcases hk with hk | rfl
      · exact h.noParent k (hsub k hk).1 j c hc
      · have := (h.child_lt hc).2; have := childAt_lt hc; omega
    · rcases hk with hk | hk
      · have := hsub _ hk
        cases c <;> simp at this
      · cases c <;> simp at hk <;> omega
  · intro k k' c c' x hc hc'
    rcases hnew hc with g | ⟨rfl, hx⟩ <;> rcases hnew hc' with g' | ⟨rfl, hx'⟩
    · exact h.distinct g g'
    · exfalso
      cases c'
      · simp only [Bool.false_eq_true, if_false] at hx'
        exact h.noParent _ ha k c (hx' ▸ g)
      · simp only [if_true] at hx'
        exact h.noParent _ hbq k c (hx' ▸ g)
    · exfalso
      cases c
      · simp only [Bool.false_eq_true, if_false] at hx
        exact h.noParent _ ha k' c' (hx ▸ g')
      · simp only [if_true] at hx
        exact h.noParent _ hbq k' c' (hx ▸ g')
    · refine ⟨rfl, ?_⟩
      cases c <;> cases c' <;> simp at hx hx' <;> first | rfl | exact absurd (hx.symm.trans hx') (by omega)
  · intro k hk
    simp only [List.length_append, List.length_singleton] at hk
    have hroot : ∀ c, follow (ar ++ [.internal (some a) (some b) w]) ar.length [c]
        = some (if c then b else a) := by
      intro c
      rw [follow_cons, childAt_append_new]
      cases c <;> simp [Node.child]
    by_cases hk' : k < ar.length
    · obtain ⟨r, hr, p, hp⟩ := h.reached k hk'
      have hp' := (grows_append ar [.internal (some a) (some b) w]).follow hp
      by_cases hra' : r = a
      · subst hra'
        exact ⟨ar.length, by simp, [false] ++ p, by rw [follow_append, hroot]; simpa using hp'⟩
      · by_cases hrb' : r = b
        · subst hrb'
          exact ⟨ar.length, by simp, [true] ++ p, by rw [follow_append, hroot]; simpa using hp'⟩
        · refine ⟨r, ?_, p, hp'⟩
          simp only [List.mem_append, List.mem_singleton]
          exact .inl ((List.mem_erase_of_ne hrb').2 ((List.mem_erase_of_ne hra').2 hr))
    · have : k = ar.length := by omega
      subst this
      exact ⟨ar.length, by simp, [], rfl⟩

/-- The finished tree: one queued entry, the last one made. -/
structure Tree (syms : List Byte) (ar : List Node) : Prop where
  forest : Forest syms ar [ar.length - 1]

/-- The merges end in one tree. -/
theorem mergeNodes_tree (fuel : Nat) (h : Forest syms ar q) (hf : q.length ≤ fuel)
    (hlast : q.length = 1 → q = [ar.length - 1]) : Tree syms (mergeNodes fuel ar q) := by
  induction fuel generalizing ar q with
  | zero => exact absurd (List.eq_nil_of_length_eq_zero (by omega)) h.nonempty
  | succ fuel ih =>
    rw [mergeNodes]
    split
    · rename_i he
      exact absurd (extractMin_none.1 he) h.nonempty
    · rename_i a q1 he
      obtain ⟨ha, rfl, -⟩ := extractMin_some he
      have hq : (q.erase a).length = q.length - 1 := List.length_erase_of_mem ha
      split
      · rename_i he'
        have h0 := extractMin_none.1 he'
        have hpos := List.length_pos_of_mem ha
        rw [h0] at hq
        have h1 : q.length = 1 := by simp at hq; omega
        refine ⟨?_⟩
        rw [← hlast h1]
        exact h
      · rename_i b q2 he'
        obtain ⟨hb, rfl, -⟩ := extractMin_some he'
        have hq2 : ((q.erase a).erase b).length = (q.erase a).length - 1 := List.length_erase_of_mem hb
        have hpos := List.length_pos_of_mem hb
        refine ih (h.merge ha hb _) ?_ ?_
        · simp only [List.length_append, List.length_singleton]; omega
        · intro h1
          simp only [List.length_append, List.length_singleton] at h1
          have : (q.erase a).erase b = [] := List.eq_nil_of_length_eq_zero (by omega)
          simp [this]

end Sys2Proof.Machine
end

