-- ==== Sys2Proof/Laws/Memory.lean ====
section
/-! SUPPORT. The laws of memory: a read after a write, and that every operation keeps the canonical form
and the bound of the capacity. -/

namespace Sys2Proof.Machine

theorem Memory.stored_write_self (m : Memory) (a : Nat) (v : Byte) :
    Memory.stored (Memory.write m a v) a = some v := by
  induction m with
  | nil => simp [Memory.write, Memory.stored]
  | cons c m ih =>
    obtain ⟨k, x⟩ := c
    unfold Memory.write
    split
    · simp [Memory.stored]
    · split
      · simp [Memory.stored]
      · rename_i h1 h2
        simp [Memory.stored, ih, Ne.symm h2]

theorem Memory.stored_write_other (m : Memory) {a b : Nat} (v : Byte) (h : a ≠ b) :
    Memory.stored (Memory.write m a v) b = Memory.stored m b := by
  induction m with
  | nil => simp [Memory.write, Memory.stored, h]
  | cons c m ih =>
    obtain ⟨k, x⟩ := c
    unfold Memory.write
    split
    · simp [Memory.stored, h]
    · split
      · rename_i h1 h2
        subst h2
        simp [Memory.stored, h]
      · simp [Memory.stored, ih]

/-- A byte after a write. -/
theorem Memory.stored_write (m : Memory) (a b : Nat) (v : Byte) :
    Memory.stored (Memory.write m a v) b = if a = b then some v else Memory.stored m b := by
  by_cases h : a = b
  · subst h; simp [Memory.stored_write_self]
  · simp [h, Memory.stored_write_other]

/-- A byte after a row of writes: the one written there, or the one that stood there. -/
theorem Memory.stored_writeBytes (vs : List Byte) (m : Memory) (a b : Nat) :
    Memory.stored (Memory.writeBytes m a vs) b =
      if a ≤ b then (vs[b - a]?).or (Memory.stored m b) else Memory.stored m b := by
  induction vs generalizing m a with
  | nil => simp [Memory.writeBytes]
  | cons v vs ih =>
    rw [Memory.writeBytes, ih, Memory.stored_write]
    rcases Nat.lt_trichotomy a b with h | h | h
    · have h1 : a + 1 ≤ b := h
      have h2 : b - a = (b - (a + 1)) + 1 := by omega
      have h3 : a ≤ b := by omega
      have h4 : a ≠ b := by omega
      simp [h1, h2, h3, h4]
    · subst h; simp
    · have h1 : ¬ a + 1 ≤ b := by omega
      have h2 : ¬ a ≤ b := by omega
      have h3 : a ≠ b := by omega
      simp [h1, h2, h3]

theorem Memory.writeBytes_append (xs ys : List Byte) (m : Memory) (a : Nat) :
    Memory.writeBytes m a (xs ++ ys) = Memory.writeBytes (Memory.writeBytes m a xs) (a + xs.length) ys := by
  induction xs generalizing m a with
  | nil => simp [Memory.writeBytes]
  | cons x xs ih =>
    simp only [List.cons_append, Memory.writeBytes, ih, List.length_cons]
    congr 1
    omega

/-- The first address of a memory, if it has one, exceeds `k`. -/
def Memory.Above (k : Nat) : Memory → Prop
  | [] => True
  | c :: _ => k < c.1

theorem Memory.wf_cons (c : Host.Cell) (m : Memory) :
    Memory.wf (c :: m) = true ↔ Memory.Above c.1 m ∧ Memory.wf m = true := by
  cases m with
  | nil => simp [Memory.wf, Memory.Above]
  | cons d m =>
    obtain ⟨a, x⟩ := c
    obtain ⟨b, y⟩ := d
    simp [Memory.wf, Memory.Above]

theorem Memory.write_above {k a : Nat} {m : Memory} (v : Byte) (ha : k < a) (h : Memory.Above k m) :
    Memory.Above k (Memory.write m a v) := by
  cases m with
  | nil => simpa [Memory.write, Memory.Above] using ha
  | cons c m =>
    obtain ⟨b, x⟩ := c
    unfold Memory.write
    split
    · simpa [Memory.Above] using ha
    · split
      · simpa [Memory.Above] using ha
      · simpa [Memory.Above] using h

/-- A write keeps the canonical form. -/
theorem Memory.write_wf {m : Memory} (a : Nat) (v : Byte) (h : Memory.wf m = true) :
    Memory.wf (Memory.write m a v) = true := by
  induction m with
  | nil => simp [Memory.write, Memory.wf]
  | cons c m ih =>
    obtain ⟨b, x⟩ := c
    have hb := (Memory.wf_cons _ _).1 h
    unfold Memory.write
    split
    · rename_i hlt
      exact (Memory.wf_cons _ _).2 ⟨by simpa [Memory.Above] using hlt, h⟩
    · split
      · rename_i _ heq
        subst heq
        exact (Memory.wf_cons _ _).2 hb
      · rename_i h1 h2
        exact (Memory.wf_cons _ _).2 ⟨Memory.write_above v (by simp; omega) hb.1, ih hb.2⟩

theorem Memory.writeBytes_wf (vs : List Byte) {m : Memory} (a : Nat) (h : Memory.wf m = true) :
    Memory.wf (Memory.writeBytes m a vs) = true := by
  induction vs generalizing m a with
  | nil => simpa [Memory.writeBytes] using h
  | cons v vs ih => exact ih (a + 1) (Memory.write_wf a v h)

/-- A write below the capacity keeps every address below it. -/
theorem Memory.write_within {m : Memory} {cap a : Nat} (v : Byte) (ha : a < cap)
    (h : Memory.within m cap = true) : Memory.within (Memory.write m a v) cap = true := by
  induction m with
  | nil => simpa [Memory.write, Memory.within] using ha
  | cons c m ih =>
    obtain ⟨b, x⟩ := c
    simp only [Memory.within, List.all_cons, Bool.and_eq_true, decide_eq_true_eq] at h ih
    unfold Memory.write
    split
    · simp [Memory.within, ha, h.1]
      simpa using h.2
    · split
      · simp [Memory.within, ha]
        simpa using h.2
      · have := ih h.2
        simp [Memory.within, h.1]
        simpa using this

theorem Memory.writeBytes_within (vs : List Byte) {m : Memory} {cap a : Nat}
    (ha : a + vs.length ≤ cap) (h : Memory.within m cap = true) :
    Memory.within (Memory.writeBytes m a vs) cap = true := by
  induction vs generalizing m a with
  | nil => simpa [Memory.writeBytes] using h
  | cons v vs ih =>
    simp only [List.length_cons] at ha
    exact ih (by omega) (Memory.write_within v (by omega) h)

end Sys2Proof.Machine
end

