-- ==== Sys2Proof/Laws/State.lean ====
section
/-! SUPPORT. One lemma per field per named update of the state, each true by rfl, so that no later proof
unfolds a record update. -/

namespace Sys2Proof.Machine

variable (s : State)

/-! ### resetFreq -/

@[simp] theorem State.resetFreq_ctrl : s.resetFreq.ctrl = s.ctrl := rfl
@[simp] theorem State.resetFreq_status : s.resetFreq.status = s.status := rfl
@[simp] theorem State.resetFreq_errInfo : s.resetFreq.errInfo = s.errInfo := rfl
@[simp] theorem State.resetFreq_stage : s.resetFreq.stage = s.stage := rfl
@[simp] theorem State.resetFreq_inLen : s.resetFreq.inLen = s.inLen := rfl
@[simp] theorem State.resetFreq_outLen : s.resetFreq.outLen = s.outLen := rfl
@[simp] theorem State.resetFreq_outLimit : s.resetFreq.outLimit = s.outLimit := rfl
@[simp] theorem State.resetFreq_nsym : s.resetFreq.nsym = 0 := rfl
@[simp] theorem State.resetFreq_hdrLen : s.resetFreq.hdrLen = s.hdrLen := rfl
@[simp] theorem State.resetFreq_payloadBits : s.resetFreq.payloadBits = s.payloadBits := rfl
@[simp] theorem State.resetFreq_resid : s.resetFreq.resid = s.resid := rfl
@[simp] theorem State.resetFreq_inCap : s.resetFreq.inCap = s.inCap := rfl
@[simp] theorem State.resetFreq_outCap : s.resetFreq.outCap = s.outCap := rfl
@[simp] theorem State.resetFreq_freq : s.resetFreq.freq = Table.fill 0 := rfl
@[simp] theorem State.resetFreq_codeLen : s.resetFreq.codeLen = s.codeLen := rfl
@[simp] theorem State.resetFreq_codeBits : s.resetFreq.codeBits = s.codeBits := rfl
@[simp] theorem State.resetFreq_cmdl : s.resetFreq.cmdl = s.cmdl := rfl
@[simp] theorem State.resetFreq_limsnap : s.resetFreq.limsnap = s.limsnap := rfl
@[simp] theorem State.resetFreq_arena : s.resetFreq.arena = s.arena := rfl
@[simp] theorem State.resetFreq_root : s.resetFreq.root = s.root := rfl
@[simp] theorem State.resetFreq_order : s.resetFreq.order = s.order := rfl
@[simp] theorem State.resetFreq_inMem : s.resetFreq.inMem = s.inMem := rfl
@[simp] theorem State.resetFreq_outMem : s.resetFreq.outMem = s.outMem := rfl
@[simp] theorem State.resetFreq_inputs : s.resetFreq.inputs = s.inputs := rfl
@[simp] theorem State.resetFreq_reply : s.resetFreq.reply = s.reply := rfl
@[simp] theorem State.resetFreq_draws : s.resetFreq.draws = s.draws := rfl
@[simp] theorem State.resetFreq_resets : s.resetFreq.resets = s.resets := rfl

/-! ### resetTree -/

@[simp] theorem State.resetTree_ctrl : s.resetTree.ctrl = s.ctrl := rfl
@[simp] theorem State.resetTree_status : s.resetTree.status = s.status := rfl
@[simp] theorem State.resetTree_errInfo : s.resetTree.errInfo = s.errInfo := rfl
@[simp] theorem State.resetTree_stage : s.resetTree.stage = s.stage := rfl
@[simp] theorem State.resetTree_inLen : s.resetTree.inLen = s.inLen := rfl
@[simp] theorem State.resetTree_outLen : s.resetTree.outLen = s.outLen := rfl
@[simp] theorem State.resetTree_outLimit : s.resetTree.outLimit = s.outLimit := rfl
@[simp] theorem State.resetTree_nsym : s.resetTree.nsym = s.nsym := rfl
@[simp] theorem State.resetTree_hdrLen : s.resetTree.hdrLen = s.hdrLen := rfl
@[simp] theorem State.resetTree_payloadBits : s.resetTree.payloadBits = s.payloadBits := rfl
@[simp] theorem State.resetTree_resid : s.resetTree.resid = s.resid := rfl
@[simp] theorem State.resetTree_inCap : s.resetTree.inCap = s.inCap := rfl
@[simp] theorem State.resetTree_outCap : s.resetTree.outCap = s.outCap := rfl
@[simp] theorem State.resetTree_freq : s.resetTree.freq = s.freq := rfl
@[simp] theorem State.resetTree_codeLen : s.resetTree.codeLen = s.codeLen := rfl
@[simp] theorem State.resetTree_codeBits : s.resetTree.codeBits = s.codeBits := rfl
@[simp] theorem State.resetTree_cmdl : s.resetTree.cmdl = s.cmdl := rfl
@[simp] theorem State.resetTree_limsnap : s.resetTree.limsnap = s.limsnap := rfl
@[simp] theorem State.resetTree_arena : s.resetTree.arena = [] := rfl
@[simp] theorem State.resetTree_root : s.resetTree.root = none := rfl
@[simp] theorem State.resetTree_order : s.resetTree.order = s.order := rfl
@[simp] theorem State.resetTree_inMem : s.resetTree.inMem = s.inMem := rfl
@[simp] theorem State.resetTree_outMem : s.resetTree.outMem = s.outMem := rfl
@[simp] theorem State.resetTree_inputs : s.resetTree.inputs = s.inputs := rfl
@[simp] theorem State.resetTree_reply : s.resetTree.reply = s.reply := rfl
@[simp] theorem State.resetTree_draws : s.resetTree.draws = s.draws := rfl
@[simp] theorem State.resetTree_resets : s.resetTree.resets = s.resets := rfl

/-! ### resetCode -/

@[simp] theorem State.resetCode_ctrl : s.resetCode.ctrl = s.ctrl := rfl
@[simp] theorem State.resetCode_status : s.resetCode.status = s.status := rfl
@[simp] theorem State.resetCode_errInfo : s.resetCode.errInfo = s.errInfo := rfl
@[simp] theorem State.resetCode_stage : s.resetCode.stage = s.stage := rfl
@[simp] theorem State.resetCode_inLen : s.resetCode.inLen = s.inLen := rfl
@[simp] theorem State.resetCode_outLen : s.resetCode.outLen = s.outLen := rfl
@[simp] theorem State.resetCode_outLimit : s.resetCode.outLimit = s.outLimit := rfl
@[simp] theorem State.resetCode_nsym : s.resetCode.nsym = s.nsym := rfl
@[simp] theorem State.resetCode_hdrLen : s.resetCode.hdrLen = s.hdrLen := rfl
@[simp] theorem State.resetCode_payloadBits : s.resetCode.payloadBits = s.payloadBits := rfl
@[simp] theorem State.resetCode_resid : s.resetCode.resid = s.resid := rfl
@[simp] theorem State.resetCode_inCap : s.resetCode.inCap = s.inCap := rfl
@[simp] theorem State.resetCode_outCap : s.resetCode.outCap = s.outCap := rfl
@[simp] theorem State.resetCode_freq : s.resetCode.freq = s.freq := rfl
@[simp] theorem State.resetCode_codeLen : s.resetCode.codeLen = Table.fill CodeLen.absent := rfl
@[simp] theorem State.resetCode_codeBits : s.resetCode.codeBits = Table.fill 0 := rfl
@[simp] theorem State.resetCode_cmdl : s.resetCode.cmdl = s.cmdl := rfl
@[simp] theorem State.resetCode_limsnap : s.resetCode.limsnap = s.limsnap := rfl
@[simp] theorem State.resetCode_arena : s.resetCode.arena = s.arena := rfl
@[simp] theorem State.resetCode_root : s.resetCode.root = s.root := rfl
@[simp] theorem State.resetCode_order : s.resetCode.order = [] := rfl
@[simp] theorem State.resetCode_inMem : s.resetCode.inMem = s.inMem := rfl
@[simp] theorem State.resetCode_outMem : s.resetCode.outMem = s.outMem := rfl
@[simp] theorem State.resetCode_inputs : s.resetCode.inputs = s.inputs := rfl
@[simp] theorem State.resetCode_reply : s.resetCode.reply = s.reply := rfl
@[simp] theorem State.resetCode_draws : s.resetCode.draws = s.draws := rfl
@[simp] theorem State.resetCode_resets : s.resetCode.resets = s.resets := rfl

/-! ### resetHdr -/

@[simp] theorem State.resetHdr_ctrl : s.resetHdr.ctrl = s.ctrl := rfl
@[simp] theorem State.resetHdr_status : s.resetHdr.status = s.status := rfl
@[simp] theorem State.resetHdr_errInfo : s.resetHdr.errInfo = s.errInfo := rfl
@[simp] theorem State.resetHdr_stage : s.resetHdr.stage = s.stage := rfl
@[simp] theorem State.resetHdr_inLen : s.resetHdr.inLen = s.inLen := rfl
@[simp] theorem State.resetHdr_outLen : s.resetHdr.outLen = 0 := rfl
@[simp] theorem State.resetHdr_outLimit : s.resetHdr.outLimit = s.outLimit := rfl
@[simp] theorem State.resetHdr_nsym : s.resetHdr.nsym = s.nsym := rfl
@[simp] theorem State.resetHdr_hdrLen : s.resetHdr.hdrLen = 0 := rfl
@[simp] theorem State.resetHdr_payloadBits : s.resetHdr.payloadBits = s.payloadBits := rfl
@[simp] theorem State.resetHdr_resid : s.resetHdr.resid = s.resid := rfl
@[simp] theorem State.resetHdr_inCap : s.resetHdr.inCap = s.inCap := rfl
@[simp] theorem State.resetHdr_outCap : s.resetHdr.outCap = s.outCap := rfl
@[simp] theorem State.resetHdr_freq : s.resetHdr.freq = s.freq := rfl
@[simp] theorem State.resetHdr_codeLen : s.resetHdr.codeLen = s.codeLen := rfl
@[simp] theorem State.resetHdr_codeBits : s.resetHdr.codeBits = s.codeBits := rfl
@[simp] theorem State.resetHdr_cmdl : s.resetHdr.cmdl = s.cmdl := rfl
@[simp] theorem State.resetHdr_limsnap : s.resetHdr.limsnap = s.limsnap := rfl
@[simp] theorem State.resetHdr_arena : s.resetHdr.arena = s.arena := rfl
@[simp] theorem State.resetHdr_root : s.resetHdr.root = s.root := rfl
@[simp] theorem State.resetHdr_order : s.resetHdr.order = s.order := rfl
@[simp] theorem State.resetHdr_inMem : s.resetHdr.inMem = s.inMem := rfl
@[simp] theorem State.resetHdr_outMem : s.resetHdr.outMem = s.outMem := rfl
@[simp] theorem State.resetHdr_inputs : s.resetHdr.inputs = s.inputs := rfl
@[simp] theorem State.resetHdr_reply : s.resetHdr.reply = s.reply := rfl
@[simp] theorem State.resetHdr_draws : s.resetHdr.draws = s.draws := rfl
@[simp] theorem State.resetHdr_resets : s.resetHdr.resets = s.resets := rfl

/-! ### resetPay -/

@[simp] theorem State.resetPay_ctrl : s.resetPay.ctrl = s.ctrl := rfl
@[simp] theorem State.resetPay_status : s.resetPay.status = s.status := rfl
@[simp] theorem State.resetPay_errInfo : s.resetPay.errInfo = s.errInfo := rfl
@[simp] theorem State.resetPay_stage : s.resetPay.stage = s.stage := rfl
@[simp] theorem State.resetPay_inLen : s.resetPay.inLen = s.inLen := rfl
@[simp] theorem State.resetPay_outLen : s.resetPay.outLen = 0 := rfl
@[simp] theorem State.resetPay_outLimit : s.resetPay.outLimit = s.outLimit := rfl
@[simp] theorem State.resetPay_nsym : s.resetPay.nsym = s.nsym := rfl
@[simp] theorem State.resetPay_hdrLen : s.resetPay.hdrLen = s.hdrLen := rfl
@[simp] theorem State.resetPay_payloadBits : s.resetPay.payloadBits = 0 := rfl
@[simp] theorem State.resetPay_resid : s.resetPay.resid = 0 := rfl
@[simp] theorem State.resetPay_inCap : s.resetPay.inCap = s.inCap := rfl
@[simp] theorem State.resetPay_outCap : s.resetPay.outCap = s.outCap := rfl
@[simp] theorem State.resetPay_freq : s.resetPay.freq = s.freq := rfl
@[simp] theorem State.resetPay_codeLen : s.resetPay.codeLen = s.codeLen := rfl
@[simp] theorem State.resetPay_codeBits : s.resetPay.codeBits = s.codeBits := rfl
@[simp] theorem State.resetPay_cmdl : s.resetPay.cmdl = s.cmdl := rfl
@[simp] theorem State.resetPay_limsnap : s.resetPay.limsnap = s.limsnap := rfl
@[simp] theorem State.resetPay_arena : s.resetPay.arena = s.arena := rfl
@[simp] theorem State.resetPay_root : s.resetPay.root = s.root := rfl
@[simp] theorem State.resetPay_order : s.resetPay.order = s.order := rfl
@[simp] theorem State.resetPay_inMem : s.resetPay.inMem = s.inMem := rfl
@[simp] theorem State.resetPay_outMem : s.resetPay.outMem = s.outMem := rfl
@[simp] theorem State.resetPay_inputs : s.resetPay.inputs = s.inputs := rfl
@[simp] theorem State.resetPay_reply : s.resetPay.reply = s.reply := rfl
@[simp] theorem State.resetPay_draws : s.resetPay.draws = s.draws := rfl
@[simp] theorem State.resetPay_resets : s.resetPay.resets = s.resets := rfl

/-! ### invalidateAll -/

@[simp] theorem State.invalidateAll_ctrl : s.invalidateAll.ctrl = s.ctrl := by
  simp only [State.invalidateAll, State.resetFreq, State.resetTree, State.resetCode, State.resetHdr, State.resetPay]
@[simp] theorem State.invalidateAll_status : s.invalidateAll.status = s.status := by
  simp only [State.invalidateAll, State.resetFreq, State.resetTree, State.resetCode, State.resetHdr, State.resetPay]
@[simp] theorem State.invalidateAll_errInfo : s.invalidateAll.errInfo = s.errInfo := by
  simp only [State.invalidateAll, State.resetFreq, State.resetTree, State.resetCode, State.resetHdr, State.resetPay]
@[simp] theorem State.invalidateAll_stage : s.invalidateAll.stage = Stage.none := by
  simp only [State.invalidateAll, State.resetFreq, State.resetTree, State.resetCode, State.resetHdr, State.resetPay]
@[simp] theorem State.invalidateAll_inLen : s.invalidateAll.inLen = s.inLen := by
  simp only [State.invalidateAll, State.resetFreq, State.resetTree, State.resetCode, State.resetHdr, State.resetPay]
@[simp] theorem State.invalidateAll_outLen : s.invalidateAll.outLen = 0 := by
  simp only [State.invalidateAll, State.resetFreq, State.resetTree, State.resetCode, State.resetHdr, State.resetPay]
@[simp] theorem State.invalidateAll_outLimit : s.invalidateAll.outLimit = s.outLimit := by
  simp only [State.invalidateAll, State.resetFreq, State.resetTree, State.resetCode, State.resetHdr, State.resetPay]
@[simp] theorem State.invalidateAll_nsym : s.invalidateAll.nsym = 0 := by
  simp only [State.invalidateAll, State.resetFreq, State.resetTree, State.resetCode, State.resetHdr, State.resetPay]
@[simp] theorem State.invalidateAll_hdrLen : s.invalidateAll.hdrLen = 0 := by
  simp only [State.invalidateAll, State.resetFreq, State.resetTree, State.resetCode, State.resetHdr, State.resetPay]
@[simp] theorem State.invalidateAll_payloadBits : s.invalidateAll.payloadBits = 0 := by
  simp only [State.invalidateAll, State.resetFreq, State.resetTree, State.resetCode, State.resetHdr, State.resetPay]
@[simp] theorem State.invalidateAll_resid : s.invalidateAll.resid = 0 := by
  simp only [State.invalidateAll, State.resetFreq, State.resetTree, State.resetCode, State.resetHdr, State.resetPay]
@[simp] theorem State.invalidateAll_inCap : s.invalidateAll.inCap = s.inCap := by
  simp only [State.invalidateAll, State.resetFreq, State.resetTree, State.resetCode, State.resetHdr, State.resetPay]
@[simp] theorem State.invalidateAll_outCap : s.invalidateAll.outCap = s.outCap := by
  simp only [State.invalidateAll, State.resetFreq, State.resetTree, State.resetCode, State.resetHdr, State.resetPay]
@[simp] theorem State.invalidateAll_freq : s.invalidateAll.freq = Table.fill 0 := by
  simp only [State.invalidateAll, State.resetFreq, State.resetTree, State.resetCode, State.resetHdr, State.resetPay]
@[simp] theorem State.invalidateAll_codeLen : s.invalidateAll.codeLen = Table.fill CodeLen.absent := by
  simp only [State.invalidateAll, State.resetFreq, State.resetTree, State.resetCode, State.resetHdr, State.resetPay]
@[simp] theorem State.invalidateAll_codeBits : s.invalidateAll.codeBits = Table.fill 0 := by
  simp only [State.invalidateAll, State.resetFreq, State.resetTree, State.resetCode, State.resetHdr, State.resetPay]
@[simp] theorem State.invalidateAll_cmdl : s.invalidateAll.cmdl = s.cmdl := by
  simp only [State.invalidateAll, State.resetFreq, State.resetTree, State.resetCode, State.resetHdr, State.resetPay]
@[simp] theorem State.invalidateAll_limsnap : s.invalidateAll.limsnap = s.limsnap := by
  simp only [State.invalidateAll, State.resetFreq, State.resetTree, State.resetCode, State.resetHdr, State.resetPay]
@[simp] theorem State.invalidateAll_arena : s.invalidateAll.arena = [] := by
  simp only [State.invalidateAll, State.resetFreq, State.resetTree, State.resetCode, State.resetHdr, State.resetPay]
@[simp] theorem State.invalidateAll_root : s.invalidateAll.root = none := by
  simp only [State.invalidateAll, State.resetFreq, State.resetTree, State.resetCode, State.resetHdr, State.resetPay]
@[simp] theorem State.invalidateAll_order : s.invalidateAll.order = [] := by
  simp only [State.invalidateAll, State.resetFreq, State.resetTree, State.resetCode, State.resetHdr, State.resetPay]
@[simp] theorem State.invalidateAll_inMem : s.invalidateAll.inMem = s.inMem := by
  simp only [State.invalidateAll, State.resetFreq, State.resetTree, State.resetCode, State.resetHdr, State.resetPay]
@[simp] theorem State.invalidateAll_outMem : s.invalidateAll.outMem = s.outMem := by
  simp only [State.invalidateAll, State.resetFreq, State.resetTree, State.resetCode, State.resetHdr, State.resetPay]
@[simp] theorem State.invalidateAll_inputs : s.invalidateAll.inputs = s.inputs := by
  simp only [State.invalidateAll, State.resetFreq, State.resetTree, State.resetCode, State.resetHdr, State.resetPay]
@[simp] theorem State.invalidateAll_reply : s.invalidateAll.reply = s.reply := by
  simp only [State.invalidateAll, State.resetFreq, State.resetTree, State.resetCode, State.resetHdr, State.resetPay]
@[simp] theorem State.invalidateAll_draws : s.invalidateAll.draws = s.draws := by
  simp only [State.invalidateAll, State.resetFreq, State.resetTree, State.resetCode, State.resetHdr, State.resetPay]
@[simp] theorem State.invalidateAll_resets : s.invalidateAll.resets = s.resets := by
  simp only [State.invalidateAll, State.resetFreq, State.resetTree, State.resetCode, State.resetHdr, State.resetPay]

/-! ### setCode -/

@[simp] theorem State.setCode_ctrl (sym : Byte) (c : Bits) : (s.setCode sym c).ctrl = s.ctrl := rfl
@[simp] theorem State.setCode_status (sym : Byte) (c : Bits) : (s.setCode sym c).status = s.status := rfl
@[simp] theorem State.setCode_errInfo (sym : Byte) (c : Bits) : (s.setCode sym c).errInfo = s.errInfo := rfl
@[simp] theorem State.setCode_stage (sym : Byte) (c : Bits) : (s.setCode sym c).stage = s.stage := rfl
@[simp] theorem State.setCode_inLen (sym : Byte) (c : Bits) : (s.setCode sym c).inLen = s.inLen := rfl
@[simp] theorem State.setCode_outLen (sym : Byte) (c : Bits) : (s.setCode sym c).outLen = s.outLen := rfl
@[simp] theorem State.setCode_outLimit (sym : Byte) (c : Bits) : (s.setCode sym c).outLimit = s.outLimit := rfl
@[simp] theorem State.setCode_nsym (sym : Byte) (c : Bits) : (s.setCode sym c).nsym = s.nsym := rfl
@[simp] theorem State.setCode_hdrLen (sym : Byte) (c : Bits) : (s.setCode sym c).hdrLen = s.hdrLen := rfl
@[simp] theorem State.setCode_payloadBits (sym : Byte) (c : Bits) : (s.setCode sym c).payloadBits = s.payloadBits := rfl
@[simp] theorem State.setCode_resid (sym : Byte) (c : Bits) : (s.setCode sym c).resid = s.resid := rfl
@[simp] theorem State.setCode_inCap (sym : Byte) (c : Bits) : (s.setCode sym c).inCap = s.inCap := rfl
@[simp] theorem State.setCode_outCap (sym : Byte) (c : Bits) : (s.setCode sym c).outCap = s.outCap := rfl
@[simp] theorem State.setCode_freq (sym : Byte) (c : Bits) : (s.setCode sym c).freq = s.freq := rfl
@[simp] theorem State.setCode_codeLen (sym : Byte) (c : Bits) : (s.setCode sym c).codeLen = s.codeLen.put sym { len := BitVec.ofNat 8 c.length, present := true } := rfl
@[simp] theorem State.setCode_codeBits (sym : Byte) (c : Bits) : (s.setCode sym c).codeBits = s.codeBits.put sym (msbFirst 256 c) := rfl
@[simp] theorem State.setCode_cmdl (sym : Byte) (c : Bits) : (s.setCode sym c).cmdl = s.cmdl := rfl
@[simp] theorem State.setCode_limsnap (sym : Byte) (c : Bits) : (s.setCode sym c).limsnap = s.limsnap := rfl
@[simp] theorem State.setCode_arena (sym : Byte) (c : Bits) : (s.setCode sym c).arena = s.arena := rfl
@[simp] theorem State.setCode_root (sym : Byte) (c : Bits) : (s.setCode sym c).root = s.root := rfl
@[simp] theorem State.setCode_order (sym : Byte) (c : Bits) : (s.setCode sym c).order = s.order := rfl
@[simp] theorem State.setCode_inMem (sym : Byte) (c : Bits) : (s.setCode sym c).inMem = s.inMem := rfl
@[simp] theorem State.setCode_outMem (sym : Byte) (c : Bits) : (s.setCode sym c).outMem = s.outMem := rfl
@[simp] theorem State.setCode_inputs (sym : Byte) (c : Bits) : (s.setCode sym c).inputs = s.inputs := rfl
@[simp] theorem State.setCode_reply (sym : Byte) (c : Bits) : (s.setCode sym c).reply = s.reply := rfl
@[simp] theorem State.setCode_draws (sym : Byte) (c : Bits) : (s.setCode sym c).draws = s.draws := rfl
@[simp] theorem State.setCode_resets (sym : Byte) (c : Bits) : (s.setCode sym c).resets = s.resets := rfl

/-! ### accept -/

@[simp] theorem State.accept_ctrl (w : Word) : (s.accept w).ctrl = s.ctrl := rfl
@[simp] theorem State.accept_status (w : Word) : (s.accept w).status = { s.status with busy := true, done := false, err := false, errCode := 0, errOp := 0 } := rfl
@[simp] theorem State.accept_errInfo (w : Word) : (s.accept w).errInfo = 0 := rfl
@[simp] theorem State.accept_stage (w : Word) : (s.accept w).stage = s.stage := rfl
@[simp] theorem State.accept_inLen (w : Word) : (s.accept w).inLen = s.inLen := rfl
@[simp] theorem State.accept_outLen (w : Word) : (s.accept w).outLen = s.outLen := rfl
@[simp] theorem State.accept_outLimit (w : Word) : (s.accept w).outLimit = s.outLimit := rfl
@[simp] theorem State.accept_nsym (w : Word) : (s.accept w).nsym = s.nsym := rfl
@[simp] theorem State.accept_hdrLen (w : Word) : (s.accept w).hdrLen = s.hdrLen := rfl
@[simp] theorem State.accept_payloadBits (w : Word) : (s.accept w).payloadBits = s.payloadBits := rfl
@[simp] theorem State.accept_resid (w : Word) : (s.accept w).resid = s.resid := rfl
@[simp] theorem State.accept_inCap (w : Word) : (s.accept w).inCap = s.inCap := rfl
@[simp] theorem State.accept_outCap (w : Word) : (s.accept w).outCap = s.outCap := rfl
@[simp] theorem State.accept_freq (w : Word) : (s.accept w).freq = s.freq := rfl
@[simp] theorem State.accept_codeLen (w : Word) : (s.accept w).codeLen = s.codeLen := rfl
@[simp] theorem State.accept_codeBits (w : Word) : (s.accept w).codeBits = s.codeBits := rfl
@[simp] theorem State.accept_cmdl (w : Word) : (s.accept w).cmdl = w := rfl
@[simp] theorem State.accept_limsnap (w : Word) : (s.accept w).limsnap = s.ctrl.limitEn := rfl
@[simp] theorem State.accept_arena (w : Word) : (s.accept w).arena = s.arena := rfl
@[simp] theorem State.accept_root (w : Word) : (s.accept w).root = s.root := rfl
@[simp] theorem State.accept_order (w : Word) : (s.accept w).order = s.order := rfl
@[simp] theorem State.accept_inMem (w : Word) : (s.accept w).inMem = s.inMem := rfl
@[simp] theorem State.accept_outMem (w : Word) : (s.accept w).outMem = s.outMem := rfl
@[simp] theorem State.accept_inputs (w : Word) : (s.accept w).inputs = s.inputs := rfl
@[simp] theorem State.accept_reply (w : Word) : (s.accept w).reply = s.reply := rfl
@[simp] theorem State.accept_draws (w : Word) : (s.accept w).draws = s.draws := rfl
@[simp] theorem State.accept_resets (w : Word) : (s.accept w).resets = s.resets := rfl

/-! ### takeError -/

@[simp] theorem State.takeError_ctrl (e : Err) : (s.takeError e).ctrl = s.ctrl := rfl
@[simp] theorem State.takeError_status (e : Err) : (s.takeError e).status = { s.status with err := true, errCode := e.code.toByte, errOp := e.op } := rfl
@[simp] theorem State.takeError_errInfo (e : Err) : (s.takeError e).errInfo = BitVec.ofNat 32 (min e.info 0xFFFFFFFF) := rfl
@[simp] theorem State.takeError_stage (e : Err) : (s.takeError e).stage = s.stage := rfl
@[simp] theorem State.takeError_inLen (e : Err) : (s.takeError e).inLen = s.inLen := rfl
@[simp] theorem State.takeError_outLen (e : Err) : (s.takeError e).outLen = s.outLen := rfl
@[simp] theorem State.takeError_outLimit (e : Err) : (s.takeError e).outLimit = s.outLimit := rfl
@[simp] theorem State.takeError_nsym (e : Err) : (s.takeError e).nsym = s.nsym := rfl
@[simp] theorem State.takeError_hdrLen (e : Err) : (s.takeError e).hdrLen = s.hdrLen := rfl
@[simp] theorem State.takeError_payloadBits (e : Err) : (s.takeError e).payloadBits = s.payloadBits := rfl
@[simp] theorem State.takeError_resid (e : Err) : (s.takeError e).resid = s.resid := rfl
@[simp] theorem State.takeError_inCap (e : Err) : (s.takeError e).inCap = s.inCap := rfl
@[simp] theorem State.takeError_outCap (e : Err) : (s.takeError e).outCap = s.outCap := rfl
@[simp] theorem State.takeError_freq (e : Err) : (s.takeError e).freq = s.freq := rfl
@[simp] theorem State.takeError_codeLen (e : Err) : (s.takeError e).codeLen = s.codeLen := rfl
@[simp] theorem State.takeError_codeBits (e : Err) : (s.takeError e).codeBits = s.codeBits := rfl
@[simp] theorem State.takeError_cmdl (e : Err) : (s.takeError e).cmdl = s.cmdl := rfl
@[simp] theorem State.takeError_limsnap (e : Err) : (s.takeError e).limsnap = s.limsnap := rfl
@[simp] theorem State.takeError_arena (e : Err) : (s.takeError e).arena = s.arena := rfl
@[simp] theorem State.takeError_root (e : Err) : (s.takeError e).root = s.root := rfl
@[simp] theorem State.takeError_order (e : Err) : (s.takeError e).order = s.order := rfl
@[simp] theorem State.takeError_inMem (e : Err) : (s.takeError e).inMem = s.inMem := rfl
@[simp] theorem State.takeError_outMem (e : Err) : (s.takeError e).outMem = s.outMem := rfl
@[simp] theorem State.takeError_inputs (e : Err) : (s.takeError e).inputs = s.inputs := rfl
@[simp] theorem State.takeError_reply (e : Err) : (s.takeError e).reply = s.reply := rfl
@[simp] theorem State.takeError_draws (e : Err) : (s.takeError e).draws = s.draws := rfl
@[simp] theorem State.takeError_resets (e : Err) : (s.takeError e).resets = s.resets := rfl

/-! ### finish -/

@[simp] theorem State.finish_ctrl : s.finish.ctrl = s.ctrl := rfl
@[simp] theorem State.finish_status : s.finish.status = { s.status with busy := false, done := true } := rfl
@[simp] theorem State.finish_errInfo : s.finish.errInfo = s.errInfo := rfl
@[simp] theorem State.finish_stage : s.finish.stage = s.stage := rfl
@[simp] theorem State.finish_inLen : s.finish.inLen = s.inLen := rfl
@[simp] theorem State.finish_outLen : s.finish.outLen = s.outLen := rfl
@[simp] theorem State.finish_outLimit : s.finish.outLimit = s.outLimit := rfl
@[simp] theorem State.finish_nsym : s.finish.nsym = s.nsym := rfl
@[simp] theorem State.finish_hdrLen : s.finish.hdrLen = s.hdrLen := rfl
@[simp] theorem State.finish_payloadBits : s.finish.payloadBits = s.payloadBits := rfl
@[simp] theorem State.finish_resid : s.finish.resid = s.resid := rfl
@[simp] theorem State.finish_inCap : s.finish.inCap = s.inCap := rfl
@[simp] theorem State.finish_outCap : s.finish.outCap = s.outCap := rfl
@[simp] theorem State.finish_freq : s.finish.freq = s.freq := rfl
@[simp] theorem State.finish_codeLen : s.finish.codeLen = s.codeLen := rfl
@[simp] theorem State.finish_codeBits : s.finish.codeBits = s.codeBits := rfl
@[simp] theorem State.finish_cmdl : s.finish.cmdl = s.cmdl := rfl
@[simp] theorem State.finish_limsnap : s.finish.limsnap = s.limsnap := rfl
@[simp] theorem State.finish_arena : s.finish.arena = s.arena := rfl
@[simp] theorem State.finish_root : s.finish.root = s.root := rfl
@[simp] theorem State.finish_order : s.finish.order = s.order := rfl
@[simp] theorem State.finish_inMem : s.finish.inMem = s.inMem := rfl
@[simp] theorem State.finish_outMem : s.finish.outMem = s.outMem := rfl
@[simp] theorem State.finish_inputs : s.finish.inputs = s.inputs := rfl
@[simp] theorem State.finish_reply : s.finish.reply = s.reply := rfl
@[simp] theorem State.finish_draws : s.finish.draws = s.draws := rfl
@[simp] theorem State.finish_resets : s.finish.resets = s.resets := rfl

/-! ### answer -/

@[simp] theorem State.answer_ctrl (r : Reply) : (s.answer r).ctrl = s.ctrl := rfl
@[simp] theorem State.answer_status (r : Reply) : (s.answer r).status = s.status := rfl
@[simp] theorem State.answer_errInfo (r : Reply) : (s.answer r).errInfo = s.errInfo := rfl
@[simp] theorem State.answer_stage (r : Reply) : (s.answer r).stage = s.stage := rfl
@[simp] theorem State.answer_inLen (r : Reply) : (s.answer r).inLen = s.inLen := rfl
@[simp] theorem State.answer_outLen (r : Reply) : (s.answer r).outLen = s.outLen := rfl
@[simp] theorem State.answer_outLimit (r : Reply) : (s.answer r).outLimit = s.outLimit := rfl
@[simp] theorem State.answer_nsym (r : Reply) : (s.answer r).nsym = s.nsym := rfl
@[simp] theorem State.answer_hdrLen (r : Reply) : (s.answer r).hdrLen = s.hdrLen := rfl
@[simp] theorem State.answer_payloadBits (r : Reply) : (s.answer r).payloadBits = s.payloadBits := rfl
@[simp] theorem State.answer_resid (r : Reply) : (s.answer r).resid = s.resid := rfl
@[simp] theorem State.answer_inCap (r : Reply) : (s.answer r).inCap = s.inCap := rfl
@[simp] theorem State.answer_outCap (r : Reply) : (s.answer r).outCap = s.outCap := rfl
@[simp] theorem State.answer_freq (r : Reply) : (s.answer r).freq = s.freq := rfl
@[simp] theorem State.answer_codeLen (r : Reply) : (s.answer r).codeLen = s.codeLen := rfl
@[simp] theorem State.answer_codeBits (r : Reply) : (s.answer r).codeBits = s.codeBits := rfl
@[simp] theorem State.answer_cmdl (r : Reply) : (s.answer r).cmdl = s.cmdl := rfl
@[simp] theorem State.answer_limsnap (r : Reply) : (s.answer r).limsnap = s.limsnap := rfl
@[simp] theorem State.answer_arena (r : Reply) : (s.answer r).arena = s.arena := rfl
@[simp] theorem State.answer_root (r : Reply) : (s.answer r).root = s.root := rfl
@[simp] theorem State.answer_order (r : Reply) : (s.answer r).order = s.order := rfl
@[simp] theorem State.answer_inMem (r : Reply) : (s.answer r).inMem = s.inMem := rfl
@[simp] theorem State.answer_outMem (r : Reply) : (s.answer r).outMem = s.outMem := rfl
@[simp] theorem State.answer_inputs (r : Reply) : (s.answer r).inputs = s.inputs := rfl
@[simp] theorem State.answer_reply (r : Reply) : (s.answer r).reply = some r := rfl
@[simp] theorem State.answer_draws (r : Reply) : (s.answer r).draws = s.draws := rfl
@[simp] theorem State.answer_resets (r : Reply) : (s.answer r).resets = s.resets := rfl

/-! ### dropWrite -/

@[simp] theorem State.dropWrite_ctrl : s.dropWrite.ctrl = s.ctrl := rfl
@[simp] theorem State.dropWrite_status : s.dropWrite.status = { s.status with wrBusy := true } := rfl
@[simp] theorem State.dropWrite_errInfo : s.dropWrite.errInfo = s.errInfo := rfl
@[simp] theorem State.dropWrite_stage : s.dropWrite.stage = s.stage := rfl
@[simp] theorem State.dropWrite_inLen : s.dropWrite.inLen = s.inLen := rfl
@[simp] theorem State.dropWrite_outLen : s.dropWrite.outLen = s.outLen := rfl
@[simp] theorem State.dropWrite_outLimit : s.dropWrite.outLimit = s.outLimit := rfl
@[simp] theorem State.dropWrite_nsym : s.dropWrite.nsym = s.nsym := rfl
@[simp] theorem State.dropWrite_hdrLen : s.dropWrite.hdrLen = s.hdrLen := rfl
@[simp] theorem State.dropWrite_payloadBits : s.dropWrite.payloadBits = s.payloadBits := rfl
@[simp] theorem State.dropWrite_resid : s.dropWrite.resid = s.resid := rfl
@[simp] theorem State.dropWrite_inCap : s.dropWrite.inCap = s.inCap := rfl
@[simp] theorem State.dropWrite_outCap : s.dropWrite.outCap = s.outCap := rfl
@[simp] theorem State.dropWrite_freq : s.dropWrite.freq = s.freq := rfl
@[simp] theorem State.dropWrite_codeLen : s.dropWrite.codeLen = s.codeLen := rfl
@[simp] theorem State.dropWrite_codeBits : s.dropWrite.codeBits = s.codeBits := rfl
@[simp] theorem State.dropWrite_cmdl : s.dropWrite.cmdl = s.cmdl := rfl
@[simp] theorem State.dropWrite_limsnap : s.dropWrite.limsnap = s.limsnap := rfl
@[simp] theorem State.dropWrite_arena : s.dropWrite.arena = s.arena := rfl
@[simp] theorem State.dropWrite_root : s.dropWrite.root = s.root := rfl
@[simp] theorem State.dropWrite_order : s.dropWrite.order = s.order := rfl
@[simp] theorem State.dropWrite_inMem : s.dropWrite.inMem = s.inMem := rfl
@[simp] theorem State.dropWrite_outMem : s.dropWrite.outMem = s.outMem := rfl
@[simp] theorem State.dropWrite_inputs : s.dropWrite.inputs = s.inputs := rfl
@[simp] theorem State.dropWrite_reply : s.dropWrite.reply = some .okay := rfl
@[simp] theorem State.dropWrite_draws : s.dropWrite.draws = s.draws := rfl
@[simp] theorem State.dropWrite_resets : s.dropWrite.resets = s.resets := rfl

end Sys2Proof.Machine
end

