-- ==== Sys2Proof/Laws/Stage.lean ====
section
/-! SUPPORT. What the shared operations of a command can do, said once: invalidation, the stage wrapper
(40_common.md R138), the composites (R139) and the completion step (R133). -/

namespace Sys2Proof.Machine

/-! ### Frames -/

theorem HostSideKept.refl (s : State) : HostSideKept s s :=
  ⟨rfl, rfl, rfl, rfl, rfl, rfl, rfl, rfl, rfl, rfl, rfl, rfl⟩

theorem HostSideKept.trans {s t u : State} (h : HostSideKept s t) (k : HostSideKept t u) :
    HostSideKept s u :=
  ⟨k.1.trans h.1, k.2.trans h.2, k.3.trans h.3, k.4.trans h.4, k.5.trans h.5, k.6.trans h.6,
    k.7.trans h.7, k.8.trans h.8, k.9.trans h.9, k.10.trans h.10, k.11.trans h.11, k.12.trans h.12⟩

theorem HostSideKept.inByte {s t : State} (h : HostSideKept s t) : t.inByte = s.inByte := by
  funext a
  simp only [State.inByte, h.inMem, h.resets]

/-- A command leaves its own input as it is. -/
theorem HostSideKept.input {s t : State} (h : HostSideKept s t) : t.input = s.input := by
  simp only [State.input, h.inByte, h.inLen]

theorem outByte_congr {s t : State} (hm : t.outMem = s.outMem) (hr : t.resets = s.resets) :
    t.outByte = s.outByte := by
  funext a
  simp only [State.outByte, hm, hr]

/-! ### Invalidation (R137) -/

theorem hostSideKept_invalidate (s : State) (op : StageOp) : HostSideKept s (s.invalidate op) := by
  cases op <;> constructor <;> simp [State.invalidate]

@[simp] theorem invalidate_status (s : State) (op : StageOp) : (s.invalidate op).status = s.status := by
  cases op <;> simp [State.invalidate]

@[simp] theorem invalidate_errInfo (s : State) (op : StageOp) :
    (s.invalidate op).errInfo = s.errInfo := by
  cases op <;> simp [State.invalidate]

@[simp] theorem invalidate_outMem (s : State) (op : StageOp) : (s.invalidate op).outMem = s.outMem := by
  cases op <;> simp [State.invalidate]

@[simp] theorem invalidate_inMem (s : State) (op : StageOp) : (s.invalidate op).inMem = s.inMem := by
  cases op <;> simp [State.invalidate]

@[simp] theorem invalidate_resets (s : State) (op : StageOp) : (s.invalidate op).resets = s.resets := by
  cases op <;> simp [State.invalidate]

@[simp] theorem invalidate_inLen (s : State) (op : StageOp) : (s.invalidate op).inLen = s.inLen := by
  cases op <;> simp [State.invalidate]

@[simp] theorem invalidate_inCap (s : State) (op : StageOp) : (s.invalidate op).inCap = s.inCap := by
  cases op <;> simp [State.invalidate]

@[simp] theorem invalidate_outCap (s : State) (op : StageOp) : (s.invalidate op).outCap = s.outCap := by
  cases op <;> simp [State.invalidate]

@[simp] theorem invalidate_limsnap (s : State) (op : StageOp) :
    (s.invalidate op).limsnap = s.limsnap := by
  cases op <;> simp [State.invalidate]

@[simp] theorem invalidate_outLimit (s : State) (op : StageOp) :
    (s.invalidate op).outLimit = s.outLimit := by
  cases op <;> simp [State.invalidate]

/-- The STAGE bits an invalidation leaves. -/
@[simp] theorem invalidate_stage (s : State) (op : StageOp) :
    (s.invalidate op).stage = s.stage.invalidate op := by
  cases op <;> simp [State.invalidate, Stage.invalidate]

/-- Every invalidation as one update. -/
theorem State.invalidateAll_eq (s : State) : s.invalidateAll =
    { s with freq := Table.fill 0, nsym := 0, root := none, arena := [],
             codeLen := Table.fill CodeLen.absent, codeBits := Table.fill 0, order := [], hdrLen := 0,
             payloadBits := 0, resid := 0, outLen := 0, stage := Stage.none } := by
  simp only [State.invalidateAll, State.resetFreq, State.resetTree, State.resetCode, State.resetHdr,
    State.resetPay]

theorem invalidate_encTree_eq (s : State) : s.invalidate .encTree =
    { s with root := none, arena := [], codeLen := Table.fill CodeLen.absent, codeBits := Table.fill 0,
             order := [], hdrLen := 0, payloadBits := 0, resid := 0, outLen := 0,
             stage := s.stage.invalidate .encTree } := rfl

theorem invalidate_encCodes_eq (s : State) : s.invalidate .encCodes =
    { s with codeLen := Table.fill CodeLen.absent, codeBits := Table.fill 0, order := [], hdrLen := 0,
             payloadBits := 0, resid := 0, outLen := 0, stage := s.stage.invalidate .encCodes } := rfl

theorem invalidate_encHeader_eq (s : State) : s.invalidate .encHeader =
    { s with hdrLen := 0, payloadBits := 0, resid := 0, outLen := 0,
             stage := s.stage.invalidate .encHeader } := rfl

theorem invalidate_encPayload_eq (s : State) : s.invalidate .encPayload =
    { s with payloadBits := 0, resid := 0, outLen := 0, stage := s.stage.invalidate .encPayload } := rfl

theorem invalidate_decTree_eq (s : State) : s.invalidate .decTree =
    { s with root := none, arena := [], payloadBits := 0, resid := 0, outLen := 0,
             stage := s.stage.invalidate .decTree } := rfl

theorem invalidate_decPayload_eq (s : State) : s.invalidate .decPayload =
    { s with payloadBits := 0, resid := 0, outLen := 0, stage := s.stage.invalidate .decPayload } := rfl

/-! ### The stage wrapper (R138) -/

/-- Everything `RunStage` can do. -/
theorem runStage_cases (op : StageOp) (body : State → State × Option Raise) (s : State) :
    (s.stage.meets op = false ∧
      runStage op body s =
        (s, some { code := .sequence, op := op.opcode, info := s.stage.toWord.toNat })) ∨
    (s.stage.meets op = true ∧ op.checksInLen = true ∧ s.inCap.bytes < s.inLen.toNat ∧
      runStage op body s =
        (s, some { code := .inLenRange, op := op.opcode, info := s.inLen.toNat })) ∨
    (s.stage.meets op = true ∧ (op.checksInLen = true → s.inLen.toNat ≤ s.inCap.bytes) ∧
      ∃ t e, body (s.invalidate op) = (t, some e) ∧
        runStage op body s =
          (t.invalidate op, some { code := e.code, op := op.opcode, info := e.info })) ∨
    (s.stage.meets op = true ∧ (op.checksInLen = true → s.inLen.toNat ≤ s.inCap.bytes) ∧
      ∃ t, body (s.invalidate op) = (t, none) ∧
        runStage op body s = ({ t with stage := t.stage.mark op }, none)) := by
  unfold runStage
  by_cases hm : s.stage.meets op = false
  · exact .inl ⟨hm, by simp [hm]⟩
  · have hm' : s.stage.meets op = true := by simpa using hm
    by_cases hl : (op.checksInLen && decide (s.inCap.bytes < s.inLen.toNat)) = true
    · refine .inr (.inl ⟨hm', ?_, ?_, ?_⟩)
      · simp only [Bool.and_eq_true] at hl; exact hl.1
      · simp only [Bool.and_eq_true, decide_eq_true_eq] at hl; exact hl.2
      · simp [hm', hl]
    · have hle : op.checksInLen = true → s.inLen.toNat ≤ s.inCap.bytes := by
        intro hc
        simpa [hc] using hl
      simp only [Bool.not_eq_true] at hl
      rcases hb : body (s.invalidate op) with ⟨t, _ | e⟩
      · exact .inr (.inr (.inr ⟨hm', hle, t, rfl, by simp [hm', hl]⟩))
      · exact .inr (.inr (.inl ⟨hm', hle, t, e, rfl, by simp [hm', hl]⟩))

/-- A stage whose prerequisite and input length are in order, and whose body raises nothing. -/
theorem runStage_ok {op : StageOp} {body : State → State × Option Raise} {s t : State}
    (hm : s.stage.meets op = true) (hl : op.checksInLen = true → s.inLen.toNat ≤ s.inCap.bytes)
    (hb : body (s.invalidate op) = (t, none)) :
    runStage op body s = ({ t with stage := t.stage.mark op }, none) := by
  have hc : (op.checksInLen && decide (s.inCap.bytes < s.inLen.toNat)) = false := by
    cases h : op.checksInLen
    · rfl
    · have := hl h
      simp; omega
  simp [runStage, hm, hb, hc]

/-- A stage whose body raises. -/
theorem runStage_raise {op : StageOp} {body : State → State × Option Raise} {s t : State} {e : Raise}
    (hm : s.stage.meets op = true) (hl : op.checksInLen = true → s.inLen.toNat ≤ s.inCap.bytes)
    (hb : body (s.invalidate op) = (t, some e)) :
    runStage op body s =
      (t.invalidate op, some { code := e.code, op := op.opcode, info := e.info }) := by
  have hc : (op.checksInLen && decide (s.inCap.bytes < s.inLen.toNat)) = false := by
    cases h : op.checksInLen
    · rfl
    · have := hl h
      simp; omega
  simp [runStage, hm, hb, hc]

/-- What a body never writes: the host's side, STATUS, ERR_INFO and STAGE. -/
structure BodyKeeps (s t : State) : Prop where
  host    : HostSideKept s t
  status  : t.status = s.status
  errInfo : t.errInfo = s.errInfo
  stage   : t.stage = s.stage

theorem BodyKeeps.refl (s : State) : BodyKeeps s s := ⟨HostSideKept.refl s, rfl, rfl, rfl⟩

theorem BodyKeeps.trans {s t u : State} (h : BodyKeeps s t) (k : BodyKeeps t u) : BodyKeeps s u :=
  ⟨h.host.trans k.host, k.status.trans h.status, k.errInfo.trans h.errInfo, k.stage.trans h.stage⟩

/-- What a stage run from `s` leaves of the host's side, STATUS and ERR_INFO, whatever its outcome. -/
structure StageKeeps (s t : State) : Prop where
  host    : HostSideKept s t
  status  : t.status = s.status
  errInfo : t.errInfo = s.errInfo

theorem StageKeeps.refl (s : State) : StageKeeps s s := ⟨HostSideKept.refl s, rfl, rfl⟩

theorem StageKeeps.trans {s t u : State} (h : StageKeeps s t) (k : StageKeeps t u) : StageKeeps s u :=
  ⟨h.host.trans k.host, k.status.trans h.status, k.errInfo.trans h.errInfo⟩

theorem stageKeeps_invalidate (s : State) (op : StageOp) : StageKeeps s (s.invalidate op) :=
  ⟨hostSideKept_invalidate s op, by simp, by simp⟩

theorem stageKeeps_stage {s t : State} (g : Stage) (h : StageKeeps s t) :
    StageKeeps s { t with stage := g } :=
  ⟨⟨h.host.1, h.host.2, h.host.3, h.host.4, h.host.5, h.host.6, h.host.7, h.host.8, h.host.9,
    h.host.10, h.host.11, h.host.12⟩, h.status, h.errInfo⟩

theorem BodyKeeps.stageKeeps {s t : State} (h : BodyKeeps s t) : StageKeeps s t :=
  ⟨h.host, h.status, h.errInfo⟩

/-- A stage keeps what its body keeps. -/
theorem stageKeeps_runStage {op : StageOp} {body : State → State × Option Raise}
    (hb : ∀ s, BodyKeeps s (body s).1) (s : State) : StageKeeps s (runStage op body s).1 := by
  rcases runStage_cases op body s with ⟨-, h⟩ | ⟨-, -, -, h⟩ | ⟨-, -, t, e, hr, h⟩ | ⟨-, -, t, hr, h⟩
  · rw [h]; exact StageKeeps.refl s
  · rw [h]; exact StageKeeps.refl s
  · rw [h]
    have := hb (s.invalidate op)
    rw [hr] at this
    exact ((stageKeeps_invalidate s op).trans this.stageKeeps).trans (stageKeeps_invalidate t op)
  · rw [h]
    have := hb (s.invalidate op)
    rw [hr] at this
    exact stageKeeps_stage _ ((stageKeeps_invalidate s op).trans this.stageKeeps)

/-! ### Composites (R139) -/

theorem andThen_none (s : State) (f : State → Result) : Result.andThen (s, none) f = f s := rfl

theorem andThen_some (s : State) (e : Err) (f : State → Result) :
    Result.andThen (s, some e) f = (s, some e) := rfl

theorem stageKeeps_andThen {s : State} {r : Result} {f : State → Result}
    (hr : StageKeeps s r.1) (hf : ∀ t, StageKeeps t (f t).1) : StageKeeps s (r.andThen f).1 := by
  obtain ⟨t, _ | e⟩ := r
  · exact hr.trans (hf t)
  · exact hr

/-! ### Completion (R133) -/

theorem completed_none (s : State) : Result.completed (s, none) = s.finish := rfl

theorem completed_some (s : State) (e : Err) :
    Result.completed (s, some e) = (s.takeError e).finish := rfl

theorem hostSideKept_completed (r : Result) : HostSideKept r.1 r.completed := by
  obtain ⟨t, _ | e⟩ := r <;> exact ⟨rfl, rfl, rfl, rfl, rfl, rfl, rfl, rfl, rfl, rfl, rfl, rfl⟩

@[simp] theorem completed_outMem (r : Result) : r.completed.outMem = r.1.outMem := by
  obtain ⟨t, _ | e⟩ := r <;> rfl

@[simp] theorem completed_stage (r : Result) : r.completed.stage = r.1.stage := by
  obtain ⟨t, _ | e⟩ := r <;> rfl

/-- A result that raised nothing completes with STATUS = DONE and no error. -/
theorem complete_none (s : State) : complete (s, none) = .next s.finish := rfl

theorem endsWithError_complete (u : State) (e : Err) :
    EndsWithError (complete (u, some e)) u e.code e.op e.info := rfl

theorem complete_eq_next {r : Result} {t : State} (h : complete r = .next t) : t = r.completed := by
  unfold complete at h
  injection h with h
  exact h.symm

end Sys2Proof.Machine
end

