-- ==== Sys2Proof/Laws/Encoder.lean ====
section
/-! SUPPORT. What each encoder body does (41_encoder.md R150 to R157). -/

namespace Sys2Proof.Machine

/-! ### ENC_FREQ (R150) -/

/-- Counting the bytes of a list adds to each symbol's entry its number of occurrences. -/
theorem foldl_countSymbol (l : List Byte) (t : Table Word) (sym : Byte) :
    (l.foldl countSymbol t).at sym = t.at sym + BitVec.ofNat 32 (l.count sym) := by
  induction l generalizing t with
  | nil => simp
  | cons b l ih =>
    rw [List.foldl_cons, ih, countSymbol, Table.at_put, List.count_cons]
    by_cases h : b = sym
    · subst h
      simp only [if_true, BEq.rfl]
      rw [BitVec.ofNat_add, BitVec.add_assoc, BitVec.add_comm (1 : BitVec 32)]
      rfl
    · simp [h]

theorem length_input (s : State) : s.input.length = s.inLen.toNat := by simp [State.input]

theorem count_input_lt (s : State) (sym : Byte) : s.input.count sym < 2 ^ 32 := by
  have h1 := List.count_le_length (a := sym) (l := s.input)
  rw [length_input] at h1
  have := s.inLen.isLt
  omega

/-- The counts of a fresh table. -/
theorem countSymbol_input (s : State) (sym : Byte) :
    ((s.input.foldl countSymbol (Table.fill 0)).at sym).toNat = s.input.count sym := by
  rw [foldl_countSymbol, Table.at_fill]
  simpa using count_input_lt s sym

theorem bodyKeeps_encFreq (s : State) : BodyKeeps s (bodyEncFreq s).1 :=
  ⟨⟨rfl, rfl, rfl, rfl, rfl, rfl, rfl, rfl, rfl, rfl, rfl, rfl⟩, rfl, rfl, rfl⟩

/-! ### ENC_TREE (R152) -/

theorem mem_mappedSymbols (freq : Table Word) (sym : Byte) :
    sym ∈ mappedSymbols freq ↔ freq.at sym ≠ 0 := by
  simp [mappedSymbols, mem_symbols]

theorem mappedSymbols_nodup (freq : Table Word) : (mappedSymbols freq).Nodup :=
  symbols_nodup.filter _

theorem length_mappedSymbols_le (freq : Table Word) : (mappedSymbols freq).length ≤ 256 := by
  have := List.length_filter_le (fun sym => Table.at freq sym != 0) symbols
  rwa [symbols_length] at this

theorem distinctCount_eq (freq : Table Word) : distinctCount freq = (mappedSymbols freq).length := by
  rw [distinctCount, mappedSymbols, List.countP_eq_length_filter]

/-- Where the table holds the counts of the input, its mapping's symbols are those of the input. -/
theorem mappedSymbols_eq_inputSymbols {s : State} {freq : Table Word}
    (h : ∀ sym, (freq.at sym).toNat = s.input.count sym) : mappedSymbols freq = s.inputSymbols := by
  refine List.filter_congr fun sym _ => ?_
  rw [Bool.eq_iff_iff]
  simp only [bne_iff_ne, ne_eq, List.contains_iff_mem, ← List.count_pos_iff, ← h]
  constructor
  · intro hne
    rcases Nat.eq_zero_or_pos (freq.at sym).toNat with h0 | h0
    · exact absurd (BitVec.eq_of_toNat_eq h0) hne
    · exact h0
  · intro hpos he
    rw [he] at hpos
    simp at hpos

theorem mem_inputSymbols (s : State) (sym : Byte) : sym ∈ s.inputSymbols ↔ sym ∈ s.input := by
  simp [State.inputSymbols, mem_symbols]

theorem buildTree_empty {freq : Table Word} (h : mappedSymbols freq = []) :
    buildTree freq = ([], none) := by
  simp [buildTree, h]

theorem buildTree_one {freq : Table Word} {sym : Byte} (h : mappedSymbols freq = [sym]) :
    buildTree freq =
      ([.leaf sym (freq.at sym), .internal (some 0) none (freq.at sym)], some 1) := by
  simp [buildTree, h, leafOf, Node.freq]

theorem buildTree_many {freq : Table Word} (h : 2 ≤ (mappedSymbols freq).length) :
    ∃ ar, buildTree freq = (ar, some (ar.length - 1)) ∧ Tree (mappedSymbols freq) ar := by
  refine ⟨mergeNodes (mappedSymbols freq).length ((mappedSymbols freq).map (leafOf freq))
    (List.range (mappedSymbols freq).length), ?_, ?_⟩
  · rcases hm : mappedSymbols freq with _ | ⟨a, _ | ⟨b, l⟩⟩
    · simp [hm] at h
    · simp [hm] at h
    · simp [buildTree, hm]
  · refine mergeNodes_tree _ (forest_leaves freq ?_) (by simp) ?_
    · intro e; simp [e] at h
    · intro e; simp at e; omega

theorem bodyKeeps_encTree (s : State) : BodyKeeps s (bodyEncTree s).1 :=
  ⟨⟨rfl, rfl, rfl, rfl, rfl, rfl, rfl, rfl, rfl, rfl, rfl, rfl⟩, rfl, rfl, rfl⟩

/-- A tree whose leaves carry the symbols `syms`, each at the end of one path of 1 to 255 bits from entry
`r`, as the encoder makes it. -/
structure CodeTree (syms : List Byte) (ar : List Node) (r : Nat) : Prop where
  distinct : SlotsDistinct ar
  noParent : NoParent ar r
  isLeaf   : ∀ {k sym}, leafAt ar k = some sym → sym ∈ syms
  oneLeaf  : ∀ {k k' sym}, leafAt ar k = some sym → leafAt ar k' = some sym → k = k'
  path     : ∀ sym ∈ syms, ∃ p k, follow ar r p = some k ∧ leafAt ar k = some sym ∧ p ≠ [] ∧
    p.length ≤ 255 ∧ p.length < ar.length

theorem codeTree_one (sym : Byte) (f g : Word) :
    CodeTree [sym] [.leaf sym f, .internal (some 0) none g] 1 where
  distinct := by
    intro k k' b b' x h h'
    have hk := childAt_lt h
    have hk' := childAt_lt h'
    simp only [List.length_cons, List.length_nil] at hk hk'
    have e : k = 0 ∨ k = 1 := by omega
    have e' : k' = 0 ∨ k' = 1 := by omega
    rcases e with rfl | rfl <;> rcases e' with rfl | rfl <;> cases b <;> cases b' <;>
      simp [childAt, Node.child] at h h' ⊢
  noParent := by
    intro k b h
    have hk := childAt_lt h
    simp only [List.length_cons, List.length_nil] at hk
    have e : k = 0 ∨ k = 1 := by omega
    rcases e with rfl | rfl <;> cases b <;> simp [childAt, Node.child] at h
  isLeaf := by
    intro k s h
    have hk := leafAt_lt h
    simp only [List.length_cons, List.length_nil] at hk
    have e : k = 0 ∨ k = 1 := by omega
    rcases e with rfl | rfl <;> simp [leafAt] at h ⊢
    exact h.symm
  oneLeaf := by
    intro k k' s h h'
    have hk := leafAt_lt h
    have hk' := leafAt_lt h'
    simp only [List.length_cons, List.length_nil] at hk hk'
    have e : k = 0 ∨ k = 1 := by omega
    have e' : k' = 0 ∨ k' = 1 := by omega
    rcases e with rfl | rfl <;> rcases e' with rfl | rfl <;> simp [leafAt] at h h' ⊢
  path := by
    intro s hs
    simp only [List.mem_singleton] at hs
    subst hs
    exact ⟨[false], 0, by simp [follow, childAt, Node.child], by simp [leafAt], by simp, by simp,
      by simp⟩

theorem Tree.length_eq {syms : List Byte} {ar : List Node} (h : Tree syms ar) :
    ar.length = 2 * syms.length - 1 := by
  have := h.forest.count
  simp at this
  omega

/-- Every entry of a finished tree is the leaf of a symbol or an internal node with two children. -/
theorem Tree.leaf_index {syms : List Byte} {ar : List Node} (h : Tree syms ar) {k : Nat} {sym : Byte}
    (hk : leafAt ar k = some sym) : ∃ hlt : k < syms.length, syms[k] = sym := by
  by_cases hlt : k < syms.length
  · refine ⟨hlt, ?_⟩
    have := h.forest.leaves k hlt
    rw [this] at hk
    injection hk
  · obtain ⟨l, r, f, he, -⟩ := h.forest.internals k (by omega) (leafAt_lt hk)
    simp [leafAt, he] at hk

theorem Tree.codeTree {syms : List Byte} {ar : List Node} (h : Tree syms ar) (hn : syms.Nodup)
    (h2 : 2 ≤ syms.length) (h256 : syms.length ≤ 256) : CodeTree syms ar (ar.length - 1) where
  distinct := h.forest.distinct
  noParent := h.forest.noParent _ (by simp)
  isLeaf := by
    intro k sym hk
    obtain ⟨hlt, rfl⟩ := h.leaf_index hk
    exact List.getElem_mem _
  oneLeaf := by
    intro k k' sym hk hk'
    obtain ⟨hlt, rfl⟩ := h.leaf_index hk
    obtain ⟨hlt', e⟩ := h.leaf_index hk'
    exact ((List.Nodup.getElem_inj_iff hn).1 e).symm
  path := by
    intro sym hs
    obtain ⟨k, hk, rfl⟩ := List.mem_iff_getElem.1 hs
    have hlen := h.length_eq
    obtain ⟨r, hr, p, hp⟩ := h.forest.reached k (by omega)
    simp only [List.mem_singleton] at hr
    subst hr
    have hpl := h.forest.path_length hp
    refine ⟨p, k, hp, h.forest.leaves k hk, ?_, by omega, by omega⟩
    rintro rfl
    simp at hp
    omega

/-! ### ENC_CODES (R154) -/

/-- The table entry of `sym` is the code `c`. -/
def State.HasCode (s : State) (sym : Byte) (c : Bits) : Prop :=
  s.codeLen.at sym = { len := BitVec.ofNat 8 c.length, present := true } ∧
    s.codeBits.at sym = msbFirst 256 c

theorem State.HasCode.codeOf {s : State} {sym : Byte} {c : Bits} (h : s.HasCode sym c)
    (hc : c.length ≤ 255) : s.codeOf sym = c := by
  rw [State.codeOf, h.1, h.2]
  simp only [BitVec.toNat_ofNat]
  rw [Nat.mod_eq_of_lt (by omega : c.length < 2 ^ 8)]
  exact firstBits_msbFirst c (by omega)

theorem State.HasCode.present {s : State} {sym : Byte} {c : Bits} (h : s.HasCode sym c) :
    s.present sym = true := by
  rw [State.present, h.1]

/-- Both table entries of `sym` are the same in the two states. -/
def SameCode (s t : State) (sym : Byte) : Prop :=
  t.codeLen.at sym = s.codeLen.at sym ∧ t.codeBits.at sym = s.codeBits.at sym

/-- The walk writes the code table only. -/
theorem walkCodes_same (ar : List Node) (fuel k : Nat) (p : Bits) (s : State) :
    ∃ cl cb, walkCodes ar fuel k p s = { s with codeLen := cl, codeBits := cb } := by
  induction fuel generalizing k p s with
  | zero => exact ⟨s.codeLen, s.codeBits, rfl⟩
  | succ fuel ih =>
    rw [walkCodes]
    split
    · exact ⟨s.codeLen, s.codeBits, rfl⟩
    · exact ⟨_, _, rfl⟩
    · rename_i l r f _
      have hl : ∃ cl cb, (l.elim s fun x => walkCodes ar fuel x (p ++ [false]) s) =
          { s with codeLen := cl, codeBits := cb } := by
        cases l with
        | none => exact ⟨s.codeLen, s.codeBits, rfl⟩
        | some x => exact ih x _ s
      obtain ⟨cl, cb, hl⟩ := hl
      dsimp only
      rw [hl]
      cases r with
      | none => exact ⟨cl, cb, rfl⟩
      | some x =>
        obtain ⟨cl', cb', h⟩ := ih x (p ++ [true]) { s with codeLen := cl, codeBits := cb }
        exact ⟨cl', cb', h⟩

/-- What the walk leaves of each symbol: untouched if no leaf of it is below `k`, else the code of a path to
it. -/
theorem walkCodes_entry (ar : List Node) (fuel k : Nat) (p : Bits) (s : State) (sym : Byte) :
    ((∀ q, ¬ LeadsTo ar k q sym) → SameCode s (walkCodes ar fuel k p s) sym) ∧
    (∀ q, LeadsTo ar k q sym → q.length < fuel →
      ∃ q', LeadsTo ar k q' sym ∧ (walkCodes ar fuel k p s).HasCode sym (p ++ q')) ∧
    (SameCode s (walkCodes ar fuel k p s) sym ∨
      ∃ q', LeadsTo ar k q' sym ∧ (walkCodes ar fuel k p s).HasCode sym (p ++ q')) := by
  induction fuel generalizing k p s with
  | zero => exact ⟨fun _ => ⟨rfl, rfl⟩, fun q _ h => absurd h (by omega), .inl ⟨rfl, rfl⟩⟩
  | succ fuel ih =>
    rw [walkCodes]
    split
    · rename_i he
      have hno : ∀ q, ¬ LeadsTo ar k q sym := by
        rintro q ⟨x, hx, hl⟩
        cases q with
        | nil => simp at hx; subst hx; simp [leafAt, he] at hl
        | cons b q => simp [follow_cons, childAt, he] at hx
      exact ⟨fun _ => ⟨rfl, rfl⟩, fun q hq => absurd hq (hno q), .inl ⟨rfl, rfl⟩⟩
    · rename_i a f he
      have hleaf : leafAt ar k = some a := by simp [leafAt, he]
      by_cases ha : a = sym
      · subst ha
        have hc : (s.setCode a p).HasCode a (p ++ []) := by
          rw [List.append_nil]
          exact ⟨by simp [Table.at_put_self], by simp [Table.at_put_self]⟩
        have hl : LeadsTo ar k [] a := ⟨k, rfl, hleaf⟩
        exact ⟨fun h => absurd hl (h []), fun _ _ _ => ⟨[], hl, hc⟩, .inr ⟨[], hl, hc⟩⟩
      · have hs : SameCode s (s.setCode a p) sym :=
          ⟨by simp [Table.at_put_other _ _ ha], by simp [Table.at_put_other _ _ ha]⟩
        refine ⟨fun _ => hs, ?_, .inl hs⟩
        rintro q ⟨x, hx, hxl⟩ -
        obtain ⟨-, rfl⟩ := follow_leaf hleaf hx
        rw [hleaf] at hxl
        exact absurd (Option.some.inj hxl) ha
    · rename_i l r f he
      have hcl : childAt ar k false = l := by simp [childAt, he, Node.child]
      have hcr : childAt ar k true = r := by simp [childAt, he, Node.child]
      have hk : leafAt ar k = none := by simp [leafAt, he]
      have hstep : ∀ q, LeadsTo ar k q sym → ∃ b x q', q = b :: q' ∧ childAt ar k b = some x ∧
          LeadsTo ar x q' sym := by
        rintro q ⟨x, hx, hxl⟩
        cases q with
        | nil => simp at hx; subst hx; rw [hk] at hxl; exact absurd hxl (by simp)
        | cons b q =>
          rw [follow_cons] at hx
          obtain ⟨y, hy, hyx⟩ := Option.bind_eq_some_iff.1 hx
          exact ⟨b, y, q, rfl, hy, x, hyx, hxl⟩
      have hback : ∀ {b x q'}, childAt ar k b = some x → LeadsTo ar x q' sym →
          LeadsTo ar k (b :: q') sym := by
        rintro b x q' hb ⟨y, hy, hyl⟩
        exact ⟨y, by rw [follow_cons, hb]; exact hy, hyl⟩
      dsimp only
      generalize hs1 : (l.elim s fun x => walkCodes ar fuel x (p ++ [false]) s) = s1
      -- the left subtree
      have left : ((∀ q, ¬ LeadsTo ar k (false :: q) sym) → SameCode s s1 sym) ∧
          (∀ q, LeadsTo ar k (false :: q) sym → q.length < fuel →
            ∃ q', LeadsTo ar k q' sym ∧ s1.HasCode sym (p ++ q')) ∧
          (SameCode s s1 sym ∨ ∃ q', LeadsTo ar k q' sym ∧ s1.HasCode sym (p ++ q')) := by
        cases l with
        | none =>
          subst hs1
          refine ⟨fun _ => ⟨rfl, rfl⟩, ?_, .inl ⟨rfl, rfl⟩⟩
          rintro q ⟨x, hx, -⟩
          rw [follow_cons, hcl] at hx
          exact absurd hx (by simp)
        | some x =>
          subst hs1
          obtain ⟨i1, i2, i3⟩ := ih x (p ++ [false]) s
          refine ⟨fun h => i1 fun q hq => h q (hback hcl hq), ?_, ?_⟩
          · intro q hq hlen
            obtain ⟨b, y, q', e, hb, hq'⟩ := hstep _ hq
            simp only [List.cons.injEq] at e
            obtain ⟨rfl, rfl⟩ := e
            rw [hcl] at hb
            obtain rfl := Option.some.inj hb
            obtain ⟨q'', hq'', hc⟩ := i2 _ hq' hlen
            exact ⟨false :: q'', hback hcl hq'', by simpa using hc⟩
          · rcases i3 with i3 | ⟨q'', hq'', hc⟩
            · exact .inl i3
            · exact .inr ⟨false :: q'', hback hcl hq'', by simpa using hc⟩
      -- the right subtree
      cases r with
      | none =>
        simp only [Option.elim]
        refine ⟨fun h => left.1 fun q => h _, ?_, left.2.2⟩
        intro q hq hlen
        obtain ⟨b, y, q', rfl, hb, hq'⟩ := hstep _ hq
        cases b with
        | false => exact left.2.1 q' hq (by simp at hlen; omega)
        | true => rw [hcr] at hb; exact absurd hb (by simp)
      | some x =>
        simp only [Option.elim]
        obtain ⟨i1, i2, i3⟩ := ih x (p ++ [true]) s1
        have i3' : SameCode s1 (walkCodes ar fuel x (p ++ [true]) s1) sym ∨
            ∃ q', LeadsTo ar k q' sym ∧
              (walkCodes ar fuel x (p ++ [true]) s1).HasCode sym (p ++ q') := by
          rcases i3 with i3 | ⟨q'', hq'', hc⟩
          · exact .inl i3
          · exact .inr ⟨true :: q'', hback hcr hq'', by simpa using hc⟩
        refine ⟨?_, ?_, ?_⟩
        · intro h
          have h1 := left.1 fun q => h _
          have h2 := i1 fun q hq => h _ (hback hcr hq)
          exact ⟨h2.1.trans h1.1, h2.2.trans h1.2⟩
        · intro q hq hlen
          obtain ⟨b, y, q', rfl, hb, hq'⟩ := hstep _ hq
          simp only [List.length_cons] at hlen
          cases b with
          | false =>
            obtain ⟨q'', hq'', hc⟩ := left.2.1 q' hq (by omega)
            rcases i3' with e | e
            · exact ⟨q'', hq'', by rw [State.HasCode, e.1, e.2]; exact hc⟩
            · exact e
          | true =>
            rw [hcr] at hb
            obtain rfl := Option.some.inj hb
            obtain ⟨q'', hq'', hc⟩ := i2 q' hq' (by omega)
            exact ⟨true :: q'', hback hcr hq'', by simpa using hc⟩
        · rcases i3' with e | e
          · rcases left.2.2 with g | ⟨q'', hq'', hc⟩
            · exact .inl ⟨e.1.trans g.1, e.2.trans g.2⟩
            · exact .inr ⟨q'', hq'', by rw [State.HasCode, e.1, e.2]; exact hc⟩
          · exact .inr e

theorem bodyKeeps_encCodes (s : State) : BodyKeeps s (bodyEncCodes s).1 := by
  unfold bodyEncCodes
  split
  · exact BodyKeeps.refl s
  · rename_i k _
    obtain ⟨cl, cb, h⟩ := walkCodes_same s.arena s.arena.length k [] s
    rw [h]
    exact ⟨⟨rfl, rfl, rfl, rfl, rfl, rfl, rfl, rfl, rfl, rfl, rfl, rfl⟩, rfl, rfl, rfl⟩

/-- The code table of a code tree: each symbol's code is its path, and no other symbol has one. -/
theorem bodyEncCodes_codeTree {syms : List Byte} {s : State} {r : Nat} (hr : s.root = some r)
    (ht : CodeTree syms s.arena r) (hclear : ∀ sym, s.codeLen.at sym = CodeLen.absent) :
    ∃ t, bodyEncCodes s = (t, none) ∧
      (∃ cl cb, t = { s with codeLen := cl, codeBits := cb }) ∧
      (∀ sym, t.present sym = true ↔ sym ∈ syms) ∧
      (∀ sym ∈ syms, LeadsTo s.arena r (t.codeOf sym) sym ∧ t.codeOf sym ≠ [] ∧
        t.HasCode sym (t.codeOf sym) ∧ (t.codeOf sym).length ≤ 255) ∧
      (∀ sym, sym ∉ syms → SameCode s t sym) := by
  refine ⟨walkCodes s.arena s.arena.length r [] s, by simp [bodyEncCodes, hr],
    walkCodes_same _ _ _ _ _, ?_⟩
  have away : ∀ sym, sym ∉ syms → SameCode s (walkCodes s.arena s.arena.length r [] s) sym := by
    intro sym hs
    obtain ⟨h1, -, -⟩ := walkCodes_entry s.arena s.arena.length r [] s sym
    exact h1 (by rintro q ⟨x, -, hx⟩; exact hs (ht.isLeaf hx))
  have main : ∀ sym ∈ syms, ∃ p, LeadsTo s.arena r p sym ∧ p ≠ [] ∧ p.length ≤ 255 ∧
      (walkCodes s.arena s.arena.length r [] s).HasCode sym p := by
    intro sym hs
    obtain ⟨p, k, hp, hk, hne, h255, hlt⟩ := ht.path sym hs
    obtain ⟨-, h2, -⟩ := walkCodes_entry s.arena s.arena.length r [] s sym
    obtain ⟨q, ⟨x, hx, hxl⟩, hc⟩ := h2 p ⟨k, hp, hk⟩ hlt
    obtain rfl := ht.oneLeaf hk hxl
    obtain rfl := follow_unique ht.distinct ht.noParent hp hx
    exact ⟨p, ⟨k, hp, hk⟩, hne, h255, by simpa using hc⟩
  refine ⟨?_, ?_, away⟩
  · intro sym
    constructor
    · intro hp
      by_contra hs
      rw [State.present, (away sym hs).1, hclear] at hp
      exact absurd hp (by simp [CodeLen.absent])
    · intro hs
      obtain ⟨p, -, -, -, hc⟩ := main sym hs
      exact hc.present
  · intro sym hs
    obtain ⟨p, hp, hne, hl, hc⟩ := main sym hs
    have e := hc.codeOf hl
    rw [e]
    exact ⟨hp, hne, hc, hl⟩

/-! ### ENC_HEADER (R156) -/

theorem length_codeOf (s : State) (sym : Byte) :
    (s.codeOf sym).length = (s.codeLen.at sym).len.toNat := length_firstBits _ _

theorem ofNat_length_codeOf (s : State) (sym : Byte) :
    BitVec.ofNat 8 (s.codeOf sym).length = (s.codeLen.at sym).len := by
  rw [length_codeOf]; simp

theorem length_entryBytes (sym : Byte) (c : Bits) :
    (entryBytes sym c).length = 2 + ceil8 c.length := by
  simp [entryBytes, length_pack]; omega

/-- The loop of ENC_HEADER writes the entries' bytes one after the other. -/
theorem foldl_writeEntry (s : State) (l : List Byte) (m : Memory) (p : Nat) :
    l.foldl (writeEntry s) (m, p) =
      (Memory.writeBytes m p (l.flatMap fun sym => entryBytes sym (s.codeOf sym)),
        p + (l.flatMap fun sym => entryBytes sym (s.codeOf sym)).length) := by
  induction l generalizing m p with
  | nil => simp [Memory.writeBytes]
  | cons sym l ih =>
    rw [List.foldl_cons, writeEntry, ih]
    simp only [List.flatMap_cons, entryBytes, List.cons_append, Memory.writeBytes, ofNat_length_codeOf,
      Memory.writeBytes_append, List.length_cons, List.length_append]
    congr 1
    omega

/-- The bytes ENC_HEADER writes after the symbol count. -/
def State.entriesBytes (s : State) : List Byte :=
  s.presentSymbols.flatMap fun sym => entryBytes sym (s.codeOf sym)

theorem headerBytes_entries (s : State) :
    headerBytes s.entries = BitVec.ofNat 8 s.presentSymbols.length :: s.entriesBytes := by
  simp [headerBytes, State.entries, State.entriesBytes, List.flatMap_map]

theorem headerSize_eq (s : State) : s.headerSize = 1 + s.entriesBytes.length := by
  have : ∀ sym, (entryBytes sym (s.codeOf sym)).length = s.entrySize sym := fun sym => by
    rw [length_entryBytes, length_codeOf, State.entrySize]
  simp only [State.headerSize, State.entriesBytes, List.length_flatMap, this]

/-- ENC_HEADER where its two checks pass. -/
theorem bodyEncHeader_ok {s : State} (h1 : s.nsym.toNat ≤ 255) (h2 : s.headerSize ≤ s.outCap.bytes) :
    bodyEncHeader s =
      ({ s with outMem := Memory.writeBytes s.outMem 0 (s.nsym.setWidth 8 :: s.entriesBytes)
                hdrLen := BitVec.ofNat 32 s.headerSize
                outLen := BitVec.ofNat 32 s.headerSize }, none) := by
  have h1' : ¬ 255 < s.nsym.toNat := by omega
  have h2' : ¬ s.outCap.bytes < s.headerSize := by omega
  simp only [bodyEncHeader, h1', h2', if_false, foldl_writeEntry, Memory.writeBytes]
  rw [headerSize_eq]
  rfl

theorem bodyKeeps_encHeader (s : State) : BodyKeeps s (bodyEncHeader s).1 := by
  unfold bodyEncHeader
  split
  · exact BodyKeeps.refl s
  · split
    · exact BodyKeeps.refl s
    · exact ⟨⟨rfl, rfl, rfl, rfl, rfl, rfl, rfl, rfl, rfl, rfl, rfl, rfl⟩, rfl, rfl, rfl⟩

/-! ### ENC_PAYLOAD (R157) -/

/-- ENC_PAYLOAD where the container fits. -/
theorem bodyEncPayload_ok {s : State}
    (h : s.hdrLen.toNat + ceil8 s.payload.length ≤ s.outCap.bytes) :
    bodyEncPayload s =
      ({ s with outMem := Memory.writeBytes s.outMem s.hdrLen.toNat (pack s.payload)
                payloadBits := BitVec.ofNat 32 s.payload.length
                resid := BitVec.ofNat 32 (8 * ceil8 s.payload.length - s.payload.length)
                outLen := BitVec.ofNat 32 (s.hdrLen.toNat + ceil8 s.payload.length) }, none) := by
  have h' : ¬ s.outCap.bytes < s.hdrLen.toNat + ceil8 s.payload.length := by omega
  simp [bodyEncPayload, h']

theorem bodyKeeps_encPayload (s : State) : BodyKeeps s (bodyEncPayload s).1 := by
  unfold bodyEncPayload
  simp only
  split
  · exact BodyKeeps.refl s
  · exact ⟨⟨rfl, rfl, rfl, rfl, rfl, rfl, rfl, rfl, rfl, rfl, rfl, rfl⟩, rfl, rfl, rfl⟩

end Sys2Proof.Machine
end

