-- ==== Sys2Proof/Laws/Decoder.lean ====
section
/-! SUPPORT. What each decoder body does (42_decoder.md R180 to R182): the header is read back, codes none of
which is a prefix of another build a tree that leads each code to its symbol, and the payload walk emits
the symbols of the codes it reads. -/

namespace Sys2Proof.Machine

/-! ### DEC_TABLE (R180) -/

/-- The state after one more entry of the header. -/
def State.addEntry (s : State) (e : Byte × Bits) : State :=
  { s.setCode e.1 e.2 with order := s.order ++ [e.1] }

theorem bodyKeeps_readEntries (n left p : Nat) (s : State) : BodyKeeps s (readEntries n left p s).1 := by
  induction left generalizing p s with
  | zero => exact ⟨⟨rfl, rfl, rfl, rfl, rfl, rfl, rfl, rfl, rfl, rfl, rfl, rfl⟩, rfl, rfl, rfl⟩
  | succ left ih =>
    rw [readEntries]
    split
    · exact BodyKeeps.refl s
    · dsimp only
      split
      · exact BodyKeeps.refl s
      · split
        · exact BodyKeeps.refl s
        · split
          · exact BodyKeeps.refl s
          · refine BodyKeeps.trans ?_ (ih _ _)
            exact ⟨⟨rfl, rfl, rfl, rfl, rfl, rfl, rfl, rfl, rfl, rfl, rfl, rfl⟩, rfl, rfl, rfl⟩

/-- The loop over the entries writes the code table, ORDER, NSYM and HDR_LEN only. -/
theorem readEntries_same (n left p : Nat) (s : State) : ∃ cl cb o ns hl,
    (readEntries n left p s).1 =
      { s with codeLen := cl, codeBits := cb, order := o, nsym := ns, hdrLen := hl } := by
  induction left generalizing p s with
  | zero => exact ⟨_, _, _, _, _, rfl⟩
  | succ left ih =>
    rw [readEntries]
    split
    · exact ⟨_, _, _, _, _, rfl⟩
    · dsimp only
      split
      · exact ⟨_, _, _, _, _, rfl⟩
      · split
        · exact ⟨_, _, _, _, _, rfl⟩
        · split
          · exact ⟨_, _, _, _, _, rfl⟩
          · obtain ⟨cl, cb, o, ns, hl, h⟩ := ih (p + 2 + ceil8 (s.inByte (p + 1)).toNat)
              { s.setCode (s.inByte p) (readBits s.inByte (p + 2) (s.inByte (p + 1)).toNat) with
                  order := s.order ++ [s.inByte p] }
            exact ⟨cl, cb, o, ns, hl, h⟩

theorem bodyKeeps_decTable (s : State) : BodyKeeps s (bodyDecTable s).1 := by
  unfold bodyDecTable
  split
  · exact BodyKeeps.refl s
  · exact bodyKeeps_readEntries _ _ _ _

/-- The entries of a header, written from offset `p` of the input, are read back into the code table. -/
theorem readEntries_header (n : Nat) (l : List (Byte × Bits)) (p : Nat) (s : State)
    (hfit : p + (l.flatMap fun e => entryBytes e.1 e.2).length ≤ s.inLen.toNat)
    (hbytes : ∀ j, j < (l.flatMap fun e => entryBytes e.1 e.2).length →
      s.inByte (p + j) = (l.flatMap fun e => entryBytes e.1 e.2).getD j 0)
    (hlen : ∀ e ∈ l, e.2.length ≤ 255 ∧ (e.2 = [] → n = 1))
    (hnew : ∀ e ∈ l, s.present e.1 = false) (hdup : (l.map Prod.fst).Nodup) :
    readEntries n l.length p s =
      ({ l.foldl State.addEntry s with
          nsym := BitVec.ofNat 9 n
          hdrLen := BitVec.ofNat 32 (p + (l.flatMap fun e => entryBytes e.1 e.2).length) }, none) := by
  induction l generalizing p s with
  | nil => simp [readEntries]
  | cons e l ih =>
    obtain ⟨sym, c⟩ := e
    have hc := hlen (sym, c) List.mem_cons_self
    simp only at hc
    have hsz : (((sym, c) :: l).flatMap fun e => entryBytes e.1 e.2).length =
        2 + ceil8 c.length + (l.flatMap fun e => entryBytes e.1 e.2).length := by
      rw [List.flatMap_cons, List.length_append, length_entryBytes]
    have hb : ∀ j, (((sym, c) :: l).flatMap fun e => entryBytes e.1 e.2).getD j 0 =
        (entryBytes sym c ++ (l.flatMap fun e => entryBytes e.1 e.2)).getD j 0 := fun j => by
      rw [List.flatMap_cons]
    rw [hsz] at hfit hbytes
    have h0 : s.inByte p = sym := by
      have := hbytes 0 (by omega)
      rw [hb] at this
      simpa [entryBytes] using this
    have h1 : s.inByte (p + 1) = BitVec.ofNat 8 c.length := by
      have := hbytes 1 (by omega)
      rw [hb] at this
      simpa [entryBytes] using this
    have hL : (s.inByte (p + 1)).toNat = c.length := by
      rw [h1, BitVec.toNat_ofNat, Nat.mod_eq_of_lt (by omega)]
    have hcode : readBits s.inByte (p + 2) c.length = c := by
      apply readBits_pack
      intro j hj
      rw [length_pack] at hj
      have := hbytes (2 + j) (by omega)
      rw [hb] at this
      rw [show p + 2 + j = p + (2 + j) by omega, this]
      have hlt : 2 + j < (entryBytes sym c).length := by rw [length_entryBytes]; omega
      simp only [List.getD, List.getElem?_append_left hlt]
      simp [entryBytes, Nat.add_comm 2 j]
    have hpres := hnew (sym, c) List.mem_cons_self
    simp only at hpres
    have hnil : ¬ (c.length = 0 ∧ n ≠ 1) := fun h => h.2 (hc.2 (List.eq_nil_of_length_eq_zero h.1))
    rw [List.length_cons, readEntries]
    rw [if_neg (by omega)]
    simp only [h0, hL, hcode, hpres]
    rw [if_neg hnil, if_neg (by omega)]
    simp only [Bool.false_eq_true, if_false]
    have hmap : (sym :: l.map Prod.fst).Nodup := hdup
    rw [List.nodup_cons] at hmap
    have key := ih (p + 2 + ceil8 c.length) (s.addEntry (sym, c)) ?_ ?_ ?_ ?_ hmap.2
    · rw [State.addEntry] at key
      rw [List.foldl_cons, State.addEntry, hsz]
      rw [show p + (2 + ceil8 c.length + (l.flatMap fun e => entryBytes e.1 e.2).length) =
        p + 2 + ceil8 c.length + (l.flatMap fun e => entryBytes e.1 e.2).length by omega]
      exact key
    · show _ ≤ s.inLen.toNat
      omega
    · intro j hj
      show s.inByte _ = _
      have := hbytes (2 + ceil8 c.length + j) (by omega)
      rw [hb] at this
      rw [show p + 2 + ceil8 c.length + j = p + (2 + ceil8 c.length + j) by omega, this]
      simp only [List.getD]
      rw [List.getElem?_append_right (by rw [length_entryBytes]; omega), length_entryBytes]
      congr 2
      omega
    · intro e he
      exact hlen e (List.mem_cons_of_mem _ he)
    · intro e he
      show (s.setCode sym c).present e.1 = false
      rw [State.present_setCode]
      have hne : sym ≠ e.1 := fun h => hmap.1 (h ▸ List.mem_map_of_mem he)
      simp [hne, hnew e (List.mem_cons_of_mem _ he)]

/-- What the entries leave in the code table and in ORDER. -/
theorem foldl_addEntry (l : List (Byte × Bits)) (s : State) (hdup : (l.map Prod.fst).Nodup)
    (hlen : ∀ e ∈ l, e.2.length ≤ 255) :
    (l.foldl State.addEntry s).order = s.order ++ l.map Prod.fst ∧
    (∀ e ∈ l, (l.foldl State.addEntry s).codeOf e.1 = e.2 ∧
      (l.foldl State.addEntry s).present e.1 = true) ∧
    (∀ sym, sym ∉ l.map Prod.fst → SameCode s (l.foldl State.addEntry s) sym) := by
  induction l generalizing s with
  | nil => exact ⟨by simp, by simp, fun _ _ => ⟨rfl, rfl⟩⟩
  | cons e l ih =>
    obtain ⟨sym, c⟩ := e
    have hmap : (sym :: l.map Prod.fst).Nodup := hdup
    rw [List.nodup_cons] at hmap
    obtain ⟨h1, h2, h3⟩ := ih (s.addEntry (sym, c)) hmap.2
      (fun e he => hlen e (List.mem_cons_of_mem _ he))
    refine ⟨?_, ?_, ?_⟩
    · rw [List.foldl_cons, h1]
      simp [State.addEntry]
    · intro e he
      rcases List.mem_cons.1 he with rfl | he
      · have hs := h3 sym hmap.1
        have hl : c.length < 256 := by have := hlen (sym, c) List.mem_cons_self; simp only at this; omega
        have e1 : (s.addEntry (sym, c)).codeOf sym = c := State.codeOf_setCode_self s sym c hl
        have e2 : (s.addEntry (sym, c)).present sym = true := by
          show (s.setCode sym c).present sym = true
          simp [State.present_setCode]
        constructor
        · rw [List.foldl_cons]
          simp only [State.codeOf, hs.1, hs.2]
          exact e1
        · rw [List.foldl_cons]
          simp only [State.present, hs.1]
          exact e2
      · exact h2 e he
    · intro x hx
      simp only [List.map_cons, List.mem_cons, not_or] at hx
      have hs := h3 x hx.2
      have hne : sym ≠ x := fun h => hx.1 h.symm
      rw [List.foldl_cons]
      refine ⟨hs.1.trans ?_, hs.2.trans ?_⟩
      · simp [State.addEntry, Table.at_put_other _ _ hne]
      · simp [State.addEntry, Table.at_put_other _ _ hne]

/-- The entries write the code table and ORDER only. -/
theorem foldl_addEntry_same (l : List (Byte × Bits)) (s : State) :
    ∃ cl cb o, l.foldl State.addEntry s = { s with codeLen := cl, codeBits := cb, order := o } := by
  induction l generalizing s with
  | nil => exact ⟨_, _, _, rfl⟩
  | cons e l ih =>
    obtain ⟨cl, cb, o, h⟩ := ih (s.addEntry e)
    exact ⟨cl, cb, o, h⟩

/-! ### DEC_TREE (R181) -/

theorem bodyKeeps_decTree (s : State) : BodyKeeps s (bodyDecTree s).1 := by
  unfold bodyDecTree
  exact ⟨⟨rfl, rfl, rfl, rfl, rfl, rfl, rfl, rfl, rfl, rfl, rfl, rfl⟩, rfl, rfl, rfl⟩

/-- A node without children. -/
def Childless (nd : Node) : Prop := ∀ b, nd.child b = none

/-- The children after a new childless entry is hung at an empty slot of an internal node. -/
theorem childAt_link {ar : List Node} {cur : Nat} {nd : Node} (b : Bool) (hcur : cur < ar.length)
    (hl : leafAt ar cur = none) (hnd : Childless nd) (k : Nat) (d : Bool) :
    childAt (linkChild (ar ++ [nd]) cur b ar.length) k d =
      if k = cur ∧ d = b then some ar.length else childAt ar k d := by
  have hget : (ar ++ [nd])[cur]? = ar[cur]? := List.getElem?_append_left hcur
  obtain ⟨l, r, f, hn⟩ : ∃ l r f, ar[cur]? = some (.internal l r f) := by
    rcases h : ar[cur]? with _ | ⟨s, f⟩ | ⟨l, r, f⟩
    · simp at h; omega
    · simp [leafAt, h] at hl
    · exact ⟨l, r, f, rfl⟩
  rw [linkChild, hget, hn]
  dsimp only
  have hlt : cur < (ar ++ [nd]).length := by simp; omega
  by_cases hk : k = cur
  · subst hk
    simp only [childAt, List.getElem?_set_self hlt, hn]
    cases b <;> cases d <;> simp [Node.setChild, Node.child]
  · simp only [childAt, List.getElem?_set_ne (Ne.symm hk), hk, false_and, if_false]
    by_cases hk' : k < ar.length
    · rw [List.getElem?_append_left hk']
    · rw [List.getElem?_eq_none (by omega : ar.length ≤ k)]
      by_cases hk'' : k = ar.length
      · subst hk''
        simp [hnd d]
      · rw [List.getElem?_eq_none (by simp; omega)]

/-- The leaves after a new entry is hung. -/
theorem leafAt_link {ar : List Node} {cur : Nat} {nd : Node} (b : Bool) (hcur : cur < ar.length)
    (hl : leafAt ar cur = none) (k : Nat) :
    leafAt (linkChild (ar ++ [nd]) cur b ar.length) k =
      if k = ar.length then leafAt [nd] 0 else leafAt ar k := by
  have hget : (ar ++ [nd])[cur]? = ar[cur]? := List.getElem?_append_left hcur
  obtain ⟨l, r, f, hn⟩ : ∃ l r f, ar[cur]? = some (.internal l r f) := by
    rcases h : ar[cur]? with _ | ⟨s, f⟩ | ⟨l, r, f⟩
    · simp at h; omega
    · simp [leafAt, h] at hl
    · exact ⟨l, r, f, rfl⟩
  rw [linkChild, hget, hn]
  dsimp only
  have hlt : cur < (ar ++ [nd]).length := by simp; omega
  by_cases hk : k = cur
  · subst hk
    have : ¬ k = ar.length := by omega
    simp only [leafAt, List.getElem?_set_self hlt, hn, this, if_false]
    cases b <;> rfl
  · simp only [leafAt, List.getElem?_set_ne (Ne.symm hk)]
    by_cases hk' : k = ar.length
    · subst hk'; simp
    · simp only [hk', if_false]
      by_cases hk'' : k < ar.length
      · rw [List.getElem?_append_left hk'']
      · rw [List.getElem?_eq_none (by omega : ar.length ≤ k),
          List.getElem?_eq_none (by simp; omega)]

theorem length_link (ar : List Node) (cur : Nat) (b : Bool) (nd : Node) (v : Nat) :
    (linkChild (ar ++ [nd]) cur b v).length = ar.length + 1 := by
  unfold linkChild
  split <;> simp

/-- The arena while DEC_TREE inserts: the codes of `done` lead to their symbols, and every path there is a part
of one of them or of `u`, the part of the next code already walked. -/
structure Built (ar : List Node) (done : List (Byte × Bits)) (u : Bits) : Prop where
  distinct  : SlotsDistinct ar
  noParent  : NoParent ar 0
  bound     : ∀ {k b x}, childAt ar k b = some x → x < ar.length
  nonempty  : 0 < ar.length
  rootInner : leafAt ar 0 = none
  leads     : ∀ e ∈ done, LeadsTo ar 0 e.2 e.1
  covered   : ∀ {p x}, follow ar 0 p = some x → p ≠ [] → (∃ e ∈ done, p <+: e.2) ∨ p <+: u
  leaves    : ∀ {p x sym}, follow ar 0 p = some x → leafAt ar x = some sym → (sym, p) ∈ done
  reached   : ∀ x, x < ar.length → ∃ p, follow ar 0 p = some x

theorem built_bare : Built [bareNode] [] [] where
  distinct := by
    intro k k' b b' x h
    have hk := childAt_lt h
    simp only [List.length_singleton] at hk
    have : k = 0 := by omega
    subst this
    cases b <;> simp [childAt, bareNode, Node.child] at h
  noParent := by
    intro k b h
    have hk := childAt_lt h
    simp only [List.length_singleton] at hk
    have : k = 0 := by omega
    subst this
    cases b <;> simp [childAt, bareNode, Node.child] at h
  bound := by
    intro k b x h
    have hk := childAt_lt h
    simp only [List.length_singleton] at hk
    have : k = 0 := by omega
    subst this
    cases b <;> simp [childAt, bareNode, Node.child] at h
  nonempty := by simp
  rootInner := by simp [leafAt, bareNode]
  leads := by simp
  covered := by
    intro p x h hp
    cases p with
    | nil => exact absurd rfl hp
    | cons b p =>
      rw [follow_cons] at h
      cases b <;> simp [childAt, bareNode, Node.child] at h
  leaves := by
    intro p x sym h hl
    have hk := leafAt_lt hl
    simp only [List.length_singleton] at hk
    have : x = 0 := by omega
    subst this
    simp [leafAt, bareNode] at hl
  reached := by
    intro x hx
    simp only [List.length_singleton] at hx
    exact ⟨[], by simp; omega⟩

variable {ar : List Node} {done : List (Byte × Bits)} {u : Bits} {cur : Nat}

/-- An entry reached from the root is live. -/
theorem Built.reached_lt (h : Built ar done u) {p : Bits} {x : Nat} (hp : follow ar 0 p = some x) :
    x < ar.length := by
  rcases List.eq_nil_or_concat p with rfl | ⟨q, b, rfl⟩
  · simp at hp; subst hp; exact h.nonempty
  · rw [List.concat_eq_append, follow_concat] at hp
    obtain ⟨y, _, hy⟩ := Option.bind_eq_some_iff.1 hp
    exact h.bound hy

/-- A path after a childless entry is hung at slot `b` of the entry at path `u`: an old path, or the new one. -/
theorem Built.follow_link (h : Built ar done u) (hu : follow ar 0 u = some cur)
    (hl : leafAt ar cur = none) {nd : Node} (hnd : Childless nd) (b : Bool)
    {p : Bits} {x : Nat} (hp : follow (linkChild (ar ++ [nd]) cur b ar.length) 0 p = some x) :
    follow ar 0 p = some x ∨ (p = u ++ [b] ∧ x = ar.length) := by
  have hcur := h.reached_lt hu
  induction p using List.reverseRecOn generalizing x with
  | nil => exact .inl hp
  | append_singleton p d ih =>
    rw [follow_concat] at hp
    obtain ⟨y, hy, hyx⟩ := Option.bind_eq_some_iff.1 hp
    rw [childAt_link b hcur hl hnd] at hyx
    rcases ih hy with hy' | ⟨rfl, rfl⟩
    · split at hyx
      · rename_i e
        obtain ⟨rfl, rfl⟩ := e
        injection hyx with hyx
        exact .inr ⟨by rw [follow_unique h.distinct h.noParent hy' hu], hyx.symm⟩
      · exact .inl (by rw [follow_concat, hy']; exact hyx)
    · split at hyx
      · rename_i e; omega
      · exact absurd (childAt_lt hyx) (by omega)

/-- The growth of the arena by one hung entry. -/
theorem grows_link (hcur : cur < ar.length) (hl : leafAt ar cur = none) {nd : Node}
    (hnd : Childless nd) {b : Bool} (hfree : childAt ar cur b = none) :
    Grows ar (linkChild (ar ++ [nd]) cur b ar.length) where
  child := by
    intro k d x h
    rw [childAt_link b hcur hl hnd]
    split
    · rename_i e; obtain ⟨rfl, rfl⟩ := e; rw [hfree] at h; exact absurd h (by simp)
    · exact h
  leaf := by
    intro k sym h
    rw [leafAt_link b hcur hl]
    split
    · rename_i e; subst e; exact absurd (leafAt_lt h) (by omega)
    · exact h

/-- What hanging an entry keeps of `Built`, whatever the entry. -/
theorem Built.link_shape (h : Built ar done u) (hu : follow ar 0 u = some cur)
    (hl : leafAt ar cur = none) {nd : Node} (hnd : Childless nd) {b : Bool}
    (hfree : childAt ar cur b = none) :
    SlotsDistinct (linkChild (ar ++ [nd]) cur b ar.length) ∧
    NoParent (linkChild (ar ++ [nd]) cur b ar.length) 0 ∧
    (∀ {k d x}, childAt (linkChild (ar ++ [nd]) cur b ar.length) k d = some x →
      x < (linkChild (ar ++ [nd]) cur b ar.length).length) ∧
    follow (linkChild (ar ++ [nd]) cur b ar.length) 0 (u ++ [b]) = some ar.length ∧
    (∀ x, x < (linkChild (ar ++ [nd]) cur b ar.length).length →
      ∃ p, follow (linkChild (ar ++ [nd]) cur b ar.length) 0 p = some x) := by
  have hcur := h.reached_lt hu
  have hend : follow (linkChild (ar ++ [nd]) cur b ar.length) 0 (u ++ [b]) = some ar.length := by
    rw [follow_concat, (grows_link hcur hl hnd hfree).follow hu]
    simp [childAt_link b hcur hl hnd]
  refine ⟨?_, ?_, ?_, hend, ?_⟩
  · intro k k' d d' x h1 h2
    rw [childAt_link b hcur hl hnd] at h1 h2
    split at h1 <;> split at h2
    · rename_i e1 e2; exact ⟨e1.1.trans e2.1.symm, e1.2.trans e2.2.symm⟩
    · injection h1 with h1; subst h1; exact absurd (h.bound h2) (by omega)
    · injection h2 with h2; subst h2; exact absurd (h.bound h1) (by omega)
    · exact h.distinct h1 h2
  · intro k d h1
    rw [childAt_link b hcur hl hnd] at h1
    split at h1
    · injection h1 with h1; have := h.nonempty; omega
    · exact h.noParent k d h1
  · intro k d x h1
    rw [length_link]
    rw [childAt_link b hcur hl hnd] at h1
    split at h1
    · injection h1 with h1; omega
    · have := h.bound h1; omega
  · intro x hx
    rw [length_link] at hx
    by_cases hx' : x < ar.length
    · obtain ⟨p, hp⟩ := h.reached x hx'
      exact ⟨p, (grows_link hcur hl hnd hfree).follow hp⟩
    · exact ⟨u ++ [b], by rw [hend]; congr 1; omega⟩

/-- Hanging a bare INTERNAL node goes one bit further along the next code. -/
theorem Built.link_bare (h : Built ar done u) (hu : follow ar 0 u = some cur)
    (hl : leafAt ar cur = none) {b : Bool} (hfree : childAt ar cur b = none) :
    Built (linkChild (ar ++ [bareNode]) cur b ar.length) done (u ++ [b]) ∧
      follow (linkChild (ar ++ [bareNode]) cur b ar.length) 0 (u ++ [b]) = some ar.length ∧
      leafAt (linkChild (ar ++ [bareNode]) cur b ar.length) ar.length = none := by
  have hnd : Childless bareNode := by intro d; cases d <;> rfl
  have hcur := h.reached_lt hu
  have hg := grows_link hcur hl hnd hfree
  obtain ⟨s1, s2, s3, s4, s5⟩ := h.link_shape hu hl hnd hfree
  have hnew : leafAt (linkChild (ar ++ [bareNode]) cur b ar.length) ar.length = none := by
    rw [leafAt_link b hcur hl]; simp [leafAt, bareNode]
  refine ⟨⟨s1, s2, s3, by rw [length_link]; omega, ?_, ?_, ?_, ?_, s5⟩, s4, hnew⟩
  · rw [leafAt_link b hcur hl, if_neg (by have := h.nonempty; omega)]
    exact h.rootInner
  · rintro e he
    obtain ⟨x, hx, hxl⟩ := h.leads e he
    exact ⟨x, hg.follow hx, hg.leaf hxl⟩
  · intro p x hp hne
    rcases h.follow_link hu hl hnd b hp with hp | ⟨rfl, -⟩
    · rcases h.covered hp hne with hc | hc
      · exact .inl hc
      · exact .inr (hc.trans (List.prefix_append _ _))
    · exact .inr List.prefix_rfl
  · intro p x sym hp hs
    rcases h.follow_link hu hl hnd b hp with hp | ⟨rfl, rfl⟩
    · rw [leafAt_link b hcur hl, if_neg (by have := h.reached_lt hp; omega)] at hs
      exact h.leaves hp hs
    · rw [hnew] at hs; exact absurd hs (by simp)

/-- Hanging the LEAF ends the insertion. -/
theorem Built.link_leaf (h : Built ar done u) (hu : follow ar 0 u = some cur)
    (hl : leafAt ar cur = none) {b : Bool} (hfree : childAt ar cur b = none) (sym : Byte) :
    Built (linkChild (ar ++ [.leaf sym 0]) cur b ar.length) (done ++ [(sym, u ++ [b])]) [] := by
  have hnd : Childless (.leaf sym 0) := by intro d; rfl
  have hcur := h.reached_lt hu
  have hg := grows_link hcur hl hnd hfree
  obtain ⟨s1, s2, s3, s4, s5⟩ := h.link_shape hu hl hnd hfree
  have hnew : leafAt (linkChild (ar ++ [.leaf sym 0]) cur b ar.length) ar.length = some sym := by
    rw [leafAt_link b hcur hl]; simp [leafAt]
  refine ⟨s1, s2, s3, by rw [length_link]; omega, ?_, ?_, ?_, ?_, s5⟩
  · rw [leafAt_link b hcur hl, if_neg (by have := h.nonempty; omega)]
    exact h.rootInner
  · intro e he
    rcases List.mem_append.1 he with he | he
    · obtain ⟨x, hx, hxl⟩ := h.leads e he
      exact ⟨x, hg.follow hx, hg.leaf hxl⟩
    · simp only [List.mem_singleton] at he
      subst he
      exact ⟨ar.length, s4, hnew⟩
  · intro p x hp hne
    rcases h.follow_link hu hl hnd b hp with hp | ⟨rfl, -⟩
    · rcases h.covered hp hne with ⟨e, he, hc⟩ | hc
      · exact .inl ⟨e, List.mem_append_left _ he, hc⟩
      · exact .inl ⟨(sym, u ++ [b]), by simp, hc.trans (List.prefix_append _ _)⟩
    · exact .inl ⟨(sym, u ++ [b]), by simp, List.prefix_rfl⟩
  · intro p x s hp hs
    rcases h.follow_link hu hl hnd b hp with hp | ⟨rfl, rfl⟩
    · rw [leafAt_link b hcur hl, if_neg (by have := h.reached_lt hp; omega)] at hs
      exact List.mem_append_left _ (h.leaves hp hs)
    · rw [hnew] at hs
      injection hs with hs
      subst hs
      simp

/-- The walk along an existing child. -/
theorem Built.descend (h : Built ar done u) {b : Bool} :
    Built ar done (u ++ [b]) :=
  ⟨h.distinct, h.noParent, h.bound, h.nonempty, h.rootInner, h.leads,
    fun hp hne => (h.covered hp hne).imp_right fun hc => hc.trans (List.prefix_append _ _),
    h.leaves, h.reached⟩

/-- The insertion of a code that is no prefix of an earlier one, nor an earlier one of it. -/
theorem Built.insertPath (sym : Byte) (c : Bits) (h : Built ar done u) (hu : follow ar 0 u = some cur)
    (hl : leafAt ar cur = none) (hc : c ≠ [])
    (hfree : ∀ e ∈ done, ¬ e.2 <+: (u ++ c) ∧ ¬ (u ++ c) <+: e.2) :
    ∃ ar', insertPath sym c cur ar = some ar' ∧ Built ar' (done ++ [(sym, u ++ c)]) [] ∧
      ar'.length ≤ ar.length + c.length := by
  induction c generalizing ar u cur with
  | nil => exact absurd rfl hc
  | cons b c ih =>
    cases c with
    | nil =>
      have hslot : childAt ar cur b = none := by
        by_contra hs
        obtain ⟨x, hx⟩ := Option.ne_none_iff_exists'.1 hs
        have hp : follow ar 0 (u ++ [b]) = some x := by rw [follow_concat, hu]; exact hx
        rcases h.covered hp (by simp) with ⟨e, he, hpre⟩ | hpre
        · exact (hfree e he).2 hpre
        · have := hpre.length_le; simp at this
      refine ⟨_, by rw [Machine.insertPath, hslot], h.link_leaf hu hl hslot sym, ?_⟩
      rw [length_link]; simp
    | cons b' c =>
      have happ : u ++ b :: b' :: c = u ++ [b] ++ (b' :: c) := by simp
      rw [happ] at hfree ⊢
      cases hslot : childAt ar cur b with
      | none =>
        obtain ⟨g1, g2, g3⟩ := h.link_bare hu hl hslot
        obtain ⟨ar', i1, i2, i3⟩ := ih g1 g2 g3 (by simp) hfree
        refine ⟨ar', by rw [Machine.insertPath, hslot]; exact i1, i2, ?_⟩
        rw [length_link] at i3
        simp only [List.length_cons] at i3 ⊢
        omega
      | some nx =>
        have hp : follow ar 0 (u ++ [b]) = some nx := by rw [follow_concat, hu]; exact hslot
        have hnl : leafAt ar nx = none := by
          cases hx : leafAt ar nx with
          | none => rfl
          | some s =>
            exact absurd ((List.prefix_append (u ++ [b]) (b' :: c)))
              (hfree _ (h.leaves hp hx)).1
        obtain ⟨ar', i1, i2, i3⟩ := ih h.descend hp hnl (by simp) hfree
        refine ⟨ar', by rw [Machine.insertPath, hslot]; dsimp only; rw [hnl]; exact i1, i2, ?_⟩
        simp only [List.length_cons] at i3 ⊢
        omega

/-- Codes none of which is empty or a prefix of another are all inserted. -/
theorem Built.insertAll (s : State) (l : List Byte) (i : Nat) (h : Built ar done [])
    (hne : ∀ sym ∈ l, s.codeOf sym ≠ [])
    (hpre : ∀ sym ∈ l, ∀ e ∈ done, ¬ e.2 <+: s.codeOf sym ∧ ¬ s.codeOf sym <+: e.2)
    (hpair : l.Pairwise fun a b => ¬ s.codeOf a <+: s.codeOf b ∧ ¬ s.codeOf b <+: s.codeOf a) :
    ∃ ar', insertAll s l i ar = (ar', none) ∧
      Built ar' (done ++ l.map fun sym => (sym, s.codeOf sym)) [] ∧
      ar'.length ≤ ar.length + (l.map fun sym => (s.codeOf sym).length).sum := by
  induction l generalizing ar done i with
  | nil => exact ⟨ar, rfl, by simpa using h, by simp⟩
  | cons sym l ih =>
    rw [List.pairwise_cons] at hpair
    obtain ⟨ar1, i1, i2, i3⟩ := h.insertPath (u := []) (cur := 0) sym (s.codeOf sym) rfl h.rootInner
      (hne sym List.mem_cons_self) (by simpa using hpre sym List.mem_cons_self)
    have hins : insertCode ar sym (s.codeOf sym) = some ar1 := by
      simp only [insertCode, h.rootInner]
      cases hc : s.codeOf sym with
      | nil => exact absurd hc (hne sym List.mem_cons_self)
      | cons b c => rw [hc] at i1; exact i1
    have hpre' : ∀ x ∈ l, ∀ e ∈ done ++ [(sym, [] ++ s.codeOf sym)],
        ¬ e.2 <+: s.codeOf x ∧ ¬ s.codeOf x <+: e.2 := by
      intro x hx e he
      rcases List.mem_append.1 he with he | he
      · exact hpre x (List.mem_cons_of_mem _ hx) e he
      · simp only [List.nil_append, List.mem_singleton] at he
        subst he
        exact hpair.1 x hx
    obtain ⟨ar', j1, j2, j3⟩ :=
      ih (i + 1) i2 (fun x hx => hne x (List.mem_cons_of_mem _ hx)) hpre' hpair.2
    refine ⟨ar', by rw [Machine.insertAll, hins]; exact j1, by simpa using j2, ?_⟩
    simp only [List.map_cons, List.sum_cons]
    omega

/-- A code that is a prefix of an earlier one, or has an earlier one as a prefix, is not inserted. -/
theorem Built.insertPath_conflict (sym : Byte) (c : Bits) (h : Built ar done u)
    (hu : follow ar 0 u = some cur) (hl : leafAt ar cur = none) (hc : c ≠ [])
    (hbad : ∃ e ∈ done, e.2 <+: (u ++ c) ∨ (u ++ c) <+: e.2) : Machine.insertPath sym c cur ar = none := by
  -- an earlier code in conflict goes through the slot the walk looks at
  have slot : ∀ {u : Bits} {cur : Nat} {b : Bool} {c : Bits}, follow ar 0 u = some cur →
      leafAt ar cur = none → (∃ e ∈ done, e.2 <+: (u ++ b :: c) ∨ (u ++ b :: c) <+: e.2) →
      ∃ x, childAt ar cur b = some x := by
    rintro u cur b c hu hl ⟨e, he, hpre⟩
    obtain ⟨x, hx, hxl⟩ := h.leads e he
    have hgo : (u ++ [b]) <+: e.2 := by
      rcases hpre with hpre | hpre
      · rcases List.prefix_or_prefix_of_prefix hpre (l₂ := u ++ [b])
          ⟨c, by simp⟩ with h1 | h1
        · rcases List.prefix_concat_iff.1 h1 with h2 | h2
          · rw [h2]
          · exfalso
            obtain ⟨r, rfl⟩ := h2
            rw [follow_append, hx] at hu
            obtain ⟨-, rfl⟩ := follow_leaf hxl hu
            rw [hl] at hxl
            exact absurd hxl (by simp)
        · exact h1
      · exact List.IsPrefix.trans ⟨c, by simp⟩ hpre
    obtain ⟨r, hr⟩ := hgo
    rw [← hr, List.append_assoc, follow_append, hu] at hx
    simp only [Option.bind_some, List.singleton_append, follow_cons] at hx
    obtain ⟨y, hy, -⟩ := Option.bind_eq_some_iff.1 hx
    exact ⟨y, hy⟩
  induction c generalizing u cur with
  | nil => exact absurd rfl hc
  | cons b c ih =>
    obtain ⟨x, hx⟩ := slot hu hl hbad
    cases c with
    | nil => rw [Machine.insertPath, hx]
    | cons b' c =>
      rw [Machine.insertPath, hx]
      dsimp only
      cases hxl : leafAt ar x with
      | some a => rfl
      | none =>
        exact ih h.descend (by rw [follow_concat, hu]; exact hx) hxl (by simp) (by simpa using hbad)

/-- The loop stops at the first code that is not inserted. -/
theorem insertAll_stop (s : State) (l : List Byte) (sym : Byte) (rest : List Byte) (i : Nat)
    (ar ar' : List Node) (h : insertAll s l i ar = (ar', none))
    (hn : insertCode ar' sym (s.codeOf sym) = none) :
    insertAll s (l ++ sym :: rest) i ar = (ar', some (i + l.length)) := by
  induction l generalizing i ar with
  | nil =>
    injection h with h
    subst h
    simp [Machine.insertAll, hn]
  | cons a l ih =>
    rw [List.cons_append, Machine.insertAll] at *
    cases hc : insertCode ar a (s.codeOf a) with
    | none => rw [hc] at h; injection h with _ h; exact absurd h (by simp)
    | some ar1 =>
      rw [hc] at h
      dsimp only at h ⊢
      rw [ih (i + 1) ar1 h, List.length_cons]
      congr 2
      omega

/-! ### DEC_PAYLOAD (R182) -/

theorem bodyKeeps_decPayload (s : State) : BodyKeeps s (bodyDecPayload s).1 := by
  unfold bodyDecPayload
  split
  · unfold bodyLeafRoot
    dsimp only
    split <;> exact ⟨⟨rfl, rfl, rfl, rfl, rfl, rfl, rfl, rfl, rfl, rfl, rfl, rfl⟩, rfl, rfl, rfl⟩
  · dsimp only
    split <;> exact ⟨⟨rfl, rfl, rfl, rfl, rfl, rfl, rfl, rfl, rfl, rfl, rfl, rfl⟩, rfl, rfl, rfl⟩

theorem State.BitsAt.head {s : State} {x : Nat} {b : Bool} {c : Bits} (h : s.BitsAt x (b :: c)) :
    s.bitAt x = b := by
  have := h 0 (by simp)
  simpa using this

theorem State.BitsAt.tail {s : State} {x : Nat} {b : Bool} {c : Bits} (h : s.BitsAt x (b :: c)) :
    s.BitsAt (x + 1) c := by
  intro i hi
  have := h (i + 1) (by simp; omega)
  rw [show x + 1 + i = x + (i + 1) by omega, this]
  simp

theorem State.BitsAt.append {s : State} {x : Nat} {c d : Bits} (h : s.BitsAt x (c ++ d)) :
    s.BitsAt x c ∧ s.BitsAt (x + c.length) d := by
  constructor
  · intro i hi
    rw [h i (by simp; omega)]
    simp [List.getD, List.getElem?_append_left hi]
  · intro i hi
    rw [show x + c.length + i = x + (c.length + i) by omega, h (c.length + i) (by simp; omega)]
    simp only [List.getD]
    rw [List.getElem?_append_right (by omega), Nat.add_sub_cancel_left]

/-- The limit does not stop the walk at this count. -/
def State.GoesOn (s : State) (count : Nat) : Prop := s.limsnap = true → count ≠ s.outLimit.toNat

theorem State.GoesOn.test {s : State} {count : Nat} (h : s.GoesOn count) :
    (s.limsnap && count == s.outLimit.toNat) = false := by
  cases hl : s.limsnap
  · rfl
  · simpa [hl] using h hl

/-- The walk over the bits of one code emits its symbol. -/
theorem walkPayload_code (s : State) (sym : Byte) (c : Bits) (k left x : Nat) (w : Walk)
    (hcur : w.cur = some k) (hlead : LeadsTo s.arena k c sym) (hc : c ≠ []) (hbits : s.BitsAt x c)
    (hgo : s.GoesOn w.count) (hcap : w.count < s.outCap.bytes) :
    walkPayload s (c.length + left) x w =
      walkPayload s left (x + c.length)
        { out := Memory.write w.out w.count sym, count := w.count + 1, cur := s.root, depth := 0,
          examined := w.examined + c.length } := by
  induction c generalizing k x w with
  | nil => exact absurd rfl hc
  | cons b c ih =>
    obtain ⟨y, hy, hyl⟩ := hlead
    rw [follow_cons] at hy
    obtain ⟨z, hz, hzy⟩ := Option.bind_eq_some_iff.1 hy
    have hlen : (b :: c).length + left = c.length + left + 1 := by simp; omega
    rw [hlen, walkPayload, if_neg (by simp [hgo.test])]
    have hchild : s.childOf w.cur (s.bitAt x) = some z := by
      rw [hcur, hbits.head]; exact hz
    rw [hchild]
    dsimp only
    cases c with
    | nil =>
      simp only [follow_nil, Option.some.injEq] at hzy
      subst hzy
      rw [hyl]
      dsimp only
      rw [if_neg (by omega)]
      simp
    | cons b' c =>
      have hnl : leafAt s.arena z = none := by
        rw [follow_cons] at hzy
        obtain ⟨v, hv, -⟩ := Option.bind_eq_some_iff.1 hzy
        exact leafAt_of_childAt hv
      rw [hnl]
      dsimp only
      rw [ih z (x + 1)
        { out := w.out, count := w.count, cur := some z, depth := w.depth + 1, examined := w.examined + 1 }
        rfl ⟨y, hzy, hyl⟩ (by simp) hbits.tail hgo hcap]
      dsimp only
      congr 1
      · simp only [List.length_cons]; omega
      · congr 1
        simp only [List.length_cons]; omega

/-- The walk over the codes of a list of symbols emits the list. -/
theorem walkPayload_codes (s : State) (code : Byte → Bits) (r : Nat) (hr : s.root = some r)
    (l : List Byte) (left x : Nat) (w : Walk)
    (hlead : ∀ sym ∈ l, LeadsTo s.arena r (code sym) sym ∧ code sym ≠ [])
    (hbits : s.BitsAt x (l.flatMap code)) (hcur : w.cur = s.root) (hdepth : w.depth = 0)
    (hgo : s.limsnap = true → w.count + l.length ≤ s.outLimit.toNat)
    (hcap : w.count + l.length ≤ s.outCap.bytes) :
    walkPayload s ((l.flatMap code).length + left) x w =
      walkPayload s left (x + (l.flatMap code).length)
        { out := Memory.writeBytes w.out w.count l, count := w.count + l.length, cur := s.root,
          depth := 0, examined := w.examined + (l.flatMap code).length } := by
  induction l generalizing x w with
  | nil =>
    obtain ⟨out, count, cur, depth, examined⟩ := w
    dsimp only at hcur hdepth
    subst hcur hdepth
    simp [Memory.writeBytes]
  | cons sym l ih =>
    simp only [List.flatMap_cons] at hbits ⊢
    simp only [List.length_cons] at hgo hcap
    obtain ⟨h1, h2⟩ := hlead sym List.mem_cons_self
    have hb := hbits.append
    rw [List.length_append, Nat.add_assoc,
      walkPayload_code s sym (code sym) r _ x w (hcur.trans hr) h1 h2 hb.1
        (fun hl => by have := hgo hl; omega) (by omega),
      ih _ _ (fun a ha => hlead a (List.mem_cons_of_mem _ ha)) hb.2 rfl rfl
        (fun hl => by have := hgo hl; dsimp only; omega) (by dsimp only; omega)]
    dsimp only
    congr 1
    · omega
    · simp only [Memory.writeBytes, List.length_cons]
      congr 1 <;> omega

end Sys2Proof.Machine
end

