-- ==== Sys2Proof/Laws/Chain.lean ====
section
/-! SUPPORT. The stages of a chain one after the other: what ENC_FREQ, ENC_TREE and ENC_CODES leave
(41_encoder.md R150 to R155), how ENCODE ends (R156 to R158), and what DEC_TABLE and DEC_TREE make of a
container whose codes are prefix-free (42_decoder.md R180, R181, R186). -/

namespace Sys2Proof.Machine

/-! ### The front of the encoder -/

/-- The STAGE bits after ENC_CODES. -/
def Stage.coded : Stage := { Stage.none with freqV := true, treeV := true, codesV := true }

/-- What the first three stages of an encoder chain leave of `s` in `t`. -/
structure Front (s t : State) : Prop where
  keeps    : StageKeeps s t
  outMem   : t.outMem = s.outMem
  stage    : t.stage = Stage.coded
  counts   : ∀ sym, (t.freq.at sym).toNat = s.input.count sym
  nsym     : t.nsym.toNat = (mappedSymbols t.freq).length
  tree     : (t.arena, t.root) = buildTree t.freq
  present  : ∀ sym, t.present sym = true ↔ sym ∈ mappedSymbols t.freq
  code     : ∀ sym ∈ mappedSymbols t.freq, ∃ r, t.root = some r ∧ CodeTree (mappedSymbols t.freq) t.arena r ∧
    LeadsTo t.arena r (t.codeOf sym) sym ∧ t.codeOf sym ≠ [] ∧ t.HasCode sym (t.codeOf sym) ∧
    (t.codeOf sym).length ≤ 255
  absent   : ∀ sym, sym ∉ mappedSymbols t.freq → t.codeLen.at sym = CodeLen.absent ∧ t.codeBits.at sym = 0
  hdrLen   : t.hdrLen = 0
  outLen   : t.outLen = 0
  payload  : t.payloadBits = 0
  resid    : t.resid = 0
  order    : t.order = []

theorem Front.mapped_iff {s t : State} (h : Front s t) (sym : Byte) :
    sym ∈ mappedSymbols t.freq ↔ sym ∈ s.input := by
  rw [mem_mappedSymbols, ← List.count_pos_iff, ← h.counts]
  constructor
  · intro hne
    rcases Nat.eq_zero_or_pos (t.freq.at sym).toNat with h0 | h0
    · exact absurd (BitVec.eq_of_toNat_eq h0) hne
    · exact h0
  · intro hpos he
    rw [he] at hpos
    simp at hpos

theorem Front.input {s t : State} (h : Front s t) : t.input = s.input := h.keeps.host.input

theorem Front.presentSymbols {s t : State} (h : Front s t) :
    t.presentSymbols = mappedSymbols t.freq := by
  refine List.filter_congr ?_
  intro sym _
  rw [Bool.eq_iff_iff, h.present, mem_mappedSymbols]
  simp

theorem Front.nsym_eq {s t : State} (h : Front s t) : t.nsym.toNat = t.presentSymbols.length := by
  rw [h.presentSymbols, h.nsym]

/-- The codes are prefix-free (R155). -/
theorem Front.prefixFree {s t : State} (h : Front s t) : t.PrefixFree := by
  intro a b ha hb hne hpre
  obtain ⟨r, hr, ht, ⟨x, hx, hxl⟩, -⟩ := h.code a ((h.present a).1 ha)
  obtain ⟨r', hr', -, ⟨y, hy, hyl⟩, -⟩ := h.code b ((h.present b).1 hb)
  rw [hr] at hr'
  obtain rfl := Option.some.inj hr'
  obtain ⟨-, rfl⟩ := follow_prefix hx hxl hy hyl hpre
  rw [hxl] at hyl
  exact hne (Option.some.inj hyl)

/-- ENC_FREQ on an input within IN_CAP. -/
theorem stageEncFreq_ok (s : State) (hlen : s.inLen.toNat ≤ s.inCap.bytes) :
    ∃ t, stageEncFreq s = (t, none) ∧ StageKeeps s t ∧ t.outMem = s.outMem ∧
      t.stage = { Stage.none with freqV := true } ∧
      t.freq = s.input.foldl countSymbol (Table.fill 0) ∧
      t.nsym = BitVec.ofNat 9 (distinctCount t.freq) := by
  have hin : (s.invalidate .encFreq).input = s.input := (hostSideKept_invalidate s .encFreq).input
  refine ⟨_, runStage_ok rfl (fun _ => hlen) rfl,
    stageKeeps_stage _ ((stageKeeps_invalidate s _).trans (bodyKeeps_encFreq _).stageKeeps),
    invalidate_outMem s _, ?_, ?_, ?_⟩
  · simp [Stage.invalidate, Stage.mark]
  · rw [← hin]; rfl
  · rfl

/-- ENC_TREE after ENC_FREQ. -/
theorem stageEncTree_ok (s : State) (hs : s.stage = { Stage.none with freqV := true }) :
    ∃ t, stageEncTree s = (t, none) ∧ StageKeeps s t ∧ t.outMem = s.outMem ∧
      t.stage = { Stage.none with freqV := true, treeV := true } ∧
      t.freq = s.freq ∧ t.nsym = s.nsym ∧ (t.arena, t.root) = buildTree s.freq := by
  refine ⟨_, runStage_ok (by rw [hs]; rfl) (fun h => absurd h (by simp [StageOp.checksInLen])) rfl,
    stageKeeps_stage _ ((stageKeeps_invalidate s _).trans (bodyKeeps_encTree _).stageKeeps),
    invalidate_outMem s _, ?_, rfl, rfl, rfl⟩
  simp [hs, Stage.invalidate, Stage.mark, Stage.none]

/-- The body of ENC_CODES on a tree ENC_TREE built. -/
theorem bodyEncCodes_built {s : State} {freq : Table Word} (ht : (s.arena, s.root) = buildTree freq)
    (hclear : ∀ sym, s.codeLen.at sym = CodeLen.absent) :
    ∃ t, bodyEncCodes s = (t, none) ∧ (∃ cl cb, t = { s with codeLen := cl, codeBits := cb }) ∧
      (∀ sym, t.present sym = true ↔ sym ∈ mappedSymbols freq) ∧
      (∀ sym ∈ mappedSymbols freq, ∃ r, s.root = some r ∧
        CodeTree (mappedSymbols freq) s.arena r ∧
        LeadsTo s.arena r (t.codeOf sym) sym ∧ t.codeOf sym ≠ [] ∧ t.HasCode sym (t.codeOf sym) ∧
        (t.codeOf sym).length ≤ 255) ∧
      (∀ sym, sym ∉ mappedSymbols freq → SameCode s t sym) := by
  have tree : ∀ r, s.root = some r → CodeTree (mappedSymbols freq) s.arena r →
      ∃ t, bodyEncCodes s = (t, none) ∧ (∃ cl cb, t = { s with codeLen := cl, codeBits := cb }) ∧
      (∀ sym, t.present sym = true ↔ sym ∈ mappedSymbols freq) ∧
      (∀ sym ∈ mappedSymbols freq, ∃ r, s.root = some r ∧
        CodeTree (mappedSymbols freq) s.arena r ∧
        LeadsTo s.arena r (t.codeOf sym) sym ∧ t.codeOf sym ≠ [] ∧ t.HasCode sym (t.codeOf sym) ∧
        (t.codeOf sym).length ≤ 255) ∧
      (∀ sym, sym ∉ mappedSymbols freq → SameCode s t sym) := by
    intro r hr htr
    obtain ⟨t, b1, b2, b3, b4, b5⟩ := bodyEncCodes_codeTree hr htr hclear
    exact ⟨t, b1, b2, b3, fun sym hs => ⟨r, hr, htr, b4 sym hs⟩, b5⟩
  rcases hm : mappedSymbols freq with _ | ⟨a, _ | ⟨b, l⟩⟩
  · rw [buildTree_empty hm] at ht
    injection ht with h1 h2
    refine ⟨s, by simp [bodyEncCodes, h2], ⟨s.codeLen, s.codeBits, rfl⟩, ?_, ?_, fun _ _ => ⟨rfl, rfl⟩⟩
    · intro sym
      simp [State.present, hclear, CodeLen.absent]
    · intro sym hs
      exact absurd hs (by simp)
  · rw [buildTree_one hm] at ht
    injection ht with h1 h2
    rw [← hm]
    refine tree 1 h2 ?_
    rw [hm, h1]
    exact codeTree_one a _ _
  · rw [← hm]
    have h2' : 2 ≤ (mappedSymbols freq).length := by rw [hm]; simp
    obtain ⟨ar, hb, htr⟩ := buildTree_many h2'
    rw [hb] at ht
    injection ht with h1 h2
    refine tree (ar.length - 1) h2 ?_
    rw [h1]
    exact htr.codeTree (mappedSymbols_nodup _) h2' (length_mappedSymbols_le _)

/-- ENC_CODES after ENC_TREE. -/
theorem stageEncCodes_ok {s0 s : State} (hs : s.stage = { Stage.none with freqV := true, treeV := true })
    (hk : StageKeeps s0 s) (ho : s.outMem = s0.outMem)
    (hc : ∀ sym, (s.freq.at sym).toNat = s0.input.count sym)
    (hn : s.nsym.toNat = (mappedSymbols s.freq).length) (ht : (s.arena, s.root) = buildTree s.freq) :
    ∃ t, stageEncCodes s = (t, none) ∧ Front s0 t := by
  generalize hu : s.invalidate .encCodes = u
  have fu : u.freq = s.freq := by rw [← hu]; simp [State.invalidate]
  have tu : (u.arena, u.root) = buildTree s.freq := by
    rw [← ht, ← hu]; simp [State.invalidate]
  obtain ⟨t, b1, ⟨cl, cb, rfl⟩, b3, b4, b5⟩ := bodyEncCodes_built tu
    (fun sym => by rw [← hu]; simp [State.invalidate])
  have hb := bodyKeeps_encCodes u
  rw [b1] at hb
  have hrun := runStage_ok (op := .encCodes) (body := bodyEncCodes) (s := s) (by rw [hs]; rfl)
    (fun h => absurd h (by simp [StageOp.checksInLen])) (by rw [hu]; exact b1)
  refine ⟨_, hrun, ?_⟩
  rw [← fu] at hn b3 b4 b5 tu
  refine
    { keeps := ?_, outMem := ?_, stage := ?_, counts := ?_, nsym := ?_, tree := tu, present := b3,
      code := b4, absent := ?_, hdrLen := ?_, outLen := ?_, payload := ?_, resid := ?_, order := ?_ }
  · refine stageKeeps_stage _ (hk.trans (StageKeeps.trans ?_ hb.stageKeeps))
    rw [← hu]; exact stageKeeps_invalidate s _
  · show u.outMem = _
    rw [← hu, invalidate_outMem, ho]
  · show Stage.mark u.stage .encCodes = _
    rw [← hu, invalidate_stage, hs]
    rfl
  · intro sym
    show (u.freq.at sym).toNat = _
    rw [fu]; exact hc sym
  · show u.nsym.toNat = _
    have : u.nsym = s.nsym := by rw [← hu]; simp [State.invalidate]
    rw [this]; exact hn
  · intro sym hs
    refine ⟨(b5 sym hs).1.trans ?_, (b5 sym hs).2.trans ?_⟩
    · rw [← hu]; simp [State.invalidate]
    · rw [← hu]; simp [State.invalidate]
  · show u.hdrLen = 0
    rw [← hu]; simp [State.invalidate]
  · show u.outLen = 0
    rw [← hu]; simp [State.invalidate]
  · show u.payloadBits = 0
    rw [← hu]; simp [State.invalidate]
  · show u.resid = 0
    rw [← hu]; simp [State.invalidate]
  · show u.order = []
    rw [← hu]; simp [State.invalidate]

/-- The first three stages of an encoder chain on an input within IN_CAP. -/
theorem encodeFront (s : State) (hlen : s.inLen.toNat ≤ s.inCap.bytes) :
    ∃ t, ((stageEncFreq s).andThen stageEncTree).andThen stageEncCodes = (t, none) ∧ Front s t := by
  obtain ⟨t1, r1, k1, o1, g1, f1, n1⟩ := stageEncFreq_ok s hlen
  obtain ⟨t2, r2, k2, o2, g2, f2, n2, a2⟩ := stageEncTree_ok t1 g1
  have hc : ∀ sym, (t2.freq.at sym).toNat = s.input.count sym := by
    intro sym; rw [f2, f1]; exact countSymbol_input s sym
  have hn : t2.nsym.toNat = (mappedSymbols t2.freq).length := by
    have := length_mappedSymbols_le t1.freq
    rw [n2, n1, f2, distinctCount_eq, BitVec.toNat_ofNat, Nat.mod_eq_of_lt (by omega)]
  obtain ⟨t, r3, hf⟩ := stageEncCodes_ok g2 (k1.trans k2) (o2.trans o1) hc hn (by rw [f2]; exact a2)
  exact ⟨t, by rw [r1, andThen_none, r2, andThen_none, r3], hf⟩

/-! ### How ENCODE ends -/

theorem length_headerBytes_entries (t : State) : (headerBytes t.entries).length = t.headerSize := by
  rw [headerBytes_entries, headerSize_eq]
  simp
  omega

theorem length_container (t : State) :
    t.container.length = t.headerSize + ceil8 t.payload.length := by
  rw [State.container, List.length_append, length_headerBytes_entries, length_pack]

/-- The state after the first three stages and ENC_HEADER, where the header fits. -/
def State.afterHeader (t : State) : State :=
  { t with outMem := Memory.writeBytes t.outMem 0 (headerBytes t.entries)
           hdrLen := BitVec.ofNat 32 t.headerSize
           outLen := BitVec.ofNat 32 t.headerSize
           stage := { Stage.coded with hdrV := true } }

/-- The state after a successful ENCODE. -/
def State.afterEncode (t : State) : State :=
  { t with outMem := Memory.writeBytes t.outMem 0 t.container
           hdrLen := BitVec.ofNat 32 t.headerSize
           outLen := BitVec.ofNat 32 t.container.length
           payloadBits := BitVec.ofNat 32 t.payload.length
           resid := BitVec.ofNat 32 (8 * ceil8 t.payload.length - t.payload.length)
           stage := { Stage.coded with hdrV := true, payV := true } }

theorem bytes_le (c : Capacity) : c.bytes ≤ 2 ^ 28 := by
  have := c.isLt
  unfold Capacity.bytes
  omega

/-- ENC_HEADER after the front, where its checks pass. -/
theorem stageEncHeader_front {s t : State} (h : Front s t) (hn : t.nsym.toNat ≤ 255)
    (hfit : t.headerSize ≤ t.outCap.bytes) : stageEncHeader t = (t.afterHeader, none) := by
  generalize hu : t.invalidate .encHeader = u
  have e1 : u.nsym = t.nsym := by rw [← hu]; rfl
  have e2 : u.headerSize = t.headerSize := by rw [← hu]; rfl
  have e3 : u.outCap = t.outCap := by rw [← hu]; rfl
  have e4 : u.entriesBytes = t.entriesBytes := by rw [← hu]; rfl
  have e5 : u.outMem = t.outMem := by rw [← hu]; rfl
  have hb := bodyEncHeader_ok (s := u) (by rw [e1]; exact hn) (by rw [e2, e3]; exact hfit)
  have hr := runStage_ok (op := .encHeader) (body := bodyEncHeader) (s := t)
    (by rw [h.stage]; rfl) (fun h => absurd h (by simp [StageOp.checksInLen])) (by rw [hu]; exact hb)
  rw [stageEncHeader, hr, State.afterHeader, headerBytes_entries, e1, e2, e4, e5]
  have hcnt : BitVec.setWidth 8 t.nsym = BitVec.ofNat 8 t.presentSymbols.length := by
    apply BitVec.eq_of_toNat_eq
    rw [BitVec.toNat_setWidth, BitVec.toNat_ofNat, h.nsym_eq]
  have hu' : u = { t with hdrLen := 0, outLen := 0, payloadBits := 0, resid := 0,
                          stage := Stage.coded } := by
    rw [← hu]
    show ({ t with hdrLen := 0, outLen := 0, payloadBits := 0, resid := 0,
                   stage := Stage.invalidate t.stage .encHeader } : State) = _
    rw [h.stage]; rfl
  have hz : t = { t with payloadBits := 0, resid := 0 } := by
    have a := h.payload; have b := h.resid
    cases t; simp_all
  rw [hcnt, hu']
  conv_rhs => rw [hz]
  rfl

/-- ENC_PAYLOAD after ENC_HEADER, where the container fits. -/
theorem stageEncPayload_front {t : State}
    (hfit : t.container.length ≤ t.outCap.bytes) :
    stageEncPayload t.afterHeader = (t.afterEncode, none) := by
  have hcap := bytes_le t.outCap
  rw [length_container] at hfit
  generalize hu : t.afterHeader.invalidate .encPayload = u
  have e1 : u.payload = t.payload := by rw [← hu]; rfl
  have e2 : u.hdrLen.toNat = t.headerSize := by
    have : u.hdrLen = BitVec.ofNat 32 t.headerSize := by rw [← hu]; rfl
    rw [this, BitVec.toNat_ofNat, Nat.mod_eq_of_lt (by omega)]
  have e3 : u.outCap = t.outCap := by rw [← hu]; rfl
  have e5 : u.outMem = Memory.writeBytes t.outMem 0 (headerBytes t.entries) := by rw [← hu]; rfl
  have hb := bodyEncPayload_ok (s := u) (by rw [e1, e2, e3]; exact hfit)
  have hr := runStage_ok (op := .encPayload) (body := bodyEncPayload) (s := t.afterHeader)
    rfl (fun h => absurd h (by simp [StageOp.checksInLen])) (by rw [hu]; exact hb)
  rw [stageEncPayload, hr, State.afterEncode, e1, e2, e5, length_container]
  have hw : Memory.writeBytes (Memory.writeBytes t.outMem 0 (headerBytes t.entries)) t.headerSize
      (pack t.payload) = Memory.writeBytes t.outMem 0 t.container := by
    rw [State.container, Memory.writeBytes_append, length_headerBytes_entries, Nat.zero_add]
  rw [hw, ← hu]
  rfl

/-- ENCODE on an input within IN_CAP, by whether its container can be made. -/
theorem runEncode_cases (s : State) (hlen : s.inLen.toNat ≤ s.inCap.bytes) :
    ∃ t, ((stageEncFreq s).andThen stageEncTree).andThen stageEncCodes = (t, none) ∧ Front s t ∧
      (255 < t.nsym.toNat → runEncode s = (t.invalidate .encHeader,
        some { code := .symbolOverflow, op := 0x13, info := t.nsym.toNat })) ∧
      (t.nsym.toNat ≤ 255 → t.outCap.bytes < t.headerSize → runEncode s = (t.invalidate .encHeader,
        some { code := .outOverflow, op := 0x13, info := t.headerSize })) ∧
      (t.nsym.toNat ≤ 255 → t.headerSize ≤ t.outCap.bytes → t.outCap.bytes < t.container.length →
        runEncode s = (t.afterHeader.invalidate .encPayload,
          some { code := .outOverflow, op := 0x14, info := t.container.length })) ∧
      (t.nsym.toNat ≤ 255 → t.container.length ≤ t.outCap.bytes →
        runEncode s = (t.afterEncode, none)) := by
  obtain ⟨t, hrun, hf⟩ := encodeFront s hlen
  have hmeet : t.stage.meets .encHeader = true := by rw [hf.stage]; rfl
  have hno : StageOp.checksInLen .encHeader = true → t.inLen.toNat ≤ t.inCap.bytes :=
    fun h => absurd h (by simp [StageOp.checksInLen])
  refine ⟨t, hrun, hf, ?_, ?_, ?_, ?_⟩
  · intro h
    have hb : bodyEncHeader (t.invalidate .encHeader) = (t.invalidate .encHeader,
        some { code := .symbolOverflow, info := t.nsym.toNat }) := by
      have : 255 < (t.invalidate .encHeader).nsym.toNat := h
      simp only [bodyEncHeader, this, if_true]
      rfl
    rw [runEncode, hrun, andThen_none, stageEncHeader, runStage_raise hmeet hno hb, andThen_some]
    rfl
  · intro h1 h2
    have hb : bodyEncHeader (t.invalidate .encHeader) = (t.invalidate .encHeader,
        some { code := .outOverflow, info := t.headerSize }) := by
      have h1' : ¬ 255 < (t.invalidate .encHeader).nsym.toNat := by
        show ¬ 255 < t.nsym.toNat; omega
      have h2' : (t.invalidate .encHeader).outCap.bytes < (t.invalidate .encHeader).headerSize := h2
      simp only [bodyEncHeader, h1', h2', if_true, if_false]
      rfl
    rw [runEncode, hrun, andThen_none, stageEncHeader, runStage_raise hmeet hno hb, andThen_some]
    rfl
  · intro h1 h2 h3
    have hcap := bytes_le t.outCap
    have hh : (t.afterHeader.invalidate .encPayload).hdrLen.toNat = t.headerSize := by
      show (BitVec.ofNat 32 t.headerSize).toNat = _
      rw [BitVec.toNat_ofNat, Nat.mod_eq_of_lt (by omega)]
    have hp : (t.afterHeader.invalidate .encPayload).payload = t.payload := rfl
    have hb : bodyEncPayload (t.afterHeader.invalidate .encPayload) =
        (t.afterHeader.invalidate .encPayload,
          some { code := .outOverflow, info := t.container.length }) := by
      rw [length_container] at h3 ⊢
      have h3' : (t.afterHeader.invalidate .encPayload).outCap.bytes <
          t.headerSize + ceil8 t.payload.length := h3
      simp only [bodyEncPayload, hh, hp, h3', if_true]
    rw [runEncode, hrun, andThen_none, stageEncHeader_front hf h1 h2, andThen_none, stageEncPayload,
      runStage_raise rfl (fun h => absurd h (by simp [StageOp.checksInLen])) hb]
    rfl
  · intro h1 h2
    have h2' : t.headerSize ≤ t.outCap.bytes := by rw [length_container] at h2; omega
    rw [runEncode, hrun, andThen_none, stageEncHeader_front hf h1 h2', andThen_none,
      stageEncPayload_front h2]

/-- The bytes of OUT_MEM after a successful ENCODE. -/
theorem output_afterEncode (t : State) : t.afterEncode.output t.container.length = t.container := by
  apply List.ext_getElem
  · simp [State.output]
  · intro i h1 h2
    have : Memory.stored t.afterEncode.outMem i = some t.container[i] := by
      show Memory.stored (Memory.writeBytes t.outMem 0 t.container) i = _
      rw [Memory.stored_writeBytes]
      simp [h2]
    simp [State.output, State.outByte, this]

/-! ### DEC_TABLE and DEC_TREE on a container -/

/-- A code table that a container can hold and a decoder can use: each symbol once, at most 255 of them, codes
of 1 to 255 bits, none a prefix of another. -/
structure GoodTable (l : List (Byte × Bits)) : Prop where
  length : l.length ≤ 255
  nodup  : (l.map Prod.fst).Nodup
  codes  : ∀ e ∈ l, e.2 ≠ [] ∧ e.2.length ≤ 255
  free   : l.Pairwise fun a b => ¬ a.2 <+: b.2 ∧ ¬ b.2 <+: a.2

/-- The code table ENC_CODES leaves is one. -/
theorem Front.goodTable {s t : State} (h : Front s t) (hn : t.nsym.toNat ≤ 255) :
    GoodTable t.entries where
  length := by rw [h.nsym_eq] at hn; simpa [State.entries] using hn
  nodup := by
    have : t.entries.map Prod.fst = t.presentSymbols := by simp [State.entries, Function.comp_def]
    rw [this, h.presentSymbols]
    exact mappedSymbols_nodup _
  codes := by
    intro e he
    simp only [State.entries, List.mem_map] at he
    obtain ⟨sym, hs, rfl⟩ := he
    rw [h.presentSymbols] at hs
    obtain ⟨r, -, -, -, hc, -, hl⟩ := h.code sym hs
    exact ⟨hc, hl⟩
  free := by
    rw [State.entries, List.pairwise_map]
    have hnd : t.presentSymbols.Nodup := by rw [h.presentSymbols]; exact mappedSymbols_nodup _
    refine List.Pairwise.imp_of_mem ?_ hnd
    intro a b ha hb hne
    have ha' : t.present a = true := (List.mem_filter.1 ha).2
    have hb' : t.present b = true := (List.mem_filter.1 hb).2
    exact ⟨h.prefixFree a b ha' hb' hne, h.prefixFree b a hb' ha' (Ne.symm hne)⟩

theorem inByte_of_input {u : State} {bytes : List Byte} (h : u.inputStarts bytes) {j : Nat}
    (hj : j < bytes.length) : u.inByte j = bytes.getD j 0 := by
  obtain ⟨r, hr⟩ := h
  have hlt : j < u.input.length := by rw [← hr, List.length_append]; omega
  have h1 : u.input[j] = u.inByte j := by simp [State.input]
  rw [← h1]
  simp only [← hr, List.getD, List.getElem_append_left hj]
  simp [hj]

theorem length_headerBytes (l : List (Byte × Bits)) :
    (headerBytes l).length = 1 + (l.flatMap fun e => entryBytes e.1 e.2).length := by
  simp [headerBytes]
  omega

/-- DEC_TABLE and DEC_TREE on an input that begins with the header of a good table. -/
theorem decodeFront (u : State) (l : List (Byte × Bits)) (hl : GoodTable l)
    (hlen : u.inLen.toNat ≤ u.inCap.bytes) (hin : u.inputStarts (headerBytes l)) :
    ∃ v, (stageDecTable u).andThen stageDecTree = (v, none) ∧ StageKeeps u v ∧
      v.outMem = u.outMem ∧ v.stage = { Stage.none with tabV := true, dtreeV := true } ∧
      v.root = some 0 ∧ v.hdrLen.toNat = (headerBytes l).length ∧ v.nsym.toNat = l.length ∧
      v.order = l.map Prod.fst ∧ v.outLen = 0 ∧ v.payloadBits = 0 ∧ v.resid = 0 ∧
      (∀ sym, v.freq.at sym = 0) ∧
      (∀ e ∈ l, v.codeOf e.1 = e.2 ∧ v.present e.1 = true) ∧
      (∀ sym, sym ∉ l.map Prod.fst → v.codeLen.at sym = CodeLen.absent) ∧
      Built v.arena l [] := by
  have hlenB := length_headerBytes l
  have hlenI : (headerBytes l).length ≤ u.inLen.toNat := by
    obtain ⟨r, hr⟩ := hin
    rw [← length_input u, ← hr, List.length_append]
    omega
  generalize hu1 : u.invalidate .decTable = u1
  have i1 : u1.inByte = u.inByte := by rw [← hu1]; exact (hostSideKept_invalidate u .decTable).inByte
  have l1 : u1.inLen = u.inLen := by rw [← hu1]; rfl
  have p1 : ∀ sym, u1.codeLen.at sym = CodeLen.absent := by
    intro sym; rw [← hu1]; simp [State.invalidate]
  have h0 : u1.inByte 0 = BitVec.ofNat 8 l.length := by
    rw [i1, inByte_of_input hin (by omega)]
    simp [headerBytes]
  have hcount : (u1.inByte 0).toNat = l.length := by
    have := hl.length
    rw [h0, BitVec.toNat_ofNat, Nat.mod_eq_of_lt (by omega)]
  have hread := readEntries_header l.length l 1 u1 (by rw [l1]; omega) ?_
    (fun e he => ⟨(hl.codes e he).2, fun h => absurd h (hl.codes e he).1⟩)
    (fun e _ => by simp [State.present, p1, CodeLen.absent]) hl.nodup
  swap
  · intro j hj
    rw [i1, inByte_of_input hin (by omega)]
    simp [headerBytes, Nat.add_comm 1 j]
  have hbody : bodyDecTable u1 = ({ l.foldl State.addEntry u1 with
      nsym := BitVec.ofNat 9 l.length
      hdrLen := BitVec.ofNat 32 (headerBytes l).length }, none) := by
    rw [bodyDecTable, if_neg (by rw [l1]; omega), hcount, hread, hlenB]
  have hrun1 := runStage_ok (op := .decTable) (body := bodyDecTable) (s := u) rfl (fun _ => hlen)
    (by rw [hu1]; exact hbody)
  obtain ⟨cl, cb, o, hsame⟩ := foldl_addEntry_same l u1
  obtain ⟨a1, a2, a3⟩ := foldl_addEntry l u1 hl.nodup (fun e he => (hl.codes e he).2)
  generalize hw : ({ { l.foldl State.addEntry u1 with
      nsym := BitVec.ofNat 9 l.length
      hdrLen := BitVec.ofNat 32 (headerBytes l).length } with
      stage := Stage.mark ({ l.foldl State.addEntry u1 with
        nsym := BitVec.ofNat 9 l.length
        hdrLen := BitVec.ofNat 32 (headerBytes l).length } : State).stage .decTable } : State) = w at hrun1
  have kw : StageKeeps u w := by
    have hb := bodyKeeps_decTable u1
    rw [hbody] at hb
    rw [← hw]
    refine stageKeeps_stage _ (StageKeeps.trans ?_ hb.stageKeeps)
    rw [← hu1]
    exact stageKeeps_invalidate u _
  have gw : w.stage = { Stage.none with tabV := true } := by
    rw [← hw]
    show Stage.mark (l.foldl State.addEntry u1).stage .decTable = _
    rw [hsame, ← hu1]
    rfl
  have codes : ∀ sym, w.codeOf sym = (l.foldl State.addEntry u1).codeOf sym := by
    intro sym; rw [← hw]; rfl
  have press : ∀ sym, w.present sym = (l.foldl State.addEntry u1).present sym := by
    intro sym; rw [← hw]; rfl
  have lens : w.codeLen = (l.foldl State.addEntry u1).codeLen := by rw [← hw]
  have ordw : w.order = l.map Prod.fst := by
    have : w.order = (l.foldl State.addEntry u1).order := by rw [← hw]
    rw [this, a1, ← hu1]
    simp [State.invalidate]
  have hdrw : w.hdrLen = BitVec.ofNat 32 (headerBytes l).length := by rw [← hw]
  have nsymw : w.nsym = BitVec.ofNat 9 l.length := by rw [← hw]
  have outw : w.outMem = u.outMem := by
    rw [← hw]
    show (l.foldl State.addEntry u1).outMem = _
    rw [hsame, ← hu1]
    rfl
  have freqw : ∀ sym, w.freq.at sym = 0 := by
    intro sym
    have : w.freq = u1.freq := by
      rw [← hw]
      show (l.foldl State.addEntry u1).freq = _
      rw [hsame]
    rw [this, ← hu1]
    simp [State.invalidate]
  -- DEC_TREE
  generalize hu2 : w.invalidate .decTree = u2
  have ord2 : u2.order = l.map Prod.fst := by rw [← hu2]; exact ordw
  have code2 : ∀ sym, u2.codeOf sym = w.codeOf sym := by intro sym; rw [← hu2]; rfl
  have coded : ∀ e ∈ l, u2.codeOf e.1 = e.2 := by
    intro e he; rw [code2, codes]; exact (a2 e he).1
  have hall : (l.map Prod.fst).map (fun sym => (sym, u2.codeOf sym)) = l := by
    rw [List.map_map]
    calc l.map ((fun sym => (sym, u2.codeOf sym)) ∘ Prod.fst) = l.map id :=
          List.map_congr_left fun e he => by simp [coded e he]
      _ = l := by simp
  obtain ⟨ar, j1, j2, -⟩ := built_bare.insertAll u2 (l.map Prod.fst) 0
    (by
      intro sym hs
      obtain ⟨e, he, rfl⟩ := List.mem_map.1 hs
      rw [coded e he]
      exact (hl.codes e he).1)
    (by simp)
    (by
      rw [List.pairwise_map]
      refine List.Pairwise.imp_of_mem ?_ hl.free
      intro a b ha hb hab
      rw [coded a ha, coded b hb]
      exact hab)
  rw [List.nil_append, hall] at j2
  have hbody2 : bodyDecTree u2 = ({ u2 with arena := ar, root := some 0 }, none) := by
    rw [bodyDecTree, ord2, j1]
  have hrun2 := runStage_ok (op := .decTree) (body := bodyDecTree) (s := w)
    (by rw [gw]; rfl) (fun h => absurd h (by simp [StageOp.checksInLen])) (by rw [hu2]; exact hbody2)
  refine ⟨_, by rw [stageDecTable, hrun1, andThen_none, stageDecTree, hrun2], ?_, ?_, ?_, rfl, ?_, ?_, ?_,
    ?_, ?_, ?_, ?_, ?_, ?_, j2⟩
  · have hb := bodyKeeps_decTree u2
    rw [hbody2] at hb
    refine stageKeeps_stage _ (kw.trans (StageKeeps.trans ?_ hb.stageKeeps))
    rw [← hu2]
    exact stageKeeps_invalidate w _
  · show u2.outMem = _
    rw [← hu2]; exact outw
  · show Stage.mark u2.stage .decTree = _
    rw [← hu2, invalidate_stage, gw]
    rfl
  · show u2.hdrLen.toNat = _
    have : u2.hdrLen = w.hdrLen := by rw [← hu2]; rfl
    have hlt := u.inLen.isLt
    rw [this, hdrw, BitVec.toNat_ofNat, Nat.mod_eq_of_lt (by omega)]
  · show u2.nsym.toNat = _
    have : u2.nsym = w.nsym := by rw [← hu2]; rfl
    have := hl.length
    rw [‹u2.nsym = w.nsym›, nsymw, BitVec.toNat_ofNat, Nat.mod_eq_of_lt (by omega)]
  · exact ord2
  · show u2.outLen = 0
    rw [← hu2]; rfl
  · show u2.payloadBits = 0
    rw [← hu2]; rfl
  · show u2.resid = 0
    rw [← hu2]; rfl
  · intro sym
    show u2.freq.at sym = 0
    rw [← hu2]; exact freqw sym
  · intro e he
    refine ⟨coded e he, ?_⟩
    show u2.present e.1 = true
    have : u2.present e.1 = w.present e.1 := by rw [← hu2]; rfl
    rw [this, press]
    exact (a2 e he).2
  · intro sym hs
    show u2.codeLen.at sym = _
    have : u2.codeLen = w.codeLen := by rw [← hu2]; rfl
    rw [this, lens]
    exact ((a3 sym hs).1).trans (p1 sym)

/-! ### The payload of a container -/

/-- The payload bits of an input that is a header followed by packed bits: the bits and the zero pad. -/
theorem bitsAt_payload {u : State} {hdr : List Byte} {c : Bits}
    (h : u.inputStarts (hdr ++ pack c)) :
    u.BitsAt (8 * hdr.length) (c ++ List.replicate (8 * ceil8 c.length - c.length) false) := by
  intro i hi
  have hle := le_eight_mul_ceil8 c.length
  simp only [List.length_append, List.length_replicate] at hi
  have hp := length_pack c
  have hdiv : (8 * hdr.length + i) / 8 = hdr.length + i / 8 := by omega
  have hmod : (8 * hdr.length + i) % 8 = i % 8 := by omega
  rw [State.bitAt, hdiv, hmod, inByte_of_input h (by rw [List.length_append]; omega)]
  have : (hdr ++ pack c).getD (hdr.length + i / 8) 0 = (pack c).getD (i / 8) 0 := by
    simp only [List.getD]
    rw [List.getElem?_append_right (by omega), Nat.add_sub_cancel_left]
  rw [this, pack_bit c i (by omega)]
  simp only [List.getD]
  by_cases hc : i < c.length
  · rw [List.getElem?_append_left hc]
  · rw [List.getElem?_append_right (by omega), List.getElem?_eq_none (by omega),
      List.getElem?_replicate]
    split <;> rfl

theorem State.BitsAt.congr {s t : State} (h : t.inByte = s.inByte) {x : Nat} {c : Bits}
    (hb : s.BitsAt x c) : t.BitsAt x c := by
  intro i hi
  rw [← hb i hi, State.bitAt, State.bitAt, h]

end Sys2Proof.Machine
end

