-- ==== Sys2Proof/Laws/Decode.lean ====
section
/-! SUPPORT. The decoder by cases (30_encoding.md R100 to R103). -/

namespace Sys2Proof

theorem lookup_opcode (b : Byte) (i : Instr) (h : opcodeMap.lookup b = some i) : b = i.opcode := by
  revert b i
  decide

theorem lookup_unknown : ∀ b : Byte, b ∉ opcodes → opcodeMap.lookup b = none := by decide

theorem lookup_known : ∀ b : Byte, b ∈ opcodes → opcodeMap.lookup b ≠ none := by decide

theorem decode_reserved {w : Word} (h : w.extractLsb' 8 24 ≠ 0) :
    decode w = .error (.reservedBits (w.extractLsb' 8 24)) := by
  have hr : (Cmd32.ofWord w).reservedZero = false := by
    show (w.extractLsb' 8 24 == 0) = false
    simpa using h
  rw [decode]
  simp only [hr]
  rfl

theorem decode_zero {w : Word} (h : w.extractLsb' 8 24 = 0) : decode w =
    match opcodeMap.lookup (w.extractLsb' 0 8) with
    | some i => .ok i
    | none => .error (.unknownOpcode (w.extractLsb' 0 8)) := by
  have hr : (Cmd32.ofWord w).reservedZero = true := by
    show (w.extractLsb' 8 24 == 0) = true
    simpa using h
  rw [decode]
  simp only [hr, if_true]
  rfl

theorem decode_unknown {w : Word} (h : w.extractLsb' 8 24 = 0) (h2 : w.extractLsb' 0 8 ∉ opcodes) :
    decode w = .error (.unknownOpcode (w.extractLsb' 0 8)) := by
  rw [decode_zero h, lookup_unknown _ h2]

theorem decode_known {w : Word} (h : w.extractLsb' 8 24 = 0) (h2 : w.extractLsb' 0 8 ∈ opcodes) :
    ∃ i, decode w = .ok i := by
  obtain ⟨i, hi⟩ := Option.ne_none_iff_exists'.1 (lookup_known _ h2)
  exact ⟨i, by rw [decode_zero h, hi]⟩

/-- An illegal word has no command. -/
theorem decode_illegal {w : Word} (h : w.extractLsb' 8 24 ≠ 0 ∨ w.extractLsb' 0 8 ∉ opcodes) :
    ∃ e, decode w = .error e := by
  by_cases hr : w.extractLsb' 8 24 = 0
  · exact ⟨_, decode_unknown hr (h.resolve_left fun h => h hr)⟩
  · exact ⟨_, decode_reserved hr⟩

end Sys2Proof
end

