-- ==== Sys2Proof/Laws/Exec.lean ====
section
/-! SUPPORT. What a command can do, said once: the result of each, that it completes (40_common.md R133, R134),
what it keeps, and the errors it can end with (60_exceptions.md R211). -/

namespace Sys2Proof.Machine

/-- The result of each command, before its completion (R135). -/
def resultOf : Instr → State → Result
  | .nop, s => (s, none)
  | .clear, s => (s.invalidateAll, none)
  | .encFreq, s => stageEncFreq s
  | .encTree, s => stageEncTree s
  | .encCodes, s => stageEncCodes s
  | .encHeader, s => stageEncHeader s
  | .encPayload, s => stageEncPayload s
  | .encode, s => runEncode s
  | .decTable, s => stageDecTable s
  | .decTree, s => stageDecTree s
  | .decPayload, s => stageDecPayload s
  | .decode, s => runDecode s

/-- Every command completes (R134). -/
theorem exec_eq (i : Instr) (s : State) : exec i s = complete (resultOf i s) := by
  cases i <;> rfl

theorem exec_next (i : Instr) (s : State) : exec i s = .next (resultOf i s).completed := exec_eq i s

theorem eq_of_exec {i : Instr} {s t : State} (h : exec i s = .next t) : t = (resultOf i s).completed := by
  rw [exec_next] at h
  injection h with h
  exact h.symm

/-! ### What every command keeps -/

theorem stageKeeps_invalidateAll (s : State) : StageKeeps s s.invalidateAll :=
  stageKeeps_invalidate s .encFreq

theorem stageKeeps_resultOf (i : Instr) (s : State) : StageKeeps s (resultOf i s).1 := by
  cases i with
  | nop => exact StageKeeps.refl s
  | clear => exact stageKeeps_invalidateAll s
  | encFreq => exact stageKeeps_runStage bodyKeeps_encFreq s
  | encTree => exact stageKeeps_runStage bodyKeeps_encTree s
  | encCodes => exact stageKeeps_runStage bodyKeeps_encCodes s
  | encHeader => exact stageKeeps_runStage bodyKeeps_encHeader s
  | encPayload => exact stageKeeps_runStage bodyKeeps_encPayload s
  | encode =>
    exact stageKeeps_andThen (stageKeeps_andThen (stageKeeps_andThen (stageKeeps_andThen
      (stageKeeps_runStage bodyKeeps_encFreq s) (stageKeeps_runStage bodyKeeps_encTree))
      (stageKeeps_runStage bodyKeeps_encCodes)) (stageKeeps_runStage bodyKeeps_encHeader))
      (stageKeeps_runStage bodyKeeps_encPayload)
  | decTable => exact stageKeeps_runStage bodyKeeps_decTable s
  | decTree => exact stageKeeps_runStage bodyKeeps_decTree s
  | decPayload => exact stageKeeps_runStage bodyKeeps_decPayload s
  | decode =>
    exact stageKeeps_andThen (stageKeeps_andThen (stageKeeps_runStage bodyKeeps_decTable s)
      (stageKeeps_runStage bodyKeeps_decTree)) (stageKeeps_runStage bodyKeeps_decPayload)

/-- What completion makes of STATUS. -/
theorem completed_status_none (s : State) :
    (Result.completed (s, none)).status = s.status.completedOk := rfl

theorem completed_status_some (s : State) (e : Err) :
    (Result.completed (s, some e)).status = s.status.completedErr e.code e.op := rfl

theorem endsOk_completed {s t : State} (h : StageKeeps s t) : EndsOk s (Result.completed (t, none)) where
  host := ⟨h.host.1, h.host.2, h.host.3, h.host.4, h.host.5, h.host.6, h.host.7, h.host.8, h.host.9,
    h.host.10, h.host.11, h.host.12⟩
  status := by rw [completed_status_none, h.status]
  errInfo := h.errInfo

theorem hostSideKept_exec {i : Instr} {s t : State} (h : exec i s = .next t) : HostSideKept s t := by
  rw [eq_of_exec h]
  exact (stageKeeps_resultOf i s).host.trans (hostSideKept_completed _)

/-- STATUS and ERR_INFO after a command, by whether it raised. -/
theorem exec_status (i : Instr) (s : State) :
    ((resultOf i s).2 = none ∧ (resultOf i s).completed.status = s.status.completedOk ∧
      (resultOf i s).completed.errInfo = s.errInfo) ∨
    ∃ e, (resultOf i s).2 = some e ∧
      (resultOf i s).completed.status = s.status.completedErr e.code e.op ∧
      (resultOf i s).completed.errInfo = BitVec.ofNat 32 (min e.info 0xFFFFFFFF) := by
  have hk := stageKeeps_resultOf i s
  rcases hr : resultOf i s with ⟨t, _ | e⟩
  · rw [hr] at hk
    exact .inl ⟨rfl, by rw [completed_status_none, hk.status], hk.errInfo⟩
  · rw [hr] at hk
    exact .inr ⟨e, rfl, by rw [completed_status_some, hk.status], rfl⟩

/-! ### The errors a command can end with (R211) -/

/-- What a stage raises: its wrapper's refusals, or an error of its body. -/
theorem runStage_error {op : StageOp} {body : State → State × Option Raise} {s : State} {e : Err}
    (h : (runStage op body s).2 = some e) :
    e.op = op.opcode ∧ ((e.code = .sequence ∧ s.stage.meets op = false) ∨
      (e.code = .inLenRange ∧ op.checksInLen = true) ∨
      ∃ r, (body (s.invalidate op)).2 = some r ∧ r.code = e.code) := by
  rcases runStage_cases op body s with ⟨hm, h1⟩ | ⟨-, hc, -, h1⟩ | ⟨-, -, t, r, hr, h1⟩ | ⟨-, -, t, -, h1⟩
  · rw [h1] at h; injection h with h; subst h; exact ⟨rfl, .inl ⟨rfl, hm⟩⟩
  · rw [h1] at h; injection h with h; subst h; exact ⟨rfl, .inr (.inl ⟨rfl, hc⟩)⟩
  · rw [h1] at h; injection h with h; subst h
    exact ⟨rfl, .inr (.inr ⟨r, by rw [hr], rfl⟩)⟩
  · rw [h1] at h; exact absurd h (by simp)

theorem bodyEncFreq_raise (s : State) : (bodyEncFreq s).2 = none := rfl

theorem bodyEncTree_raise (s : State) : (bodyEncTree s).2 = none := rfl

theorem bodyEncCodes_raise (s : State) : (bodyEncCodes s).2 = none := by
  unfold bodyEncCodes
  split <;> rfl

theorem bodyEncHeader_raise {s : State} {r : Raise} (h : (bodyEncHeader s).2 = some r) :
    r.code = .symbolOverflow ∨ r.code = .outOverflow := by
  unfold bodyEncHeader at h
  split at h
  · injection h with h; subst h; exact .inl rfl
  · split at h
    · injection h with h; subst h; exact .inr rfl
    · exact absurd h (by simp)

theorem bodyEncPayload_raise {s : State} {r : Raise} (h : (bodyEncPayload s).2 = some r) :
    r.code = .outOverflow := by
  unfold bodyEncPayload at h
  dsimp only at h
  split at h
  · injection h with h; subst h; rfl
  · exact absurd h (by simp)

theorem readEntries_raise {n left p : Nat} {s : State} {r : Raise}
    (h : (readEntries n left p s).2 = some r) :
    r.code = .fmtTruncated ∨ r.code = .fmtCodeLen ∨ r.code = .fmtDupSymbol := by
  induction left generalizing p s with
  | zero => exact absurd h (by simp [readEntries])
  | succ left ih =>
    rw [readEntries] at h
    split at h
    · injection h with h; subst h; exact .inl rfl
    · dsimp only at h
      split at h
      · injection h with h; subst h; exact .inr (.inl rfl)
      · split at h
        · injection h with h; subst h; exact .inl rfl
        · split at h
          · injection h with h; subst h; exact .inr (.inr rfl)
          · exact ih h

theorem bodyDecTable_raise {s : State} {r : Raise} (h : (bodyDecTable s).2 = some r) :
    r.code = .fmtTruncated ∨ r.code = .fmtCodeLen ∨ r.code = .fmtDupSymbol := by
  unfold bodyDecTable at h
  split at h
  · injection h with h; subst h; exact .inl rfl
  · exact readEntries_raise h

theorem bodyDecTree_raise {s : State} {r : Raise} (h : (bodyDecTree s).2 = some r) :
    r.code = .fmtPrefix := by
  unfold bodyDecTree at h
  dsimp only at h
  split at h
  · exact absurd h (by simp)
  · injection h with h; subst h; rfl

theorem walkPayload_raise {s : State} {left x : Nat} {w : Walk} {r : Raise}
    (h : (walkPayload s left x w).2 = some r) :
    r.code = .malformedTraversal ∨ r.code = .outOverflow := by
  induction left generalizing x w with
  | zero => exact absurd h (by simp [walkPayload])
  | succ left ih =>
    rw [walkPayload] at h
    split at h
    · exact absurd h (by simp)
    · split at h
      · injection h with h; subst h; exact .inl rfl
      · split at h
        · split at h
          · injection h with h; subst h; exact .inr rfl
          · exact ih h
        · exact ih h

theorem bodyDecPayload_raise {s : State} {r : Raise} (h : (bodyDecPayload s).2 = some r) :
    r.code = .malformedTraversal ∨ r.code = .outOverflow := by
  unfold bodyDecPayload at h
  split at h
  · unfold bodyLeafRoot at h
    dsimp only at h
    split at h
    · injection h with h; subst h; exact .inr rfl
    · exact absurd h (by simp)
  · dsimp only at h
    split at h
    · rename_i e he
      injection h with h; subst h
      exact walkPayload_raise (by rw [he])
    · exact absurd h (by simp)

/-- The stage bit a stage sets is set after it. -/
theorem runStage_marks {op : StageOp} {body : State → State × Option Raise} {s t : State}
    (h : runStage op body s = (t, none)) : ∃ u, body (s.invalidate op) = (u, none) ∧
      t = { u with stage := u.stage.mark op } := by
  rcases runStage_cases op body s with ⟨-, h1⟩ | ⟨-, -, -, h1⟩ | ⟨-, -, u, r, -, h1⟩ | ⟨-, -, u, hu, h1⟩
  · rw [h1] at h; exact absurd h (by simp)
  · rw [h1] at h; exact absurd h (by simp)
  · rw [h1] at h; exact absurd h (by simp)
  · rw [h1] at h
    injection h with h
    exact ⟨u, hu, h.symm⟩

/-- A composite's error is an error of one of its two parts, the second run from where the first ended. -/
theorem andThen_error {r : Result} {f : State → Result} {e : Err} (h : (r.andThen f).2 = some e) :
    r.2 = some e ∨ ∃ t, r = (t, none) ∧ (f t).2 = some e := by
  obtain ⟨t, _ | e'⟩ := r
  · exact .inr ⟨t, rfl, h⟩
  · exact .inl h

/-- A composite that raises nothing ran both parts. -/
theorem andThen_ok {r : Result} {f : State → Result} {u : State} (h : r.andThen f = (u, none)) :
    ∃ t, r = (t, none) ∧ f t = (u, none) := by
  obtain ⟨t, _ | e⟩ := r
  · exact ⟨t, rfl, h⟩
  · exact absurd h (by simp [Result.andThen])

/-- A stage's error within its rows of the table. -/
theorem stage_error {op : StageOp} {body : State → State × Option Raise} {s : State} {e : Err}
    {l : List ErrCode} (h : (runStage op body s).2 = some e)
    (hb : ∀ r, (body (s.invalidate op)).2 = some r → r.code ∈ l) :
    e.op = op.opcode ∧ ((e.code = .sequence ∧ s.stage.meets op = false) ∨
      (e.code = .inLenRange ∧ op.checksInLen = true) ∨ e.code ∈ l) := by
  obtain ⟨h1, h2 | h2 | ⟨r, hr, hc⟩⟩ := runStage_error h
  · exact ⟨h1, .inl h2⟩
  · exact ⟨h1, .inr (.inl h2)⟩
  · exact ⟨h1, .inr (.inr (hc ▸ hb r hr))⟩

theorem stageEncFreq_error {s : State} {e : Err} (h : (stageEncFreq s).2 = some e) :
    e.op = 0x10 ∧ e.code = .inLenRange := by
  obtain ⟨h1, ⟨-, h2⟩ | ⟨h2, -⟩ | h2⟩ := stage_error (l := []) h (fun r hr => by simp [bodyEncFreq_raise] at hr)
  · exact absurd h2 (by simp [Stage.meets])
  · exact ⟨h1, h2⟩
  · exact absurd h2 (by simp)

theorem stageEncTree_error {s : State} {e : Err} (h : (stageEncTree s).2 = some e) :
    e.op = 0x11 ∧ e.code = .sequence ∧ s.stage.freqV = false := by
  obtain ⟨h1, h2 | ⟨-, h2⟩ | h2⟩ := stage_error (l := []) h (fun r hr => by simp [bodyEncTree_raise] at hr)
  · exact ⟨h1, h2⟩
  · exact absurd h2 (by simp [StageOp.checksInLen])
  · exact absurd h2 (by simp)

theorem stageEncCodes_error {s : State} {e : Err} (h : (stageEncCodes s).2 = some e) :
    e.op = 0x12 ∧ e.code = .sequence ∧ s.stage.treeV = false := by
  obtain ⟨h1, h2 | ⟨-, h2⟩ | h2⟩ := stage_error (l := []) h (fun r hr => by simp [bodyEncCodes_raise] at hr)
  · exact ⟨h1, h2⟩
  · exact absurd h2 (by simp [StageOp.checksInLen])
  · exact absurd h2 (by simp)

theorem stageEncHeader_error {s : State} {e : Err} (h : (stageEncHeader s).2 = some e) :
    e.op = 0x13 ∧ ((e.code = .sequence ∧ s.stage.codesV = false) ∨ e.code = .symbolOverflow ∨
      e.code = .outOverflow) := by
  obtain ⟨h1, h2 | ⟨-, h2⟩ | h2⟩ := stage_error (l := [.symbolOverflow, .outOverflow]) h
    (fun r hr => by rcases bodyEncHeader_raise hr with h | h <;> simp [h])
  · exact ⟨h1, .inl h2⟩
  · exact absurd h2 (by simp [StageOp.checksInLen])
  · exact ⟨h1, .inr (by simpa using h2)⟩

theorem stageEncPayload_error {s : State} {e : Err} (h : (stageEncPayload s).2 = some e) :
    e.op = 0x14 ∧ ((e.code = .sequence ∧ s.stage.hdrV = false) ∨ e.code = .outOverflow) := by
  obtain ⟨h1, h2 | ⟨-, h2⟩ | h2⟩ := stage_error (l := [.outOverflow]) h
    (fun r hr => by simp [bodyEncPayload_raise hr])
  · exact ⟨h1, .inl h2⟩
  · exact absurd h2 (by simp [StageOp.checksInLen])
  · exact ⟨h1, .inr (by simpa using h2)⟩

theorem stageDecTable_error {s : State} {e : Err} (h : (stageDecTable s).2 = some e) :
    e.op = 0x20 ∧ (e.code = .inLenRange ∨ e.code = .fmtTruncated ∨ e.code = .fmtCodeLen ∨
      e.code = .fmtDupSymbol) := by
  obtain ⟨h1, ⟨-, h2⟩ | ⟨h2, -⟩ | h2⟩ := stage_error (l := [.fmtTruncated, .fmtCodeLen, .fmtDupSymbol]) h
    (fun r hr => by rcases bodyDecTable_raise hr with h | h | h <;> simp [h])
  · exact absurd h2 (by simp [Stage.meets])
  · exact ⟨h1, .inl h2⟩
  · exact ⟨h1, .inr (by simpa using h2)⟩

theorem stageDecTree_error {s : State} {e : Err} (h : (stageDecTree s).2 = some e) :
    e.op = 0x21 ∧ ((e.code = .sequence ∧ s.stage.tabV = false) ∨ e.code = .fmtPrefix) := by
  obtain ⟨h1, h2 | ⟨-, h2⟩ | h2⟩ := stage_error (l := [.fmtPrefix]) h
    (fun r hr => by simp [bodyDecTree_raise hr])
  · exact ⟨h1, .inl h2⟩
  · exact absurd h2 (by simp [StageOp.checksInLen])
  · exact ⟨h1, .inr (by simpa using h2)⟩

theorem stageDecPayload_error {s : State} {e : Err} (h : (stageDecPayload s).2 = some e) :
    e.op = 0x22 ∧ ((e.code = .sequence ∧ s.stage.dtreeV = false) ∨ e.code = .malformedTraversal ∨
      e.code = .outOverflow) := by
  obtain ⟨h1, h2 | ⟨-, h2⟩ | h2⟩ := stage_error (l := [.malformedTraversal, .outOverflow]) h
    (fun r hr => by rcases bodyDecPayload_raise hr with h | h <;> simp [h])
  · exact ⟨h1, .inl h2⟩
  · exact absurd h2 (by simp [StageOp.checksInLen])
  · exact ⟨h1, .inr (by simpa using h2)⟩

/-- Every error of a command stands in its rows of the table. -/
theorem resultOf_error {i : Instr} {s : State} {e : Err} (h : (resultOf i s).2 = some e) :
    (e.code, e.op) ∈ errorsOf i := by
  cases i with
  | nop => exact absurd h (by simp [resultOf])
  | clear => exact absurd h (by simp [resultOf])
  | encFreq => obtain ⟨h1, h2⟩ := stageEncFreq_error h; simp [errorsOf, h1, h2]
  | encTree => obtain ⟨h1, h2, -⟩ := stageEncTree_error h; simp [errorsOf, h1, h2]
  | encCodes => obtain ⟨h1, h2, -⟩ := stageEncCodes_error h; simp [errorsOf, h1, h2]
  | encHeader =>
    obtain ⟨h1, ⟨h2, -⟩ | h2 | h2⟩ := stageEncHeader_error h <;> simp [errorsOf, h1, h2]
  | encPayload => obtain ⟨h1, ⟨h2, -⟩ | h2⟩ := stageEncPayload_error h <;> simp [errorsOf, h1, h2]
  | encode =>
    rcases andThen_error h with h | ⟨t, ht, h⟩
    · rcases andThen_error h with h | ⟨t, ht, h⟩
      · rcases andThen_error h with h | ⟨t, ht, h⟩
        · rcases andThen_error h with h | ⟨t, ht, h⟩
          · obtain ⟨h1, h2⟩ := stageEncFreq_error h; simp [errorsOf, h1, h2]
          · obtain ⟨-, -, h3⟩ := stageEncTree_error h
            obtain ⟨u, -, rfl⟩ := runStage_marks ht
            exact absurd h3 (by simp [Stage.mark])
        · obtain ⟨_, _, ht⟩ := andThen_ok ht
          obtain ⟨-, -, h3⟩ := stageEncCodes_error h
          obtain ⟨u, -, rfl⟩ := runStage_marks ht
          exact absurd h3 (by simp [Stage.mark])
      · obtain ⟨_, _, ht⟩ := andThen_ok ht
        obtain ⟨h1, ⟨-, h3⟩ | h2 | h2⟩ := stageEncHeader_error h
        · obtain ⟨u, -, rfl⟩ := runStage_marks ht
          exact absurd h3 (by simp [Stage.mark])
        · simp [errorsOf, h1, h2]
        · simp [errorsOf, h1, h2]
    · obtain ⟨_, _, ht⟩ := andThen_ok ht
      obtain ⟨h1, ⟨-, h3⟩ | h2⟩ := stageEncPayload_error h
      · obtain ⟨u, -, rfl⟩ := runStage_marks ht
        exact absurd h3 (by simp [Stage.mark])
      · simp [errorsOf, h1, h2]
  | decTable => obtain ⟨h1, h2 | h2 | h2 | h2⟩ := stageDecTable_error h <;> simp [errorsOf, h1, h2]
  | decTree => obtain ⟨h1, ⟨h2, -⟩ | h2⟩ := stageDecTree_error h <;> simp [errorsOf, h1, h2]
  | decPayload =>
    obtain ⟨h1, ⟨h2, -⟩ | h2 | h2⟩ := stageDecPayload_error h <;> simp [errorsOf, h1, h2]
  | decode =>
    rcases andThen_error h with h | ⟨t, ht, h⟩
    · rcases andThen_error h with h | ⟨t, ht, h⟩
      · obtain ⟨h1, h2 | h2 | h2 | h2⟩ := stageDecTable_error h <;> simp [errorsOf, h1, h2]
      · obtain ⟨h1, ⟨-, h3⟩ | h2⟩ := stageDecTree_error h
        · obtain ⟨u, -, rfl⟩ := runStage_marks ht
          exact absurd h3 (by simp [Stage.mark])
        · simp [errorsOf, h1, h2]
    · obtain ⟨_, _, ht⟩ := andThen_ok ht
      obtain ⟨h1, ⟨-, h3⟩ | h2 | h2⟩ := stageDecPayload_error h
      · obtain ⟨u, -, rfl⟩ := runStage_marks ht
        exact absurd h3 (by simp [Stage.mark])
      · simp [errorsOf, h1, h2]
      · simp [errorsOf, h1, h2]

/-! ### What a body writes to OUT_MEM -/

/-- The copies of a leaf root are written below `cap`. -/
theorem emitCopies_stored (cap : Nat) (sym : Byte) (k count : Nat) (m : Memory) (h : count ≤ cap) {a : Nat}
    (ha : cap ≤ a) : Memory.stored (emitCopies cap sym k count m).1 a = Memory.stored m a := by
  induction k generalizing count m with
  | zero => rfl
  | succ k ih =>
    rw [emitCopies]
    split
    · rfl
    · rw [ih (count + 1) _ (by omega), Memory.stored_write, if_neg (by omega)]

/-- The symbols of the payload walk are written below OUT_CAP. -/
theorem walkPayload_stored (s : State) (left x : Nat) (w : Walk) (h : w.count ≤ s.outCap.bytes) {a : Nat}
    (ha : s.outCap.bytes ≤ a) : Memory.stored (walkPayload s left x w).1.out a = Memory.stored w.out a := by
  induction left generalizing x w with
  | zero => rfl
  | succ left ih =>
    rw [walkPayload]
    split
    · rfl
    · split
      · rfl
      · split
        · split
          · rfl
          · rw [ih _ _ (by dsimp only; omega), Memory.stored_write, if_neg (by omega)]
        · exact ih _ _ h

/-- DEC_PAYLOAD writes nothing at or beyond OUT_CAP. -/
theorem bodyDecPayload_stored (s : State) {a : Nat} (ha : s.outCap.bytes ≤ a) :
    Memory.stored (bodyDecPayload s).1.outMem a = Memory.stored s.outMem a := by
  unfold bodyDecPayload
  split
  · rename_i sym _
    have := emitCopies_stored s.outCap.bytes sym (if s.limsnap then s.outLimit.toNat else 0) 0 s.outMem
      (Nat.zero_le _) ha
    unfold bodyLeafRoot
    dsimp only
    split <;> (rename_i heq; rw [heq] at this; exact this)
  · have := walkPayload_stored s (8 * (s.inLen.toNat - s.hdrLen.toNat)) (8 * s.hdrLen.toNat)
      { out := s.outMem, count := 0, cur := s.root, depth := 0, examined := 0 } (Nat.zero_le _) ha
    dsimp only
    split <;> (rename_i heq; rw [heq] at this; exact this)

/-- ENC_HEADER raises before it writes. -/
theorem bodyEncHeader_outMem {s u : State} {r : Raise} (h : bodyEncHeader s = (u, some r)) : u.outMem = s.outMem := by
  unfold bodyEncHeader at h
  split at h
  · injection h with h; rw [← h]
  · split at h
    · injection h with h; rw [← h]
    · injection h with _ h; cases h

/-- ENC_PAYLOAD raises before it writes. -/
theorem bodyEncPayload_outMem {s u : State} {r : Raise} (h : bodyEncPayload s = (u, some r)) :
    u.outMem = s.outMem := by
  unfold bodyEncPayload at h
  dsimp only at h
  split at h
  · injection h with h; rw [← h]
  · injection h with _ h; cases h

/-- DEC_TABLE writes nothing to OUT_MEM. -/
theorem bodyDecTable_outMem (s : State) : (bodyDecTable s).1.outMem = s.outMem := by
  unfold bodyDecTable
  split
  · rfl
  · obtain ⟨cl, cb, o, ns, hl, hh⟩ := readEntries_same (s.inByte 0).toNat (s.inByte 0).toNat 1 s
    rw [hh]

end Sys2Proof.Machine
end

