-- ==== Sys2Proof/Laws/Header.lean ====
section
/-! SUPPORT. The loop of DEC_TABLE over entries that stand in the input, whatever their pad bits (42_decoder.md
R180), and what it makes of the first entry that does not. -/

namespace Sys2Proof.Machine

/-- Entries depend on the input only. -/
theorem entriesAt_congr {s t : State} (hb : t.inByte = s.inByte) (hl : t.inLen = s.inLen) (p : Nat)
    (l : List (Byte × Bits)) (q : Nat) : t.EntriesAt p l q ↔ s.EntriesAt p l q := by
  induction l generalizing p with
  | nil => exact Iff.rfl
  | cons e l ih => simp only [State.EntriesAt, hb, hl, ih]

theorem entriesAt_length {s : State} {p q : Nat} {l : List (Byte × Bits)} (h : s.EntriesAt p l q) :
    ∀ e ∈ l, e.2.length ≤ 255 := by
  induction l generalizing p with
  | nil => simp
  | cons e l ih =>
    obtain ⟨-, -, h3, -, h5⟩ := h
    intro x hx
    rcases List.mem_cons.1 hx with rfl | hx
    · have := (s.inByte (p + 1)).isLt; omega
    · exact ih h5 x hx

/-- Entries end where their sizes say, within IN_LEN unless there is none. -/
theorem entriesAt_end {s : State} {p q : Nat} {l : List (Byte × Bits)} (h : s.EntriesAt p l q) :
    q = p + (l.map fun e => 2 + ceil8 e.2.length).sum ∧ (l ≠ [] → q ≤ s.inLen.toNat) := by
  induction l generalizing p with
  | nil => exact ⟨by simpa [State.EntriesAt] using h.symm, fun h => absurd rfl h⟩
  | cons e l ih =>
    obtain ⟨h1, -, -, -, h5⟩ := h
    obtain ⟨i1, i2⟩ := ih h5
    refine ⟨by simp only [List.map_cons, List.sum_cons]; omega, fun _ => ?_⟩
    cases l with
    | nil => have : _ = q := h5; omega
    | cons e' l => exact i2 (by simp)

/-- The loop takes in entries that stand in the input, each symbol for the first time. -/
theorem readEntries_entries (n left : Nat) (l : List (Byte × Bits)) (p q : Nat) (s : State)
    (h : s.EntriesAt p l q) (hnil : ∀ e ∈ l, e.2 = [] → n = 1)
    (hnew : ∀ e ∈ l, s.present e.1 = false) (hdup : (l.map Prod.fst).Nodup) :
    readEntries n (l.length + left) p s = readEntries n left q (l.foldl State.addEntry s) := by
  induction l generalizing p s with
  | nil =>
    have : p = q := h
    subst this
    simp
  | cons e l ih =>
    obtain ⟨sym, c⟩ := e
    obtain ⟨h1, h2, h3, h4, h5⟩ := h
    dsimp only at h1 h2 h3 h4 h5
    have hpres := hnew (sym, c) List.mem_cons_self
    dsimp only at hpres
    have hcond : ¬ (c.length = 0 ∧ n ≠ 1) := fun hh =>
      hh.2 (hnil (sym, c) List.mem_cons_self (List.eq_nil_of_length_eq_zero hh.1))
    have hlen : ((sym, c) :: l).length + left = l.length + left + 1 := by simp; omega
    have hmap : (sym :: l.map Prod.fst).Nodup := hdup
    rw [List.nodup_cons] at hmap
    rw [hlen, readEntries, if_neg (by omega)]
    simp only [h2, h3, h4, hpres]
    rw [if_neg hcond, if_neg (by omega)]
    simp only [Bool.false_eq_true, if_false]
    refine ih (p + 2 + ceil8 c.length) (s.addEntry (sym, c)) ?_
      (fun e he => hnil e (List.mem_cons_of_mem _ he)) ?_ hmap.2
    · exact (entriesAt_congr (s := s) (t := s.addEntry (sym, c)) rfl rfl _ _ _).2 h5
    · intro e he
      show (s.setCode sym c).present e.1 = false
      rw [State.present_setCode]
      have hne : sym ≠ e.1 := fun h => hmap.1 (h ▸ List.mem_map_of_mem he)
      simp [hne, hnew e (List.mem_cons_of_mem _ he)]

/-- The table entry of each symbol taken in, in full. -/
theorem hasCode_foldl_addEntry (l : List (Byte × Bits)) (s : State) (hdup : (l.map Prod.fst).Nodup) :
    ∀ e ∈ l, (l.foldl State.addEntry s).HasCode e.1 e.2 := by
  induction l generalizing s with
  | nil => simp
  | cons e l ih =>
    obtain ⟨sym, c⟩ := e
    have hmap : (sym :: l.map Prod.fst).Nodup := hdup
    rw [List.nodup_cons] at hmap
    intro e he
    rw [List.foldl_cons]
    rcases List.mem_cons.1 he with rfl | he
    · have h : ∀ (l : List (Byte × Bits)) (t : State), sym ∉ l.map Prod.fst →
          SameCode t (l.foldl State.addEntry t) sym := by
        intro l
        induction l with
        | nil => exact fun t _ => ⟨rfl, rfl⟩
        | cons x l ih =>
          intro t hx
          simp only [List.map_cons, List.mem_cons, not_or] at hx
          have hs := ih (t.addEntry x) hx.2
          have hne : x.1 ≠ sym := fun h => hx.1 h.symm
          refine ⟨hs.1.trans ?_, hs.2.trans ?_⟩
          · simp [State.addEntry, Table.at_put_other _ _ hne]
          · simp [State.addEntry, Table.at_put_other _ _ hne]
      have hs := h l (s.addEntry (sym, c)) hmap.1
      refine ⟨hs.1.trans ?_, hs.2.trans ?_⟩
      · simp [State.addEntry, Table.at_put_self]
      · simp [State.addEntry, Table.at_put_self]
    · exact ih _ hmap.2 e he

end Sys2Proof.Machine
end

