-- ==== Sys2Proof/Laws/Payload.lean ====
section
/-! SUPPORT. The payload walk of DEC_PAYLOAD over any tree (42_decoder.md R182): whole codes, a code begun, a bit that
leads nowhere, and a symbol that does not fit. -/

namespace Sys2Proof.Machine

/-- The state of the walk where its next code begins. -/
def Walk.atRoot (s : State) (m : Memory) (count examined : Nat) : Walk :=
  { out := m, count := count, cur := s.root, depth := 0, examined := examined }

theorem rootLeaf_none {s : State} {r : Nat} (hr : s.root = some r) (h : s.rootLeaf = none) :
    leafAt s.arena r = none := by
  simpa [State.rootLeaf, hr] using h

/-- Where ROOT is no LEAF, no code is empty. -/
theorem leafPath_ne_nil {s : State} (h : s.rootLeaf = none) {p : Bits} {sym : Byte}
    (hp : s.LeafPath p sym) : p ≠ [] := by
  rintro rfl
  obtain ⟨r, hr, x, hx, hxl⟩ := hp
  simp only [follow_nil, Option.some.injEq] at hx
  subst hx
  rw [rootLeaf_none hr h] at hxl
  exact absurd hxl (by simp)

/-- The bits `c` are whole codes: the walk emits their symbols. -/
theorem walkPayload_spells (s : State) (hroot : s.rootLeaf = none) (l : List Byte) (c : Bits)
    (left x : Nat) (m : Memory) (count examined : Nat) (hsp : s.Spells l c) (hbits : s.BitsAt x c)
    (hgo : s.limsnap = true → count + l.length ≤ s.outLimit.toNat)
    (hcap : count + l.length ≤ s.outCap.bytes) :
    walkPayload s (c.length + left) x (Walk.atRoot s m count examined) =
      walkPayload s left (x + c.length)
        (Walk.atRoot s (Memory.writeBytes m count l) (count + l.length) (examined + c.length)) := by
  induction l generalizing c x m count examined with
  | nil =>
    have : c = [] := hsp
    subst this
    simp [Memory.writeBytes]
  | cons sym l ih =>
    obtain ⟨p, q, rfl, hp, hq⟩ := hsp
    have hne := leafPath_ne_nil hroot hp
    obtain ⟨r, hr, hl⟩ := hp
    simp only [List.length_cons] at hgo hcap
    have hb := hbits.append
    have h1 := walkPayload_code s sym p r (q.length + left) x (Walk.atRoot s m count examined) hr hl hne
      hb.1 (fun hl => by have := hgo hl; simp only [Walk.atRoot]; omega) (by simp only [Walk.atRoot]; omega)
    rw [List.length_append, Nat.add_assoc, h1]
    have h2 := ih q (x + p.length) (Memory.write m count sym) (count + 1) (examined + p.length) hq hb.2
      (fun hl => by have := hgo hl; omega) (by omega)
    simp only [Walk.atRoot] at h2 ⊢
    rw [h2]
    simp only [Memory.writeBytes, List.length_cons]
    congr 1
    · omega
    · congr 1 <;> omega

/-- The bits `d` begin a code: the walk ends at an entry that is no LEAF. -/
theorem walkPayload_inner (s : State) (d : Bits) (k k' left x : Nat) (w : Walk) (hcur : w.cur = some k)
    (hd : follow s.arena k d = some k') (hk : leafAt s.arena k' = none) (hbits : s.BitsAt x d)
    (hgo : s.GoesOn w.count ∨ d = []) :
    walkPayload s (d.length + left) x w =
      walkPayload s left (x + d.length)
        { w with cur := some k', depth := w.depth + d.length, examined := w.examined + d.length } := by
  induction d generalizing k x w with
  | nil =>
    simp only [follow_nil, Option.some.injEq] at hd
    subst hd
    obtain ⟨out, count, cur, depth, examined⟩ := w
    dsimp only at hcur
    subst hcur
    simp
  | cons b d ih =>
    rw [follow_cons] at hd
    obtain ⟨z, hz, hzd⟩ := Option.bind_eq_some_iff.1 hd
    have hgo' := hgo.resolve_right (by simp)
    have hlen : (b :: d).length + left = d.length + left + 1 := by simp; omega
    have hzl : leafAt s.arena z = none := by
      cases d with
      | nil =>
        simp only [follow_nil, Option.some.injEq] at hzd
        rw [hzd]; exact hk
      | cons b' d =>
        rw [follow_cons] at hzd
        obtain ⟨v, hv, -⟩ := Option.bind_eq_some_iff.1 hzd
        exact leafAt_of_childAt hv
    have hchild : s.childOf w.cur (s.bitAt x) = some z := by
      rw [hcur, hbits.head]; exact hz
    rw [hlen, walkPayload, if_neg (by simp [hgo'.test]), hchild]
    dsimp only
    rw [hzl]
    dsimp only
    rw [ih z (x + 1)
      { out := w.out, count := w.count, cur := some z, depth := w.depth + 1, examined := w.examined + 1 }
      rfl hzd hbits.tail (.inl hgo')]
    dsimp only
    simp only [List.length_cons]
    congr 1
    · omega
    · congr 1 <;> omega

/-- A bit that leads to no child. -/
theorem walkPayload_malformed (s : State) (b : Bool) (k left x : Nat) (w : Walk) (hcur : w.cur = some k)
    (hk : childAt s.arena k b = none) (hbit : s.bitAt x = b) (hgo : s.GoesOn w.count) :
    walkPayload s (left + 1) x w =
      ({ w with examined := w.examined + 1 }, some { code := .malformedTraversal, info := x }) := by
  have hchild : s.childOf w.cur (s.bitAt x) = none := by rw [hcur, hbit]; exact hk
  rw [walkPayload, if_neg (by simp [hgo.test]), hchild]

/-- A bit that completes a code whose symbol does not fit. -/
theorem walkPayload_overflow (s : State) (b : Bool) (k z left x : Nat) (sym : Byte) (w : Walk)
    (hcur : w.cur = some k) (hz : childAt s.arena k b = some z) (hzl : leafAt s.arena z = some sym)
    (hbit : s.bitAt x = b) (hgo : s.GoesOn w.count) (hcap : w.count = s.outCap.bytes) :
    walkPayload s (left + 1) x w =
      ({ w with examined := w.examined + 1 }, some { code := .outOverflow, info := x }) := by
  have hchild : s.childOf w.cur (s.bitAt x) = some z := by rw [hcur, hbit]; exact hz
  rw [walkPayload, if_neg (by simp [hgo.test]), hchild]
  dsimp only
  rw [hzl]
  dsimp only
  rw [if_pos hcap]

/-- The limit ends the walk. -/
theorem walkPayload_limit (s : State) (left x : Nat) (w : Walk) (h1 : s.limsnap = true)
    (h2 : w.count = s.outLimit.toNat) : walkPayload s left x w = (w, none) := by
  cases left with
  | zero => rfl
  | succ left => rw [walkPayload, if_pos (by simp [h1, h2])]

/-- The copies of a leaf root, up to OUT_CAP. -/
theorem emitCopies_eq (cap : Nat) (sym : Byte) (n count : Nat) (m : Memory) (h : count ≤ cap) :
    emitCopies cap sym n count m =
      (Memory.writeBytes m count (List.replicate (min n (cap - count)) sym), count + min n (cap - count),
        decide (cap - count < n)) := by
  induction n generalizing count m with
  | zero => simp [emitCopies, Memory.writeBytes]
  | succ n ih =>
    rw [emitCopies]
    split
    · rename_i he
      subst he
      simp [Memory.writeBytes]
    · rw [ih (count + 1) _ (by omega)]
      have h1 : min (n + 1) (cap - count) = min n (cap - (count + 1)) + 1 := by omega
      rw [h1, List.replicate_succ, Memory.writeBytes]
      simp only [Prod.mk.injEq, true_and]
      refine ⟨by omega, ?_⟩
      rw [decide_eq_decide]
      omega

/-- Bytes written from offset 0 are the output, and every byte after them stands. -/
theorem output_writeBytes {s t : State} {l : List Byte} (hm : t.outMem = Memory.writeBytes s.outMem 0 l)
    (hr : t.resets = s.resets) : t.output l.length = l ∧ OutKeptOutside s t 0 l.length := by
  constructor
  · apply List.ext_getElem
    · simp [State.output]
    · intro i h1 h2
      have : Memory.stored t.outMem i = some l[i] := by
        rw [hm, Memory.stored_writeBytes]; simp [h2]
      simp [State.output, State.outByte, this]
  · rintro a (h | h)
    · omega
    · rw [State.outByte, hm, hr, Memory.stored_writeBytes, if_pos (Nat.zero_le _), Nat.sub_zero,
        List.getElem?_eq_none h]
      rfl

end Sys2Proof.Machine
end

