-- ==== Sys2Proof/Laws/Inverse.lean ====
section
/-! SUPPORT. What a decoder loop that ended without raising says of its input: the header held entries (42_decoder.md
R180), no code was a prefix of another (R181), and the payload bits were codes and the beginning of one (R182). -/

namespace Sys2Proof.Machine

/-- A header loop that raised nothing read entries. -/
theorem readEntries_inv {n left p : Nat} {s t : State} (h : readEntries n left p s = (t, none)) :
    ∃ l q, l.length = left ∧ s.EntriesAt p l q ∧ (l.map Prod.fst).Nodup ∧
      (∀ e ∈ l, s.present e.1 = false) ∧ (∀ e ∈ l, e.2 = [] → n = 1) ∧
      t = { l.foldl State.addEntry s with nsym := BitVec.ofNat 9 n, hdrLen := BitVec.ofNat 32 q } := by
  induction left generalizing p s with
  | zero =>
    injection h with h
    exact ⟨[], p, rfl, rfl, by simp, by simp, by simp, h.symm⟩
  | succ left ih =>
    rw [readEntries] at h
    split at h
    · injection h with _ h; exact absurd h (by simp)
    · rename_i h1
      dsimp only at h
      split at h
      · injection h with _ h; exact absurd h (by simp)
      · rename_i h2
        split at h
        · injection h with _ h; exact absurd h (by simp)
        · rename_i h3
          split at h
          · injection h with _ h; exact absurd h (by simp)
          · rename_i h4
            generalize hc : readBits s.inByte (p + 2) (s.inByte (p + 1)).toNat = c at h
            have hlen : c.length = (s.inByte (p + 1)).toNat := by rw [← hc, length_readBits]
            obtain ⟨l, q, e1, e2, e3, e4, e5, e6⟩ := ih h
            have e2' : s.EntriesAt (p + 2 + ceil8 (s.inByte (p + 1)).toNat) l q :=
              (entriesAt_congr (s := s) (t := s.addEntry (s.inByte p, c)) rfl rfl _ _ _).1 e2
            have e4' : ∀ e ∈ l, e.1 ≠ s.inByte p ∧ s.present e.1 = false := by
              intro e he
              have : (s.setCode (s.inByte p) c).present e.1 = false := e4 e he
              rw [State.present_setCode] at this
              simp only [Bool.or_eq_false_iff, decide_eq_false_iff_not] at this
              exact ⟨fun h => this.1 h.symm, this.2⟩
            refine ⟨(s.inByte p, c) :: l, q, by simp [e1], ⟨?_, rfl, hlen.symm, ?_, ?_⟩, ?_, ?_, ?_, e6⟩
            · dsimp only; rw [hlen]; omega
            · dsimp only; rw [hlen]; exact hc
            · dsimp only; rw [hlen]; exact e2'
            · rw [List.map_cons, List.nodup_cons]
              refine ⟨?_, e3⟩
              intro hm
              obtain ⟨e, he, hee⟩ := List.mem_map.1 hm
              exact (e4' e he).1 hee
            · intro e he
              rcases List.mem_cons.1 he with rfl | he
              · simpa using h4
              · exact (e4' e he).2
            · intro e he hn
              rcases List.mem_cons.1 he with rfl | he
              · by_contra hn1
                refine h2 ⟨?_, hn1⟩
                rw [← hlen]
                have hn' : c = [] := hn
                rw [hn']; rfl
              · exact e5 e he hn

/-- The pairwise condition of DEC_TREE on the codes of a list of symbols. -/
def State.CodesFree (s : State) (l : List Byte) : Prop :=
  l.Pairwise fun a b => ¬ s.codeOf a <+: s.codeOf b ∧ ¬ s.codeOf b <+: s.codeOf a

/-- Where codes are free of each other, an empty one stands alone. -/
theorem State.CodesFree.empty {s : State} {l : List Byte} (hp : s.CodesFree l) :
    (∀ sym ∈ l, s.codeOf sym ≠ []) ∨ ∃ sym, l = [sym] ∧ s.codeOf sym = [] := by
  by_cases h : ∀ sym ∈ l, s.codeOf sym ≠ []
  · exact .inl h
  · push Not at h
    obtain ⟨sym, hs, he⟩ := h
    right
    refine ⟨sym, ?_, he⟩
    rcases l with _ | ⟨a, _ | ⟨b, l⟩⟩
    · exact absurd hs (by simp)
    · rw [List.mem_singleton.1 hs]
    · exfalso
      rw [State.CodesFree, List.pairwise_cons] at hp
      by_cases hsa : sym = a
      · subst hsa
        exact (hp.1 b (by simp)).1 (by rw [he]; exact List.nil_prefix)
      · exact (hp.1 sym ((List.mem_cons.1 hs).resolve_left hsa)).2 (by rw [he]; exact List.nil_prefix)

/-- A code that is inserted is in no conflict with those before it. -/
theorem Built.free_of_insertCode {ar ar' : List Node} {done : List (Byte × Bits)} {sym : Byte} {c : Bits}
    (h : Built ar done []) (hne : ∀ e ∈ done, e.2 ≠ []) (hi : insertCode ar sym c = some ar') :
    ∀ e ∈ done, ¬ e.2 <+: c ∧ ¬ c <+: e.2 := by
  intro e he
  by_contra hcon
  have hbad : e.2 <+: c ∨ c <+: e.2 := by
    by_contra hb
    exact hcon ⟨fun h => hb (.inl h), fun h => hb (.inr h)⟩
  simp only [insertCode, h.rootInner] at hi
  cases c with
  | nil =>
    dsimp only at hi
    obtain ⟨y, hy, -⟩ := h.leads e he
    rcases hca : e.2 with _ | ⟨b, c⟩
    · exact hne e he hca
    · rw [hca, follow_cons] at hy
      obtain ⟨z, hz, -⟩ := Option.bind_eq_some_iff.1 hy
      rw [if_neg (by cases b <;> simp [hz])] at hi
      exact absurd hi (by simp)
  | cons b c =>
    dsimp only at hi
    rw [h.insertPath_conflict (u := []) sym (b :: c) rfl h.rootInner (by simp) ⟨e, he, by simpa using hbad⟩]
      at hi
    exact absurd hi (by simp)

/-- What DEC_TREE inserted without an error is free of conflicts, from an arena with the codes `done`. -/
theorem Built.insertAll_inv {s : State} {l : List Byte} {i : Nat} {ar ar' : List Node} {done : List (Byte × Bits)}
    (h : Built ar done []) (hne : ∀ e ∈ done, e.2 ≠ []) (hne' : done ≠ [])
    (hi : Machine.insertAll s l i ar = (ar', none)) :
    (∀ sym ∈ l, ∀ e ∈ done, ¬ e.2 <+: s.codeOf sym ∧ ¬ s.codeOf sym <+: e.2) ∧ s.CodesFree l := by
  induction l generalizing ar done i with
  | nil => exact ⟨by simp, List.Pairwise.nil⟩
  | cons a l ih =>
    rw [Machine.insertAll] at hi
    cases hc : insertCode ar a (s.codeOf a) with
    | none => rw [hc] at hi; injection hi with _ hi; exact absurd hi (by simp)
    | some ar1 =>
      rw [hc] at hi
      dsimp only at hi
      have hfree := h.free_of_insertCode hne hc
      have hca : s.codeOf a ≠ [] := by
        intro he
        obtain ⟨e, hed⟩ := List.exists_mem_of_ne_nil _ hne'
        exact (hfree e hed).2 (by rw [he]; exact List.nil_prefix)
      obtain ⟨ar2, i1, i2, -⟩ := h.insertPath (u := []) (cur := 0) a (s.codeOf a) rfl h.rootInner hca
        (by simpa using hfree)
      have : ar1 = ar2 := by
        have hins : insertCode ar a (s.codeOf a) = some ar2 := by
          simp only [insertCode, h.rootInner]
          cases hcc : s.codeOf a with
          | nil => exact absurd hcc hca
          | cons b c => rw [hcc] at i1; exact i1
        rw [hc] at hins
        injection hins
      subst this
      obtain ⟨j1, j2⟩ := ih i2 (by
        intro e he
        rcases List.mem_append.1 he with he | he
        · exact hne e he
        · rw [List.mem_singleton.1 he]; simpa using hca) (by simp) hi
      refine ⟨?_, List.Pairwise.cons ?_ j2⟩
      · intro sym hs e he
        rcases List.mem_cons.1 hs with rfl | hs
        · exact hfree e he
        · exact j1 sym hs e (List.mem_append_left _ he)
      · intro b hb
        have := j1 b hb (a, [] ++ s.codeOf a) (by simp)
        simpa using this

/-- The loop of DEC_TREE from the bare root raises nothing only on codes free of conflicts. -/
theorem codesFree_of_insertAll {s : State} {l : List Byte} {ar : List Node}
    (hi : insertAll s l 0 [bareNode] = (ar, none)) : s.CodesFree l := by
  cases l with
  | nil => exact List.Pairwise.nil
  | cons a l =>
    rw [insertAll] at hi
    cases hc : insertCode [bareNode] a (s.codeOf a) with
    | none => rw [hc] at hi; injection hi with _ hi; exact absurd hi (by simp)
    | some ar1 =>
      rw [hc] at hi
      dsimp only at hi
      by_cases hca : s.codeOf a = []
      · have h1 : ar1 = [.leaf a 0] := by
          rw [hca] at hc
          injection hc with hc
          exact hc.symm
        subst h1
        cases l with
        | nil => exact List.pairwise_singleton _ _
        | cons b l =>
          rw [insertAll] at hi
          have : insertCode [.leaf a 0] b (s.codeOf b) = none := rfl
          rw [this] at hi
          injection hi with _ hi
          exact absurd hi (by simp)
      · obtain ⟨ar2, i1, i2, -⟩ := built_bare.insertPath (u := []) (cur := 0) a (s.codeOf a) rfl
          built_bare.rootInner hca (by simp)
        have : ar1 = ar2 := by
          have hins : insertCode [bareNode] a (s.codeOf a) = some ar2 := by
            simp only [insertCode, built_bare.rootInner]
            cases hcc : s.codeOf a with
            | nil => exact absurd hcc hca
            | cons b c => rw [hcc] at i1; exact i1
          rw [hc] at hins
          injection hins
        subst this
        obtain ⟨j1, j2⟩ := i2.insertAll_inv (by simpa using hca) (by simp) hi
        refine List.Pairwise.cons ?_ j2
        intro b hb
        have := j1 b hb (a, [] ++ s.codeOf a) (by simp)
        simpa using this

/-- A payload walk that raised nothing, begun at the end of the path `p`, read codes and the beginning of one. -/
theorem walkPayload_inv {s : State} {r : Nat} (hr : s.root = some r) (hrl : leafAt s.arena r = none)
    {left x : Nat} {w w' : Walk} {p : Bits} {k : Nat} (hcur : w.cur = some k)
    (hp : follow s.arena r p = some k) (hk : leafAt s.arena k = none) (hdepth : w.depth = p.length)
    (hcap : w.count ≤ s.outCap.bytes) (h : walkPayload s left x w = (w', none)) :
    ∃ l b c d k', s.Spells l c ∧ s.InnerPath d k' ∧ p ++ b = c ++ d ∧ s.BitsAt x b ∧ b.length ≤ left ∧
      w'.out = Memory.writeBytes w.out w.count l ∧ w'.count = w.count + l.length ∧
      w'.depth = d.length ∧ w'.examined = w.examined + b.length ∧ w'.count ≤ s.outCap.bytes := by
  induction left generalizing x w p k with
  | zero =>
    injection h with h
    subst h
    exact ⟨[], [], [], p, k, rfl, ⟨r, hr, hp, hk⟩, by simp, fun i hi => absurd hi (by simp), by simp, rfl,
      by simp, hdepth, by simp, hcap⟩
  | succ left ih =>
    rw [walkPayload] at h
    split at h
    · injection h with h
      subst h
      exact ⟨[], [], [], p, k, rfl, ⟨r, hr, hp, hk⟩, by simp, fun i hi => absurd hi (by simp), by simp, rfl,
        by simp, hdepth, by simp, hcap⟩
    · have hc : s.childOf w.cur (s.bitAt x) = childAt s.arena k (s.bitAt x) := by rw [hcur]; rfl
      rw [hc] at h
      cases hnx : childAt s.arena k (s.bitAt x) with
      | none => rw [hnx] at h; injection h with _ h; exact absurd h (by simp)
      | some nx =>
        rw [hnx] at h
        dsimp only at h
        have hpn : follow s.arena r (p ++ [s.bitAt x]) = some nx := by rw [follow_concat, hp]; exact hnx
        have bits : ∀ {b : Bits}, s.BitsAt (x + 1) b → s.BitsAt x (s.bitAt x :: b) := by
          intro b hb i hi
          cases i with
          | zero => simp
          | succ i =>
            have := hb i (by simp at hi; omega)
            rw [show x + (i + 1) = x + 1 + i by omega, this]
            simp
        cases hl : leafAt s.arena nx with
        | some sym =>
          rw [hl] at h
          dsimp only at h
          split at h
          · injection h with _ h; exact absurd h (by simp)
          · rename_i hne
            obtain ⟨l, b, c, d, k', g1, g2, g3, g4, g5, g6, g7, g8, g9, g10⟩ := ih (p := []) (k := r) hr rfl hrl
              rfl (by dsimp only; omega) h
            refine ⟨sym :: l, s.bitAt x :: b, (p ++ [s.bitAt x]) ++ c, d, k',
              ⟨p ++ [s.bitAt x], c, rfl, ⟨r, hr, nx, hpn, hl⟩, g1⟩, g2, ?_, bits g4, ?_, g6, ?_, g8, ?_, g10⟩
            · simp only [List.nil_append] at g3; rw [g3]; simp
            · simp only [List.length_cons]; omega
            · rw [g7]; simp only [List.length_cons]; omega
            · rw [g9]; simp only [List.length_cons]; omega
        | none =>
          rw [hl] at h
          dsimp only at h
          obtain ⟨l, b, c, d, k', g1, g2, g3, g4, g5, g6, g7, g8, g9, g10⟩ :=
            ih (w := { w with cur := some nx, depth := w.depth + 1, examined := w.examined + 1 })
              (p := p ++ [s.bitAt x]) (k := nx) rfl hpn hl 
              (by rw [List.length_append, List.length_singleton, ← hdepth]) hcap h
          refine ⟨l, s.bitAt x :: b, c, d, k', g1, g2, ?_, bits g4, ?_, g6, g7, g8, ?_, g10⟩
          · rw [← g3]; simp
          · simp only [List.length_cons]; omega
          · rw [g9]; simp only [List.length_cons]; omega

end Sys2Proof.Machine
end

