-- ==== Sys2Proof/Laws/Merge.lean ====
section
/-! SUPPORT. The merges of ENC_TREE one by one (41_encoder.md R151, R152): each takes the two entries with the
smallest keys of those that no earlier entry has as a child. -/

namespace Sys2Proof.Machine

variable {syms : List Byte} {freq : Table Word} {ar : List Node} {q : List Nat}

theorem weightAt_append_left (l : List Node) {k : Nat} (hk : k < ar.length) :
    weightAt (ar ++ l) k = weightAt ar k := by
  simp [weightAt, List.getElem?_append_left hk]

theorem keyBefore_append (l : List Node) {p r : Nat} (hp : p < ar.length) (hr : r < ar.length) :
    KeyBefore (ar ++ l) p r ↔ KeyBefore ar p r := by
  simp only [KeyBefore, weightAt_append_left l hp, weightAt_append_left l hr]

theorem waiting_append (l : List Node) {k j : Nat} (hk : k ≤ ar.length) :
    Waiting (ar ++ l) k j ↔ Waiting ar k j := by
  refine and_congr_right fun _ => forall_congr' fun m => forall_congr' fun b => ?_
  refine imp_congr_right fun hm => ?_
  rw [childAt_append_left l b (by omega)]

/-- Two different indices have different keys. -/
theorem keyBefore_of_not {p r : Nat} (h : keyLess ar r p = false) (hne : r ≠ p) : KeyBefore ar p r := by
  rw [Bool.eq_false_iff, Ne, keyLess_iff] at h
  rw [KeyBefore]
  omega

/-- Between two merges: the forest, its leaves with their weights, the merges made so far, and a queue of exactly the
entries that wait. -/
structure Merging (syms : List Byte) (freq : Table Word) (ar : List Node) (q : List Nat) : Prop where
  forest : Forest syms ar q
  leaves : ∀ j (h : j < syms.length), ar[j]? = some (leafOf freq syms[j])
  merges : ∀ k, syms.length ≤ k → k < ar.length → ∃ a b,
    ar[k]? = some (.internal (some a) (some b) (weightAt ar a + weightAt ar b)) ∧
    Waiting ar k a ∧ Waiting ar k b ∧ a ≠ b ∧
    (∀ j, Waiting ar k j → j ≠ a → KeyBefore ar a j) ∧
    (∀ j, Waiting ar k j → j ≠ a → j ≠ b → KeyBefore ar b j)
  queue  : ∀ j, j ∈ q ↔ Waiting ar ar.length j

theorem merging_leaves (freq : Table Word) (hn : syms ≠ []) :
    Merging syms freq (syms.map (leafOf freq)) (List.range syms.length) where
  forest := forest_leaves freq hn
  leaves := by intro j hj; simp [hj]
  merges := by intro k h1 h2; simp at h2; omega
  queue := by
    intro j
    have hf := forest_leaves freq hn
    simp only [List.mem_range, Waiting, List.length_map]
    exact ⟨fun h => ⟨h, fun m b _ => hf.noParent j (List.mem_range.2 h) m b⟩, fun h => h.1⟩

/-- One merge of the two smallest keys. -/
theorem Merging.merge (h : Merging syms freq ar q) {a b : Nat} (ha : a ∈ q) (hb : b ∈ q.erase a)
    (hla : ∀ x ∈ q, keyLess ar x a = false) (hlb : ∀ x ∈ q.erase a, keyLess ar x b = false) :
    Merging syms freq (ar ++ [.internal (some a) (some b) (weightAt ar a + weightAt ar b)])
      ((q.erase a).erase b ++ [ar.length]) := by
  have hbq : b ∈ q := List.mem_of_mem_erase hb
  have hab : b ≠ a := ((List.Nodup.mem_erase_iff h.forest.nodup).1 hb).1
  have hra := h.forest.inRange a ha
  have hrb := h.forest.inRange b hbq
  have hlen : syms.length ≤ ar.length := by
    by_contra hlt
    have := h.forest.leaves ar.length (by omega)
    exact absurd (leafAt_lt this) (by omega)
  refine { forest := h.forest.merge ha hb _, leaves := ?_, merges := ?_, queue := ?_ }
  · intro j hj
    rw [List.getElem?_append_left (by omega)]
    exact h.leaves j hj
  · intro k h1 h2
    simp only [List.length_append, List.length_singleton] at h2
    by_cases hk : k < ar.length
    · obtain ⟨x, y, he, hx, hy, hne, hmx, hmy⟩ := h.merges k h1 hk
      have hxk := hx.1
      have hyk := hy.1
      refine ⟨x, y, ?_, (waiting_append _ (by omega)).2 hx, (waiting_append _ (by omega)).2 hy, hne, ?_, ?_⟩
      · rw [List.getElem?_append_left hk, weightAt_append_left _ (by omega),
          weightAt_append_left _ (by omega)]
        exact he
      · intro j hj hja
        have hj' := (waiting_append _ (by omega)).1 hj
        have := hj'.1
        exact (keyBefore_append _ (by omega) (by omega)).2 (hmx j hj' hja)
      · intro j hj hja hjb
        have hj' := (waiting_append _ (by omega)).1 hj
        have := hj'.1
        exact (keyBefore_append _ (by omega) (by omega)).2 (hmy j hj' hja hjb)
    · have hk' : k = ar.length := by omega
      subst hk'
      refine ⟨a, b, ?_, (waiting_append _ le_rfl).2 ((h.queue a).1 ha),
        (waiting_append _ le_rfl).2 ((h.queue b).1 hbq), Ne.symm hab, ?_, ?_⟩
      · rw [weightAt_append_left _ hra, weightAt_append_left _ hrb]
        simp
      · intro j hj hja
        have hq := (h.queue j).2 ((waiting_append _ le_rfl).1 hj)
        exact (keyBefore_append _ hra (h.forest.inRange j hq)).2 (keyBefore_of_not (hla j hq) hja)
      · intro j hj hja hjb
        have hq := (h.queue j).2 ((waiting_append _ le_rfl).1 hj)
        exact (keyBefore_append _ hrb (h.forest.inRange j hq)).2
          (keyBefore_of_not (hlb j ((List.mem_erase_of_ne hja).2 hq)) hjb)
  · intro j
    simp only [List.mem_append, List.mem_singleton, List.length_append, List.length_singleton]
    constructor
    · rintro (hj | rfl)
      · have h1 := (List.Nodup.mem_erase_iff (h.forest.nodup.erase a)).1 hj
        have h2 := (List.Nodup.mem_erase_iff h.forest.nodup).1 h1.2
        have hw := (h.queue j).1 h2.2
        refine ⟨by have := hw.1; omega, ?_⟩
        intro m c hm hc
        by_cases hm' : m < ar.length
        · rw [childAt_append_left _ _ hm'] at hc
          exact hw.2 m c hm' hc
        · have hme : m = ar.length := by omega
          subst hme
          rw [childAt_append_new] at hc
          cases c <;> simp only [Node.child, Option.some.injEq] at hc
          · exact h2.1 hc.symm
          · exact h1.1 hc.symm
      · refine ⟨by omega, ?_⟩
        intro m c hm hc
        by_cases hm' : m < ar.length
        · rw [childAt_append_left _ _ hm'] at hc
          have := (h.forest.child_lt hc).2
          omega
        · have hme : m = ar.length := by omega
          subst hme
          rw [childAt_append_new] at hc
          cases c <;> simp only [Node.child, Option.some.injEq] at hc <;> omega
    · intro hj
      by_cases hje : j = ar.length
      · exact .inr hje
      · left
        have hw : Waiting ar ar.length j := by
          refine ⟨by have := hj.1; omega, ?_⟩
          intro m c hm hc
          exact hj.2 m c (by omega) (by rw [childAt_append_left _ _ hm]; exact hc)
        have hnew : ∀ c, childAt (ar ++ [.internal (some a) (some b) (weightAt ar a + weightAt ar b)])
            ar.length c ≠ some j := fun c => hj.2 ar.length c (by omega)
        have hja : j ≠ a := by
          intro e; subst e
          exact hnew false (by rw [childAt_append_new]; rfl)
        have hjb : j ≠ b := by
          intro e; subst e
          exact hnew true (by rw [childAt_append_new]; rfl)
        exact (List.mem_erase_of_ne hjb).2 ((List.mem_erase_of_ne hja).2 ((h.queue j).2 hw))

/-- The merges end with one entry in the queue, the last one made. -/
theorem mergeNodes_merging (fuel : Nat) (h : Merging syms freq ar q) (hf : q.length ≤ fuel)
    (hlast : q.length = 1 → q = [ar.length - 1]) :
    Merging syms freq (mergeNodes fuel ar q) [(mergeNodes fuel ar q).length - 1] := by
  induction fuel generalizing ar q with
  | zero => exact absurd (List.eq_nil_of_length_eq_zero (by omega)) h.forest.nonempty
  | succ fuel ih =>
    rw [mergeNodes]
    split
    · rename_i he
      exact absurd (extractMin_none.1 he) h.forest.nonempty
    · rename_i a q1 he
      obtain ⟨ha, rfl, hla⟩ := extractMin_some he
      have hq : (q.erase a).length = q.length - 1 := List.length_erase_of_mem ha
      split
      · rename_i he'
        have h0 := extractMin_none.1 he'
        have hpos := List.length_pos_of_mem ha
        rw [h0] at hq
        have h1 : q.length = 1 := by simp at hq; omega
        have := hlast h1
        rw [this] at h
        exact h
      · rename_i b q2 he'
        obtain ⟨hb, rfl, hlb⟩ := extractMin_some he'
        have hq2 : ((q.erase a).erase b).length = (q.erase a).length - 1 := List.length_erase_of_mem hb
        have hpos := List.length_pos_of_mem hb
        refine ih (h.merge ha hb hla hlb) ?_ ?_
        · simp only [List.length_append, List.length_singleton]; omega
        · intro h1
          simp only [List.length_append, List.length_singleton] at h1
          have : (q.erase a).erase b = [] := List.eq_nil_of_length_eq_zero (by omega)
          simp [this]

/-- The arena of a mapping with two symbols or more. -/
theorem buildTree_merging {freq : Table Word} (h : 2 ≤ (mappedSymbols freq).length) :
    ∃ ar, buildTree freq = (ar, some (ar.length - 1)) ∧
      Merging (mappedSymbols freq) freq ar [ar.length - 1] := by
  refine ⟨mergeNodes (mappedSymbols freq).length ((mappedSymbols freq).map (leafOf freq))
    (List.range (mappedSymbols freq).length), ?_, ?_⟩
  · rcases hm : mappedSymbols freq with _ | ⟨a, _ | ⟨b, l⟩⟩
    · simp [hm] at h
    · simp [hm] at h
    · simp [buildTree, hm]
  · refine mergeNodes_merging _ (merging_leaves freq ?_) (by simp) ?_
    · intro e; simp [e] at h
    · intro e; simp at e; omega

end Sys2Proof.Machine
end

