-- ==== Sys2Proof/Laws/Optimal.lean ====
section
/-! SUPPORT. Why merging the two smallest weights gives a code of minimum total length (41_encoder.md R153): the
exchange of two lengths, Kraft's inequality of a prefix-free code, and the merges one by one. -/

namespace Sys2Proof.Machine

open Finset

section Exchange

variable {Q : Finset ℕ} {W l : ℕ → ℕ} {a b : ℕ}

/-- A sum over `Q`, with two of its members taken out. -/
theorem sum_pair_out {M : Type} [AddCommMonoid M] (f : ℕ → M) (ha : a ∈ Q) (hb : b ∈ Q) (hab : a ≠ b) :
    ∑ q ∈ Q, f q = f a + (f b + ∑ q ∈ (Q.erase a).erase b, f q) := by
  rw [add_sum_erase _ f (mem_erase.2 ⟨hab.symm, hb⟩), add_sum_erase _ f ha]

/-- The Kraft sum of the lengths `l` over `Q`. -/
noncomputable def kraft (Q : Finset ℕ) (l : ℕ → ℕ) : ℝ := ∑ q ∈ Q, (1 / 2 : ℝ) ^ l q

/-- The total length under the lengths `l`. -/
def cost (Q : Finset ℕ) (W l : ℕ → ℕ) : ℕ := ∑ q ∈ Q, W q * l q

/-- Giving the lighter of two the greater length costs no more. -/
theorem exchange (ha : a ∈ Q) (hb : b ∈ Q) (hw : W a ≤ W b) (hl : l a ≤ l b) :
    ∃ l', kraft Q l' = kraft Q l ∧ cost Q W l' ≤ cost Q W l ∧ l' a = l b ∧
      (∀ q, q ≠ a → q ≠ b → l' q = l q) ∧ l' b = l a := by
  by_cases hab : a = b
  · subst hab
    exact ⟨l, rfl, le_rfl, rfl, fun _ _ _ => rfl, rfl⟩
  · have hne : ∀ q ∈ (Q.erase a).erase b, q ≠ a ∧ q ≠ b := fun q hq =>
      ⟨(mem_erase.1 (mem_erase.1 hq).2).1, (mem_erase.1 hq).1⟩
    refine ⟨fun q => if q = a then l b else if q = b then l a else l q, ?_, ?_, by simp,
      fun q h1 h2 => by simp [h1, h2], by simp [Ne.symm hab]⟩
    · rw [kraft, kraft, sum_pair_out _ ha hb hab, sum_pair_out _ ha hb hab,
        sum_congr rfl fun q hq => by rw [if_neg (hne q hq).1, if_neg (hne q hq).2]]
      simp only [if_true, if_neg (Ne.symm hab)]
      ring
    · rw [cost, cost, sum_pair_out _ ha hb hab, sum_pair_out _ ha hb hab,
        sum_congr rfl fun q hq => by rw [if_neg (hne q hq).1, if_neg (hne q hq).2]]
      simp only [if_true, if_neg (Ne.symm hab)]
      obtain ⟨d, hd⟩ := Nat.exists_eq_add_of_le hl
      obtain ⟨e, he⟩ := Nat.exists_eq_add_of_le hw
      rw [hd, he]
      nlinarith [Nat.zero_le (e * d)]

/-- A Kraft sum below 1 of lengths up to `m` leaves room for one more length `m`. -/
theorem kraft_room {m : ℕ} (hm : ∀ q ∈ Q, l q ≤ m) (hk : kraft Q l < 1) : kraft Q l + (1 / 2 : ℝ) ^ m ≤ 1 := by
  have hs : kraft Q l = ((∑ q ∈ Q, 2 ^ (m - l q) : ℕ) : ℝ) * (1 / 2) ^ m := by
    rw [kraft, Nat.cast_sum, sum_mul]
    refine sum_congr rfl fun q hq => ?_
    obtain ⟨d, hd⟩ := Nat.exists_eq_add_of_le (hm q hq)
    rw [hd, Nat.add_sub_cancel_left, pow_add]
    push_cast
    have : (2 : ℝ) ^ d * (1 / 2) ^ d = 1 := by rw [← mul_pow]; norm_num
    linear_combination (-(1 / 2 : ℝ) ^ l q) * this
  have h2 : (0 : ℝ) < (1 / 2) ^ m := by positivity
  have h1 : (2 : ℝ) ^ m * (1 / 2) ^ m = 1 := by rw [← mul_pow]; norm_num
  rw [hs] at hk ⊢
  have hlt : (∑ q ∈ Q, 2 ^ (m - l q) : ℕ) < 2 ^ m := by
    by_contra hc
    have hc' : (2 : ℝ) ^ m ≤ ((∑ q ∈ Q, 2 ^ (m - l q) : ℕ) : ℝ) := by
      have := Nat.le_of_not_lt hc
      exact_mod_cast this
    nlinarith
  have hle : ((∑ q ∈ Q, 2 ^ (m - l q) : ℕ) : ℝ) + 1 ≤ (2 : ℝ) ^ m := by exact_mod_cast hlt
  nlinarith

/-- Lengths that meet Kraft's inequality can be changed, at no cost, so that the two lightest have the same length, which
is not zero. -/
theorem siblings (ha : a ∈ Q) (hb : b ∈ Q) (hab : a ≠ b) (hwa : ∀ q ∈ Q, W a ≤ W q)
    (hwb : ∀ q ∈ Q, q ≠ a → W b ≤ W q) (hk : kraft Q l ≤ 1) :
    ∃ l' m, l' a = m + 1 ∧ l' b = m + 1 ∧ kraft Q l' ≤ 1 ∧ cost Q W l' ≤ cost Q W l := by
  obtain ⟨x, hx, hxm⟩ := exists_max_image Q l ⟨a, ha⟩
  obtain ⟨l1, k1, c1, a1, o1, b1⟩ := exchange (W := W) ha hx (hwa x hx) (hxm a ha)
  have hmax1 : ∀ q ∈ Q, l1 q ≤ l1 a := by
    intro q hq
    rw [a1]
    by_cases h1 : q = a
    · rw [h1, a1]
    · by_cases h2 : q = x
      · rw [h2, b1]; exact hxm a ha
      · rw [o1 q h1 h2]; exact hxm q hq
  have hbe : b ∈ Q.erase a := mem_erase.2 ⟨hab.symm, hb⟩
  obtain ⟨y, hy, hym⟩ := exists_max_image (Q.erase a) l1 ⟨b, hbe⟩
  obtain ⟨hya, hyQ⟩ := mem_erase.1 hy
  obtain ⟨l2, k2, c2, a2, o2, b2⟩ := exchange (W := W) hb hyQ (hwb y hyQ hya) (hym b hbe)
  have h2a : l2 a = l1 a := o2 a hab (Ne.symm hya)
  have hmax2 : ∀ q ∈ Q.erase a, l2 q ≤ l2 b := by
    intro q hq
    rw [a2]
    by_cases h1 : q = b
    · rw [h1, a2]
    · by_cases h2 : q = y
      · rw [h2, b2]; exact hym b hbe
      · rw [o2 q h1 h2]; exact hym q hq
  have hba : l2 b ≤ l2 a := by rw [a2, h2a]; exact hmax1 y hyQ
  have hk2 : kraft Q l2 ≤ 1 := by rw [k2, k1]; exact hk
  have hsplit : ∀ f : ℕ → ℕ, kraft Q f = (1 / 2 : ℝ) ^ f a + kraft (Q.erase a) f := fun f =>
    (add_sum_erase Q (fun q => (1 / 2 : ℝ) ^ f q) ha).symm
  have hcsplit : ∀ f : ℕ → ℕ, cost Q W f = W a * f a + cost (Q.erase a) W f := fun f =>
    (add_sum_erase Q (fun q => W q * f q) ha).symm
  have hpos : (0 : ℝ) < (1 / 2) ^ l2 a := by positivity
  have hlt : kraft (Q.erase a) l2 < 1 := by
    have := hsplit l2
    linarith
  have hb0 : l2 b ≠ 0 := by
    intro h0
    have h1 : (1 / 2 : ℝ) ^ l2 b ≤ kraft (Q.erase a) l2 :=
      single_le_sum (f := fun q => (1 / 2 : ℝ) ^ l2 q) (fun q _ => by positivity) hbe
    rw [h0, pow_zero] at h1
    linarith
  have hrest : ∀ q ∈ Q.erase a, (if q = a then l2 b else l2 q) = l2 q := fun q hq =>
    if_neg (mem_erase.1 hq).1
  refine ⟨fun q => if q = a then l2 b else l2 q, l2 b - 1, by simp; omega, by simp [hab.symm]; omega, ?_, ?_⟩
  · rw [hsplit, kraft, sum_congr rfl fun q hq => by rw [hrest q hq]]
    have := kraft_room hmax2 hlt
    rw [kraft] at this
    simp only [if_true]
    linarith
  · have : cost (Q.erase a) W (fun q => if q = a then l2 b else l2 q) = cost (Q.erase a) W l2 :=
      sum_congr rfl fun q hq => by dsimp only; rw [hrest q hq]
    rw [hcsplit, this]
    have h3 := hcsplit l2
    have h4 : W a * l2 b ≤ W a * l2 a := Nat.mul_le_mul_left _ hba
    simp only [if_true]
    omega

end Exchange

section Merges

/-- The merges from step `n` up to step `N`, each of the two lightest members of `Q k` into the new member `k`. -/
structure Merges (n N : ℕ) (W : ℕ → ℕ) (Q : ℕ → Finset ℕ) (A B : ℕ → ℕ) : Prop where
  left    : ∀ k, n ≤ k → k < N → A k ∈ Q k
  right   : ∀ k, n ≤ k → k < N → B k ∈ Q k
  ne      : ∀ k, n ≤ k → k < N → A k ≠ B k
  new     : ∀ k, n ≤ k → k < N → k ∉ Q k
  next    : ∀ k, n ≤ k → k < N → Q (k + 1) = insert k (((Q k).erase (A k)).erase (B k))
  weight  : ∀ k, n ≤ k → k < N → W k = W (A k) + W (B k)
  lightA  : ∀ k, n ≤ k → k < N → ∀ q ∈ Q k, W (A k) ≤ W q
  lightB  : ∀ k, n ≤ k → k < N → ∀ q ∈ Q k, q ≠ A k → W (B k) ≤ W q

variable {n N : ℕ} {W : ℕ → ℕ} {Q : ℕ → Finset ℕ} {A B : ℕ → ℕ}

/-- A sum over the next members: the two merged ones replaced by the new one. -/
theorem Merges.sum_next (h : Merges n N W Q A B) {k : ℕ} (h1 : n ≤ k) (h2 : k < N) {M : Type} [AddCommMonoid M]
    (f : ℕ → M) : ∑ q ∈ Q (k + 1), f q = f k + ∑ q ∈ ((Q k).erase (A k)).erase (B k), f q := by
  rw [h.next k h1 h2, sum_insert]
  intro hc
  exact h.new k h1 h2 (mem_erase.1 (mem_erase.1 hc).2).2

/-- Lengths under which the two merged members lie one below the new one: a merge costs its weight. -/
theorem Merges.cost_step (h : Merges n N W Q A B) {k : ℕ} (h1 : n ≤ k) (h2 : k < N) {l : ℕ → ℕ}
    (ha : l (A k) = l k + 1) (hb : l (B k) = l k + 1) : cost (Q k) W l = W k + cost (Q (k + 1)) W l := by
  rw [cost, cost, h.sum_next h1 h2, sum_pair_out _ (h.left k h1 h2) (h.right k h1 h2) (h.ne k h1 h2), ha, hb,
    h.weight k h1 h2]
  ring

theorem Merges.kraft_step (h : Merges n N W Q A B) {k : ℕ} (h1 : n ≤ k) (h2 : k < N) {l : ℕ → ℕ}
    (ha : l (A k) = l k + 1) (hb : l (B k) = l k + 1) : kraft (Q (k + 1)) l = kraft (Q k) l := by
  rw [kraft, kraft, h.sum_next h1 h2, sum_pair_out _ (h.left k h1 h2) (h.right k h1 h2) (h.ne k h1 h2), ha, hb]
  ring

/-- No lengths that meet Kraft's inequality cost less than the weights of the merges to come. -/
theorem Merges.lower (h : Merges n N W Q A B) (d : ℕ) : ∀ k, n ≤ k → k + d = N → ∀ l : ℕ → ℕ,
    kraft (Q k) l ≤ 1 → ∑ m ∈ range d, W (k + m) ≤ cost (Q k) W l := by
  induction d with
  | zero => intro k _ _ l _; simp
  | succ d ih =>
    intro k h1 h2 l hk
    have h3 : k < N := by omega
    obtain ⟨l1, m, e1, e2, e3, e4⟩ := siblings (h.left k h1 h3) (h.right k h1 h3) (h.ne k h1 h3)
      (h.lightA k h1 h3) (h.lightB k h1 h3) hk
    have hne : ∀ q ∈ Q k, q ≠ k := fun q hq hc => h.new k h1 h3 (hc ▸ hq)
    have hl : ∀ q ∈ Q k, Function.update l1 k m q = l1 q := fun q hq => Function.update_of_ne (hne q hq) _ _
    have ea : Function.update l1 k m (A k) = Function.update l1 k m k + 1 := by
      rw [hl _ (h.left k h1 h3), Function.update_self, e1]
    have eb : Function.update l1 k m (B k) = Function.update l1 k m k + 1 := by
      rw [hl _ (h.right k h1 h3), Function.update_self, e2]
    have c1 : cost (Q k) W (Function.update l1 k m) = cost (Q k) W l1 :=
      sum_congr rfl fun q hq => by rw [hl q hq]
    have c2 : kraft (Q k) (Function.update l1 k m) = kraft (Q k) l1 :=
      sum_congr rfl fun q hq => by rw [hl q hq]
    have := ih (k + 1) (by omega) (by omega) (Function.update l1 k m)
      (by rw [h.kraft_step h1 h3 ea eb, c2]; exact e3)
    have c3 := h.cost_step h1 h3 ea eb
    rw [sum_range_succ']
    have c4 : ∑ m ∈ range d, W (k + (m + 1)) = ∑ m ∈ range d, W (k + 1 + m) :=
      sum_congr rfl fun q _ => by rw [show k + (q + 1) = k + 1 + q by omega]
    rw [c4]
    simp only [Nat.add_zero]
    omega

/-- The total weight stays as it is. -/
theorem Merges.total (h : Merges n N W Q A B) (k : ℕ) (h1 : n ≤ k) (h2 : k ≤ N) :
    ∑ q ∈ Q k, W q = ∑ q ∈ Q n, W q := by
  induction k, h1 using Nat.le_induction with
  | base => rfl
  | succ k h1 ih =>
    rw [h.sum_next h1 (by omega), h.weight k h1 (by omega), ← ih (by omega),
      sum_pair_out _ (h.left k h1 (by omega)) (h.right k h1 (by omega)) (h.ne k h1 (by omega))]
    omega

/-- Every merge leaves one member less. -/
theorem Merges.card (h : Merges n N W Q A B) (k : ℕ) (h1 : n ≤ k) (h2 : k ≤ N) :
    (Q k).card + (k - n) = (Q n).card := by
  induction k, h1 using Nat.le_induction with
  | base => simp
  | succ k h1 ih =>
    have hb : B k ∈ (Q k).erase (A k) := mem_erase.2 ⟨(h.ne k h1 (by omega)).symm, h.right k h1 (by omega)⟩
    have hn : k ∉ ((Q k).erase (A k)).erase (B k) := fun hc =>
      h.new k h1 (by omega) (mem_erase.1 (mem_erase.1 hc).2).2
    have := ih (by omega)
    have e1 := card_erase_add_one hb
    have e2 := card_erase_add_one (h.left k h1 (by omega))
    rw [h.next k h1 (by omega), card_insert_of_notMem hn]
    omega

/-- The paths from the last member of all to the members of `Q k`, and what they cost. -/
theorem Merges.paths (h : Merges n N W Q A B) {ar : List Node} {r : ℕ} (hr : Q N = {r})
    (hc : ∀ k, n ≤ k → k < N → childAt ar k false = some (A k) ∧ childAt ar k true = some (B k)) (d : ℕ) :
    ∀ k, n ≤ k → k + d = N → ∃ p : ℕ → Bits, (∀ q ∈ Q k, follow ar r (p q) = some q) ∧
      cost (Q k) W (fun q => (p q).length) = ∑ m ∈ range d, W (k + m) := by
  induction d with
  | zero =>
    intro k _ h2
    have h3 : k = N := by omega
    subst h3
    exact ⟨fun _ => [], by rw [hr]; intro q hq; rw [mem_singleton.1 hq]; rfl, by simp [cost]⟩
  | succ d ih =>
    intro k h1 h2
    have h3 : k < N := by omega
    obtain ⟨p, p1, p2⟩ := ih (k + 1) (by omega) (by omega)
    have hab := h.ne k h1 h3
    have hka : k ≠ A k := fun hh => h.new k h1 h3 (by rw [hh]; exact hh ▸ h.left k h1 h3)
    have hkb : k ≠ B k := fun hh => h.new k h1 h3 (by rw [hh]; exact hh ▸ h.right k h1 h3)
    have hk : k ∈ Q (k + 1) := by rw [h.next k h1 h3]; exact mem_insert_self _ _
    have old : ∀ q ∈ Q k, q ≠ A k → q ≠ B k → q ∈ Q (k + 1) := fun q hq ha hb => by
      rw [h.next k h1 h3]; exact mem_insert_of_mem (mem_erase.2 ⟨hb, mem_erase.2 ⟨ha, hq⟩⟩)
    refine ⟨fun q => if q = A k then p k ++ [false] else if q = B k then p k ++ [true] else p q, ?_, ?_⟩
    · intro q hq
      dsimp only
      split
      · rename_i ha
        rw [follow_concat, p1 k hk, ha]; exact (hc k h1 h3).1
      · split
        · rename_i hb
          rw [follow_concat, p1 k hk, hb]; exact (hc k h1 h3).2
        · rename_i ha hb
          exact p1 q (old q hq ha hb)
    · rw [h.cost_step h1 h3 (by simp [hka, hkb]) (by simp [hab.symm, hka, hkb]), sum_range_succ']
      have e1 : cost (Q (k + 1)) W (fun q =>
          (if q = A k then p k ++ [false] else if q = B k then p k ++ [true] else p q).length) =
          cost (Q (k + 1)) W fun q => (p q).length := by
        refine sum_congr rfl fun q hq => ?_
        rw [h.next k h1 h3] at hq
        have hne : q ≠ A k ∧ q ≠ B k := by
          rcases mem_insert.1 hq with rfl | hq
          · exact ⟨hka, hkb⟩
          · exact ⟨(mem_erase.1 (mem_erase.1 hq).2).1, (mem_erase.1 hq).1⟩
        dsimp only
        rw [if_neg hne.1, if_neg hne.2]
      have e2 : ∑ m ∈ range d, W (k + (m + 1)) = ∑ m ∈ range d, W (k + 1 + m) :=
        sum_congr rfl fun q _ => by rw [show k + (q + 1) = k + 1 + q by omega]
      rw [e1, p2, e2]
      simp only [Nat.add_zero]
      omega

end Merges

/-! ### The merges of ENC_TREE -/

/-- The weight of an entry as a number. -/
def weightOf (ar : List Node) (j : ℕ) : ℕ := (weightAt ar j).toNat

theorem KeyBefore.le {ar : List Node} {p q : ℕ} (h : KeyBefore ar p q) : weightOf ar p ≤ weightOf ar q := by
  rw [weightOf, weightOf]
  rcases h with h | h <;> omega

/-- The tree of R152 as merges, where the weights of its leaves add up to less than 2^32. -/
theorem MergeTree.exists_merges {freq : Table Word} {ar : List Node} (h : MergeTree freq ar) {n : ℕ}
    (hn : n = (mappedSymbols freq).length) (h1 : 1 ≤ n)
    (ht : ∑ j ∈ range n, weightOf ar j < 2 ^ 32) :
    ∃ Q A B, Merges n (2 * n - 1) (weightOf ar) Q A B ∧ Q n = range n ∧ Q (2 * n - 1) = {2 * n - 2} ∧
      ∀ k, n ≤ k → k < 2 * n - 1 → childAt ar k false = some (A k) ∧ childAt ar k true = some (B k) := by
  classical
  have hlen : ar.length = 2 * n - 1 := by rw [h.nodes, hn]
  have hm : ∀ k, ∃ a b, n ≤ k → k < 2 * n - 1 →
      ar[k]? = some (.internal (some a) (some b) (weightAt ar a + weightAt ar b)) ∧
      Waiting ar k a ∧ Waiting ar k b ∧ a ≠ b ∧
      (∀ j, Waiting ar k j → j ≠ a → KeyBefore ar a j) ∧
      (∀ j, Waiting ar k j → j ≠ a → j ≠ b → KeyBefore ar b j) := by
    intro k
    by_cases hk : n ≤ k ∧ k < 2 * n - 1
    · obtain ⟨a, b, hab⟩ := h.merges k (by omega) (by omega)
      exact ⟨a, b, fun _ _ => hab⟩
    · exact ⟨0, 0, fun h1 h2 => absurd ⟨h1, h2⟩ hk⟩
  choose A B hAB using hm
  have child : ∀ k, n ≤ k → k < 2 * n - 1 → childAt ar k false = some (A k) ∧ childAt ar k true = some (B k) := by
    intro k h2 h3
    have := (hAB k h2 h3).1
    simp [childAt, this, Node.child]
  have nochild : ∀ k b, k < n → childAt ar k b = none := by
    intro k b hk
    have := h.leaves k (by omega)
    simp [childAt, this, Node.child]
  have childLt : ∀ m b x, m < 2 * n - 1 → childAt ar m b = some x → x < m := by
    intro m b x hm hx
    by_cases h2 : m < n
    · rw [nochild m b h2] at hx; exact absurd hx (by simp)
    · obtain ⟨-, wa, wb, -⟩ := hAB m (by omega) hm
      obtain ⟨c1, c2⟩ := child m (by omega) hm
      cases b
      · rw [c1, Option.some.injEq] at hx; rw [← hx]; exact wa.1
      · rw [c2, Option.some.injEq] at hx; rw [← hx]; exact wb.1
  have mem : ∀ k j, j ∈ (range k).filter (Waiting ar k) ↔ Waiting ar k j := by
    intro k j
    rw [mem_filter, mem_range]
    exact ⟨fun h => h.2, fun h => ⟨h.1, h⟩⟩
  have step : ∀ k, n ≤ k → k < 2 * n - 1 → (range (k + 1)).filter (Waiting ar (k + 1)) =
      insert k ((((range k).filter (Waiting ar k)).erase (A k)).erase (B k)) := by
    intro k h2 h3
    ext j
    rw [mem, mem_insert, mem_erase, mem_erase, mem]
    obtain ⟨c1, c2⟩ := child k h2 h3
    constructor
    · rintro ⟨g1, g2⟩
      by_cases hjk : j = k
      · exact .inl hjk
      · refine .inr ⟨?_, ?_, by omega, fun m b hm => g2 m b (by omega)⟩
        · rintro rfl; exact g2 k true (by omega) c2
        · rintro rfl; exact g2 k false (by omega) c1
    · rintro (rfl | ⟨g1, g2, g3, g4⟩)
      · refine ⟨by omega, fun m b hm hc => ?_⟩
        have := childLt m b j (by omega) hc
        omega
      · refine ⟨by omega, fun m b hm hc => ?_⟩
        by_cases hmk : m = k
        · subst hmk
          cases b
          · rw [c1, Option.some.injEq] at hc; exact g2 hc.symm
          · rw [c2, Option.some.injEq] at hc; exact g1 hc.symm
        · exact g4 m b (by omega) hc
  have first : (range n).filter (Waiting ar n) = range n := by
    rw [filter_eq_self]
    intro j hj
    refine ⟨mem_range.1 hj, fun m b hm hc => ?_⟩
    rw [nochild m b hm] at hc
    exact absurd hc (by simp)
  have main : ∀ N, n ≤ N → N ≤ 2 * n - 1 →
      Merges n N (weightOf ar) (fun k => (range k).filter (Waiting ar k)) A B := by
    intro N h2
    induction N, h2 using Nat.le_induction with
    | base => intro _; constructor <;> (intros; omega)
    | succ N h2 ih =>
      intro h3
      have ihN := ih (by omega)
      obtain ⟨n1, n2, n3, n4, n5, n6⟩ := hAB N h2 (by omega)
      have hwt : weightOf ar N = weightOf ar (A N) + weightOf ar (B N) := by
        have tot := ihN.total N h2 le_rfl
        simp only [first] at tot
        rw [sum_pair_out _ ((mem _ _).2 n2) ((mem _ _).2 n3) n4] at tot
        have e1 : weightAt ar N = weightAt ar (A N) + weightAt ar (B N) := by
          rw [weightAt, n1]; rfl
        rw [weightOf, e1, BitVec.toNat_add, ← weightOf, ← weightOf, Nat.mod_eq_of_lt]
        omega
      have cases : ∀ k, n ≤ k → k < N + 1 → (n ≤ k ∧ k < N) ∨ k = N := by intros; omega
      constructor <;> intro k h4 h5 <;> rcases cases k h4 h5 with ⟨h6, h7⟩ | rfl
      · exact ihN.left k h6 h7
      · exact (mem _ _).2 n2
      · exact ihN.right k h6 h7
      · exact (mem _ _).2 n3
      · exact ihN.ne k h6 h7
      · exact n4
      · exact ihN.new k h6 h7
      · intro hc; exact absurd ((mem _ _).1 hc).1 (by omega)
      · exact ihN.next k h6 h7
      · exact step k h4 (by omega)
      · exact ihN.weight k h6 h7
      · exact hwt
      · exact ihN.lightA k h6 h7
      · intro q hq
        by_cases hqa : q = A k
        · rw [hqa]
        · exact (n5 q ((mem _ _).1 hq) hqa).le
      · exact ihN.lightB k h6 h7
      · intro q hq hqa
        by_cases hqb : q = B k
        · rw [hqb]
        · exact (n6 q ((mem _ _).1 hq) hqa hqb).le
  have all := main (2 * n - 1) (by omega) le_rfl
  refine ⟨_, A, B, all, first, ?_, child⟩
  have hcard := all.card (2 * n - 1) (by omega) le_rfl
  simp only [first, card_range] at hcard
  have hone : ((range (2 * n - 1)).filter (Waiting ar (2 * n - 1))).card = 1 := by omega
  obtain ⟨x, hx⟩ := card_eq_one.1 hone
  have hin : 2 * n - 2 ∈ (range (2 * n - 1)).filter (Waiting ar (2 * n - 1)) := by
    rw [mem]
    refine ⟨by omega, fun m b hm hc => ?_⟩
    have := childLt m b _ hm hc
    omega
  rw [hx, mem_singleton] at hin
  rw [hx, hin]

/-- The tree of R152 has a path to each of its leaves, and no lengths that meet Kraft's inequality cost less than those of
its paths. -/
theorem MergeTree.optimal {freq : Table Word} {ar : List Node} (h : MergeTree freq ar) {n : ℕ}
    (hn : n = (mappedSymbols freq).length) (h1 : 1 ≤ n) (ht : ∑ j ∈ range n, weightOf ar j < 2 ^ 32) :
    ∃ p : ℕ → Bits, (∀ j, j < n → follow ar (2 * n - 2) (p j) = some j) ∧
      ∀ l : ℕ → ℕ, kraft (range n) l ≤ 1 →
        cost (range n) (weightOf ar) (fun j => (p j).length) ≤ cost (range n) (weightOf ar) l := by
  obtain ⟨Q, A, B, hM, hQ, hr, hc⟩ := h.exists_merges hn h1 ht
  obtain ⟨p, p1, p2⟩ := hM.paths hr hc (n - 1) n le_rfl (by omega)
  rw [hQ] at p1 p2
  refine ⟨p, fun j hj => p1 j (mem_range.2 hj), fun l hl => ?_⟩
  have := hM.lower (n - 1) n le_rfl (by omega) l (by rw [hQ]; exact hl)
  rw [hQ] at this
  rw [p2]
  exact this

/-! ### Kraft's inequality -/

/-- Codes none of which is a prefix of another, two or more of them, meet Kraft's inequality. -/
theorem kraft_prefixFree {n : ℕ} (h2 : 2 ≤ n) (code : ℕ → Bits)
    (hp : ∀ i, i < n → ∀ j, j < n → i ≠ j → ¬ code i <+: code j) :
    kraft (range n) (fun j => (code j).length) ≤ 1 := by
  have hinj : Set.InjOn code (range n) := by
    intro i hi j hj hij
    by_contra hne
    refine hp i (mem_range.1 hi) j (mem_range.1 hj) hne ?_
    rw [hij]
  have hne : ∀ i, i < n → code i ≠ [] := by
    intro i hi he
    by_cases h0 : i = 0
    · exact hp i hi 1 (by omega) (by omega) (by rw [he]; exact List.nil_prefix)
    · exact hp i hi 0 (by omega) h0 (by rw [he]; exact List.nil_prefix)
  have hud : InformationTheory.UniquelyDecodable (((range n).image code : Finset Bits) : Set Bits) := by
    have word : ∀ w ∈ (((range n).image code : Finset Bits) : Set Bits), ∃ i, i < n ∧ code i = w := by
      intro w hw
      obtain ⟨i, hi, rfl⟩ := mem_image.1 (mem_coe.1 hw)
      exact ⟨i, mem_range.1 hi, rfl⟩
    intro L1
    induction L1 with
    | nil =>
      intro L2 _ h2 hf
      cases L2 with
      | nil => rfl
      | cons v L2 =>
        obtain ⟨i, hi, rfl⟩ := word v (h2 v List.mem_cons_self)
        exact absurd (by simpa using hf.symm) (fun hc : code i = [] ∧ _ => hne i hi hc.1)
    | cons w L1 ih =>
      intro L2 h1 h2 hf
      obtain ⟨i, hi, rfl⟩ := word w (h1 w List.mem_cons_self)
      cases L2 with
      | nil => exact absurd (by simpa using hf) (fun hc : code i = [] ∧ _ => hne i hi hc.1)
      | cons v L2 =>
        obtain ⟨j, hj, rfl⟩ := word v (h2 v List.mem_cons_self)
        simp only [List.flatten_cons] at hf
        have heq : code i = code j := by
          by_contra hc
          have hij : i ≠ j := fun hh => hc (by rw [hh])
          have q2 : code j <+: code i ++ L1.flatten := by rw [hf]; exact List.prefix_append _ _
          rcases List.prefix_or_prefix_of_prefix (List.prefix_append (code i) L1.flatten) q2 with hh | hh
          · exact hp i hi j hj hij hh
          · exact hp j hj i hi hij.symm hh
        rw [heq] at hf ⊢
        rw [ih L2 (fun x hx => h1 x (List.mem_cons_of_mem _ hx)) (fun x hx => h2 x (List.mem_cons_of_mem _ hx))
          (List.append_cancel_left hf)]
  have hk := InformationTheory.kraft_mcmillan_inequality hud
  rw [sum_image hinj] at hk
  simpa [kraft] using hk

end Sys2Proof.Machine
end

