-- ==== Sys2Proof/Laws/Patch.lean ====
section
/-! SUPPORT. No command reads CTRL, STATUS, ERR_INFO, the reply or the moves to come: changing them before a command
or after it is the same (40_common.md R133, 70_reset_and_hazards.md R249). -/

namespace Sys2Proof.Machine

/-- `s` with other values in the fields no command reads. -/
def State.patch (s : State) (c : Ctrl) (t : Status) (e : Word) (r : Option Reply) (l : List Input) : State :=
  { s with ctrl := c, status := t, errInfo := e, reply := r, inputs := l }

/-- `f` treats patched states as it treats the states themselves. -/
def Patches {α : Type} (f : State → State × α) : Prop :=
  ∀ s c t e r l, f (s.patch c t e r l) = ((f s).1.patch c t e r l, (f s).2)

theorem patches_encFreq : Patches bodyEncFreq := fun _ _ _ _ _ _ => rfl

theorem patches_encTree : Patches bodyEncTree := fun _ _ _ _ _ _ => rfl

theorem walkCodes_patch (ar : List Node) (fuel k : Nat) (p : Bits) (s : State) (c : Ctrl) (t : Status)
    (e : Word) (r : Option Reply) (l : List Input) :
    walkCodes ar fuel k p (s.patch c t e r l) = (walkCodes ar fuel k p s).patch c t e r l := by
  induction fuel generalizing k p s with
  | zero => rfl
  | succ fuel ih =>
    rw [walkCodes, walkCodes]
    split
    · rfl
    · rfl
    · rename_i lf rt f _
      dsimp only
      cases lf with
      | none =>
        cases rt with
        | none => rfl
        | some y => exact ih y _ s
      | some x =>
        cases rt with
        | none => exact ih x _ s
        | some y =>
          simp only [Option.elim]
          rw [ih x, ih y]

theorem patches_encCodes : Patches bodyEncCodes := by
  intro s c t e r l
  have hroot : (s.patch c t e r l).root = s.root := rfl
  unfold bodyEncCodes
  rw [hroot]
  cases s.root with
  | none => rfl
  | some k =>
    show (walkCodes _ _ _ _ _, _) = _
    rw [show (s.patch c t e r l).arena = s.arena from rfl, walkCodes_patch]

theorem patches_encHeader : Patches bodyEncHeader := by
  intro s c t e r l
  unfold bodyEncHeader
  rw [show (s.patch c t e r l).nsym = s.nsym from rfl, show (s.patch c t e r l).outCap = s.outCap from rfl,
    show (s.patch c t e r l).headerSize = s.headerSize from rfl]
  split
  · rfl
  · split <;> rfl

theorem patches_encPayload : Patches bodyEncPayload := by
  intro s c t e r l
  unfold bodyEncPayload
  rw [show (s.patch c t e r l).hdrLen = s.hdrLen from rfl,
    show (s.patch c t e r l).outCap = s.outCap from rfl,
    show (s.patch c t e r l).payload = s.payload from rfl]
  dsimp only
  split <;> rfl

theorem readEntries_patch (n left p : Nat) (s : State) (c : Ctrl) (t : Status)
    (e : Word) (r : Option Reply) (l : List Input) :
    readEntries n left p (s.patch c t e r l) =
      ((readEntries n left p s).1.patch c t e r l, (readEntries n left p s).2) := by
  induction left generalizing p s with
  | zero => rfl
  | succ left ih =>
    rw [readEntries, readEntries, show (s.patch c t e r l).inLen = s.inLen from rfl,
      show (s.patch c t e r l).inByte = s.inByte from rfl,
      show (s.patch c t e r l).present = s.present from rfl]
    dsimp only
    split
    · rfl
    · split
      · rfl
      · split
        · rfl
        · split
          · rfl
          · exact ih _ { s.setCode _ _ with order := s.order ++ [s.inByte p] }

theorem patches_decTable : Patches bodyDecTable := by
  intro s c t e r l
  unfold bodyDecTable
  rw [show (s.patch c t e r l).inLen = s.inLen from rfl,
    show (s.patch c t e r l).inByte = s.inByte from rfl]
  split
  · rfl
  · exact readEntries_patch _ _ _ s c t e r l

theorem insertAll_congr {s s' : State} (h : s'.codeOf = s.codeOf) (l : List Byte) (i : Nat) (ar : List Node) :
    insertAll s' l i ar = insertAll s l i ar := by
  induction l generalizing i ar with
  | nil => rfl
  | cons sym l ih =>
    rw [insertAll, insertAll, h]
    split
    · rfl
    · exact ih _ _

theorem patches_decTree : Patches bodyDecTree := by
  intro s c t e r l
  have h : insertAll (s.patch c t e r l) (s.patch c t e r l).order 0 [bareNode] =
      insertAll s s.order 0 [bareNode] := insertAll_congr (s := s) (s' := s.patch c t e r l) rfl _ _ _
  unfold bodyDecTree
  rw [h]
  rfl

/-- The payload walk reads the input, the tree, the limit and OUT_CAP only. -/
theorem walkPayload_congr {s s' : State} (h1 : s'.limsnap = s.limsnap) (h2 : s'.outLimit = s.outLimit)
    (h3 : s'.bitAt = s.bitAt) (h4 : s'.arena = s.arena) (h5 : s'.root = s.root)
    (h6 : s'.outCap = s.outCap) (left x : Nat) (w : Walk) :
    walkPayload s' left x w = walkPayload s left x w := by
  induction left generalizing x w with
  | zero => rfl
  | succ left ih =>
    have hc : ∀ cur b, s'.childOf cur b = s.childOf cur b := by
      intro cur b; simp only [State.childOf, h4]
    rw [walkPayload, walkPayload, h1, h2, h3, h4, h5, h6, hc]
    split
    · rfl
    · split
      · rfl
      · split
        · split
          · rfl
          · exact ih _ _
        · exact ih _ _

theorem patches_decPayload : Patches bodyDecPayload := by
  intro s c t e r l
  unfold bodyDecPayload
  rw [show (s.patch c t e r l).rootLeaf = s.rootLeaf from rfl]
  split
  · unfold bodyLeafRoot
    rw [show (s.patch c t e r l).limsnap = s.limsnap from rfl,
      show (s.patch c t e r l).outLimit = s.outLimit from rfl,
      show (s.patch c t e r l).outCap = s.outCap from rfl,
      show (s.patch c t e r l).outMem = s.outMem from rfl]
    dsimp only
    split <;> rfl
  · dsimp only
    rw [walkPayload_congr (s := s) (s' := s.patch c t e r l) rfl rfl rfl rfl rfl rfl]
    rw [show (s.patch c t e r l).outMem = s.outMem from rfl,
      show (s.patch c t e r l).root = s.root from rfl,
      show (s.patch c t e r l).inLen = s.inLen from rfl,
      show (s.patch c t e r l).hdrLen = s.hdrLen from rfl]
    generalize walkPayload s _ _ _ = z
    obtain ⟨w, _ | x⟩ := z <;> rfl

theorem invalidate_patch (s : State) (op : StageOp) (c : Ctrl) (t : Status) (e : Word)
    (r : Option Reply) (l : List Input) :
    (s.patch c t e r l).invalidate op = (s.invalidate op).patch c t e r l := by
  cases op <;> rfl

theorem patches_runStage {op : StageOp} {body : State → State × Option Raise} (hb : Patches body) :
    Patches (runStage op body) := by
  intro s c t e r l
  unfold runStage
  rw [invalidate_patch, hb, show (s.patch c t e r l).stage = s.stage from rfl,
    show (s.patch c t e r l).inCap = s.inCap from rfl, show (s.patch c t e r l).inLen = s.inLen from rfl]
  split
  · rfl
  · split
    · rfl
    · rcases body (s.invalidate op) with ⟨u, _ | x⟩
      · rfl
      · dsimp only
        rw [invalidate_patch]

theorem patches_andThen {f g : State → Result} (hf : Patches f) (hg : Patches g) :
    Patches fun s => (f s).andThen g := by
  intro s c t e r l
  dsimp only
  rw [hf]
  rcases f s with ⟨u, _ | x⟩
  · exact hg u c t e r l
  · rfl

/-- No command reads the patched fields. -/
theorem patches_resultOf (i : Instr) : Patches (resultOf i) := by
  cases i with
  | nop => exact fun _ _ _ _ _ _ => rfl
  | clear => exact fun _ _ _ _ _ _ => rfl
  | encFreq => exact patches_runStage (op := .encFreq) patches_encFreq
  | encTree => exact patches_runStage patches_encTree
  | encCodes => exact patches_runStage patches_encCodes
  | encHeader => exact patches_runStage patches_encHeader
  | encPayload => exact patches_runStage patches_encPayload
  | encode =>
    exact patches_andThen (patches_andThen (patches_andThen (patches_andThen
      (patches_runStage patches_encFreq) (patches_runStage patches_encTree))
      (patches_runStage patches_encCodes)) (patches_runStage patches_encHeader))
      (patches_runStage patches_encPayload)
  | decTable => exact patches_runStage (op := .decTable) patches_decTable
  | decTree => exact patches_runStage patches_decTree
  | decPayload => exact patches_runStage patches_decPayload
  | decode =>
    exact patches_andThen (patches_andThen (patches_runStage patches_decTable)
      (patches_runStage patches_decTree)) (patches_runStage patches_decPayload)

/-- A command that raised nothing leaves a state that differs from its result by a patch of STATUS. -/
theorem finish_patch (s : State) :
    s.finish = s.patch s.ctrl s.status.completedOk s.errInfo s.reply s.inputs := rfl

/-- A command run from a completed state gives what it gives from the state before completion. -/
theorem completed_after_finish (i : Instr) (s : State) :
    (resultOf i s.finish).completed = (resultOf i s).completed := by
  have hk := stageKeeps_resultOf i s
  rw [finish_patch, patches_resultOf]
  rcases hr : resultOf i s with ⟨t, _ | e⟩
  · rw [hr] at hk
    simp only [completed_none, State.patch, State.finish]
    rw [← hk.host.ctrl, ← hk.errInfo, ← hk.host.reply, ← hk.host.inputs, ← hk.status]
    rfl
  · rw [hr] at hk
    simp only [completed_some, State.patch, State.finish, State.takeError]
    rw [← hk.host.ctrl, ← hk.host.reply, ← hk.host.inputs, ← hk.status]
    rfl

/-- A chain of commands gives what its results one after the other give. -/
theorem execChain_cons (i : Instr) (is : List Instr) (s : State) (hs : s.status.err = false) :
    execChain (i :: is) s =
      match resultOf i s with
      | (t, none) => execChain is t.finish
      | (t, some e) => .next (Result.completed (t, some e)) := by
  have hk := stageKeeps_resultOf i s
  rw [execChain, exec_next]
  rcases hr : resultOf i s with ⟨t, _ | e⟩
  · rw [hr] at hk
    dsimp only
    rw [completed_none]
    have : t.status.err = false := by rw [hk.status]; exact hs
    simp [this]
  · dsimp only
    rw [if_pos (by rfl)]

/-- The first three stages of ENCODE as commands, where none of them raises. -/
theorem execChain_front {s t : State} (hs : s.status.err = false)
    (hrun : ((stageEncFreq s).andThen stageEncTree).andThen stageEncCodes = (t, none)) :
    execChain [.encFreq, .encTree, .encCodes] s = .next t.finish := by
  obtain ⟨t2, h12, h3⟩ := andThen_ok hrun
  obtain ⟨t1, h1, h2⟩ := andThen_ok h12
  have e1 : resultOf .encFreq s = (t1, none) := h1
  have e2 : resultOf .encTree t1 = (t2, none) := h2
  have e3 : resultOf .encCodes t2 = (t, none) := h3
  have k1 := stageKeeps_resultOf .encFreq s
  have k2 := stageKeeps_resultOf .encTree t1
  have c2 := completed_after_finish .encTree t1
  have c3 := completed_after_finish .encCodes t2
  rw [e1] at k1
  rw [e2] at k2 c2
  rw [e3] at c3
  have s1 : t1.status.err = false := by rw [k1.status]; exact hs
  have s2 : t2.status.err = false := by rw [k2.status]; exact s1
  have f1 : t1.finish.status.err = false := s1
  have f2 : t2.finish.status.err = false := s2
  simp only [execChain, exec_next, e1, completed_none, f1, c2, f2, c3, Bool.false_eq_true, if_false, ite_self]

end Sys2Proof.Machine
end

