-- ==== Sys2Proof/Laws/PerInstr.lean ====
section
/-! SUPPORT. What holds of every command as syntax, one lemma per constructor. -/

namespace Sys2Proof.Laws.Encoding

/-- A command is well formed, its word has RSVD = 0 and its own opcode, which is one of the map's, and decodes back to
it (30_encoding.md R100, R102). -/
def Statement (i : Instr) : Prop :=
  i.wellFormed = true ∧ (Cmd32.ofWord (encode i)).wellFormed = true ∧
    (encode i).extractLsb' 0 8 = i.opcode ∧ decode (encode i) = .ok i

theorem nop : Statement .nop := ⟨rfl, rfl, rfl, rfl⟩

theorem clear : Statement .clear := ⟨rfl, rfl, rfl, rfl⟩

theorem encFreq : Statement .encFreq := ⟨rfl, rfl, rfl, rfl⟩

theorem encTree : Statement .encTree := ⟨rfl, rfl, rfl, rfl⟩

theorem encCodes : Statement .encCodes := ⟨rfl, rfl, rfl, rfl⟩

theorem encHeader : Statement .encHeader := ⟨rfl, rfl, rfl, rfl⟩

theorem encPayload : Statement .encPayload := ⟨rfl, rfl, rfl, rfl⟩

theorem encode : Statement .encode := ⟨rfl, rfl, rfl, rfl⟩

theorem decTable : Statement .decTable := ⟨rfl, rfl, rfl, rfl⟩

theorem decTree : Statement .decTree := ⟨rfl, rfl, rfl, rfl⟩

theorem decPayload : Statement .decPayload := ⟨rfl, rfl, rfl, rfl⟩

theorem decode : Statement .decode := ⟨rfl, rfl, rfl, rfl⟩

end Sys2Proof.Laws.Encoding
end

