-- ==== Sys2Proof/Laws/Port.lean ====
section
/-! SUPPORT. The host port (20_memory.md): regions by address, the register map, byte order, and what a transaction
can change. -/

namespace Sys2Proof.Machine

/-! ### Regions (R71) -/

theorem regionOf_eq (addr : Word) : regionOf addr =
    if addr.toNat < 0x40000000 then .reg
    else if addr.toNat < 0x80000000 then .input
    else if addr.toNat < 0xC0000000 then .output
    else .absent := by
  have hlt := addr.isLt
  have h : (addr.extractLsb' 30 2).toNat = addr.toNat / 0x40000000 := by
    rw [BitVec.extractLsb'_toNat, Nat.shiftRight_eq_div_pow]
    omega
  unfold regionOf
  rw [h]
  split_ifs with h1 h2 h3
  · rw [Nat.div_eq_of_lt h1]; rfl
  · rw [show addr.toNat / 0x40000000 = 1 by omega]; rfl
  · rw [show addr.toNat / 0x40000000 = 2 by omega]; rfl
  · rw [show addr.toNat / 0x40000000 = 3 by omega]; rfl

theorem offsetOf_eq (addr : Word) : offsetOf addr = addr.toNat % 0x40000000 := by
  unfold offsetOf
  rw [BitVec.extractLsb'_toNat]
  simp

theorem regionOf_reg {off : Nat} (h : off < 0x40000000) : regionOf (BitVec.ofNat 32 off) = .reg := by
  rw [regionOf_eq, BitVec.toNat_ofNat, Nat.mod_eq_of_lt (by omega), if_pos h]

theorem offsetOf_reg {off : Nat} (h : off < 0x40000000) : offsetOf (BitVec.ofNat 32 off) = off := by
  rw [offsetOf_eq, BitVec.toNat_ofNat]
  omega

theorem regionOf_inAddr {a : Nat} (h : a < 0x40000000) : regionOf (inAddr a) = .input := by
  rw [regionOf_eq, inAddr, BitVec.toNat_ofNat, Nat.mod_eq_of_lt (by omega), if_neg (by omega),
    if_pos (by omega)]

theorem offsetOf_inAddr {a : Nat} (h : a < 0x40000000) : offsetOf (inAddr a) = a := by
  rw [offsetOf_eq, inAddr, BitVec.toNat_ofNat]
  omega

theorem regionOf_outAddr {a : Nat} (h : a < 0x40000000) : regionOf (outAddr a) = .output := by
  rw [regionOf_eq, outAddr, BitVec.toNat_ofNat, Nat.mod_eq_of_lt (by omega), if_neg (by omega),
    if_neg (by omega), if_pos (by omega)]

theorem offsetOf_outAddr {a : Nat} (h : a < 0x40000000) : offsetOf (outAddr a) = a := by
  rw [offsetOf_eq, outAddr, BitVec.toNat_ofNat]
  omega

/-! ### The register map (R23, R39) -/

theorem regAt_freq {off : Nat} (h1 : 0x0400 ≤ off) (h2 : off < 0x0800) :
    regAt off = some (.freq (BitVec.ofNat 8 ((off - 0x0400) / 4))) := by
  rw [regAt, if_neg (by omega), if_pos h2]

theorem regAt_codeLen {off : Nat} (h1 : 0x0800 ≤ off) (h2 : off < 0x0C00) :
    regAt off = some (.codeLen (BitVec.ofNat 8 ((off - 0x0800) / 4))) := by
  rw [regAt, if_neg (by omega), if_neg (by omega), if_pos h2]

theorem regAt_codeBits {off : Nat} (h1 : 0x1000 ≤ off) (h2 : off < 0x3000) :
    regAt off = some (.codeBits (BitVec.ofNat 8 ((off - 0x1000) / 32))
      (Fin.ofNat 8 ((off - 0x1000) % 32 / 4))) := by
  rw [regAt, if_neg (by omega), if_neg (by omega), if_neg (by omega), if_neg (by omega), if_pos h2]

/-- A register is found at its offset, which is aligned and within the map. -/
theorem regAt_offset (r : Reg) : regAt r.offset = some r ∧ r.offset < 0x3000 ∧ r.offset % 4 = 0 := by
  cases r with
  | freq s =>
    have hs := s.isLt
    have ho : (Reg.freq s).offset = 0x0400 + 4 * s.toNat := rfl
    refine ⟨?_, by omega, by omega⟩
    rw [regAt_freq (by omega) (by omega), ho, show (0x0400 + 4 * s.toNat - 0x0400) / 4 = s.toNat by omega]
    simp
  | codeLen s =>
    have hs := s.isLt
    have ho : (Reg.codeLen s).offset = 0x0800 + 4 * s.toNat := rfl
    refine ⟨?_, by omega, by omega⟩
    rw [regAt_codeLen (by omega) (by omega), ho,
      show (0x0800 + 4 * s.toNat - 0x0800) / 4 = s.toNat by omega]
    simp
  | codeBits s w =>
    have hs := s.isLt
    have hw := w.isLt
    have ho : (Reg.codeBits s w).offset = 0x1000 + 32 * s.toNat + 4 * w.val := rfl
    refine ⟨?_, by omega, by omega⟩
    rw [regAt_codeBits (by omega) (by omega), ho,
      show (0x1000 + 32 * s.toNat + 4 * w.val - 0x1000) / 32 = s.toNat by omega,
      show (0x1000 + 32 * s.toNat + 4 * w.val - 0x1000) % 32 / 4 = w.val by omega]
    simp
  | _ => decide

/-- What stands at an aligned offset has that offset. -/
theorem offset_of_regAt {off : Nat} {r : Reg} (h4 : off % 4 = 0) (h : regAt off = some r) :
    r.offset = off := by
  by_cases h1 : off < 0x0400
  · rw [regAt, if_pos h1] at h
    revert h
    simp only [singleRegs, List.lookup]
    repeat' split
    all_goals
      intro h
      first
        | (injection h with h; subst h; rename_i heq; simpa [Reg.offset] using (beq_iff_eq.1 heq).symm)
        | exact absurd h (by simp)
  · by_cases h2 : off < 0x0800
    · rw [regAt_freq (by omega) h2] at h
      injection h with h; subst h
      show 0x0400 + 4 * (BitVec.ofNat 8 ((off - 0x0400) / 4)).toNat = off
      rw [BitVec.toNat_ofNat]; omega
    · by_cases h3 : off < 0x0C00
      · rw [regAt_codeLen (by omega) h3] at h
        injection h with h; subst h
        show 0x0800 + 4 * (BitVec.ofNat 8 ((off - 0x0800) / 4)).toNat = off
        rw [BitVec.toNat_ofNat]; omega
      · by_cases h5 : off < 0x1000
        · rw [regAt, if_neg h1, if_neg h2, if_neg h3, if_pos h5] at h
          exact absurd h (by simp)
        · by_cases h6 : off < 0x3000
          · rw [regAt_codeBits (by omega) h6] at h
            injection h with h; subst h
            show 0x1000 + 32 * (BitVec.ofNat 8 ((off - 0x1000) / 32)).toNat +
              4 * (Fin.ofNat 8 ((off - 0x1000) % 32 / 4)).val = off
            rw [BitVec.toNat_ofNat, Fin.val_ofNat]; omega
          · rw [regAt, if_neg h1, if_neg h2, if_neg h3, if_neg h5, if_neg h6] at h
            exact absurd h (by simp)

/-- A 4-byte write at a register's offset is a write of the register. -/
theorem transact_writesReg (r : Reg) (v : Word) (s : State) :
    transact (writesReg r v) s = writeReg r v s := by
  obtain ⟨h1, h2, h3⟩ := regAt_offset r
  rw [writesReg, transact, regionOf_reg (by omega), offsetOf_reg (by omega)]
  simp [writeRegion, regAccessLegal, h3, h1]

/-- A 4-byte read at a register's offset is a read of the register. -/
theorem transact_readsReg (r : Reg) (s : State) :
    transact (readsReg r) s =
      if s.status.busy && r.unspecifiedWhileBusy then s.answerDraw .b4
      else s.answer (.data (s.readReg r)) := by
  obtain ⟨h1, h2, h3⟩ := regAt_offset r
  rw [readsReg, transact, regionOf_reg (by omega), offsetOf_reg (by omega)]
  simp [readRegion, regAccessLegal, h3, h1]

/-! ### Byte order (R77, R70) -/

/-- Byte `k` of a word put together from bytes. -/
theorem littleEndian_byte (l : List Byte) (k : Nat) (hl : l.length ≤ 4) (hk : k < 4) :
    (littleEndian l).extractLsb' (8 * k) 8 = l.getD k 0 := by
  induction l generalizing k with
  | nil =>
    apply BitVec.eq_of_getLsbD_eq
    intro i hi
    simp [littleEndian]
  | cons b l ih =>
    apply BitVec.eq_of_getLsbD_eq
    intro i hi
    rw [littleEndian]
    simp only [BitVec.getLsbD_extractLsb', hi, decide_true, Bool.true_and, BitVec.getLsbD_or,
      BitVec.getLsbD_setWidth, BitVec.getLsbD_shiftLeft]
    cases k with
    | zero =>
      simp only [Nat.mul_zero, Nat.zero_add, hi, decide_true, Bool.not_true, Bool.and_false]
      simp
      omega
    | succ k =>
      have e := ih k (by simp at hl; omega) (by omega)
      have e' := congrArg (fun v => BitVec.getLsbD v i) e
      simp only [BitVec.getLsbD_extractLsb', hi, decide_true, Bool.true_and] at e'
      have h1 : ¬ (8 * (k + 1) + i < 8) := by omega
      have h2 : 8 * (k + 1) + i - 8 = 8 * k + i := by omega
      have h3 : 8 * (k + 1) + i < 32 := by omega
      have h4 : b.getLsbD (8 * (k + 1) + i) = false := BitVec.getLsbD_of_ge _ _ (by omega)
      simp [h1, h2, h3, h4, e']

theorem length_bytesOfWord (n : Nat) (w : Word) : (bytesOfWord n w).length = n := by simp [bytesOfWord]

theorem bytesOfWord_get (n : Nat) (w : Word) {k : Nat} (hk : k < n) :
    (bytesOfWord n w)[k]? = some (w.extractLsb' (8 * k) 8) := by
  simp [bytesOfWord, hk]

theorem size_bytes (size : Size) : size.bytes = 1 ∨ size.bytes = 2 ∨ size.bytes = 4 := by
  cases size <;> simp [Size.bytes]

theorem capacity_bytes_le (c : Capacity) : c.bytes ≤ 2 ^ 28 := by
  have := c.isLt
  unfold Capacity.bytes
  omega

/-! ### What a transaction changes (R81) -/

/-- The states a transaction can end in. -/
theorem transact_cases (t : Txn) (s : State) :
    (∃ r n, transact t s = { s with reply := some r, draws := n }) ∨
    (s.status.busy = false ∧ ∃ v, transact t s = (s.accept v).answer .okay) ∨
    (∃ v, transact t s = { s with ctrl := Ctrl.ofWord v, reply := some .okay }) ∨
    (∃ v, transact t s = { s with status := s.status.acknowledge v, reply := some .okay }) ∨
    (s.status.busy = true ∧ transact t s = s.dropWrite) ∨
    (s.status.busy = false ∧ ∃ v, transact t s =
      { s with inLen := v, stage := Stage.none, reply := some .okay }) ∨
    (s.status.busy = false ∧ ∃ v, transact t s = { s with outLimit := v, reply := some .okay }) ∨
    (s.status.busy = false ∧ ∃ a l, a + l.length ≤ s.inCap.bytes ∧ transact t s =
      { s with inMem := Memory.writeBytes s.inMem a l, stage := Stage.none, reply := some .okay }) := by
  have quiet : ∀ r, ∃ r' n, s.answer r = { s with reply := some r', draws := n } := fun r => ⟨r, _, rfl⟩
  have draw : ∀ z, ∃ r' n, s.answerDraw z = { s with reply := some r', draws := n } :=
    fun z => ⟨_, _, rfl⟩
  cases t with
  | read size addr =>
    left
    rw [transact]
    cases regionOf addr with
    | reg =>
      dsimp only [readRegion]
      split_ifs
      · cases regAt (offsetOf addr) with
        | none => exact quiet _
        | some r =>
          dsimp only
          split_ifs
          · exact draw _
          · exact quiet _
      · exact quiet _
    | input =>
      dsimp only [readIn]
      split_ifs <;> exact quiet _
    | output =>
      dsimp only [readOut]
      split_ifs
      · exact draw _
      · exact quiet _
      · exact quiet _
    | absent => exact quiet _
  | write size addr v =>
    rw [transact]
    cases regionOf addr with
    | reg =>
      dsimp only [writeRegion]
      split_ifs
      · cases regAt (offsetOf addr) with
        | none => exact .inl (quiet _)
        | some r =>
          by_cases hb : s.status.busy = true
          · cases r with
            | ctrl => exact .inr (.inr (.inl ⟨v, rfl⟩))
            | status => exact .inr (.inr (.inr (.inl ⟨v, rfl⟩)))
            | cmd => exact .inr (.inr (.inr (.inr (.inl ⟨hb, by simp [writeReg, hb]⟩))))
            | inLen => exact .inr (.inr (.inr (.inr (.inl ⟨hb, by simp [writeReg, hb]⟩))))
            | outLimit => exact .inr (.inr (.inr (.inr (.inl ⟨hb, by simp [writeReg, hb]⟩))))
            | _ => exact .inl (quiet _)
          · have hb' : s.status.busy = false := by simpa using hb
            cases r with
            | ctrl => exact .inr (.inr (.inl ⟨v, rfl⟩))
            | status => exact .inr (.inr (.inr (.inl ⟨v, rfl⟩)))
            | cmd => exact .inr (.inl ⟨hb', v, by simp [writeReg, hb']⟩)
            | inLen =>
              exact .inr (.inr (.inr (.inr (.inr (.inl ⟨hb', v, by simp [writeReg, hb']⟩)))))
            | outLimit =>
              exact .inr (.inr (.inr (.inr (.inr (.inr (.inl ⟨hb', v, by simp [writeReg, hb']⟩))))))
            | _ => exact .inl (quiet _)
      · exact .inl (quiet _)
    | input =>
      dsimp only [writeIn]
      split_ifs with h1 h2
      · exact .inr (.inr (.inr (.inr (.inl ⟨h2, rfl⟩))))
      · refine .inr (.inr (.inr (.inr (.inr (.inr (.inr ⟨by simpa using h2, offsetOf addr,
          bytesOfWord size.bytes v, ?_, rfl⟩))))))
        rw [length_bytesOfWord]
        simp only [memAccessLegal, Bool.and_eq_true, decide_eq_true_eq] at h1
        exact h1.2
      · exact .inl (quiet _)
    | output => exact .inl (quiet _)
    | absent => exact .inl (quiet _)

end Sys2Proof.Machine
end

