-- ==== Sys2Proof/Tests/Slice0.lean ====
section
/-! SUPPORT. Tests of the model, each of one step, with results taken from spec/95_test_vectors.md or from the rule
named; and for every obligation with hypotheses a concrete state that meets them. -/

set_option Elab.async false

namespace Sys2Proof.Tests

open Sys2Proof.Machine

/-! ### States -/

/-- After reset with capacities of `cap` bytes and `bytes` loaded as the input, for a decode limit of `limit`. -/
def machine (cap : Nat) (bytes : List Byte) (limit : Nat := 0) : State :=
  { State.reset with
    inCap := Fin.ofNat _ (cap - 1), outCap := Fin.ofNat _ (cap - 1),
    inMem := bytes.zipIdx.map fun c => (c.2, c.1), inLen := BitVec.ofNat 32 bytes.length,
    ctrl := { ie := false, limitEn := limit != 0 }, limsnap := limit != 0, outLimit := BitVec.ofNat 32 limit }

/-- The state a step leaves. -/
def stepped (s : State) : State :=
  match step s with
  | .next t => t
  | .fault _ => s
  | .refused _ => s

/-- The state a command word leaves, run as the next step. -/
def ran (w : Nat) (s : State) : State := stepped (s.withFetchWord 32 w)

/-- The state a command leaves. -/
def after (i : Instr) (s : State) : State := (resultOf i s).completed

theorem exec_after (i : Instr) (s : State) : exec i s = .next (after i s) := exec_next i s

/-- "aab" after ENC_FREQ, ENC_TREE, ENC_CODES and ENC_HEADER (vector E6). -/
def aab : State := machine 8 [0x61, 0x61, 0x62]

def aabFreq : State :=
  { aab with freq := ((Table.fill 0).put 0x61 2).put 0x62 1, nsym := 2, stage := { Stage.none with freqV := true } }

def aabTree : State :=
  { aabFreq with
    arena := [.leaf 0x61 2, .leaf 0x62 1, .internal (some 1) (some 0) 3], root := some 2,
    stage := { Stage.none with freqV := true, treeV := true } }

def aabCodes : State :=
  { (aabTree.setCode 0x61 [true]).setCode 0x62 [false] with
    stage := { Stage.none with freqV := true, treeV := true, codesV := true } }

def aabHeader : State :=
  { aabCodes with
    outMem := [(0, 0x02), (1, 0x61), (2, 0x01), (3, 0x80), (4, 0x62), (5, 0x01), (6, 0x00)],
    hdrLen := 7, outLen := 7,
    stage := { Stage.none with freqV := true, treeV := true, codesV := true, hdrV := true } }

/-- The container of "aab" after DEC_TABLE and DEC_TREE, with a limit. -/
def box (cap limit : Nat) : State := machine cap [0x02, 0x61, 0x01, 0x80, 0x62, 0x01, 0x00, 0xC0] limit

def boxTable (cap limit : Nat) : State :=
  { ((box cap limit).setCode 0x61 [true]).setCode 0x62 [false] with
    order := [0x61, 0x62], nsym := 2, hdrLen := 7, stage := { Stage.none with tabV := true } }

def boxTree (cap limit : Nat) : State :=
  { boxTable cap limit with
    arena := [.internal (some 2) (some 1) 0, .leaf 0x61 0, .leaf 0x62 0], root := some 0,
    stage := { Stage.none with tabV := true, dtreeV := true } }

/-! ### Well-formedness and decoding (R100 to R103) -/

theorem test_reserved_bits_illegal : (Cmd32.mk 0x000001 0x10).reservedZero = false ∧
    (Cmd32.mk 0x000001 0x10).wellFormed = false := by decide

theorem test_unknown_op_illegal : (Cmd32.mk 0 0x15).opKnown = false ∧ (Cmd32.mk 0 0x15).wellFormed = false := by
  decide

theorem test_reserved_bits_refused : decode 0x00000110 = .error (.reservedBits 1) := by decide

theorem test_unknown_op_refused : decode 0x00000003 = .error (.unknownOpcode 0x03) := by decide

theorem test_every_command_well_formed :
    opcodeMap.all (fun r => r.2.wellFormed && (Cmd32.mk 0 r.1).wellFormed) = true := by decide

/-- Words written out bit by bit from R100 and R102: bits 31:8, then bits 7:0. -/
theorem test_decode_control : decode 0b000000000000000000000000_00000000 = .ok .nop ∧
    decode 0b000000000000000000000000_00000001 = .ok .clear := by decide

theorem test_decode_encoder : decode 0b000000000000000000000000_00010000 = .ok .encFreq ∧
    decode 0b000000000000000000000000_00010001 = .ok .encTree ∧
    decode 0b000000000000000000000000_00010010 = .ok .encCodes ∧
    decode 0b000000000000000000000000_00010011 = .ok .encHeader ∧
    decode 0b000000000000000000000000_00010100 = .ok .encPayload ∧
    decode 0b000000000000000000000000_00011111 = .ok .encode := by decide

theorem test_decode_decoder : decode 0b000000000000000000000000_00100000 = .ok .decTable ∧
    decode 0b000000000000000000000000_00100001 = .ok .decTree ∧
    decode 0b000000000000000000000000_00100010 = .ok .decPayload ∧
    decode 0b000000000000000000000000_00101111 = .ok .decode := by decide

/-- A word put in place runs as the first step after reset. -/
theorem test_first_step_control : step (State.reset.withFetchWord 32 0x00) = exec .nop (State.reset.accept 0x00) ∧
    step (State.reset.withFetchWord 32 0x01) = exec .clear (State.reset.accept 0x01) := ⟨rfl, rfl⟩

theorem test_first_step_encoder :
    step (State.reset.withFetchWord 32 0x10) = exec .encFreq (State.reset.accept 0x10) ∧
    step (State.reset.withFetchWord 32 0x11) = exec .encTree (State.reset.accept 0x11) ∧
    step (State.reset.withFetchWord 32 0x12) = exec .encCodes (State.reset.accept 0x12) ∧
    step (State.reset.withFetchWord 32 0x13) = exec .encHeader (State.reset.accept 0x13) ∧
    step (State.reset.withFetchWord 32 0x14) = exec .encPayload (State.reset.accept 0x14) ∧
    step (State.reset.withFetchWord 32 0x1F) = exec .encode (State.reset.accept 0x1F) :=
  ⟨rfl, rfl, rfl, rfl, rfl, rfl⟩

theorem test_first_step_decoder :
    step (State.reset.withFetchWord 32 0x20) = exec .decTable (State.reset.accept 0x20) ∧
    step (State.reset.withFetchWord 32 0x21) = exec .decTree (State.reset.accept 0x21) ∧
    step (State.reset.withFetchWord 32 0x22) = exec .decPayload (State.reset.accept 0x22) ∧
    step (State.reset.withFetchWord 32 0x2F) = exec .decode (State.reset.accept 0x2F) :=
  ⟨rfl, rfl, rfl, rfl⟩

/-! ### One step of each command -/

/-- The example of R141: NOP after an error leaves STATUS = 0x00000002. -/
theorem test_nop_clears_the_record :
    (ran 0x00 { aab with
      status := { aab.status with done := true, err := true, errCode := 0x02, errOp := 0x11 } }).status.toWord =
      0x00000002 := by decide +kernel

/-- Vector E15: CLEAR resets STAGE and the products, and keeps OUT_MEM. -/
theorem test_clear : ((ran 0x01 aabHeader).stage.toWord, (ran 0x01 aabHeader).outLen, (ran 0x01 aabHeader).nsym,
    (ran 0x01 aabHeader).nodes, (ran 0x01 aabHeader).outByte 3) = (0, 0, 0, 0, 0x80) := by decide +kernel

/-- Counted by hand, NSYM of vector E6. -/
theorem test_encFreq : ((ran 0x10 aab).freq.at 0x61, (ran 0x10 aab).freq.at 0x62, (ran 0x10 aab).nsym,
    (ran 0x10 aab).stage.toWord) = (2, 1, 2, 0x001) := by decide +kernel

/-- Vector X4: IN_LEN above IN_CAP. -/
theorem test_encFreq_range :
    ((ran 0x10 { machine 16 [] with inLen := 17 }).status.toWord,
      (ran 0x10 { machine 16 [] with inLen := 17 }).errInfo) = (0x00100306, 17) := by decide +kernel

/-- Vector E6: the less frequent symbol is extracted first and becomes the left child. -/
theorem test_encTree : ((ran 0x11 aabFreq).arena, (ran 0x11 aabFreq).root) =
    ([.leaf 0x61 2, .leaf 0x62 1, .internal (some 1) (some 0) 3], some 2) := by decide +kernel

/-- The example of R213: ENC_TREE right after reset. -/
theorem test_encTree_sequence : ((ran 0x11 (machine 8 [])).status.toWord, (ran 0x11 (machine 8 [])).errInfo) =
    (0x00110206, 0) := by decide +kernel

/-- Vector E6: a = `1`, b = `0`. -/
theorem test_encCodes : ((ran 0x12 aabTree).readReg (.codeLen 0x61), (ran 0x12 aabTree).readReg (.codeBits 0x61 0),
    (ran 0x12 aabTree).readReg (.codeLen 0x62), (ran 0x12 aabTree).readReg (.codeBits 0x62 0)) =
    (0x101, 0x80000000, 0x101, 0) := by decide +kernel

/-- Vector E6: the header. -/
theorem test_encHeader : ((ran 0x13 aabCodes).output 7, (ran 0x13 aabCodes).hdrLen) =
    ([0x02, 0x61, 0x01, 0x80, 0x62, 0x01, 0x00], 7) := by decide +kernel

/-- As vector X7: a header of 7 bytes and OUT_CAP = 4. -/
theorem test_encHeader_overflow :
    ((ran 0x13 { aabCodes with outCap := 3 }).status.toWord, (ran 0x13 { aabCodes with outCap := 3 }).errInfo) =
      (0x00130506, 7) := by decide +kernel

/-- Vector E6: the payload. -/
theorem test_encPayload : ((ran 0x14 aabHeader).outByte 7, (ran 0x14 aabHeader).payloadBits,
    (ran 0x14 aabHeader).resid, (ran 0x14 aabHeader).outLen) = (0xC0, 3, 5, 8) := by decide +kernel

/-- As vector X8: a container of 8 bytes and OUT_CAP = 7 leaves HDR_LEN and clears OUT_LEN. -/
theorem test_encPayload_overflow :
    ((ran 0x14 { aabHeader with outCap := 6 }).status.toWord, (ran 0x14 { aabHeader with outCap := 6 }).errInfo,
      (ran 0x14 { aabHeader with outCap := 6 }).hdrLen, (ran 0x14 { aabHeader with outCap := 6 }).outLen) =
      (0x00140506, 8, 7, 0) := by decide +kernel

/-- Vector D5's kind: the header of the container of "aab". -/
theorem test_decTable : ((ran 0x20 (box 8 0)).order, (ran 0x20 (box 8 0)).hdrLen, (ran 0x20 (box 8 0)).nsym,
    (ran 0x20 (box 8 0)).codeOf 0x61, (ran 0x20 (box 8 0)).stage.toWord) =
    ([0x61, 0x62], 7, 2, [true], 0x100) := by decide +kernel

/-- Vector Y6: a symbol twice. -/
theorem test_decTable_duplicate :
    ((ran 0x20 (machine 8 [0x02, 0x61, 0x01, 0x00, 0x61, 0x01, 0x80])).status.toWord,
      (ran 0x20 (machine 8 [0x02, 0x61, 0x01, 0x00, 0x61, 0x01, 0x80])).errInfo) = (0x00200806, 4) := by
  decide +kernel

/-- By hand from R181: a = `1` makes leaf 1, b = `0` makes leaf 2. -/
theorem test_decTree : ((ran 0x21 (boxTable 8 0)).arena, (ran 0x21 (boxTable 8 0)).root) =
    ([.internal (some 2) (some 1) 0, .leaf 0x61 0, .leaf 0x62 0], some 0) := by decide +kernel

/-- Vector Y7: a = `0` is a prefix of b = `00`. -/
theorem test_decTree_prefix :
    ((ran 0x21 (((boxTable 8 0).setCode 0x61 [false]).setCode 0x62 [false, false])).status.toWord,
      (ran 0x21 (((boxTable 8 0).setCode 0x61 [false]).setCode 0x62 [false, false])).errInfo,
      (ran 0x21 (((boxTable 8 0).setCode 0x61 [false]).setCode 0x62 [false, false])).nodes) =
      (0x00210906, 1, 0) := by decide +kernel

/-- Program P2: "aab" with the limit 3. -/
theorem test_decPayload : ((ran 0x22 (boxTree 8 3)).output 3, (ran 0x22 (boxTree 8 3)).outLen,
    (ran 0x22 (boxTree 8 3)).payloadBits, (ran 0x22 (boxTree 8 3)).resid, (ran 0x22 (boxTree 8 3)).stage.toWord) =
    ([0x61, 0x61, 0x62], 3, 3, 0, 0x700) := by decide +kernel

/-- Program P2 without its limit: "aabbbbbb". -/
theorem test_decPayload_pad_bits : (ran 0x22 (boxTree 8 0)).output 8 =
    [0x61, 0x61, 0x62, 0x62, 0x62, 0x62, 0x62, 0x62] := by decide +kernel

/-- Vector D11: a leaf root and the limit 5. -/
theorem test_decode : ((ran 0x2F (machine 8 [0x01, 0x41, 0x00] 5)).output 5,
    (ran 0x2F (machine 8 [0x01, 0x41, 0x00] 5)).outLen, (ran 0x2F (machine 8 [0x01, 0x41, 0x00] 5)).stage.toWord) =
    ([0x41, 0x41, 0x41, 0x41, 0x41], 5, 0x700) := by decide +kernel

/-- Vector Y10: payload bit 1 of the table A = `0`. -/
theorem test_decode_malformed :
    ((ran 0x2F (machine 8 [0x01, 0x41, 0x01, 0x00, 0x80])).status.toWord,
      (ran 0x2F (machine 8 [0x01, 0x41, 0x01, 0x00, 0x80])).errInfo,
      (ran 0x2F (machine 8 [0x01, 0x41, 0x01, 0x00, 0x80])).stage.toWord) = (0x00220A06, 32, 0x300) := by
  decide +kernel

/-- Vector X2: the illegal word 0x110. -/
theorem test_illegal_word : ((ran 0x110 aab).status.toWord, (ran 0x110 aab).errInfo) = (0x00100106, 0x110) := by
  decide +kernel

/-! ### The host port -/

/-- Vector H10, with the byte order of R77. -/
theorem test_input_write_little_endian :
    ((List.range 4).map (transact (.write .b4 0x40000000 0x64636261) (machine 16 [])).inByte) =
      [0x61, 0x62, 0x63, 0x64] := by decide +kernel

/-- Vectors H1, H5, H7 and H17. -/
theorem test_reads : ((transact (.read .b4 0x00000000) (machine 16 [])).reply,
    (transact (.read .b4 0x00000040) (machine 16 [])).reply, (transact (.read .b2 0x00000000) (machine 16 [])).reply,
    (transact (.read .b4 0xC0000000) (machine 16 [])).reply) =
    (some (.data 0x48550007), some (.data 0), some .busErr, some .busErr) := by decide +kernel

/-- Vector H19: the acknowledgement of an error keeps ERR_CODE and ERR_OP. -/
theorem test_acknowledge :
    (transact (.write .b4 0x0000000C 0xFFFFFFFF) { aab with
      status := { aab.status with done := true, err := true, errCode := 0x02, errOp := 0x11 } }).status.toWord =
      0x00110200 := by decide +kernel

/-! ### Witnesses: states and operands that meet the hypotheses of the obligations

Where a statement has clauses over one input, there is one for each clause, at a boundary of its range. -/

/-- Busy, with the command word `w` latched and `l` the moves to come. -/
def busy (w : Word) (l : List Input) : State := { (machine 8 []).accept w with inputs := l }

theorem witness_DecodesExactlyTheOpcodeMap :
    decode 0x2F = .ok .decode ∧
    (0x00000100 : Word).extractLsb' 8 24 ≠ 0 ∧
    ((0x00000030 : Word).extractLsb' 8 24 = 0 ∧ (0x00000030 : Word).extractLsb' 0 8 ∉ opcodes) ∧
    ((0x0000002F : Word).extractLsb' 8 24 = 0 ∧ (0x0000002F : Word).extractLsb' 0 8 ∈ opcodes) := by decide

theorem witness_EncodeAndDecodeAgree : Instr.decode.wellFormed = true ∧ decode 0x0000002F = .ok .decode := by
  decide

theorem witness_StepRunsTheDecodedCommand :
    (busy 0x00 [.engine]).status.busy = true ∧ decode (busy 0x00 [.engine]).cmdl = .ok .nop ∧
    (busy 0x00 [.engine]).inputs = [.engine] ∧ (busy 0x00 []).inputs = [] ∧
    decodeTableWord 32 0x00 = some .nop := by decide

theorem witness_OtherMovesAreOneStepEach :
    (busy 0x00 [.host (.read .b4 0)]).inputs = [.host (.read .b4 0)] ∧
    (busy 0x00 [.reset, .engine]).inputs = [.reset, .engine] ∧
    ((machine 8 []).status.busy = false ∧ ({ machine 8 [] with inputs := [.engine] } : State).inputs = [.engine]) ∧
    (machine 8 []).inputs = [] := by decide

theorem witness_AcceptLatchesTheWord : (machine 8 []).status.busy = false := rfl

/-- Each of the two ways in which a word is illegal, at the least such word. -/
theorem witness_IllegalWordCompletesWithItsError :
    ((busy 0x100 [.engine]).status.busy = true ∧ (busy 0x100 [.engine]).inputs = [.engine] ∧
      (busy 0x100 [.engine]).cmdl.extractLsb' 8 24 ≠ 0) ∧
    ((busy 0x02 [.engine]).status.busy = true ∧ (busy 0x02 [.engine]).inputs = [.engine] ∧
      (busy 0x02 [.engine]).cmdl.extractLsb' 0 8 ∉ opcodes) := by decide

theorem witness_EveryStepAnswersAndCommandsComplete :
    ((busy 0x00 []).status.busy = true ∧ (busy 0x00 []).inputs = []) ∧
    ((busy 0x00 [.engine]).status.busy = true ∧ ∃ rest, (busy 0x00 [.engine]).inputs = .engine :: rest) :=
  ⟨⟨rfl, rfl⟩, rfl, [], rfl⟩

/-- A command that ends with an error, and one that ends without. -/
theorem witness_ErrorsAreThoseOfTheTable :
    ((machine 8 []).status.err = false ∧ exec .encTree (machine 8 []) = .next (after .encTree (machine 8 [])) ∧
      (after .encTree (machine 8 [])).status.err = true) ∧
    (aab.status.err = false ∧ exec .nop aab = .next (after .nop aab) ∧ (after .nop aab).status.err = false) :=
  ⟨⟨rfl, rfl, rfl⟩, rfl, rfl, rfl⟩

theorem witness_MissingPrerequisiteIsRefused :
    (machine 8 []).stage.freqV = false ∧ aabFreq.stage.treeV = false ∧ aabTree.stage.codesV = false ∧
    aabCodes.stage.hdrV = false ∧ (box 8 0).stage.tabV = false ∧ (boxTable 8 0).stage.dtreeV = false := by decide

/-- One byte more than IN_CAP. -/
theorem witness_InputBeyondCapacityIsRefused :
    ({ machine 16 [] with inLen := 17 } : State).inCap.bytes < ({ machine 16 [] with inLen := 17 } : State).inLen.toNat := by
  decide

theorem witness_FailedStageLeavesNoProduct :
    stageOf .encHeader = some .encHeader ∧ ({ aabCodes with outCap := 5 } : State).status.err = false ∧
    exec .encHeader { aabCodes with outCap := 5 } = .next (after .encHeader { aabCodes with outCap := 5 }) ∧
    (after .encHeader { aabCodes with outCap := 5 }).status.err = true ∧
    (after .encHeader { aabCodes with outCap := 5 }).status.errCode ≠ ErrCode.sequence.toByte ∧
    (after .encHeader { aabCodes with outCap := 5 }).status.errCode ≠ ErrCode.inLenRange.toByte := by
  refine ⟨rfl, rfl, exec_after _ _, ?_⟩
  decide +kernel

theorem witness_CompositesRunTheirStages : aab.status.err = false := rfl

/-- IN_LEN = IN_CAP, and the empty input. -/
theorem witness_EncFreqCountsTheInput :
    (machine 3 [0x61, 0x61, 0x62]).inLen.toNat = (machine 3 [0x61, 0x61, 0x62]).inCap.bytes ∧
    (machine 1 []).inLen.toNat ≤ (machine 1 []).inCap.bytes := by decide

/-- The mapping empty, of one symbol, and of two. -/
def oneFreq : State := { aabFreq with freq := (Table.fill 0).put 0x7A 3, nsym := 1 }

def noFreq : State := { aabFreq with freq := Table.fill 0, nsym := 0 }

/-- The symbols with a property, listed ascending. -/
theorem filter_symbols {p : Byte → Bool} {l : List Byte} (hs : l.Pairwise fun a b => a.toNat < b.toNat)
    (hp : ∀ sym, p sym = true ↔ sym ∈ l) : symbols.filter p = l := by
  have hn : l.Nodup := hs.imp fun h e => by rw [e] at h; exact Nat.lt_irrefl _ h
  refine List.Perm.eq_of_pairwise (le := fun a b => a.toNat < b.toNat) (fun a b _ _ h1 h2 => by omega)
    (symbols_sorted.filter _) hs ?_
  refine (List.perm_ext_iff_of_nodup (symbols_nodup.filter _) hn).2 fun sym => ?_
  simp [mem_symbols, hp]

theorem freq_aab (sym : Byte) :
    aabFreq.freq.at sym = if (0x62 : Byte) = sym then 1 else if (0x61 : Byte) = sym then 2 else 0 := by
  rw [show aabFreq.freq = ((Table.fill 0).put 0x61 2).put 0x62 1 from rfl, Table.at_put, Table.at_put,
    Table.at_fill]

theorem not_mem_pair {a b sym : Byte} (h1 : ¬ a = sym) (h2 : ¬ b = sym) : sym ∉ [a, b] := by
  simp only [List.mem_cons, List.not_mem_nil, or_false, not_or]
  exact ⟨fun e => h1 e.symm, fun e => h2 e.symm⟩

theorem not_mem_aab {a b sym : Byte} (h1 : ¬ a = sym) (h2 : ¬ b = sym) : sym ∉ [a, a, b] := by
  rw [List.mem_cons, not_or]
  exact ⟨fun e => h1 e.symm, not_mem_pair h1 h2⟩

theorem mapped_aab : mappedSymbols aabFreq.freq = [0x61, 0x62] := by
  refine filter_symbols (by decide) fun sym => ?_
  rw [freq_aab]
  by_cases h1 : (0x62 : Byte) = sym
  · subst h1; decide
  · by_cases h2 : (0x61 : Byte) = sym
    · subst h2; decide
    · rw [if_neg h1, if_neg h2]
      exact iff_of_false (by decide) (not_mem_pair h2 h1)

theorem mapped_one : mappedSymbols oneFreq.freq = [0x7A] := by
  refine filter_symbols (by decide) fun sym => ?_
  rw [show oneFreq.freq = (Table.fill 0).put 0x7A 3 from rfl, Table.at_put, Table.at_fill]
  by_cases h1 : (0x7A : Byte) = sym
  · subst h1; decide
  · rw [if_neg h1]
    exact iff_of_false (by decide) fun h => h1 (List.mem_singleton.1 h).symm

theorem mapped_none : mappedSymbols noFreq.freq = [] := by
  refine filter_symbols (by decide) fun sym => ?_
  rw [show noFreq.freq = Table.fill 0 from rfl, Table.at_fill]
  simp

theorem witness_EncTreeMergesTheTwoSmallest :
    (noFreq.stage.freqV = true ∧ mappedSymbols noFreq.freq = []) ∧
    (oneFreq.stage.freqV = true ∧ mappedSymbols oneFreq.freq = [0x7A]) ∧
    (aabFreq.stage.freqV = true ∧ 2 ≤ (mappedSymbols aabFreq.freq).length) :=
  ⟨⟨rfl, mapped_none⟩, ⟨rfl, mapped_one⟩, rfl, by rw [mapped_aab]; decide⟩

theorem witness_EncoderTreeShape :
    (oneFreq.stage.freqV = true ∧ (mappedSymbols oneFreq.freq).length = 1 ∧ 0x7A ∈ mappedSymbols oneFreq.freq) ∧
    (aabFreq.stage.freqV = true ∧ 2 ≤ (mappedSymbols aabFreq.freq).length) :=
  ⟨⟨rfl, by rw [mapped_one]; rfl, by rw [mapped_one]; simp⟩, rfl, by rw [mapped_aab]; decide⟩

theorem input_aab : aab.input = [0x61, 0x61, 0x62] := by decide +kernel

theorem counted_aab : (∀ sym, (aabFreq.freq.at sym).toNat = aab.input.count sym) ∧ aab.inputSymbols = [0x61, 0x62] := by
  rw [State.inputSymbols, input_aab]
  refine ⟨fun sym => ?_, filter_symbols (by decide) fun sym => by simp⟩
  rw [freq_aab]
  by_cases h1 : (0x62 : Byte) = sym
  · subst h1; decide
  · by_cases h2 : (0x61 : Byte) = sym
    · subst h2; decide
    · rw [if_neg h1, if_neg h2, List.count_eq_zero.2 (not_mem_aab h2 h1)]
      rfl

theorem memory_aab : aab.MemoryOk := ⟨by decide, by decide, by decide, by decide⟩

theorem status_aab : aab.StatusOk := ⟨by decide, by decide, by decide⟩

/-- The invariant holds of "aab" after ENC_TREE. -/
theorem ok_aabTree : aabTree.Ok := by
  refine ⟨⟨memory_aab.1, memory_aab.2, memory_aab.3, memory_aab.4⟩,
    ⟨status_aab.1, status_aab.2, status_aab.3⟩, ?_, ?_, ?_⟩
  · refine ⟨by decide, by decide, by decide, by decide, by decide, by decide, by decide, fun _ => by decide, fun _ => ?_⟩
    exact ⟨counted_aab.1, by rw [show aabTree.inputSymbols = aab.inputSymbols from rfl, counted_aab.2]; rfl⟩
  · refine ⟨by decide, by decide, by decide, by decide, by decide, by decide, by decide, fun _ _ => ?_, fun _ _ _ => ?_⟩
    · exact congrArg CodeLen.len (Table.at_fill _ _)
    · exact (congrArg (fun v => BitVec.getMsbD v _) (Table.at_fill (0 : BitVec 256) _)).trans (by simp)
  · refine ⟨fun _ => ?_, ?_, ?_, ?_, ?_, ?_, ?_, ?_⟩
    · decide +kernel
    all_goals intro h; exact absurd h (by decide)

theorem codeOf_aabCodes : aabCodes.codeOf 0x61 = [true] ∧ aabCodes.codeOf 0x62 = [false] := by decide +kernel

theorem leafPath_aab : aabTree.LeafPath [true] 0x61 ∧ aabTree.LeafPath [false] 0x62 :=
  ⟨⟨2, rfl, 0, rfl, rfl⟩, 2, rfl, 1, rfl, rfl⟩

theorem codeLen_aabCodes (sym : Byte) : aabCodes.codeLen.at sym = if (0x62 : Byte) = sym then ⟨1, true⟩ else
    if (0x61 : Byte) = sym then ⟨1, true⟩ else ⟨0, false⟩ := by
  rw [show aabCodes.codeLen = ((Table.fill ⟨0, false⟩).put 0x61 ⟨1, true⟩).put 0x62 ⟨1, true⟩ from rfl,
    Table.at_put, Table.at_put, Table.at_fill]

theorem present_aabCodes (sym : Byte) : aabCodes.present sym = true ↔ sym ∈ aab.input := by
  rw [State.present, codeLen_aabCodes, input_aab]
  by_cases h1 : (0x62 : Byte) = sym
  · subst h1; decide
  · by_cases h2 : (0x61 : Byte) = sym
    · subst h2; decide
    · rw [if_neg h1, if_neg h2]
      exact iff_of_false (by decide) (not_mem_aab h2 h1)

theorem codeBits_aabCodes (sym : Byte) (i : Nat) (h : (aabCodes.codeLen.at sym).len.toNat ≤ i) :
    (aabCodes.codeBits.at sym).getMsbD i = false := by
  have e2 : aabCodes.codeBits.at sym = if (0x62 : Byte) = sym then msbFirst 256 [false] else
      if (0x61 : Byte) = sym then msbFirst 256 [true] else 0 := by
    rw [show aabCodes.codeBits = ((Table.fill 0).put 0x61 (msbFirst 256 [true])).put 0x62 (msbFirst 256 [false])
      from rfl, Table.at_put, Table.at_put, Table.at_fill]
  rw [codeLen_aabCodes] at h
  rw [e2]
  by_cases hi : i < 256
  · split at h
    · rename_i h1
      rw [if_pos h1, getMsbD_msbFirst _ _ hi]
      exact List.getD_eq_default _ _ h
    · rename_i h1
      rw [if_neg h1]
      split at h
      · rename_i h2
        rw [if_pos h2, getMsbD_msbFirst _ _ hi]
        exact List.getD_eq_default _ _ h
      · rename_i h2
        rw [if_neg h2]
        simp
  · simp [BitVec.getMsbD, hi]

theorem absent_aabCodes (sym : Byte) (h : (aabCodes.codeLen.at sym).present = false) :
    (aabCodes.codeLen.at sym).len = 0 := by
  rw [codeLen_aabCodes] at h ⊢
  split at h
  · exact absurd h (by decide)
  · rename_i h1
    rw [if_neg h1]
    split at h
    · exact absurd h (by decide)
    · rename_i h2
      rw [if_neg h2]

/-- The invariant holds of "aab" after ENC_CODES. -/
theorem ok_aabCodes : aabCodes.Ok := by
  have h := ok_aabTree
  refine ⟨⟨memory_aab.1, memory_aab.2, memory_aab.3, memory_aab.4⟩,
    ⟨status_aab.1, status_aab.2, status_aab.3⟩, ?_, ?_, ?_⟩
  · refine ⟨by decide, by decide, by decide, by decide, by decide, by decide, by decide, fun _ => by decide, fun _ => ?_⟩
    exact h.stage.counted rfl
  · exact ⟨by decide, by decide, by decide, by decide, by decide, by decide, by decide, absent_aabCodes,
      codeBits_aabCodes⟩
  · refine ⟨fun _ => h.products.tree rfl, fun _ => ⟨present_aabCodes, fun sym hs => ?_⟩, ?_, ?_, ?_, ?_, ?_, ?_⟩
    · rw [show aabCodes.input = aab.input from rfl, input_aab] at hs
      have : sym = 0x61 ∨ sym = 0x62 := by simpa using hs
      rcases this with rfl | rfl
      · rw [codeOf_aabCodes.1]; exact leafPath_aab.1
      · rw [codeOf_aabCodes.2]; exact leafPath_aab.2
    all_goals intro h; exact absurd h (by decide)

theorem witness_EncoderTreeIsOptimal : aabTree.Ok ∧ aabTree.stage.treeV = true ∧
    2 ≤ aabTree.inputSymbols.length ∧
    (∀ sym ∈ aabTree.inputSymbols, aabTree.LeafPath (if sym = 0x61 then [true] else [false]) sym) ∧
    ∀ a ∈ aabTree.inputSymbols, ∀ b ∈ aabTree.inputSymbols, a ≠ b →
      ¬ (if a = 0x61 then [false] else [true, true] : Bits) <+: (if b = 0x61 then [false] else [true, true]) := by
  have hs : aabTree.inputSymbols = [0x61, 0x62] := counted_aab.2
  refine ⟨ok_aabTree, rfl, by rw [hs]; decide, ?_, ?_⟩
  · rw [hs]
    intro sym hm
    have : sym = 0x61 ∨ sym = 0x62 := by simpa using hm
    rcases this with rfl | rfl
    · exact leafPath_aab.1
    · exact leafPath_aab.2
  · rw [hs]
    decide

theorem witness_EncCodesRecordsTheTreePaths : aabTree.Ok ∧ aabTree.stage.treeV = true ∧ 0x61 ∈ aabTree.input ∧
    0x63 ∉ aabTree.input := by
  rw [show aabTree.input = aab.input from rfl, input_aab]
  exact ⟨ok_aabTree, rfl, by decide, by decide⟩

theorem witness_EncoderCodesArePrefixFree : aabCodes.Ok ∧ aabCodes.stage.codesV = true ∧ aabCodes.input ≠ [] := by
  rw [show aabCodes.input = aab.input from rfl, input_aab]
  exact ⟨ok_aabCodes, rfl, by decide⟩

theorem witness_CodeBitsReadMostSignificantFirst : aabCodes.Ok := ok_aabCodes

theorem symbols_aabCodes : aabCodes.presentSymbols = [0x61, 0x62] := by
  refine filter_symbols (by decide) fun sym => ?_
  rw [present_aabCodes, input_aab]
  simp

/-- "aab" after ENC_CODES, with OUT_CAP = `c + 1`. -/
def small (c : Fin (2 ^ 28)) : State := { aabCodes with outCap := c }

theorem symbols_small (c : Fin (2 ^ 28)) : (small c).presentSymbols = [0x61, 0x62] := symbols_aabCodes

theorem header_small (c : Fin (2 ^ 28)) :
    7 = 1 + ((small c).presentSymbols.map fun sym => 2 + ceil8 ((small c).codeLen.at sym).len.toNat).sum := by
  rw [symbols_small]
  have h (sym : Byte) : ((small c).codeLen.at sym).len = (aabCodes.codeLen.at sym).len := rfl
  simp only [h, codeLen_aabCodes]
  decide

/-- OUT_CAP = 7, the header's size. -/
theorem witness_EncHeaderWritesTheEntries : (small 6).stage.codesV = true ∧ (small 6).nsym.toNat ≤ 255 ∧
    7 = 1 + ((small 6).presentSymbols.map fun sym => 2 + ceil8 ((small 6).codeLen.at sym).len.toNat).sum ∧
    7 = (small 6).outCap.bytes := ⟨rfl, by decide, header_small 6, rfl⟩

theorem witness_AllSymbolsOverflowTheHeader :
    ({ aabCodes with nsym := 256 } : State).stage.codesV = true ∧ ({ aabCodes with nsym := 256 } : State).nsym.toNat = 256 ∧
    aabCodes.stage.freqV = true ∧ aabCodes.stage.treeV = true ∧ aabCodes.stage.tabV = false ∧
    aabCodes.stage.dtreeV = false ∧ aabCodes.stage.decV = false := by decide

theorem payload_aab : aabHeader.input.flatMap aabHeader.codeOf = [true, true, false] := by decide +kernel

/-- OUT_CAP one byte too small for the header, and for the container. -/
theorem witness_EncoderOverflowWritesNothing :
    ((small 5).stage.codesV = true ∧ (small 5).nsym.toNat ≤ 255 ∧
      7 = 1 + ((small 5).presentSymbols.map fun sym => 2 + ceil8 ((small 5).codeLen.at sym).len.toNat).sum ∧
      (small 5).outCap.bytes < 7) ∧
    (({ aabHeader with outCap := 6 } : State).stage.hdrV = true ∧
      8 = ({ aabHeader with outCap := 6 } : State).hdrLen.toNat +
        ceil8 (({ aabHeader with outCap := 6 } : State).input.flatMap
          ({ aabHeader with outCap := 6 } : State).codeOf).length ∧
      ({ aabHeader with outCap := 6 } : State).outCap.bytes < 8) :=
  ⟨⟨rfl, by decide, header_small 5, by decide⟩, rfl,
    (congrArg (fun c : Bits => 7 + ceil8 c.length) payload_aab).symm.trans rfl, by decide⟩

/-- The container fills OUT_MEM. -/
theorem witness_EncPayloadPacksTheCodes : aabHeader.stage.hdrV = true ∧
    [true, true, false] = aabHeader.input.flatMap aabHeader.codeOf ∧
    aabHeader.hdrLen.toNat + ceil8 [true, true, false].length = aabHeader.outCap.bytes :=
  ⟨rfl, payload_aab.symm, rfl⟩

/-- The same input with other limits, other memory beyond IN_LEN and other products. -/
theorem witness_EncodeDependsOnTheInputOnly :
    aab.status.err = false ∧ aabCodes.status.err = false ∧ aab.input = aabCodes.input ∧
    aab.inCap = aabCodes.inCap ∧ aab.outCap = aabCodes.outCap ∧ exec .encode aab = .next (after .encode aab) ∧
    exec .encode aabCodes = .next (after .encode aabCodes) :=
  ⟨rfl, rfl, rfl, rfl, rfl, exec_after _ _, exec_after _ _⟩

/-- The entries of `box`. -/
def boxEntries : List (Byte × Bits) := [(0x61, [true]), (0x62, [false])]

theorem entries_box (cap limit : Nat) (h : cap = 8) (hl : limit = 0 ∨ limit = 3) :
    (box cap limit).EntriesAt 1 boxEntries 7 := by
  subst h
  rcases hl with rfl | rfl <;>
  exact ⟨by decide +kernel, by decide +kernel, by decide +kernel, by decide +kernel, by decide +kernel,
    by decide +kernel, by decide +kernel, by decide +kernel, rfl⟩

/-- Two entries, one entry with an empty code, and none. -/
theorem witness_DecTableReadsTheHeader :
    ((box 8 0).inLen.toNat = (box 8 0).inCap.bytes ∧ ((box 8 0).inByte 0).toNat = boxEntries.length ∧
      (box 8 0).EntriesAt 1 boxEntries 7 ∧ (boxEntries.map Prod.fst).Nodup ∧ ∀ e ∈ boxEntries, e.2 ≠ []) ∧
    (3 ≤ (machine 3 [0x01, 0x41, 0x00]).inCap.bytes ∧
      ((machine 3 [0x01, 0x41, 0x00]).inByte 0).toNat = [((0x41 : Byte), ([] : Bits))].length ∧
      (machine 3 [0x01, 0x41, 0x00]).EntriesAt 1 [(0x41, [])] 3) ∧
    ((machine 1 [0x00]).inLen.toNat = 1 ∧ ((machine 1 [0x00]).inByte 0).toNat = 0 ∧
      (machine 1 [0x00]).EntriesAt 1 [] 1) := by
  refine ⟨⟨by decide, by decide +kernel, entries_box 8 0 rfl (.inl rfl), by decide, by decide⟩,
    ⟨by decide, by decide +kernel, ?_⟩, by decide, by decide +kernel, rfl⟩
  exact ⟨by decide +kernel, by decide +kernel, by decide +kernel, rfl, rfl⟩

/-- Every check of an entry that fails, at its least input: no byte; an entry of one byte; a zero length among two
entries; a missing code byte; a symbol twice. -/
theorem witness_FirstBadEntryEndsDecTable :
    (machine 1 []).inLen.toNat = 0 ∧
    (((machine 2 [0x01, 0x41]).inByte 0).toNat = 1 ∧ (machine 2 [0x01, 0x41]).inLen.toNat < 1 + 2 ∧
      (machine 2 [0x01, 0x41]).EntriesAt 1 [] 1) ∧
    (1 + 2 ≤ (machine 3 [0x02, 0x61, 0x00]).inLen.toNat ∧ (machine 3 [0x02, 0x61, 0x00]).inByte (1 + 1) = 0 ∧
      ((machine 3 [0x02, 0x61, 0x00]).inByte 0).toNat = 2) ∧
    (1 + 2 ≤ (machine 3 [0x01, 0x41, 0x01]).inLen.toNat ∧ (machine 3 [0x01, 0x41, 0x01]).inByte (1 + 1) ≠ 0 ∧
      (machine 3 [0x01, 0x41, 0x01]).inLen.toNat <
        1 + 2 + ceil8 ((machine 3 [0x01, 0x41, 0x01]).inByte (1 + 1)).toNat) ∧
    ([((0x61 : Byte), [false])].length < ((machine 8 [0x02, 0x61, 0x01, 0x00, 0x61, 0x01, 0x80]).inByte 0).toNat ∧
      (machine 8 [0x02, 0x61, 0x01, 0x00, 0x61, 0x01, 0x80]).EntriesAt 1 [(0x61, [false])] 4 ∧
      4 + 2 + ceil8 ((machine 8 [0x02, 0x61, 0x01, 0x00, 0x61, 0x01, 0x80]).inByte (4 + 1)).toNat =
        (machine 8 [0x02, 0x61, 0x01, 0x00, 0x61, 0x01, 0x80]).inLen.toNat ∧
      (machine 8 [0x02, 0x61, 0x01, 0x00, 0x61, 0x01, 0x80]).inByte 4 ∈ [((0x61 : Byte), [false])].map Prod.fst) := by
  refine ⟨rfl, ⟨by decide +kernel, by decide, rfl⟩, by decide +kernel, by decide +kernel, by decide +kernel, ?_,
    by decide +kernel, by decide +kernel⟩
  exact ⟨by decide +kernel, by decide +kernel, by decide +kernel, by decide +kernel, rfl⟩

theorem codeOf_boxTable : (boxTable 8 0).codeOf 0x61 = [true] ∧ (boxTable 8 0).codeOf 0x62 = [false] := by
  decide +kernel

theorem witness_DecTreeLeadsCodesToSymbols : (boxTable 8 0).stage.tabV = true ∧
    (boxTable 8 0).order.Pairwise fun a b =>
      ¬ (boxTable 8 0).codeOf a <+: (boxTable 8 0).codeOf b ∧ ¬ (boxTable 8 0).codeOf b <+: (boxTable 8 0).codeOf a :=
  ⟨rfl, by decide +kernel⟩

/-- The table of vector Y7: a = `0`, b = `00`. -/
def clash : State := ((boxTable 8 0).setCode 0x61 [false]).setCode 0x62 [false, false]

theorem witness_ConflictingCodesEndDecTree : clash.stage.tabV = true ∧ clash.order = [0x61] ++ 0x62 :: [] ∧
    (∃ a ∈ [(0x61 : Byte)], clash.codeOf a <+: clash.codeOf 0x62 ∨ clash.codeOf 0x62 <+: clash.codeOf a) :=
  ⟨rfl, rfl, 0x61, by decide, by decide +kernel⟩

/-- The single code z = `000` and a payload of eight zero bits: two codes and two bits more. -/
def short : State :=
  { machine 8 [0x01, 0x7A, 0x03, 0x00, 0x00] with
    arena := [.internal (some 1) none 0, .internal (some 2) none 0, .internal (some 3) none 0, .leaf 0x7A 0]
    root := some 0, hdrLen := 4, order := [0x7A], nsym := 1
    stage := { Stage.none with tabV := true, dtreeV := true } }

theorem spells_boxTree (cap limit : Nat) :
    (boxTree cap limit).LeafPath [true] 0x61 ∧ (boxTree cap limit).LeafPath [false] 0x62 :=
  ⟨⟨0, rfl, 1, rfl, rfl⟩, 0, rfl, 2, rfl, rfl⟩

/-- The symbols "aab" under their limit; all eight payload bits without it; and payload bits that end within a
code. -/
theorem witness_DecPayloadEmitsTheSymbols :
    ((boxTree 8 3).stage.dtreeV = true ∧ (boxTree 8 3).rootLeaf = none ∧
      (boxTree 8 3).Spells [0x61, 0x61, 0x62] [true, true, false] ∧ (boxTree 8 3).InnerPath [] 0 ∧
      (boxTree 8 3).BitsAt (boxTree 8 3).payloadStart [true, true, false] ∧
      3 ≤ (boxTree 8 3).payloadSize ∧ (boxTree 8 3).limsnap = true ∧ 3 = (boxTree 8 3).outLimit.toNat) ∧
    ((boxTree 3 0).Spells [0x61] [true] ∧ (boxTree 3 0).limsnap = false) ∧
    (short.stage.dtreeV = true ∧ short.rootLeaf = none ∧
      short.Spells [0x7A, 0x7A] [false, false, false, false, false, false] ∧
      short.InnerPath [false, false] 2 ∧ 2 ≤ short.outCap.bytes ∧
      short.BitsAt short.payloadStart [false, false, false, false, false, false, false, false] ∧
      8 = short.payloadSize ∧ short.limsnap = false) := by
  have h := spells_boxTree 8 3
  have hz : short.LeafPath [false, false, false] 0x7A := ⟨0, rfl, 3, rfl, rfl⟩
  refine ⟨⟨rfl, rfl, ?_, ⟨0, rfl, rfl, rfl⟩, ?_, by decide, rfl, rfl⟩, ⟨?_, rfl⟩, rfl, rfl, ?_, ⟨0, rfl, rfl, rfl⟩,
    by decide, ?_, by decide, rfl⟩
  · exact ⟨_, _, rfl, h.1, _, _, rfl, h.1, _, _, rfl, h.2, rfl⟩
  · show ∀ i, i < 3 → _
    decide +kernel
  · exact ⟨_, _, rfl, (spells_boxTree 3 0).1, rfl⟩
  · exact ⟨_, _, rfl, hz, _, _, rfl, hz, rfl⟩
  · show ∀ i, i < 8 → _
    decide +kernel

/-- A leaf as ROOT, after the header of vector D11. -/
def leafRoot (cap limit : Nat) : State :=
  { machine cap [0x01, 0x41, 0x00] limit with
    arena := [.leaf 0x41 0], root := some 0, hdrLen := 3, order := [0x41], nsym := 1
    stage := { Stage.none with tabV := true, dtreeV := true } }

/-- A limit of OUT_CAP bytes, of one more, and none. -/
theorem witness_LeafRootEmitsTheLimit :
    ((leafRoot 5 5).stage.dtreeV = true ∧ (leafRoot 5 5).rootLeaf = some 0x41 ∧
      5 = (if (leafRoot 5 5).limsnap then (leafRoot 5 5).outLimit.toNat else 0) ∧ 5 = (leafRoot 5 5).outCap.bytes) ∧
    ((leafRoot 4 5).rootLeaf = some 0x41 ∧
      5 = (if (leafRoot 4 5).limsnap then (leafRoot 4 5).outLimit.toNat else 0) ∧ (leafRoot 4 5).outCap.bytes < 5) ∧
    0 = (if (leafRoot 4 0).limsnap then (leafRoot 4 0).outLimit.toNat else 0) := by decide

/-- The tree of A = `0`, and a payload that begins with 1 (vector Y10). -/
def oneChild : State :=
  { machine 8 [0x01, 0x41, 0x01, 0x00, 0x80] with
    arena := [.internal (some 1) none 0, .leaf 0x41 0], root := some 0, hdrLen := 4, order := [0x41], nsym := 1
    stage := { Stage.none with tabV := true, dtreeV := true } }

theorem witness_MissingChildEndsDecPayload : oneChild.stage.dtreeV = true ∧ oneChild.rootLeaf = none ∧
    oneChild.Spells [] [] ∧ oneChild.InnerPath [] 0 ∧ childAt oneChild.arena 0 true = none ∧
    oneChild.limsnap = false ∧ oneChild.BitsAt oneChild.payloadStart ([] ++ [] ++ [true]) ∧
    1 ≤ oneChild.payloadSize := by
  refine ⟨rfl, rfl, rfl, ⟨0, rfl, rfl, rfl⟩, rfl, rfl, ?_, by decide⟩
  show ∀ i, i < 1 → _
  decide +kernel

/-- A fourth symbol, and OUT_CAP = 3. -/
theorem witness_DecoderOverflowKeepsTheOutput :
    ({ boxTree 8 0 with outCap := 2 } : State).stage.dtreeV = true ∧
    ({ boxTree 8 0 with outCap := 2 } : State).rootLeaf = none ∧
    ({ boxTree 8 0 with outCap := 2 } : State).Spells [0x61, 0x61, 0x62] [true, true, false] ∧
    ({ boxTree 8 0 with outCap := 2 } : State).LeafPath [false] 0x62 ∧
    3 = ({ boxTree 8 0 with outCap := 2 } : State).outCap.bytes ∧
    ({ boxTree 8 0 with outCap := 2 } : State).limsnap = false ∧
    ({ boxTree 8 0 with outCap := 2 } : State).BitsAt
      ({ boxTree 8 0 with outCap := 2 } : State).payloadStart ([true, true, false] ++ [false]) ∧
    4 ≤ ({ boxTree 8 0 with outCap := 2 } : State).payloadSize := by
  have h := spells_boxTree 8 0
  refine ⟨rfl, rfl, ⟨_, _, rfl, h.1, _, _, rfl, h.1, _, _, rfl, h.2, rfl⟩, h.2, rfl, rfl, ?_, by decide⟩
  show ∀ i, i < 4 → _
  decide +kernel

/-- "aab" under its limit, and all eight payload bits without it. -/
theorem witness_DecodeReadsTheContainer :
    ((box 8 3).status.err = false ∧ (box 8 3).inLen.toNat = (box 8 3).inCap.bytes ∧
      ((box 8 3).inByte 0).toNat = boxEntries.length ∧ (box 8 3).EntriesAt 1 boxEntries 7 ∧
      (boxEntries.map Prod.fst).Nodup ∧ (∀ e ∈ boxEntries, e.2 ≠ []) ∧
      (boxEntries.Pairwise fun a b => ¬ a.2 <+: b.2 ∧ ¬ b.2 <+: a.2) ∧
      (∀ e ∈ [((0x61 : Byte), [true]), (0x61, [true]), (0x62, [false])], e ∈ boxEntries) ∧
      (box 8 3).BitsAt (8 * 7) [true, true, false] ∧ 3 ≤ 8 * ((box 8 3).inLen.toNat - 7) ∧
      (box 8 3).limsnap = true ∧ 3 = (box 8 3).outLimit.toNat) ∧
    ((box 8 0).EntriesAt 1 boxEntries 7 ∧ (box 8 0).limsnap = false ∧
      (box 8 0).BitsAt (8 * 7) [true, true, false, false, false, false, false, false] ∧
      8 = 8 * ((box 8 0).inLen.toNat - 7) ∧ 8 = (box 8 0).outCap.bytes) := by
  refine ⟨⟨rfl, by decide, by decide +kernel, entries_box 8 3 rfl (.inr rfl), by decide, by decide, by decide,
    by decide, ?_, by decide, rfl, rfl⟩, entries_box 8 0 rfl (.inl rfl), rfl, ?_, by decide, by decide⟩
  · show ∀ i, i < 3 → _
    decide +kernel
  · show ∀ i, i < 8 → _
    decide +kernel

/-- Vector E6 through ENCODE: the container of "aab" and its sizes. -/
theorem test_encode : (after .encode aab).status.toWord = 0x00000002 ∧
    (after .encode aab).output 8 = [0x02, 0x61, 0x01, 0x80, 0x62, 0x01, 0x00, 0xC0] ∧
    (after .encode aab).outLen = 8 ∧ (after .encode aab).payloadBits = 3 ∧ (after .encode aab).resid = 5 ∧
    (after .encode aab).stage.toWord = 0x01F ∧ (after .encode aab).status.err = false := by decide +kernel

theorem encoded_aab : aab.status.err = false ∧ exec .encode aab = .next (after .encode aab) ∧
    (after .encode aab).status.err = false := by
  exact ⟨rfl, exec_after _ _, test_encode.2.2.2.2.2.2⟩

/-- Where ENCODE ends without error, the container its first three stages make ready fits. -/
theorem front_fits {s : State} (hs : s.status.err = false) (hlen : s.inLen.toNat ≤ s.inCap.bytes)
    (ok : (after .encode s).status.err = false) :
    ∃ t, execChain [.encFreq, .encTree, .encCodes] s = .next t ∧ t.container.length ≤ t.outCap.bytes := by
  obtain ⟨t, hrun, -, h1, h2, h3, -⟩ := runEncode_cases s hlen
  refine ⟨t.finish, execChain_front hs hrun, Nat.le_of_not_lt fun h => ?_⟩
  replace h : t.outCap.bytes < t.container.length := h
  replace ok : (Result.completed (runEncode s)).status.err = false := ok
  by_cases hn : t.nsym.toNat ≤ 255
  · by_cases hh : t.headerSize ≤ t.outCap.bytes
    · rw [h3 hn hh h] at ok
      exact absurd ok (by simp [completed_some, State.takeError, State.finish])
    · rw [h2 hn (Nat.lt_of_not_le hh)] at ok
      exact absurd ok (by simp [completed_some, State.takeError, State.finish])
  · rw [h1 (Nat.lt_of_not_le hn)] at ok
    exact absurd ok (by simp [completed_some, State.takeError, State.finish])

/-- The paths to the leaves of "aab". -/
def codeAab (sym : Byte) : Bits := if sym = 0x61 then [true] else [false]

/-- A container that fills OUT_MEM, by the tree of the counts and by the stages run before. -/
theorem witness_EncodeWritesTheContainer : aab.status.err = false ∧ aab.inLen.toNat ≤ aab.inCap.bytes ∧
    aab.inputSymbols.length ≤ 255 ∧
    ((∀ sym, (aabFreq.freq.at sym).toNat = aab.input.count sym) ∧
      (∀ sym ∈ aab.inputSymbols, ∃ r, (buildTree aabFreq.freq).2 = some r ∧
        LeadsTo (buildTree aabFreq.freq).1 r (codeAab sym) sym) ∧
      1 + (aab.inputSymbols.map fun sym => 2 + ceil8 (codeAab sym).length).sum +
        ceil8 (aab.encodedLength fun sym => (codeAab sym).length) = aab.outCap.bytes) ∧
    ∃ t, execChain [.encFreq, .encTree, .encCodes] aab = .next t ∧ t.container.length ≤ t.outCap.bytes := by
  have ht : (aabTree.arena, aabTree.root) = buildTree aabFreq.freq := ok_aabTree.products.tree rfl
  refine ⟨rfl, by decide, by rw [counted_aab.2]; decide, ⟨counted_aab.1, ?_, ?_⟩,
    front_fits rfl (by decide) encoded_aab.2.2⟩
  · rw [counted_aab.2, ← ht]
    intro sym hm
    have : sym = 0x61 ∨ sym = 0x62 := by simpa using hm
    rcases this with rfl | rfl
    · exact leafPath_aab.1
    · exact leafPath_aab.2
  · rw [State.encodedLength, counted_aab.2, input_aab]
    decide

theorem input_box (limit : Nat) (h : limit = 0 ∨ limit = 3) :
    (box 8 limit).input = (after .encode aab).output (after .encode aab).outLen.toNat := by
  rw [test_encode.2.2.1, show (8 : Word).toNat = 8 from rfl, test_encode.2.1]
  rcases h with rfl | rfl <;> decide +kernel

theorem witness_DecoderAcceptsEveryContainer : aab.status.err = false ∧
    exec .encode aab = .next (after .encode aab) ∧ (after .encode aab).status.err = false ∧
    (box 8 0).status.err = false ∧ (box 8 0).inLen.toNat ≤ (box 8 0).inCap.bytes ∧
    (box 8 0).input = (after .encode aab).output (after .encode aab).outLen.toNat :=
  ⟨encoded_aab.1, encoded_aab.2.1, encoded_aab.2.2, rfl, by decide, input_box 0 (.inl rfl)⟩

theorem witness_DecodeInvertsEncode : aab.status.err = false ∧
    exec .encode aab = .next (after .encode aab) ∧ (after .encode aab).status.err = false ∧
    (box 8 3).inLen.toNat ≤ (box 8 3).inCap.bytes ∧
    (box 8 3).input = (after .encode aab).output (after .encode aab).outLen.toNat ∧
    (box 8 3).limsnap = true ∧ (box 8 3).outLimit.toNat = aab.input.length ∧
    aab.input.length ≤ (box 8 3).outCap.bytes :=
  ⟨encoded_aab.1, encoded_aab.2.1, encoded_aab.2.2, by decide, input_box 3 (.inr rfl), rfl,
    by rw [input_aab]; rfl, by rw [input_aab]; decide⟩

theorem witness_PadBitsRepeatTheLeftmostSymbol : aab.status.err = false ∧
    exec .encode aab = .next (after .encode aab) ∧ (after .encode aab).status.err = false ∧ aab.input ≠ [] ∧
    (box 8 0).inLen.toNat ≤ (box 8 0).inCap.bytes ∧
    (box 8 0).input = (after .encode aab).output (after .encode aab).outLen.toNat ∧ (box 8 0).limsnap = false ∧
    aab.input.length + (after .encode aab).resid.toNat / 1 = (box 8 0).outCap.bytes :=
  ⟨encoded_aab.1, encoded_aab.2.1, encoded_aab.2.2, by rw [input_aab]; decide, by decide, input_box 0 (.inl rfl),
    rfl, by rw [input_aab, test_encode.2.2.2.2.1]; rfl⟩

/-- Nine bits: the second byte holds one of them and seven pad bits. -/
theorem witness_PackIsMostSignificantBitFirst :
    1 < ceil8 [true, false, true, false, true, false, true, false, true].length ∧
    pack [true, false, true, false, true, false, true, false, true] = [0xAA, 0x80] := by decide

/-- The pad bits set. -/
theorem witness_ReadBitsTakesBackWhatPackWrote :
    (∀ i, i < [true, false, true].length → ((fun _ => (0xBF : Byte)) (5 + i / 8)).getLsbD (7 - i % 8) =
      ((pack [true, false, true]).getD (i / 8) 0).getLsbD (7 - i % 8)) ∧
    readBits (fun _ => 0xBF) 5 3 = [true, false, true] := by decide

/-- Each clause of a refusal, at a boundary, and an access next to it that is answered. -/
theorem witness_RefusedAccessesGetBusErr :
    (machine 8 []).Refuses (.read .b2 0x00000000) ∧ (machine 8 []).Refuses (.write .b4 0x00000002 0) ∧
    (machine 8 []).Refuses (.read .b2 0x40000001) ∧ (machine 8 []).Refuses (.write .b1 0x40000008 0) ∧
    (machine 8 []).Refuses (.read .b4 0x80000008) ∧ (machine 8 []).Refuses (.write .b1 0x80000000 0) ∧
    (machine 8 []).Refuses (.read .b1 0xC0000000) ∧ (machine 8 []).Refuses (.read .b4 0xFFFFFFFC) ∧
    ¬ (machine 8 []).Refuses (.read .b4 0x3FFFFFFC) ∧ ¬ (machine 8 []).Refuses (.write .b1 0x40000007 0) ∧
    ¬ (machine 8 []).Refuses (.read .b4 0x80000004) := by
  refine ⟨?_, ?_, ?_, ?_, ?_, ?_, ?_, ?_, ?_, ?_, ?_⟩ <;> simp only [State.Refuses] <;> decide

/-- The last offset below the map's first gap's end, and the last of the region. -/
theorem witness_RegisterMapIsExact :
    (∀ r : Reg, r.offset ≠ 0x0040) ∧ 0x0040 % 4 = 0 ∧ (∀ r : Reg, r.offset ≠ 0x3FFFFFFC) ∧ 0x3FFFFFFC % 4 = 0 := by
  refine ⟨fun r => ?_, rfl, fun r => ?_, rfl⟩ <;>
  · cases r <;> simp only [Reg.offset] <;> omega

theorem witness_RegisterReadsHaveNoSideEffect : (machine 8 []).status.busy = false ∧
    ((busy 0 []).status.busy = true ∧ (busy 0 []).StatusOk) := ⟨rfl, rfl, by decide, by decide, by decide⟩

theorem witness_RegisterWordsHaveTheirLayout : aabCodes.Ok ∧ (aabCodes.readReg .nodes).toNat = 3 :=
  ⟨ok_aabCodes, by decide⟩

theorem witness_RegisterWritesStoreOrAreIgnored : (machine 8 []).status.busy = false ∧
    Reg.id ≠ .ctrl ∧ Reg.id ≠ .cmd ∧ Reg.id ≠ .status ∧ Reg.id ≠ .inLen ∧ Reg.id ≠ .outLimit := by decide

/-- The last word of IN_MEM. -/
theorem witness_WritesWhileBusy : (busy 0 []).status.busy = true ∧ 4 % Size.b4.bytes = 0 ∧
    4 + Size.b4.bytes = (busy 0 []).inCap.bytes := by decide

theorem witness_InputWritesAreLittleEndian : (machine 8 []).status.busy = false ∧ 4 % Size.b4.bytes = 0 ∧
    4 + Size.b4.bytes = (machine 8 []).inCap.bytes := by decide

theorem witness_MemoryReadsAreLittleEndian : 6 % Size.b2.bytes = 0 ∧
    6 + Size.b2.bytes = (machine 8 []).inCap.bytes ∧ 6 + Size.b2.bytes = (machine 8 []).outCap.bytes ∧
    (machine 8 []).status.busy = false ∧ (busy 0 []).status.busy = true := by decide

theorem witness_HostNeverWritesProducts :
    aabFreq.stage ≠ (transact (writesReg .inLen 0) aabFreq).stage := by decide

theorem witness_RunningCommandIgnoresCtrl : (busy 0 []).status.busy = true ∧
    engineStep (busy 0 []) = .next (after .nop (busy 0 [])) := ⟨rfl, rfl⟩

theorem witness_InterruptFollowsStatus : exec .nop aab = .next (after .nop aab) ∧
    (1 : Word).getLsbD 0 = true ∧ (0 : Word).getLsbD 0 = false ∧
    ((6 : Word).getLsbD 1 = true ∧ (6 : Word).getLsbD 2 = true) ∧
    ((2 : Word).getLsbD 2 = false ∧ (after .encTree (machine 8 [])).status.err = true) ∧
    (busy 0 []).status.busy = true := ⟨rfl, rfl, rfl, ⟨rfl, rfl⟩, ⟨rfl, rfl⟩, rfl⟩

theorem witness_ResetSetsEveryRegister : ({ aabCodes with inputs := [.reset] } : State).inputs = .reset :: [] := rfl

theorem witness_StepKeepsMemoryInBounds : aab.MemoryOk ∧ step aab = .next aab := ⟨memory_aab, rfl⟩

theorem witness_StepKeepsStatusLegal : (busy 0 []).StatusOk ∧ step (busy 0 []) = .next (after .nop (busy 0 [])) :=
  ⟨⟨by decide, by decide, by decide⟩, rfl⟩

/-- A state that holds products of three stages. -/
theorem witness_StepKeepsTheMachineConsistent : aabCodes.Ok ∧ step aabCodes = .next aabCodes := ⟨ok_aabCodes, rfl⟩

end Sys2Proof.Tests
end

section
/-! SUPPORT. The invariant of HUFF-CORE without STATUS and ERR_INFO, and what of it the STAGE bits alone decide
(10_state.md R29, 40_common.md R136, R137). -/

namespace Sys2Proof.Machine

/-! ### The invariant of what the stages make -/

/-- The part of the invariant that speaks of memories, STAGE and products: all of `State.Ok` but STATUS and
ERR_INFO, which stages do not touch. -/
structure State.Consistent (s : State) : Prop where
  memory   : s.MemoryOk
  stage    : s.StageOk
  ranges   : s.RangesOk
  products : s.ProductsOk

theorem State.Ok.consistent {s : State} (h : s.Ok) : s.Consistent :=
  ⟨h.memory, h.stage, h.ranges, h.products⟩

theorem State.Consistent.ok {s : State} (h : s.Consistent) (hs : s.StatusOk) : s.Ok :=
  ⟨h.memory, hs, h.stage, h.ranges, h.products⟩

/-- What bits spell depends on the tree only. -/
theorem spells_congr {s t : State} (ha : t.arena = s.arena) (hr : t.root = s.root) (l : List Byte)
    (c : Bits) : t.Spells l c ↔ s.Spells l c := by
  induction l generalizing c with
  | nil => exact Iff.rfl
  | cons sym l ih => simp only [State.Spells, State.LeafPath, ha, hr, ih]

/-- No product is made from CTRL, STATUS, ERR_INFO, OUT_LIMIT, CMDL, LIMSNAP or the model's own fields of the port and
its moves: they may change. -/
theorem State.Consistent.hostSide {s : State} (h : s.Consistent) {c : Ctrl} {st : Status}
    {e w cw : Word} {b : Bool} {is : List Input} {r : Option Reply} {n : Nat} :
    ({ s with ctrl := c, status := st, errInfo := e, outLimit := w, cmdl := cw, limsnap := b,
              inputs := is, reply := r, draws := n } : State).Consistent where
  memory := { h.memory with }
  stage := { h.stage with }
  ranges := { h.ranges with }
  products := { h.products with
    table := fun hv => by
      obtain ⟨l, h1, h2, h3, h4⟩ := h.products.table hv
      refine ⟨l, h1, h2, (entriesAt_congr ?_ ?_ _ _ _).2 h3, h4⟩ <;> rfl
    decoded := fun hv hroot => by
      obtain ⟨l, c, d, k, h1, h2⟩ := h.products.decoded hv hroot
      refine ⟨l, c, d, k, (spells_congr ?_ ?_ _ _).2 h1, h2⟩ <;> rfl }

/-- With STAGE = 0 no product is vouched for (R29, R80). -/
theorem consistent_of_stage_none {s : State} (hm : s.MemoryOk) (hr : s.RangesOk)
    (hs : s.stage = Stage.none) : s.Consistent where
  memory := hm
  stage := by constructor <;> simp [hs, Stage.none]
  ranges := hr
  products := by constructor <;> simp [hs, Stage.none]

/-! ### STAGE alone (R136, R137) -/

/-- What `State.StageOk` says of the STAGE bits alone: each stage after the one before it, in one chain. -/
structure Stage.Chained (g : Stage) : Prop where
  tree    : g.treeV = true → g.freqV = true
  codes   : g.codesV = true → g.treeV = true
  hdr     : g.hdrV = true → g.codesV = true
  pay     : g.payV = true → g.hdrV = true
  dtree   : g.dtreeV = true → g.tabV = true
  dec     : g.decV = true → g.dtreeV = true
  oneSide : ¬ (g.freqV = true ∧ g.tabV = true)

/-- What STAGE vouches for holds of its bits. -/
theorem State.StageOk.chained {s : State} (h : s.StageOk) : s.stage.Chained := { h with }

/-- An invalidation clears with each bit those after it. -/
theorem Stage.Chained.invalidate {g : Stage} (h : g.Chained) (op : StageOp) :
    (g.invalidate op).Chained := by
  obtain ⟨h1, h2, h3, h4, h5, h6, h7⟩ := h
  cases op <;> constructor <;> simp_all [Stage.invalidate, Stage.none]

/-- A stage's bit may be set where its prerequisite is and its invalidation was made. -/
theorem Stage.Chained.mark {g : Stage} (h : g.Chained) {op : StageOp} (hm : g.meets op = true) :
    ((g.invalidate op).mark op).Chained := by
  obtain ⟨h1, h2, h3, h4, h5, h6, h7⟩ := h
  cases op <;> constructor <;> simp_all [Stage.invalidate, Stage.mark, Stage.meets, Stage.none]

/-- No invalidation clears the prerequisite of its own stage. -/
theorem Stage.meets_invalidate {g : Stage} {op : StageOp} (h : g.meets op = true) :
    (g.invalidate op).meets op = true := by
  cases op <;> exact h

end Sys2Proof.Machine
end

section
/-! SUPPORT. Invalidation (40_common.md R137) and the stage wrapper (R138) keep the invariant. -/

namespace Sys2Proof.Machine

/-! ### Invalidation keeps the invariant (R137, R138) -/

variable {s t : State}

theorem State.RangesOk.resetFreq (h : s.RangesOk) : s.resetFreq.RangesOk :=
  { h with nsym := by simp }

theorem State.RangesOk.resetTree (h : s.RangesOk) : s.resetTree.RangesOk :=
  { h with nodes := by simp [State.nodes] }

theorem State.RangesOk.resetCode (h : s.RangesOk) : s.resetCode.RangesOk :=
  { h with
    order := by simp
    absentLen := by simp [CodeLen.absent]
    codeTail := by simp }

theorem State.RangesOk.resetHdr (h : s.RangesOk) : s.resetHdr.RangesOk :=
  { h with hdrLen := by simp, outLen := by simp }

theorem State.RangesOk.resetPay (h : s.RangesOk) : s.resetPay.RangesOk :=
  { h with outLen := by simp, payloadBits := by simp, resid := by simp }

theorem State.RangesOk.setStage (h : s.RangesOk) (g : Stage) : ({ s with stage := g } : State).RangesOk :=
  { h with }

theorem State.RangesOk.invalidate (h : s.RangesOk) (op : StageOp) : (s.invalidate op).RangesOk := by
  cases op with
  | encFreq => exact h.resetFreq.resetTree.resetCode.resetHdr.resetPay.setStage _
  | encTree => exact h.resetTree.resetCode.resetHdr.resetPay.setStage _
  | encCodes => exact h.resetCode.resetHdr.resetPay.setStage _
  | encHeader => exact h.resetHdr.resetPay.setStage _
  | encPayload => exact h.resetPay.setStage _
  | decTable => exact h.resetFreq.resetTree.resetCode.resetHdr.resetPay.setStage _
  | decTree => exact h.resetTree.resetPay.setStage _
  | decPayload => exact h.resetPay.setStage _

theorem State.MemoryOk.congr (h : s.MemoryOk) (hi : t.inMem = s.inMem) (ho : t.outMem = s.outMem)
    (hic : t.inCap = s.inCap) (hoc : t.outCap = s.outCap) : t.MemoryOk :=
  ⟨hi ▸ h.inWf, ho ▸ h.outWf, hi ▸ hic ▸ h.inWithin, ho ▸ hoc ▸ h.outWithin⟩

theorem State.MemoryOk.invalidate (h : s.MemoryOk) (op : StageOp) : (s.invalidate op).MemoryOk :=
  h.congr (by simp) (by simp) (by simp) (by simp)

/-- `State.StageOk` from its parts: the bits alone, IN_LEN within IN_CAP, and the counts of the input. -/
theorem State.StageOk.of_chained (hc : t.stage.Chained)
    (hr : t.stage.freqV = true ∨ t.stage.tabV = true → t.inLen.toNat ≤ t.inCap.bytes)
    (hn : t.stage.freqV = true → (∀ sym, (t.freq.at sym).toNat = t.input.count sym) ∧
      t.nsym.toNat = t.inputSymbols.length) : t.StageOk :=
  { hc with inRange := hr, counted := hn }

/-- An invalidation that leaves FREQ_V leaves the counts. -/
theorem freqKept_invalidate {op : StageOp} (hv : (s.invalidate op).stage.freqV = true) :
    (s.invalidate op).freq = s.freq ∧ (s.invalidate op).nsym = s.nsym ∧ s.stage.freqV = true := by
  cases op with
  | encFreq => exact nomatch hv
  | decTable => exact nomatch hv
  | _ => exact ⟨rfl, rfl, hv⟩

theorem State.StageOk.invalidate (h : s.StageOk) (op : StageOp) : (s.invalidate op).StageOk := by
  refine .of_chained (by simpa using h.chained.invalidate op) ?_ ?_
  · intro hv
    have hv' : s.stage.freqV = true ∨ s.stage.tabV = true := by
      cases op <;> simp_all [Stage.invalidate, Stage.none]
    simpa using h.inRange hv'
  · intro hv
    obtain ⟨hf, hn, hv'⟩ := freqKept_invalidate hv
    have hin := (hostSideKept_invalidate s op).input
    simpa only [State.inputSymbols, hf, hn, hin] using h.counted hv'

/-- Where ENC_FREQ's bit is set, no decoder bit is. -/
theorem State.StageOk.noDecoder (h : s.StageOk) (hf : s.stage.freqV = true) :
    ¬ s.stage.tabV = true ∧ ¬ s.stage.dtreeV = true ∧ ¬ s.stage.decV = true := by
  have htab : ¬ s.stage.tabV = true := fun hv => h.oneSide ⟨hf, hv⟩
  have hdtree : ¬ s.stage.dtreeV = true := fun hv => htab (h.dtree hv)
  exact ⟨htab, hdtree, fun hv => hdtree (h.dec hv)⟩

/-- Where DEC_TABLE's bit is set, no encoder bit is. -/
theorem State.StageOk.noEncoder (h : s.StageOk) (ht : s.stage.tabV = true) :
    ¬ s.stage.freqV = true ∧ ¬ s.stage.treeV = true ∧ ¬ s.stage.codesV = true ∧ ¬ s.stage.hdrV = true ∧
      ¬ s.stage.payV = true := by
  have hfreq : ¬ s.stage.freqV = true := fun hv => h.oneSide ⟨hv, ht⟩
  have htree : ¬ s.stage.treeV = true := fun hv => hfreq (h.tree hv)
  have hcodes : ¬ s.stage.codesV = true := fun hv => htree (h.codes hv)
  have hhdr : ¬ s.stage.hdrV = true := fun hv => hcodes (h.hdr hv)
  exact ⟨hfreq, htree, hcodes, hhdr, fun hv => hhdr (h.pay hv)⟩

/-! The clauses of `State.ProductsOk` by name: what each STAGE bit vouches for. -/

/-- What CODES_V vouches for (R154): the codes are the leaf paths of the input's symbols. -/
def State.CodesMade (s : State) : Prop :=
  (∀ sym, s.present sym = true ↔ sym ∈ s.input) ∧ ∀ sym ∈ s.input, s.LeafPath (s.codeOf sym) sym

/-- What HDR_V vouches for (R156): OUT_MEM begins with the header of the code table. -/
def State.HeaderMade (s : State) : Prop :=
  s.entries.length ≤ 255 ∧ s.hdrLen.toNat = (headerBytes s.entries).length ∧
    s.hdrLen.toNat ≤ s.outCap.bytes ∧ s.output s.hdrLen.toNat = headerBytes s.entries

/-- What PAY_V vouches for (R157): OUT_MEM begins with the container of the input. -/
def State.PayloadMade (s : State) : Prop :=
  s.outLen.toNat = s.container.length ∧ s.output s.outLen.toNat = s.container ∧
    s.payloadBits.toNat = s.payload.length ∧
    s.resid.toNat = 8 * ceil8 s.payload.length - s.payload.length

/-- What TAB_V vouches for (R180): the code table is the one the input's header holds. -/
def State.TableMade (s : State) : Prop :=
  ∃ l, 1 ≤ s.inLen.toNat ∧ l.length = (s.inByte 0).toNat ∧
    s.EntriesAt 1 l s.hdrLen.toNat ∧ s.hdrLen.toNat ≤ s.inLen.toNat ∧ s.order = l.map Prod.fst ∧
    s.order.Nodup ∧ s.nsym.toNat = l.length ∧ (∀ e ∈ l, s.codeOf e.1 = e.2) ∧
    ∀ sym, s.present sym = true ↔ sym ∈ s.order

/-- What DTREE_V vouches for (R181): the tree leads each code to its symbol, and has no other path. -/
def State.TreeMade (s : State) : Prop :=
  (∃ r, s.root = some r) ∧ (∀ sym ∈ s.order, s.LeafPath (s.codeOf sym) sym) ∧
    (∀ p sym, s.LeafPath p sym → sym ∈ s.order ∧ p = s.codeOf sym) ∧
    ∀ p k, s.InnerPath p k → p ≠ [] → ∃ sym ∈ s.order, p <+: s.codeOf sym

/-- What DEC_V vouches for where ROOT is no LEAF (R182): the output is the symbols the payload spells. -/
def State.SymbolsMade (s : State) : Prop :=
  ∃ l c d k, s.Spells l c ∧ s.InnerPath d k ∧ s.BitsAt s.payloadStart (c ++ d) ∧
    (c ++ d).length ≤ s.payloadSize ∧ s.output s.outLen.toNat = l ∧ s.outLen.toNat = l.length ∧
    s.payloadBits.toNat = (c ++ d).length ∧ s.resid.toNat = d.length

/-- What DEC_V vouches for where ROOT is a LEAF of `sym` (R182): the output is copies of it. -/
def State.CopiesMade (s : State) (sym : Byte) : Prop :=
  s.output s.outLen.toNat = List.replicate s.outLen.toNat sym ∧ s.payloadBits = 0 ∧ s.resid = 0

theorem State.ProductsOk.tableMade (h : s.ProductsOk) (hv : s.stage.tabV = true) : s.TableMade :=
  h.table hv

/-- The products of an encoder chain: those of the decoder are not vouched for. -/
theorem productsOk_of_encoder (hs : s.StageOk) (hf : s.stage.freqV = true)
    (tree : s.stage.treeV = true → (s.arena, s.root) = buildTree s.freq)
    (codes : s.stage.codesV = true → s.CodesMade) (header : s.stage.hdrV = true → s.HeaderMade)
    (payload : s.stage.payV = true → s.PayloadMade) : s.ProductsOk := by
  obtain ⟨htab, hdtree, hdec⟩ := hs.noDecoder hf
  exact ⟨tree, codes, header, payload, fun hv => absurd hv htab, fun hv => absurd hv hdtree,
    fun hv => absurd hv hdec, fun hv => absurd hv hdec⟩

/-- The products of a decoder chain: those of the encoder are not vouched for. -/
theorem productsOk_of_decoder (hs : s.StageOk) (ht : s.stage.tabV = true) (table : s.TableMade)
    (dtree : s.stage.dtreeV = true → s.TreeMade)
    (decoded : s.stage.decV = true → s.rootLeaf = none → s.SymbolsMade)
    (copies : s.stage.decV = true → ∀ sym, s.rootLeaf = some sym → s.CopiesMade sym) :
    s.ProductsOk := by
  obtain ⟨-, htree, hcodes, hhdr, hpay⟩ := hs.noEncoder ht
  exact ⟨fun hv => absurd hv htree, fun hv => absurd hv hcodes, fun hv => absurd hv hhdr,
    fun hv => absurd hv hpay, fun _ => table, dtree, decoded, copies⟩

/-- What DEC_TABLE left stands where the input, the code table, HDR_LEN and NSYM do. -/
theorem State.TableMade.congr (h : s.TableMade) (hk : HostSideKept s t) (hc : CodeKept s t)
    (hl : t.hdrLen = s.hdrLen) (hn : t.nsym = s.nsym) : t.TableMade := by
  obtain ⟨l, h⟩ := h
  refine ⟨l, ?_⟩
  simpa only [State.codeOf, State.present, hk.inByte, hk.inLen, hc.codeLen, hc.codeBits, hc.order, hl, hn,
    entriesAt_congr hk.inByte hk.inLen] using h

/-- The products that stand before a stage are vouched for after its invalidation. -/
theorem State.ProductsOk.invalidate (h : s.ProductsOk) (hs : s.StageOk) {op : StageOp}
    (hm : s.stage.meets op = true) : (s.invalidate op).ProductsOk := by
  have hs' := hs.invalidate op
  cases op with
  | encFreq => constructor <;> simp [Stage.invalidate, Stage.none]
  | decTable => constructor <;> simp [Stage.invalidate, Stage.none]
  | encTree => exact productsOk_of_encoder hs' hm nofun nofun nofun nofun
  | encCodes => exact productsOk_of_encoder hs' (hs.tree hm) h.tree nofun nofun nofun
  | encHeader => exact productsOk_of_encoder hs' (hs.tree (hs.codes hm)) h.tree h.codes nofun nofun
  | encPayload =>
    exact productsOk_of_encoder hs' (hs.tree (hs.codes (hs.hdr hm))) h.tree h.codes h.header nofun
  | decTree =>
    exact productsOk_of_decoder hs' hm ((h.tableMade hm).congr
      (hostSideKept_invalidate s _) ⟨rfl, rfl, rfl⟩ rfl rfl) nofun nofun nofun
  | decPayload =>
    exact productsOk_of_decoder hs' (hs.dtree hm) ((h.tableMade (hs.dtree hm)).congr
      (hostSideKept_invalidate s _) ⟨rfl, rfl, rfl⟩ rfl rfl) h.dtree nofun nofun

theorem State.Consistent.invalidate (h : s.Consistent) {op : StageOp} (hm : s.stage.meets op = true) :
    (s.invalidate op).Consistent :=
  ⟨h.memory.invalidate op, h.stage.invalidate op, h.ranges.invalidate op,
    h.products.invalidate h.stage hm⟩

/-- A stage keeps the invariant where its error path and its mark do. -/
theorem consistent_runStage {op : StageOp} {body : State → State × Option Raise} (h : s.Consistent)
    (hraise : ∀ t e, s.stage.meets op = true → body (s.invalidate op) = (t, some e) →
      (t.invalidate op).Consistent)
    (hok : ∀ t, s.stage.meets op = true → (op.checksInLen = true → s.inLen.toNat ≤ s.inCap.bytes) →
      body (s.invalidate op) = (t, none) → ({ t with stage := t.stage.mark op } : State).Consistent) :
    (runStage op body s).1.Consistent := by
  rcases runStage_cases op body s with ⟨-, hr⟩ | ⟨-, -, -, hr⟩ | ⟨hm, -, t, e, hb, hr⟩ | ⟨hm, hl, t, hb, hr⟩
  · rw [hr]; exact h
  · rw [hr]; exact h
  · rw [hr]; exact hraise t e hm hb
  · rw [hr]; exact hok t hm hl hb

end Sys2Proof.Machine
end

section
/-! SUPPORT. The encoder stages keep the invariant (41_encoder.md R150 to R157). -/

namespace Sys2Proof.Machine

variable {s t : State}

/-! ### The encoder stages keep the invariant (R150 to R157) -/

/-- A stage runs on an input within IN_CAP: it checked, or its prerequisite vouches for that. -/
theorem State.StageOk.inLen_le (h : s.StageOk) {op : StageOp} (hm : s.stage.meets op = true)
    (hl : op.checksInLen = true → s.inLen.toNat ≤ s.inCap.bytes) : s.inLen.toNat ≤ s.inCap.bytes := by
  cases op with
  | encFreq => exact hl rfl
  | encTree => exact h.inRange (.inl hm)
  | encCodes => exact h.inRange (.inl (h.tree hm))
  | encHeader => exact h.inRange (.inl (h.tree (h.codes hm)))
  | encPayload => exact h.inRange (.inl (h.tree (h.codes (h.hdr hm))))
  | decTable => exact hl rfl
  | decTree => exact h.inRange (.inr hm)
  | decPayload => exact h.inRange (.inr (h.dtree hm))

/-- STAGE after a stage that ended well, given the counts where FREQ_V is then set. -/
theorem State.StageOk.mark (h : s.StageOk) {op : StageOp} (hm : s.stage.meets op = true)
    (hl : op.checksInLen = true → s.inLen.toNat ≤ s.inCap.bytes) (hk : BodyKeeps (s.invalidate op) t)
    (hn : (t.stage.mark op).freqV = true → (∀ sym, (t.freq.at sym).toNat = s.input.count sym) ∧
      t.nsym.toNat = s.inputSymbols.length) :
    ({ t with stage := t.stage.mark op } : State).StageOk := by
  have hst : t.stage = s.stage.invalidate op := by rw [hk.stage, invalidate_stage]
  have hhost := (hostSideKept_invalidate s op).trans hk.host
  refine .of_chained ?_ (fun _ => ?_) (fun hv => ?_)
  · dsimp only
    rw [hst]
    exact h.chained.mark hm
  · dsimp only
    rw [hhost.inLen, hhost.inCap]
    exact h.inLen_le hm hl
  · have hin : ({ t with stage := t.stage.mark op } : State).input = s.input := hhost.input
    rw [State.inputSymbols, hin]
    exact hn hv

/-- The counts ENC_FREQ leaves are those of the input, and NSYM its number of symbols (R150). -/
theorem counted_encFreq
    (hb : bodyEncFreq (s.invalidate .encFreq) = (t, none)) :
    (∀ sym, (t.freq.at sym).toNat = s.input.count sym) ∧ t.nsym.toNat = s.inputSymbols.length := by
  injection hb with hb
  have hcount : ∀ sym, (t.freq.at sym).toNat = s.input.count sym := fun sym => by
    rw [← (hostSideKept_invalidate s .encFreq).input, ← countSymbol_input, ← hb]
    rfl
  refine ⟨hcount, ?_⟩
  have hn : t.nsym = BitVec.ofNat 9 (distinctCount t.freq) := by rw [← hb]
  have := length_mappedSymbols_le t.freq
  rw [hn, distinctCount_eq, ← mappedSymbols_eq_inputSymbols hcount, BitVec.toNat_ofNat,
    Nat.mod_eq_of_lt (by omega)]

theorem length_inputSymbols_le (s : State) : s.inputSymbols.length ≤ 256 :=
  (List.length_filter_le _ _).trans symbols_length.le

/-- ENC_FREQ keeps the invariant: it raises nothing and counts the input. -/
theorem consistent_stageEncFreq (h : s.Consistent) : (stageEncFreq s).1.Consistent := by
  refine consistent_runStage h (fun t e _ hb => ?_) fun t hm hl hb => ?_
  · exact absurd (congrArg Prod.snd hb) (by simp [bodyEncFreq_raise])
  · have hi := h.invalidate hm
    have hk := bodyKeeps_encFreq (s.invalidate .encFreq)
    rw [hb] at hk
    have hcounted := counted_encFreq hb
    have hst := h.stage.mark hm hl hk fun _ => hcounted
    injection hb with hb
    subst hb
    exact
      { memory := { hi.memory with }
        stage := hst
        ranges := { hi.ranges with nsym := hcounted.2.trans_le (length_inputSymbols_le s) }
        products := productsOk_of_encoder hst rfl nofun nofun nofun nofun }

/-- The tree of 256 symbols or fewer has at most 511 entries (R37). -/
theorem length_buildTree_le (freq : Table Word) : (buildTree freq).1.length ≤ 511 := by
  have hn := length_mappedSymbols_le freq
  rcases hm : mappedSymbols freq with _ | ⟨a, _ | ⟨b, l⟩⟩
  · simp [buildTree_empty hm]
  · simp [buildTree_one hm]
  · obtain ⟨ar, hb, htr⟩ := buildTree_many (freq := freq) (by simp [hm])
    rw [hb, htr.length_eq]
    omega

/-- ENC_TREE keeps the invariant: it raises nothing and builds the tree of the counts. -/
theorem consistent_stageEncTree (h : s.Consistent) : (stageEncTree s).1.Consistent := by
  refine consistent_runStage h (fun t e _ hb => ?_) fun t hm hl hb => ?_
  · exact absurd (congrArg Prod.snd hb) (by simp [bodyEncTree_raise])
  · have hi := h.invalidate hm
    have hk := bodyKeeps_encTree (s.invalidate .encTree)
    injection hb with hb
    subst hb
    have hst := h.stage.mark hm hl hk fun _ => h.stage.counted hm
    exact
      { memory := { hi.memory with }
        stage := hst
        ranges := { hi.ranges with nodes := (length_buildTree_le _).trans (by omega) }
        products := productsOk_of_encoder hst hm (fun _ => rfl) nofun nofun nofun }

/-- What `State.RangesOk` says of the code table entry of one symbol (R41, R42). -/
def State.EntryOk (s : State) (sym : Byte) : Prop :=
  ((s.codeLen.at sym).present = false → (s.codeLen.at sym).len = 0) ∧
    ∀ i, (s.codeLen.at sym).len.toNat ≤ i → (s.codeBits.at sym).getMsbD i = false

theorem State.RangesOk.entryOk (h : s.RangesOk) (sym : Byte) : s.EntryOk sym :=
  ⟨h.absentLen sym, h.codeTail sym⟩

theorem State.EntryOk.same {sym : Byte} (h : s.EntryOk sym) (hs : SameCode s t sym) : t.EntryOk sym := by
  rw [State.EntryOk, hs.1, hs.2]
  exact h

theorem State.HasCode.entryOk {sym : Byte} {c : Bits} (h : s.HasCode sym c) (hc : c.length ≤ 255) :
    s.EntryOk sym := by
  obtain ⟨hlen, hbits⟩ := h
  rw [State.EntryOk, hlen, hbits]
  refine ⟨nofun, fun i hi => ?_⟩
  rw [BitVec.toNat_ofNat, Nat.mod_eq_of_lt (by omega)] at hi
  by_cases hlt : i < 256
  · rw [getMsbD_msbFirst c i hlt, List.getD_eq_default _ _ hi]
  · simp [BitVec.getMsbD, hlt]

/-- ENC_CODES keeps the invariant: it raises nothing and records the paths of the tree. -/
theorem consistent_stageEncCodes (h : s.Consistent) : (stageEncCodes s).1.Consistent := by
  refine consistent_runStage h (fun t e _ hb => ?_) fun t hm hl hb => ?_
  · exact absurd (congrArg Prod.snd hb) (by simp [bodyEncCodes_raise])
  · have hi := h.invalidate hm
    have hk := bodyKeeps_encCodes (s.invalidate .encCodes)
    have hf := h.stage.tree hm
    obtain ⟨t', hb', ⟨cl, cb, rfl⟩, hpres, hcode, habs⟩ :=
      bodyEncCodes_built (s := s.invalidate .encCodes) (h.products.tree hm) fun sym => by
        simp [State.invalidate]
    have hmapped := mappedSymbols_eq_inputSymbols (h.stage.counted hf).1
    rw [hb'] at hb hk
    injection hb with hb
    subst hb
    have hst := h.stage.mark hm hl hk fun _ => h.stage.counted hf
    have hentry : ∀ sym, ({ s.invalidate .encCodes with codeLen := cl, codeBits := cb } : State).EntryOk sym := by
      intro sym
      by_cases hs : sym ∈ mappedSymbols s.freq
      · obtain ⟨-, -, -, -, -, hc, h255⟩ := hcode sym hs
        exact hc.entryOk h255
      · exact (hi.ranges.entryOk sym).same (habs sym hs)
    have hmem : ∀ sym, sym ∈ mappedSymbols s.freq ↔ sym ∈ s.input := fun sym => by
      rw [hmapped, mem_inputSymbols]
    refine
      { memory := { hi.memory with }
        stage := hst
        ranges := { hi.ranges with
          absentLen := fun sym => (hentry sym).1
          codeTail := fun sym => (hentry sym).2 }
        products := productsOk_of_encoder hst hf (fun _ => h.products.tree hm) (fun _ => ⟨?_, ?_⟩) nofun nofun }
    · exact fun sym => (hpres sym).trans (hmem sym)
    · intro sym hs
      obtain ⟨r, hr, -, hlead, -⟩ := hcode sym ((hmem sym).2 hs)
      exact ⟨r, hr, hlead⟩

/-- How the body of ENC_HEADER ends: it raises and has written nothing, or its checks passed. -/
theorem bodyEncHeader_inv {r : Option Raise} (h : bodyEncHeader s = (t, r)) :
    (r ≠ none → t = s) ∧ (r = none → s.nsym.toNat ≤ 255 ∧ s.headerSize ≤ s.outCap.bytes) := by
  unfold bodyEncHeader at h
  split_ifs at h with h1 h2
  · injection h with ht hr
    exact ⟨fun _ => ht.symm, fun h => absurd (hr.trans h) nofun⟩
  · injection h with ht hr
    exact ⟨fun _ => ht.symm, fun h => absurd (hr.trans h) nofun⟩
  · injection h with ht hr
    exact ⟨fun h => absurd hr.symm h, fun _ => ⟨by omega, by omega⟩⟩

/-- The symbols with a code are the input's, where CODES_V vouches for that. -/
theorem State.CodesMade.presentSymbols (h : s.CodesMade) : s.presentSymbols = s.inputSymbols := by
  refine List.filter_congr fun sym _ => ?_
  rw [Bool.eq_iff_iff, h.1]
  simp

/-- The header written from offset 0 is what HDR_V vouches for. -/
theorem headerMade_of_writeBytes (hn : s.nsym.toNat = s.presentSymbols.length) (h255 : s.nsym.toNat ≤ 255)
    (hfit : s.headerSize ≤ s.outCap.bytes) (hout : t.outMem = Memory.writeBytes s.outMem 0 (headerBytes s.entries))
    (hresets : t.resets = s.resets) (hcap : t.outCap = s.outCap) (hentries : t.entries = s.entries)
    (hlen : t.hdrLen.toNat = s.headerSize) : t.HeaderMade := by
  rw [State.HeaderMade, hentries, hcap, hlen, ← length_headerBytes_entries]
  refine ⟨?_, rfl, (length_headerBytes_entries s).trans_le hfit, (output_writeBytes hout hresets).1⟩
  rw [State.entries, List.length_map]
  omega

/-- A number within a capacity fits a register. -/
theorem toNat_ofNat_of_le_cap {n : Nat} {c : Capacity} (h : n ≤ c.bytes) : (BitVec.ofNat 32 n).toNat = n := by
  have := bytes_le c
  rw [BitVec.toNat_ofNat, Nat.mod_eq_of_lt (by omega)]

/-- ENC_HEADER keeps the invariant: it raises before it writes, or writes the header of the code table. -/
theorem consistent_stageEncHeader (h : s.Consistent) : (stageEncHeader s).1.Consistent := by
  refine consistent_runStage h (fun t e hm hb => ?_) fun t hm hl hb => ?_
  · rw [(bodyEncHeader_inv hb).1 nofun]
    exact (h.invalidate hm).invalidate (by simpa using Stage.meets_invalidate hm)
  · have hi := h.invalidate hm
    have htree := h.stage.codes hm
    have hf := h.stage.tree htree
    have hk := bodyKeeps_encHeader (s.invalidate .encHeader)
    obtain ⟨hn, hfit⟩ : s.nsym.toNat ≤ 255 ∧ s.headerSize ≤ s.outCap.bytes := (bodyEncHeader_inv hb).2 rfl
    have hnsym : s.nsym.toNat = s.presentSymbols.length := by
      rw [State.CodesMade.presentSymbols (h.products.codes hm)]
      exact (h.stage.counted hf).2
    have hbytes : s.nsym.setWidth 8 :: s.entriesBytes = headerBytes s.entries := by
      rw [headerBytes_entries, ← hnsym]
      rfl
    have hsize := toNat_ofNat_of_le_cap hfit
    rw [bodyEncHeader_ok (s := s.invalidate .encHeader) hn hfit] at hb hk
    injection hb with hb
    subst hb
    have hst := h.stage.mark hm hl hk fun _ => h.stage.counted hf
    have hout : 0 + (s.nsym.setWidth 8 :: s.entriesBytes).length ≤ s.outCap.bytes := by
      rw [hbytes, length_headerBytes_entries, Nat.zero_add]
      exact hfit
    exact
      { memory := { hi.memory with
          outWf := Memory.writeBytes_wf _ _ hi.memory.outWf
          outWithin := Memory.writeBytes_within _ hout hi.memory.outWithin }
        stage := hst
        ranges := { hi.ranges with
          hdrLen := hsize.trans_le (hfit.trans (le_max_right _ _))
          outLen := hsize.trans_le hfit }
        products := productsOk_of_encoder hst hf (fun _ => h.products.tree htree) (fun _ => h.products.codes hm)
          (fun _ => headerMade_of_writeBytes hnsym hn hfit (congrArg (Memory.writeBytes s.outMem 0) hbytes)
            rfl rfl rfl hsize) nofun }

/-- How the body of ENC_PAYLOAD ends: it raises and has written nothing, or the container fits. -/
theorem bodyEncPayload_inv {r : Option Raise} (h : bodyEncPayload s = (t, r)) :
    (r ≠ none → t = s) ∧ (r = none → s.hdrLen.toNat + ceil8 s.payload.length ≤ s.outCap.bytes) := by
  unfold bodyEncPayload at h
  dsimp only at h
  split_ifs at h with h1
  · injection h with ht hr
    exact ⟨fun _ => ht.symm, fun h => absurd (hr.trans h) nofun⟩
  · injection h with ht hr
    exact ⟨fun h => absurd hr.symm h, fun _ => by omega⟩

/-- The output after bytes were written from offset `n`: the output before them, and they. -/
theorem output_append_writeBytes {n : Nat} {l : List Byte} (hm : t.outMem = Memory.writeBytes s.outMem n l)
    (hr : t.resets = s.resets) : t.output n = s.output n ∧ t.output (n + l.length) = s.output n ++ l := by
  have hkept : t.output n = s.output n := by
    refine List.map_congr_left fun a ha => ?_
    rw [List.mem_range] at ha
    rw [State.outByte, State.outByte, hm, hr, Memory.stored_writeBytes, if_neg (by omega)]
  refine ⟨hkept, ?_⟩
  rw [State.output, List.range_add, List.map_append]
  congr 1
  refine List.ext_getElem (by simp) fun i h1 h2 => ?_
  simp [State.outByte, hm, Memory.stored_writeBytes, h2]

/-- Bytes written behind the header leave it. -/
theorem State.HeaderMade.append (hh : s.HeaderMade) {l : List Byte}
    (hout : t.outMem = Memory.writeBytes s.outMem s.hdrLen.toNat l) (hresets : t.resets = s.resets)
    (hcap : t.outCap = s.outCap) (hentries : t.entries = s.entries) (hhdr : t.hdrLen = s.hdrLen) :
    t.HeaderMade := by
  rw [State.HeaderMade, hentries, hcap, hhdr, (output_append_writeBytes hout hresets).1]
  exact hh

/-- The payload written behind the header completes the container. -/
theorem payloadMade_of_writeBytes (hh : s.HeaderMade)
    (hout : t.outMem = Memory.writeBytes s.outMem s.hdrLen.toNat (pack s.payload))
    (hresets : t.resets = s.resets) (hentries : t.entries = s.entries) (hpay : t.payload = s.payload)
    (hlen : t.outLen.toNat = s.hdrLen.toNat + ceil8 s.payload.length)
    (hbits : t.payloadBits.toNat = s.payload.length)
    (hresid : t.resid.toNat = 8 * ceil8 s.payload.length - s.payload.length) : t.PayloadMade := by
  obtain ⟨-, hsize, -, hhdrout⟩ := hh
  have hcontainer : t.container = headerBytes s.entries ++ pack s.payload := by
    rw [State.container, hentries, hpay]
  rw [State.PayloadMade, hcontainer, hpay, hlen]
  refine ⟨?_, ?_, hbits, hresid⟩
  · rw [List.length_append, length_pack, hsize]
  · rw [← length_pack, (output_append_writeBytes hout hresets).2, hhdrout]

/-- ENC_PAYLOAD keeps the invariant: it raises before it writes, or writes behind the header. -/
theorem consistent_stageEncPayload (h : s.Consistent) : (stageEncPayload s).1.Consistent := by
  refine consistent_runStage h (fun t e hm hb => ?_) fun t hm hl hb => ?_
  · rw [(bodyEncPayload_inv hb).1 nofun]
    exact (h.invalidate hm).invalidate (by simpa using Stage.meets_invalidate hm)
  · have hi := h.invalidate hm
    have hcodes := h.stage.hdr hm
    have htree := h.stage.codes hcodes
    have hf := h.stage.tree htree
    have hk := bodyKeeps_encPayload (s.invalidate .encPayload)
    have hhdr : s.HeaderMade := h.products.header hm
    have hfit : s.hdrLen.toNat + ceil8 s.payload.length ≤ s.outCap.bytes := (bodyEncPayload_inv hb).2 rfl
    rw [bodyEncPayload_ok (s := s.invalidate .encPayload) hfit] at hb hk
    injection hb with hb
    subst hb
    have hst := h.stage.mark hm hl hk fun _ => h.stage.counted hf
    have hcap := bytes_le s.outCap
    have hceil := le_eight_mul_ceil8 s.payload.length
    have hceil' := eight_mul_ceil8_lt s.payload.length
    have hpos : 1 ≤ s.hdrLen.toNat := by rw [hhdr.2.1, length_headerBytes]; omega
    have hout : s.hdrLen.toNat + (pack s.payload).length ≤ s.outCap.bytes := by rwa [length_pack]
    have hsize := toNat_ofNat_of_le_cap hfit
    have hbits : (BitVec.ofNat 32 s.payload.length).toNat = s.payload.length := by
      rw [BitVec.toNat_ofNat, Nat.mod_eq_of_lt (by omega)]
    have hresid : (BitVec.ofNat 32 (8 * ceil8 s.payload.length - s.payload.length)).toNat =
        8 * ceil8 s.payload.length - s.payload.length := by
      rw [BitVec.toNat_ofNat, Nat.mod_eq_of_lt (by omega)]
    exact
      { memory := { hi.memory with
          outWf := Memory.writeBytes_wf _ _ hi.memory.outWf
          outWithin := Memory.writeBytes_within _ hout hi.memory.outWithin }
        stage := hst
        ranges := { hi.ranges with
          outLen := hsize.trans_le hfit
          payloadBits := hbits.trans_lt (by omega)
          resid := hresid.trans_le (by omega) }
        products := productsOk_of_encoder hst hf (fun _ => h.products.tree htree)
          (fun _ => h.products.codes hcodes) (fun _ => hhdr.append rfl rfl rfl rfl rfl)
          (fun _ => payloadMade_of_writeBytes hhdr rfl rfl rfl rfl hsize hbits hresid) }

end Sys2Proof.Machine
end

section
/-! SUPPORT. DEC_TABLE and DEC_TREE keep the invariant (42_decoder.md R180, R181). -/

namespace Sys2Proof.Machine

variable {s t : State}

/-! ### DEC_TABLE and DEC_TREE keep the invariant (R180, R181) -/

/-- A body of DEC_TABLE that raised nothing read the entries the header's first byte announces. -/
theorem bodyDecTable_inv (h : bodyDecTable s = (t, none)) :
    ∃ l q, 1 ≤ s.inLen.toNat ∧ l.length = (s.inByte 0).toNat ∧ s.EntriesAt 1 l q ∧
      (l.map Prod.fst).Nodup ∧
      t = { l.foldl State.addEntry s with nsym := BitVec.ofNat 9 l.length, hdrLen := BitVec.ofNat 32 q } := by
  unfold bodyDecTable at h
  split_ifs at h with hlen
  · exact nomatch congrArg Prod.snd h
  · obtain ⟨l, q, hl, hat, hdup, -, -, ht⟩ := readEntries_inv h
    exact ⟨l, q, by omega, hl, hat, hdup, by rw [hl]; exact ht⟩

/-- A body of DEC_TABLE wrote what its invalidation resets, whatever its outcome. -/
theorem bodyDecTable_invalidate (s : State) :
    (bodyDecTable s).1.invalidate .decTable = s.invalidate .decTable := by
  unfold bodyDecTable
  split_ifs
  · rfl
  · obtain ⟨cl, cb, o, ns, hl, h⟩ := readEntries_same (s.inByte 0).toNat (s.inByte 0).toNat 1 s
    rw [h]
    rfl

/-- A header ends behind its first byte and within IN_LEN. -/
theorem entriesAt_bounds {l : List (Byte × Bits)} {q : Nat} (h : s.EntriesAt 1 l q)
    (hlen : 1 ≤ s.inLen.toNat) : 1 ≤ q ∧ q ≤ s.inLen.toNat := by
  obtain ⟨hq, hle⟩ := entriesAt_end h
  refine ⟨by omega, ?_⟩
  cases l with
  | nil => simpa [hq] using hlen
  | cons e l => exact hle (by simp)

/-- The entries a header holds, taken into an empty code table, are what TAB_V vouches for. -/
theorem tableMade_of_entries {l : List (Byte × Bits)} {q : Nat} (hlen : 1 ≤ s.inLen.toNat)
    (hcount : l.length = (s.inByte 0).toNat) (hat : s.EntriesAt 1 l q) (hdup : (l.map Prod.fst).Nodup)
    (hq : q ≤ s.inLen.toNat) (hcodes : ∀ e ∈ l, t.codeOf e.1 = e.2 ∧ t.present e.1 = true)
    (habsent : ∀ sym, sym ∉ l.map Prod.fst → t.present sym = false) (hk : HostSideKept s t)
    (horder : t.order = l.map Prod.fst) (hhdr : t.hdrLen.toNat = q) (hn : t.nsym.toNat = l.length) :
    t.TableMade := by
  refine ⟨l, hk.inLen ▸ hlen, hk.inByte ▸ hcount, ?_, ?_, horder, horder ▸ hdup, hn,
    fun e he => (hcodes e he).1, fun sym => ?_⟩
  · rw [hhdr]
    exact (entriesAt_congr hk.inByte hk.inLen _ _ _).2 hat
  · rwa [hhdr, hk.inLen]
  · rw [horder]
    constructor
    · intro hp
      by_contra hs
      rw [habsent sym hs] at hp
      exact nomatch hp
    · intro hs
      obtain ⟨e, he, rfl⟩ := List.mem_map.1 hs
      exact (hcodes e he).2

/-- The entries of a header keep the ranges of the code table. -/
theorem entryOk_foldl_addEntry {l : List (Byte × Bits)} (h : ∀ sym, s.EntryOk sym) (hdup : (l.map Prod.fst).Nodup)
    (hlen : ∀ e ∈ l, e.2.length ≤ 255) (sym : Byte) : (l.foldl State.addEntry s).EntryOk sym := by
  by_cases hs : sym ∈ l.map Prod.fst
  · obtain ⟨e, he, rfl⟩ := List.mem_map.1 hs
    exact (hasCode_foldl_addEntry l s hdup e he).entryOk (hlen e he)
  · exact (h sym).same ((foldl_addEntry l s hdup hlen).2.2 sym hs)

/-- DEC_TABLE keeps the invariant: its error is invalidated away, its end is the header's table. -/
theorem consistent_stageDecTable (h : s.Consistent) : (stageDecTable s).1.Consistent := by
  refine consistent_runStage h (fun t e hm hb => ?_) fun t hm hl hb => ?_
  · have ht : (bodyDecTable (s.invalidate .decTable)).1 = t := by rw [hb]
    rw [← ht, bodyDecTable_invalidate]
    exact (h.invalidate hm).invalidate rfl
  · have hi := h.invalidate hm
    have hk := bodyKeeps_decTable (s.invalidate .decTable)
    obtain ⟨l, q, hlen, hcount, hat, hdup, ht⟩ := bodyDecTable_inv hb
    obtain ⟨-, hq⟩ := entriesAt_bounds hat hlen
    have hqcap : q ≤ (s.invalidate .decTable).inCap.bytes := by
      rw [invalidate_inLen] at hq
      rw [invalidate_inCap]
      exact hq.trans (hl rfl)
    have h255 : l.length ≤ 255 := by
      have := ((s.invalidate .decTable).inByte 0).isLt
      omega
    have hn : (BitVec.ofNat 9 l.length).toNat = l.length := by
      rw [BitVec.toNat_ofNat, Nat.mod_eq_of_lt (by omega)]
    have hn256 : (BitVec.ofNat 9 l.length).toNat ≤ 256 := by omega
    have hqn := toNat_ofNat_of_le_cap hqcap
    have hhdr : (BitVec.ofNat 32 q).toNat ≤
        max (s.invalidate .decTable).inCap.bytes (s.invalidate .decTable).outCap.bytes :=
      hqn.trans_le (le_max_of_le_left hqcap)
    obtain ⟨cl, cb, o, hsame⟩ := foldl_addEntry_same l (s.invalidate .decTable)
    obtain ⟨horder, hcodes, hother⟩ := foldl_addEntry l (s.invalidate .decTable) hdup (entriesAt_length hat)
    have hentry := entryOk_foldl_addEntry hi.ranges.entryOk hdup (entriesAt_length hat)
    rw [hsame] at ht horder hcodes hother hentry
    rw [hb] at hk
    have horder : o = l.map Prod.fst := horder
    have habsent : ∀ sym, sym ∉ l.map Prod.fst → (cl.at sym).present = false := fun sym hs => by
      rw [(hother sym hs).1]
      simp [State.invalidate, CodeLen.absent]
    have hst := h.stage.mark hm hl hk fun hv => by
      rw [hk.stage] at hv
      exact nomatch hv
    subst ht
    exact
      { memory := { hi.memory with }
        stage := hst
        ranges := { hi.ranges with
          nsym := hn256
          hdrLen := hhdr
          order := by rw [horder, List.length_map]; exact h255
          absentLen := fun sym => (hentry sym).1
          codeTail := fun sym => (hentry sym).2 }
        products := productsOk_of_decoder hst rfl
          (tableMade_of_entries hlen hcount hat hdup hq hcodes habsent
            { hk.host with } horder hqn hn) nofun nofun nofun }

/-- What the loop of DEC_TREE makes where it ends well: the tree of the codes, or the one LEAF of an empty code
that stands alone. -/
theorem insertAll_built {l : List Byte} {ar : List Node} (h : insertAll s l 0 [bareNode] = (ar, none)) :
    (Built ar (l.map fun sym => (sym, s.codeOf sym)) [] ∧
      ar.length ≤ 1 + (l.map fun sym => (s.codeOf sym).length).sum) ∨
    ∃ sym, l = [sym] ∧ s.codeOf sym = [] ∧ ar = [.leaf sym 0] := by
  have hfree := codesFree_of_insertAll h
  rcases hfree.empty with hne | ⟨sym, rfl, he⟩
  · obtain ⟨ar', hins, hbuilt, hlen⟩ := built_bare.insertAll s l 0 hne (by simp) hfree
    rw [h] at hins
    injection hins with hins
    subst hins
    exact .inl ⟨by simpa using hbuilt, by simpa using hlen⟩
  · refine .inr ⟨sym, rfl, he, ?_⟩
    rw [insertAll, he] at h
    injection h with h
    exact h.symm

/-- The tree of the codes of ORDER is what DTREE_V vouches for. -/
theorem treeMade_of_built (hr : s.root = some 0)
    (h : Built s.arena (s.order.map fun sym => (sym, s.codeOf sym)) []) : s.TreeMade := by
  refine ⟨⟨0, hr⟩, fun sym hs => ⟨0, hr, h.leads _ (List.mem_map_of_mem hs)⟩, ?_, ?_⟩
  · rintro p sym ⟨r, hr', x, hx, hl⟩
    obtain rfl : 0 = r := Option.some.inj (hr.symm.trans hr')
    obtain ⟨a, ha, hap⟩ := List.mem_map.1 (h.leaves hx hl)
    obtain ⟨rfl, rfl⟩ := Prod.mk.inj hap
    exact ⟨ha, rfl⟩
  · rintro p k ⟨r, hr', hk, -⟩ hne
    obtain rfl : 0 = r := Option.some.inj (hr.symm.trans hr')
    rcases h.covered hk hne with ⟨e, he, hp⟩ | hp
    · obtain ⟨a, ha, rfl⟩ := List.mem_map.1 he
      exact ⟨a, ha, hp⟩
    · exact absurd (List.prefix_nil.1 hp) hne

/-- One LEAF, of the one symbol, whose code is empty, is what DTREE_V vouches for. -/
theorem treeMade_of_leaf {sym : Byte} (hr : s.root = some 0) (ha : s.arena = [.leaf sym 0])
    (ho : s.order = [sym]) (hc : s.codeOf sym = []) : s.TreeMade := by
  have hleaf : leafAt s.arena 0 = some sym := by rw [ha]; rfl
  refine ⟨⟨0, hr⟩, fun x hx => ?_, ?_, ?_⟩
  · rw [ho, List.mem_singleton] at hx
    rw [hx, hc]
    exact ⟨0, hr, 0, rfl, hleaf⟩
  · rintro p x ⟨r, hr', y, hy, hl⟩
    obtain rfl : 0 = r := Option.some.inj (hr.symm.trans hr')
    obtain ⟨rfl, rfl⟩ := follow_leaf hleaf hy
    obtain rfl : sym = x := Option.some.inj (hleaf.symm.trans hl)
    exact ⟨by simp [ho], hc.symm⟩
  · rintro p k ⟨r, hr', hk, -⟩ hne
    obtain rfl : 0 = r := Option.some.inj (hr.symm.trans hr')
    exact absurd (follow_leaf hleaf hk).1 hne

/-- The codes of ORDER have at most 255 · 255 bits in all. -/
theorem State.RangesOk.sum_codes_le (h : s.RangesOk) :
    (s.order.map fun sym => (s.codeOf sym).length).sum ≤ 65025 := by
  have hlen : ∀ n ∈ s.order.map fun sym => (s.codeOf sym).length, n ≤ 255 := by
    intro n hn
    obtain ⟨sym, -, rfl⟩ := List.mem_map.1 hn
    have := (s.codeLen.at sym).len.isLt
    rw [length_codeOf]
    omega
  have hsum := List.sum_le_card_nsmul _ _ hlen
  have := h.order
  rw [List.length_map, smul_eq_mul] at hsum
  omega

/-- A body of DEC_TREE wrote what its invalidation resets, whatever its outcome. -/
theorem bodyDecTree_invalidate (s : State) :
    (bodyDecTree s).1.invalidate .decTree = s.invalidate .decTree := rfl

/-- A body of DEC_TREE that raised nothing inserted every code of ORDER. -/
theorem bodyDecTree_inv (h : bodyDecTree s = (t, none)) :
    ∃ ar, insertAll s s.order 0 [bareNode] = (ar, none) ∧ t = { s with arena := ar, root := some 0 } := by
  unfold bodyDecTree at h
  rcases hi : insertAll s s.order 0 [bareNode] with ⟨ar, _ | i⟩ <;> rw [hi] at h <;> injection h with ht hr
  · exact ⟨ar, rfl, ht.symm⟩
  · exact nomatch hr

/-- DEC_TREE keeps the invariant: its error is invalidated away, its end is the tree of the table's codes. -/
theorem consistent_stageDecTree (h : s.Consistent) : (stageDecTree s).1.Consistent := by
  refine consistent_runStage h (fun t e hm hb => ?_) fun t hm hl hb => ?_
  · have ht : (bodyDecTree (s.invalidate .decTree)).1 = t := by rw [hb]
    rw [← ht, bodyDecTree_invalidate]
    exact (h.invalidate hm).invalidate (by simpa using Stage.meets_invalidate hm)
  · have hi := h.invalidate hm
    have hk := bodyKeeps_decTree (s.invalidate .decTree)
    rw [hb] at hk
    obtain ⟨ar, hins, rfl⟩ := bodyDecTree_inv hb
    have hst := h.stage.mark hm hl hk fun hv => by
      exact absurd hv (by simp [Stage.invalidate, Stage.mark, (h.stage.noEncoder hm).1])
    have hmade : ar.length ≤ 65026 ∧
        ({ s.invalidate .decTree with arena := ar, root := some 0 } : State).TreeMade := by
      rcases insertAll_built hins with ⟨hbuilt, hlen⟩ | ⟨sym, ho, hc, rfl⟩
      · have hsum := hi.ranges.sum_codes_le
        exact ⟨by omega, treeMade_of_built rfl hbuilt⟩
      · exact ⟨by simp, treeMade_of_leaf rfl rfl ho hc⟩
    exact
      { memory := { hi.memory with }
        stage := hst
        ranges := { hi.ranges with nodes := hmade.1 }
        products := productsOk_of_decoder hst hm
          ((h.products.tableMade hm).congr { hk.host with }
            ⟨rfl, rfl, rfl⟩ rfl rfl) (fun _ => hmade.2) nofun nofun }

end Sys2Proof.Machine
end

section
/-! SUPPORT. DEC_PAYLOAD keeps the invariant (42_decoder.md R182). -/

namespace Sys2Proof.Machine

variable {s t : State}

/-! ### DEC_PAYLOAD keeps the invariant (R182) -/

/-- The payload walk writes a row of bytes within OUT_CAP, whatever its outcome. -/
theorem walkPayload_out (s : State) (left x : Nat) (w : Walk) (hcap : w.count ≤ s.outCap.bytes) :
    ∃ l, w.count + l.length ≤ s.outCap.bytes ∧
      (walkPayload s left x w).1.out = Memory.writeBytes w.out w.count l := by
  have stop : ∃ l : List Byte, w.count + l.length ≤ s.outCap.bytes ∧
      w.out = Memory.writeBytes w.out w.count l := ⟨[], hcap, rfl⟩
  induction left generalizing x w with
  | zero => exact stop
  | succ left ih =>
    rw [walkPayload]
    split
    · exact stop
    · split
      · exact stop
      · rename_i nx _
        split
        · rename_i sym _
          split
          · exact stop
          · obtain ⟨l, hl, ho⟩ := ih (x + 1)
              { out := Memory.write w.out w.count sym, count := w.count + 1, cur := s.root, depth := 0,
                examined := w.examined + 1 } (by dsimp only; omega)
              ⟨[], by dsimp only [List.length_nil]; omega, rfl⟩
            dsimp only at hl ho
            exact ⟨sym :: l, by rw [List.length_cons]; omega, ho⟩
        · exact ih (x + 1)
            { w with cur := some nx, depth := w.depth + 1, examined := w.examined + 1 } hcap stop

/-- Where the payload walk of DEC_PAYLOAD begins. -/
def State.walk0 (s : State) : Walk :=
  { out := s.outMem, count := 0, cur := s.root, depth := 0, examined := 0 }

/-- The state after the bytes `l` were put out, with `p` payload bits read and `r` left over. -/
def State.emitted (s : State) (l : List Byte) (p r : Nat) : State :=
  { s with outMem := Memory.writeBytes s.outMem 0 l
           outLen := BitVec.ofNat 32 l.length
           payloadBits := BitVec.ofNat 32 p
           resid := BitVec.ofNat 32 r }

/-- How the body of DEC_PAYLOAD ends: it raises, with no more than OUT_MEM written; or a LEAF as ROOT gave copies;
or the walk read the payload. -/
theorem bodyDecPayload_cases {r : Option Raise} (h : bodyDecPayload s = (t, r)) :
    (r ≠ none ∧ ∃ l, l.length ≤ s.outCap.bytes ∧
      t = { s with outMem := Memory.writeBytes s.outMem 0 l }) ∨
    (r = none ∧ ∃ sym n, s.rootLeaf = some sym ∧ n ≤ s.outCap.bytes ∧
      t = s.emitted (List.replicate n sym) 0 0) ∨
    (r = none ∧ s.rootLeaf = none ∧ ∃ w,
      walkPayload s s.payloadSize s.payloadStart s.walk0 = (w, none) ∧
      t = { s with outMem := w.out, outLen := BitVec.ofNat 32 w.count
                   payloadBits := BitVec.ofNat 32 w.examined, resid := BitVec.ofNat 32 w.depth }) := by
  unfold bodyDecPayload at h
  cases hroot : s.rootLeaf with
  | some sym =>
    rw [hroot] at h
    dsimp only [bodyLeafRoot] at h
    rw [emitCopies_eq _ _ _ _ _ (Nat.zero_le _)] at h
    generalize (if s.limsnap = true then s.outLimit.toNat else 0) = copies at h
    simp only [Nat.sub_zero, Nat.zero_add] at h
    have hle : min copies s.outCap.bytes ≤ s.outCap.bytes := Nat.min_le_right _ _
    cases hover : decide (s.outCap.bytes < copies) with
    | true =>
      rw [hover] at h
      injection h with ht hr
      exact .inl ⟨by simp [← hr], List.replicate (min copies s.outCap.bytes) sym, by simp, ht.symm⟩
    | false =>
      rw [hover] at h
      injection h with ht hr
      refine .inr (.inl ⟨hr.symm, sym, _, rfl, hle, ?_⟩)
      rw [← ht, State.emitted, List.length_replicate]
      rfl
  | none =>
    rw [hroot] at h
    obtain ⟨l, hl, hout⟩ := walkPayload_out s s.payloadSize s.payloadStart s.walk0 (Nat.zero_le _)
    rw [show s.walk0.count = 0 from rfl, Nat.zero_add] at hl
    rcases hw : walkPayload s s.payloadSize s.payloadStart s.walk0 with ⟨w, r'⟩
    have hw' := hw
    rw [State.payloadSize, State.payloadStart, State.walk0] at hw'
    dsimp only at h
    rw [hw'] at h
    cases r' with
    | none =>
      injection h with ht hr
      exact .inr (.inr ⟨hr.symm, rfl, w, rfl, ht.symm⟩)
    | some e =>
      injection h with ht hr
      rw [hw] at hout
      exact .inl ⟨by simp [← hr], l, hl, by rw [← ht, hout]; rfl⟩

/-- A path to an entry that is no LEAF has at most 254 bits: it is a part of a code, and not all of it. -/
theorem State.TreeMade.inner_length (h : s.TreeMade) {d : Bits} {k : Nat} (hd : s.InnerPath d k) :
    d.length ≤ 254 := by
  obtain ⟨-, hcodes, -, hcover⟩ := h
  by_cases hne : d = []
  · simp [hne]
  · obtain ⟨sym, hs, hpre⟩ := hcover d k hd hne
    have hlt : d.length ≠ (s.codeOf sym).length := by
      intro he
      obtain ⟨r, hr, x, hx, hl⟩ := hcodes sym hs
      obtain ⟨r', hr', hk, hkl⟩ := hd
      obtain rfl : r = r' := Option.some.inj (hr.symm.trans hr')
      rw [← hpre.eq_of_length he, hk] at hx
      obtain rfl := Option.some.inj hx
      rw [hkl] at hl
      exact nomatch hl
    have hle := hpre.length_le
    have h256 := (s.codeLen.at sym).len.isLt
    rw [length_codeOf] at hlt hle
    omega

/-- What a payload walk that raised nothing gives (R182). -/
theorem walk0_inv (h : s.TreeMade) (hroot : s.rootLeaf = none) {w : Walk}
    (hw : walkPayload s s.payloadSize s.payloadStart s.walk0 = (w, none)) :
    ∃ l c d k, s.Spells l c ∧ s.InnerPath d k ∧ s.BitsAt s.payloadStart (c ++ d) ∧
      (c ++ d).length ≤ s.payloadSize ∧ w.out = Memory.writeBytes s.outMem 0 l ∧ w.count = l.length ∧
      w.depth = d.length ∧ w.examined = (c ++ d).length ∧ l.length ≤ s.outCap.bytes := by
  obtain ⟨r, hr⟩ := h.1
  have hrl := rootLeaf_none hr hroot
  obtain ⟨l, b, c, d, k, hspells, hinner, hb, hbits, hlen, hout, hcount, hdepth, hexam, hcap⟩ :=
    walkPayload_inv (p := []) hr hrl hr rfl hrl rfl (Nat.zero_le _) hw
  obtain rfl : b = c ++ d := hb
  have hcount' : w.count = l.length := by rw [hcount]; exact Nat.zero_add _
  exact ⟨l, c, d, k, hspells, hinner, hbits, hlen, hout, hcount', hdepth, by rw [hexam]; exact Nat.zero_add _,
    hcount' ▸ hcap⟩

/-- OUT_MEM bears on no product of a decoder chain that has not run DEC_PAYLOAD. -/
theorem State.Consistent.writeOut (h : s.Consistent) (ht : s.stage.tabV = true) (hd : s.stage.decV = false)
    {l : List Byte} (hl : l.length ≤ s.outCap.bytes) :
    ({ s with outMem := Memory.writeBytes s.outMem 0 l } : State).Consistent where
  memory := { h.memory with
    outWf := Memory.writeBytes_wf _ _ h.memory.outWf
    outWithin := Memory.writeBytes_within _ (by rwa [Nat.zero_add]) h.memory.outWithin }
  stage := { h.stage with }
  ranges := { h.ranges with }
  products := productsOk_of_decoder { h.stage with } ht
    ((h.products.tableMade ht).congr { HostSideKept.refl s with }
      ⟨rfl, rfl, rfl⟩ rfl rfl) h.products.dtree (fun hv => absurd hv (by simp [hd]))
    (fun hv => absurd hv (by simp [hd]))

/-- A payload of a container with a header has fewer than 2^31 bits. -/
theorem State.Consistent.payloadSize_lt (h : s.Consistent) (ht : s.stage.tabV = true) :
    s.payloadSize < 2 ^ 31 := by
  obtain ⟨l, hlen, -, hat, -⟩ := h.products.table ht
  have hpos := (entriesAt_bounds hat hlen).1
  have hin := h.stage.inRange (.inr ht)
  have hcap := bytes_le s.inCap
  rw [State.payloadSize]
  omega

theorem output_emitted (s : State) (l : List Byte) (p r : Nat) : (s.emitted l p r).output l.length = l :=
  (output_writeBytes (s := s) (t := s.emitted l p r) rfl rfl).1

theorem outLen_emitted {l : List Byte} (hl : l.length ≤ s.outCap.bytes) (p r : Nat) :
    (s.emitted l p r).outLen.toNat = l.length :=
  toNat_ofNat_of_le_cap hl

/-- Copies put out are what DEC_V vouches for with a LEAF as ROOT. -/
theorem copiesMade_emitted (sym : Byte) {n : Nat} (hn : n ≤ s.outCap.bytes) :
    (s.emitted (List.replicate n sym) 0 0).CopiesMade sym := by
  refine ⟨?_, rfl, rfl⟩
  rw [outLen_emitted (by rwa [List.length_replicate]), output_emitted, List.length_replicate]

/-- The symbols a walk put out are what DEC_V vouches for with no LEAF as ROOT. -/
theorem symbolsMade_emitted {l : List Byte} {c d : Bits} {k : Nat} (hspells : s.Spells l c)
    (hinner : s.InnerPath d k) (hbits : s.BitsAt s.payloadStart (c ++ d))
    (hsize : (c ++ d).length ≤ s.payloadSize) (hl : l.length ≤ s.outCap.bytes) (hp : (c ++ d).length < 2 ^ 31)
    (hr : d.length ≤ 254) : (s.emitted l (c ++ d).length d.length).SymbolsMade := by
  have hlen := outLen_emitted hl (c ++ d).length d.length
  refine ⟨l, c, d, k, (spells_congr ?_ ?_ _ _).2 hspells, hinner, hbits, hsize, ?_, hlen, ?_, ?_⟩
  · rfl
  · rfl
  · rw [hlen, output_emitted]
  · exact Nat.mod_eq_of_lt (by omega)
  · exact Nat.mod_eq_of_lt (by omega)

/-- Bytes put out keep the invariant where they are what DEC_V is to vouch for. -/
theorem consistent_emitted (h : s.Consistent) (htab : s.stage.tabV = true) (htree : s.TreeMade)
    {l : List Byte} {p r : Nat} (hl : l.length ≤ s.outCap.bytes) (hp : p < 2 ^ 31) (hr : r ≤ 254) {g : Stage}
    (hg : g.tabV = true) (hst : ({ s.emitted l p r with stage := g } : State).StageOk)
    (hsym : s.rootLeaf = none → (s.emitted l p r).SymbolsMade)
    (hcopies : ∀ sym, s.rootLeaf = some sym → (s.emitted l p r).CopiesMade sym) :
    ({ s.emitted l p r with stage := g } : State).Consistent where
  memory := { h.memory with
    outWf := Memory.writeBytes_wf _ _ h.memory.outWf
    outWithin := Memory.writeBytes_within _ (by rwa [Nat.zero_add]) h.memory.outWithin }
  stage := hst
  ranges := { h.ranges with
    outLen := (toNat_ofNat_of_le_cap hl).trans_le hl
    payloadBits := (Nat.mod_le _ _).trans_lt hp
    resid := (Nat.mod_le _ _).trans hr }
  products := productsOk_of_decoder hst hg
    ((h.products.tableMade htab).congr { HostSideKept.refl s with } ⟨rfl, rfl, rfl⟩ rfl rfl)
    (fun _ => htree)
    (fun _ hroot => by
      obtain ⟨l, c, d, k, hspells, hrest⟩ := hsym hroot
      exact ⟨l, c, d, k, (spells_congr (s := s.emitted _ p r) (by rfl) (by rfl) _ _).2 hspells, hrest⟩)
    (fun _ => hcopies)

/-- DEC_PAYLOAD keeps the invariant: its error leaves bytes of OUT_MEM alone, its end what DEC_V vouches for. -/
theorem consistent_stageDecPayload (h : s.Consistent) : (stageDecPayload s).1.Consistent := by
  refine consistent_runStage h (fun t e hm hb => ?_) fun t hm hl hb => ?_
  · have hi := h.invalidate hm
    rcases bodyDecPayload_cases hb with ⟨-, l, hl, rfl⟩ | ⟨hr, -⟩ | ⟨hr, -⟩
    · exact (hi.invalidate (op := .decPayload) (by simpa using Stage.meets_invalidate hm)).writeOut
        (h.stage.dtree hm) rfl hl
    · exact nomatch hr
    · exact nomatch hr
  · have hi := h.invalidate hm
    have htab := h.stage.dtree hm
    have htree : (s.invalidate .decPayload).TreeMade := h.products.dtree hm
    have hk := bodyKeeps_decPayload (s.invalidate .decPayload)
    rw [hb] at hk
    have hst := h.stage.mark hm hl hk fun hv => by
      rw [hk.stage] at hv
      exact absurd hv (by simp [Stage.invalidate, Stage.mark, (h.stage.noEncoder htab).1])
    rcases bodyDecPayload_cases hb with ⟨hr, -⟩ | ⟨-, sym, n, hroot, hn, rfl⟩ | ⟨-, hroot, w, hw, ht⟩
    · exact absurd rfl hr
    · refine consistent_emitted hi htab htree (by simpa using hn) (by omega) (by omega) htab hst
        (fun hno => nomatch hroot.symm.trans hno) (fun x hx => ?_)
      obtain rfl : sym = x := Option.some.inj (hroot.symm.trans hx)
      exact copiesMade_emitted sym hn
    · obtain ⟨l, c, d, k, hspells, hinner, hbits, hsize, hout, hcount, hdepth, hexam, hcap⟩ :=
        walk0_inv htree hroot hw
      have hd := htree.inner_length hinner
      have hlt := hsize.trans_lt (hi.payloadSize_lt htab)
      rw [hout, hcount, hdepth, hexam] at ht
      subst ht
      exact consistent_emitted hi htab htree hcap hlt hd htab hst
        (fun _ => symbolsMade_emitted hspells hinner hbits hsize hcap hlt hd)
        (fun x hx => nomatch hroot.symm.trans hx)

end Sys2Proof.Machine
end

section
/-! PROOFS. The invariant of the machine: every command, transaction and reset keeps it (10_state.md R29, R49;
40_common.md R140). -/

namespace Sys2Proof.Machine

variable {s t : State}

/-! ### Every command and every transaction keeps the invariant -/

theorem consistent_andThen {r : Result} {f : State → Result} (hr : r.1.Consistent)
    (hf : ∀ t : State, t.Consistent → (f t).1.Consistent) : (r.andThen f).1.Consistent := by
  obtain ⟨t, _ | e⟩ := r
  · exact hf t hr
  · exact hr

/-- Every command is a chain of stages, each of which keeps the invariant. -/
theorem consistent_resultOf (i : Instr) (h : s.Consistent) : (resultOf i s).1.Consistent := by
  cases i with
  | nop => exact h
  | clear => exact h.invalidate (op := .encFreq) rfl
  | encFreq => exact consistent_stageEncFreq h
  | encTree => exact consistent_stageEncTree h
  | encCodes => exact consistent_stageEncCodes h
  | encHeader => exact consistent_stageEncHeader h
  | encPayload => exact consistent_stageEncPayload h
  | encode =>
    exact consistent_andThen (consistent_andThen (consistent_andThen (consistent_andThen
      (consistent_stageEncFreq h) fun _ => consistent_stageEncTree) fun _ => consistent_stageEncCodes)
      fun _ => consistent_stageEncHeader) fun _ => consistent_stageEncPayload
  | decTable => exact consistent_stageDecTable h
  | decTree => exact consistent_stageDecTree h
  | decPayload => exact consistent_stageDecPayload h
  | decode =>
    exact consistent_andThen (consistent_andThen (consistent_stageDecTable h) fun _ => consistent_stageDecTree)
      fun _ => consistent_stageDecPayload

theorem State.Consistent.completed {r : Result} (h : r.1.Consistent) : r.completed.Consistent := by
  obtain ⟨t, _ | e⟩ := r <;> exact h.hostSide

/-- Completion leaves STATUS legal (R133, R222, R226). -/
theorem State.StatusOk.completed {r : Result} (h : r.1.StatusOk) : r.completed.StatusOk := by
  obtain ⟨t, _ | e⟩ := r
  · exact ⟨nofun, h.codeLegal, h.errCoded⟩
  · refine ⟨nofun, ?_, fun _ => ?_⟩
    · show e.code.toByte.toNat ≤ 0x0A
      cases e.code <;> decide
    · show e.code.toByte ≠ 0
      cases e.code <;> decide

theorem State.Ok.completed {r : Result} (h : r.1.Ok) : r.completed.Ok :=
  (State.Consistent.completed h.consistent).ok (.completed h.status)

/-- A stage leaves STATUS and ERR_INFO as they are. -/
theorem StageKeeps.statusOk (hk : StageKeeps s t) (h : s.StatusOk) : t.StatusOk where
  busyClean := by simpa only [hk.status, hk.errInfo] using h.busyClean
  codeLegal := by simpa only [hk.status] using h.codeLegal
  errCoded := by simpa only [hk.status] using h.errCoded

theorem ok_resultOf (i : Instr) (h : s.Ok) : (resultOf i s).1.Ok :=
  (consistent_resultOf i h.consistent).ok ((stageKeeps_resultOf i s).statusOk h.status)

/-- The result whose completion is the engine's step of the word in CMDL (R133, R135). -/
theorem engineStep_cases (s : State) :
    (∃ i, engineStep s = .next (resultOf i s).completed) ∨
      ∃ e, engineStep s = .next (Result.completed (s, some e)) := by
  unfold engineStep
  cases decode s.cmdl with
  | ok i => exact .inl ⟨i, exec_next i s⟩
  | error _ => exact .inr ⟨illegalErr s.cmdl, rfl⟩

/-- The engine's turn keeps the invariant: a completion, or nothing while idle. -/
theorem ok_engineTurn (h : s.Ok) (ht : engineTurn s = .next t) : t.Ok := by
  unfold engineTurn at ht
  split_ifs at ht
  · rcases engineStep_cases s with ⟨i, he⟩ | ⟨e, he⟩ <;> rw [he] at ht <;> cases ht
    · exact (ok_resultOf i h).completed
    · exact State.Ok.completed (r := (s, some e)) h
  · injection ht with ht
    exact ht ▸ h

/-- What the host may write of STATUS while idle or busy keeps it legal: it only clears (R27, R228). -/
theorem State.StatusOk.acknowledge (h : s.StatusOk) (v : Word) {r : Option Reply} :
    ({ s with status := s.status.acknowledge v, reply := r } : State).StatusOk := by
  refine ⟨fun hb => ?_, h.codeLegal, fun he => h.errCoded ?_⟩
  · obtain ⟨hd, he, hrest⟩ := h.busyClean hb
    exact ⟨by simp [Status.acknowledge, hd], by simp [Status.acknowledge, he], hrest⟩
  · simp only [Status.acknowledge, Bool.and_eq_true] at he
    exact he.1

/-- A host transaction keeps the invariant: what changes the input clears STAGE (R80). -/
theorem ok_transact (t : Txn) (h : s.Ok) : (transact t s).Ok := by
  have hc := h.consistent
  have cleared : ∀ u : State, u.MemoryOk → u.RangesOk → u.stage = Stage.none → u.StatusOk → u.Ok :=
    fun u hm hr hs hst => (consistent_of_stage_none hm hr hs).ok hst
  rcases transact_cases t s with ⟨r, n, e⟩ | ⟨-, v, e⟩ | ⟨v, e⟩ | ⟨v, e⟩ | ⟨-, e⟩ | ⟨-, v, e⟩ | ⟨-, v, e⟩ |
    ⟨-, a, l, hl, e⟩ <;> rw [e]
  · exact hc.hostSide.ok { h.status with }
  · exact hc.hostSide.ok ⟨fun _ => ⟨rfl, rfl, rfl, rfl, rfl⟩, Nat.zero_le _, nofun⟩
  · exact hc.hostSide.ok { h.status with }
  · exact hc.hostSide.ok (h.status.acknowledge v)
  · exact hc.hostSide.ok ⟨h.status.busyClean, h.status.codeLegal, h.status.errCoded⟩
  · exact cleared _ { h.memory with } { h.ranges with } rfl { h.status with }
  · exact hc.hostSide.ok { h.status with }
  · exact cleared _
      { h.memory with
        inWf := Memory.writeBytes_wf _ _ h.memory.inWf
        inWithin := Memory.writeBytes_within _ hl h.memory.inWithin } { h.ranges with } rfl { h.status with }

/-- The invariant holds at the values of R49, for any capacities, whatever the model's own fields hold. -/
theorem ok_reset (ic oc : Capacity) (is : List Input) (n m : Nat) :
    ({ State.reset with inCap := ic, outCap := oc, inputs := is, draws := n, resets := m } : State).Ok := by
  refine (consistent_of_stage_none ⟨rfl, rfl, rfl, rfl⟩ ?_ rfl).ok ⟨nofun, Nat.zero_le _, nofun⟩
  have hlen : ∀ sym, State.reset.codeLen.at sym = CodeLen.absent := Table.at_fill CodeLen.absent
  have hbits : ∀ sym, State.reset.codeBits.at sym = 0 := Table.at_fill 0
  constructor
  case absentLen => exact fun sym _ => congrArg CodeLen.len (hlen sym)
  case payloadBits => exact Nat.two_pow_pos 31
  case codeTail => exact fun sym i _ => by rw [hbits]; simp
  all_goals exact Nat.zero_le _

/-- Every step keeps the invariant, by whose move it is. -/
theorem ok_step (h : s.Ok) (ht : step s = .next t) : t.Ok := by
  have popped : ∀ is : List Input, ({ s with inputs := is } : State).Ok := fun is =>
    h.consistent.hostSide.ok { h.status with }
  unfold step at ht
  split at ht
  · exact ok_engineTurn h ht
  · injection ht with ht
    exact ht ▸ ok_transact _ (popped _)
  · exact ok_engineTurn (popped _) ht
  · injection ht with ht
    exact ht ▸ ok_reset _ _ _ _ _

/-- Settles O59: stages, completion, host transactions and reset keep the invariant. -/
theorem stepKeepsTheMachineConsistent : Obligations.StepKeepsTheMachineConsistent :=
  fun _ _ => ok_step

/-- Settles O60: the invariant holds at the values of R49 for any capacities. -/
theorem resetIsConsistent : Obligations.ResetIsConsistent :=
  ok_reset _ _ _ _ _

end Sys2Proof.Machine
end

section
/-! PROOFS. The register map, the words and writes of registers, CTRL under a running command, and reset
(10_state.md R23 to R42, R49). -/

namespace Sys2Proof.Machine

variable {s : State}

/-! ### The register map (R23, R39) -/

/-- An aligned offset that is no register's holds none. -/
theorem regAt_eq_none {off : Nat} (h4 : off % 4 = 0) (h : ∀ r : Reg, r.offset ≠ off) : regAt off = none := by
  cases hr : regAt off with
  | none => rfl
  | some r => exact absurd (offset_of_regAt h4 hr) (h r)

/-- An aligned access of a reserved offset reads 0 and ignores what is written. -/
theorem transact_reserved {off : Nat} (hlt : off < 0x40000000) (h4 : off % 4 = 0) (hr : regAt off = none)
    (v : Word) :
    transact (.read .b4 (BitVec.ofNat 32 off)) s = s.answer (.data 0) ∧
      transact (.write .b4 (BitVec.ofNat 32 off) v) s = s.answer .okay := by
  have hlegal : regAccessLegal .b4 off = true := by simp [regAccessLegal, h4]
  rw [transact, transact, regionOf_reg hlt, offsetOf_reg hlt]
  simp only [readRegion, writeRegion, hlegal, hr, if_true, and_self]

/-- Settles O45: a register is found at its offset, and what stands at an offset has it. -/
theorem registerMapIsExact : Obligations.RegisterMapIsExact :=
  ⟨fun r => (regAt_offset r).1, fun _ _ v hlt h4 h => transact_reserved hlt h4 (regAt_eq_none h4 h) v⟩

/-! ### Words of registers (R24 to R42) -/

/-- A bit of a code is a bit of its 256-bit entry, from the top, and 0 from LEN on. -/
theorem codeOf_getD (hs : s.RangesOk) (sym : Byte) (i : Nat) :
    (s.codeOf sym).getD i false = (s.codeBits.at sym).getMsbD i := by
  by_cases hi : i < (s.codeLen.at sym).len.toNat
  · simp [State.codeOf, firstBits, hi]
  · rw [hs.codeTail sym i (by omega), List.getD_eq_default _ _ (by rw [length_codeOf]; omega)]

/-- Bit `31 - i mod 32` of word `i div 32` is bit `i` of the entry from the top (R42, R9). -/
theorem readReg_codeBits_getLsbD (s : State) (sym : Byte) (i : Fin 256) :
    (s.readReg (.codeBits sym (Fin.ofNat 8 (i.val / 32)))).getLsbD (31 - i.val % 32) =
      (s.codeBits.at sym).getMsbD i.val := by
  have hi := i.isLt
  have hw : (Fin.ofNat 8 (i.val / 32)).val = i.val / 32 := by rw [Fin.val_ofNat]; omega
  have hpos : 32 * (7 - i.val / 32) + (31 - i.val % 32) = 256 - 1 - i.val := by omega
  rw [State.readReg, hw, BitVec.getLsbD_extractLsb', hpos, BitVec.getMsbD]
  simp [hi, show 31 - i.val % 32 < 32 by omega]

/-- Settles O48: the word's bit is the entry's, and the entry's is the code's. -/
theorem codeBitsReadMostSignificantFirst : Obligations.CodeBitsReadMostSignificantFirst :=
  fun s sym i h => by rw [readReg_codeBits_getLsbD, codeOf_getD h.ranges]

/-- CTRL bit by bit (R25). -/
theorem ctrl_toWord_getLsbD (c : Ctrl) (k : Nat) :
    c.toWord.getLsbD k = ((k == 0 && c.ie) || (k == 1 && c.limitEn)) := by
  rw [Ctrl.toWord]
  change BitVec.getLsbD (w := 30 + 1 + 1) _ k = _
  simp only [BitVec.getLsbD_append, BitVec.getLsbD_ofBool]
  rcases k with _ | _ | k <;> simp

/-- STATUS bit by bit (R27). -/
theorem status_toWord_getLsbD (t : Status) (k : Nat) :
    t.toWord.getLsbD k =
      ((k == 0 && t.busy) || (k == 1 && t.done) || (k == 2 && t.err) ||
        (k == 3 && t.wrBusy) ||
        (decide (8 ≤ k ∧ k < 16) && t.errCode.getLsbD (k - 8)) ||
        (decide (16 ≤ k ∧ k < 24) && t.errOp.getLsbD (k - 16))) := by
  rw [Status.toWord]
  change BitVec.getLsbD (w := 8 + 8 + 8 + 4 + 1 + 1 + 1 + 1) _ k = _
  simp only [BitVec.getLsbD_append, BitVec.getLsbD_ofBool]
  rcases k with _ | _ | _ | _ | k <;> simp
  grind

/-- STAGE bit by bit (R29). -/
theorem stage_toWord_getLsbD (g : Stage) (k : Nat) :
    g.toWord.getLsbD k =
      ((k == 0 && g.freqV) || (k == 1 && g.treeV) || (k == 2 && g.codesV) ||
        (k == 3 && g.hdrV) || (k == 4 && g.payV) || (k == 8 && g.tabV) ||
        (k == 9 && g.dtreeV) || (k == 10 && g.decV)) := by
  rw [Stage.toWord]
  change BitVec.getLsbD (w := 21 + 1 + 1 + 1 + 3 + 1 + 1 + 1 + 1 + 1) _ k = _
  simp only [BitVec.getLsbD_append, BitVec.getLsbD_ofBool]
  rcases k with _ | _ | _ | _ | _ | _ | _ | _ | _ | _ | _ | k <;> simp

/-- CODE_LEN[s] bit by bit (R41). -/
theorem codeLen_toWord_getLsbD (c : CodeLen) (k : Nat) :
    c.toWord.getLsbD k = ((decide (k < 8) && c.len.getLsbD k) || (k == 8 && c.present)) := by
  rw [CodeLen.toWord]
  change BitVec.getLsbD (w := 23 + 1 + 8) _ k = _
  simp only [BitVec.getLsbD_append, BitVec.getLsbD_ofBool]
  grind

/-- NSYM bit by bit (R33). -/
theorem nsym_getLsbD (n : BitVec 9) (k : Nat) :
    (n.setWidth 32).getLsbD k = (decide (k < 9) && n.getLsbD k) := by
  rw [BitVec.getLsbD_setWidth]
  by_cases hk : k < 9
  · simp [hk, show k < 32 by omega]
  · simp [hk, BitVec.getLsbD_of_ge n k (by omega)]

/-- NODES fits its register (R37). -/
theorem nodes_toNat (h : s.RangesOk) : (BitVec.ofNat 32 s.nodes).toNat = s.nodes := by
  have := h.nodes
  rw [BitVec.toNat_ofNat, Nat.mod_eq_of_lt (by omega)]

/-- Settles O47: each word with fields bit by bit, each capacity and NODES within its register, the others as
stored. -/
theorem registerWordsHaveTheirLayout : Obligations.RegisterWordsHaveTheirLayout :=
  fun _ _ => ⟨rfl, rfl, ctrl_toWord_getLsbD _, status_toWord_getLsbD _, stage_toWord_getLsbD _,
    nsym_getLsbD _, codeLen_toWord_getLsbD _, toNat_ofNat_of_le_cap le_rfl,
    toNat_ofNat_of_le_cap le_rfl, rfl, rfl, rfl, rfl, rfl, rfl, rfl,
    fun h => nodes_toNat h.ranges, rfl⟩

/-! ### Writes of registers (R25 to R32, R73) -/

/-- Settles O49: each write is its case of `writeReg`. -/
theorem registerWritesStoreOrAreIgnored : Obligations.RegisterWritesStoreOrAreIgnored := by
  refine ⟨fun s v hb => ⟨?_, ?_, ?_, ?_⟩, fun s r v h1 h2 h3 h4 h5 => ?_⟩ <;> rw [transact_writesReg]
  · rfl
  · rfl
  · simp [writeReg, hb]
  · simp [writeReg, hb]
  · cases r with
    | ctrl => exact absurd rfl h1
    | cmd => exact absurd rfl h2
    | status => exact absurd rfl h3
    | inLen => exact absurd rfl h4
    | outLimit => exact absurd rfl h5
    | _ => rfl

/-! ### CTRL and the running command (R25, R249) -/

/-- A CTRL write is a patch of the fields no command reads. -/
theorem transact_ctrl_eq_patch (s : State) (v : Word) :
    transact (writesReg .ctrl v) s =
      s.patch (Ctrl.ofWord v) s.status s.errInfo (some .okay) s.inputs := by
  rw [transact_writesReg]
  rfl

/-- Completion and a CTRL write touch different fields. -/
theorem completed_ctrl (r : Result) (v : Word) :
    Result.completed (transact (writesReg .ctrl v) r.1, r.2) = transact (writesReg .ctrl v) r.completed := by
  simp only [transact_ctrl_eq_patch]
  obtain ⟨t, _ | e⟩ := r <;> rfl

/-- A command's result does not depend on CTRL, and keeps it. -/
theorem resultOf_ctrl (i : Instr) (s : State) (v : Word) :
    resultOf i (transact (writesReg .ctrl v) s) =
      (transact (writesReg .ctrl v) (resultOf i s).1, (resultOf i s).2) := by
  have hk := stageKeeps_resultOf i s
  rw [transact_ctrl_eq_patch, patches_resultOf, transact_ctrl_eq_patch, hk.status, hk.errInfo, hk.host.inputs]

/-- Settles O54: the CTRL write passes through the command's result and through its completion. -/
theorem runningCommandIgnoresCtrl : Obligations.RunningCommandIgnoresCtrl := by
  intro s t v _ ht
  have hcmdl : (transact (writesReg .ctrl v) s).cmdl = s.cmdl := by rw [transact_writesReg]; rfl
  unfold engineStep at ht ⊢
  rw [hcmdl]
  cases hd : decode s.cmdl with
  | ok i =>
    rw [hd] at ht
    rw [eq_of_exec ht, ← completed_ctrl, ← resultOf_ctrl]
    exact exec_next i _
  | error _ =>
    rw [hd] at ht
    rw [complete_eq_next ht, ← completed_ctrl]
    rfl

/-! ### Reset (R49, R240) -/

/-- The registers with fields read 0 after reset. -/
theorem readReg_resetMachine (s : State) : (resetMachine s).readReg .ctrl = 0 ∧
    (resetMachine s).readReg .status = 0 ∧ (resetMachine s).readReg .stage = 0 := by
  have hwords : State.reset.ctrl.toWord = 0 ∧ State.reset.status.toWord = 0 ∧ State.reset.stage.toWord = 0 := by
    decide
  exact hwords

theorem freqReset_resetMachine (s : State) : (resetMachine s).FreqReset :=
  ⟨Table.at_fill 0, rfl⟩

theorem codeReset_resetMachine (s : State) : (resetMachine s).CodeReset :=
  ⟨Table.at_fill CodeLen.absent, Table.at_fill 0, rfl⟩

/-- Settles O56: the state after the reset is `resetMachine`, each of whose registers has the value of R49. -/
theorem resetSetsEveryRegister : Obligations.ResetSetsEveryRegister := by
  intro s rest hs
  obtain ⟨hctrl, hstatus, hstage⟩ := readReg_resetMachine { s with inputs := rest }
  exact ⟨resetMachine { s with inputs := rest }, by rw [step, hs], rfl, hctrl, hstatus, rfl, hstage, rfl, rfl,
    freqReset_resetMachine _, ⟨rfl, rfl⟩, codeReset_resetMachine _, ⟨rfl, ⟨rfl, rfl, rfl⟩⟩, rfl, rfl, rfl, rfl, rfl,
    rfl, fun _ => rfl, fun _ => rfl, Nat.succ_ne_self s.resets⟩

end Sys2Proof.Machine
end

section
/-! PROOFS. The accesses the host port grants, the bytes they read and write, and what no transaction writes
(20_memory.md R70 to R82, 70_reset_and_hazards.md R246). -/

namespace Sys2Proof.Machine

variable {s : State}

/-! ### Granted and refused accesses (R72 to R76) -/

/-- The port's own decision whether to grant an access, by region (R72, R74, R75, R76). -/
def State.grants (s : State) : Txn → Bool
  | .read size addr =>
    match regionOf addr with
    | .reg => regAccessLegal size (offsetOf addr)
    | .input => memAccessLegal s.inCap.bytes size (offsetOf addr)
    | .output => memAccessLegal s.outCap.bytes size (offsetOf addr)
    | .absent => false
  | .write size addr _ =>
    match regionOf addr with
    | .reg => regAccessLegal size (offsetOf addr)
    | .input => memAccessLegal s.inCap.bytes size (offsetOf addr)
    | .output => false
    | .absent => false

/-- The port answered, and not with BUSERR. -/
def State.Granted (u : State) : Prop := ∃ r, u.reply = some r ∧ r ≠ .busErr

theorem granted_okay {u : State} (h : u.reply = some .okay) : u.Granted := ⟨.okay, h, nofun⟩

theorem granted_answer_data (w : Word) : (s.answer (.data w)).Granted := ⟨.data w, rfl, nofun⟩

theorem granted_answerDraw (size : Size) : (s.answerDraw size).Granted := ⟨_, rfl, nofun⟩

/-- A register write is answered OKAY, stored, dropped or ignored (R73, R132). -/
theorem writeReg_reply (r : Reg) (v : Word) (s : State) : (writeReg r v s).reply = some .okay := by
  cases r with
  | cmd => dsimp only [writeReg]; split <;> rfl
  | inLen => dsimp only [writeReg]; split <;> rfl
  | outLimit => dsimp only [writeReg]; split <;> rfl
  | _ => rfl

/-- An access that is not granted is answered BUSERR and nothing else happens (R223). -/
theorem transact_of_refused {t : Txn} (h : s.grants t = false) : transact t s = s.answer .busErr := by
  cases t with
  | read size addr =>
    rw [State.grants] at h
    rw [transact]
    cases hr : regionOf addr with
    | absent => rfl
    | _ => rw [hr] at h; simp only [readRegion, readIn, readOut, h, Bool.false_eq_true, if_false]
  | write size addr v =>
    rw [State.grants] at h
    rw [transact]
    cases hr : regionOf addr with
    | output => rfl
    | absent => rfl
    | _ => rw [hr] at h; simp only [writeRegion, writeIn, h, Bool.false_eq_true, if_false]

/-- A granted access is answered OKAY, with data or without. -/
theorem granted_transact {t : Txn} (h : s.grants t = true) : (transact t s).Granted := by
  cases t with
  | read size addr =>
    rw [State.grants] at h
    rw [transact]
    cases hr : regionOf addr with
    | reg =>
      rw [hr] at h
      simp only [readRegion, h, if_true]
      split
      · exact granted_answer_data 0
      · split
        · exact granted_answerDraw size
        · exact granted_answer_data _
    | input =>
      rw [hr] at h
      simp only [readIn, h, if_true]
      exact granted_answer_data _
    | output =>
      rw [hr] at h
      simp only [readOut, h, if_true]
      split
      · exact granted_answerDraw size
      · exact granted_answer_data _
    | absent => rw [hr] at h; cases h
  | write size addr v =>
    rw [State.grants] at h
    rw [transact]
    cases hr : regionOf addr with
    | reg =>
      rw [hr] at h
      simp only [writeRegion, h, if_true]
      split
      · exact granted_okay rfl
      · exact granted_okay (writeReg_reply _ v s)
    | input =>
      rw [hr] at h
      simp only [writeIn, h, if_true]
      split <;> exact granted_okay rfl
    | output => rw [hr] at h; cases h
    | absent => rw [hr] at h; cases h

theorem regAccessLegal_iff (size : Size) (off : Nat) :
    regAccessLegal size off = true ↔ size = .b4 ∧ off % 4 = 0 := by simp [regAccessLegal]

theorem memAccessLegal_iff (cap : Nat) (size : Size) (off : Nat) :
    memAccessLegal cap size off = true ↔ off % size.bytes = 0 ∧ off + size.bytes ≤ cap := by
  simp [memAccessLegal]

/-- An access of a memory by its address: the base of a region is aligned for every size. -/
theorem memAccessLegal_sub {cap : Nat} {size : Size} {x base : Nat} (hb : base % 4 = 0) (hle : base ≤ x) :
    memAccessLegal cap size (x - base) = true ↔ ¬ (x % size.bytes ≠ 0 ∨ cap < x - base + size.bytes) := by
  have hmod : (x - base) % size.bytes = x % size.bytes := by
    rcases size_bytes size with h | h | h <;> rw [h] <;> omega
  rw [memAccessLegal_iff, hmod]
  omega

/-- Where an address lies: its range, its region and its offset (R71). -/
theorem region_cases (addr : Word) :
    (addr.toNat < 0x40000000 ∧ regionOf addr = .reg ∧ offsetOf addr = addr.toNat) ∨
    (0x40000000 ≤ addr.toNat ∧ addr.toNat < 0x80000000 ∧ regionOf addr = .input ∧
      offsetOf addr = addr.toNat - 0x40000000) ∨
    (0x80000000 ≤ addr.toNat ∧ addr.toNat < 0xC0000000 ∧ regionOf addr = .output ∧
      offsetOf addr = addr.toNat - 0x80000000) ∨
    (0xC0000000 ≤ addr.toNat ∧ regionOf addr = .absent) := by
  have hlt := addr.isLt
  rw [regionOf_eq, offsetOf_eq]
  split_ifs with h1 h2 h3
  · exact .inl ⟨h1, rfl, by omega⟩
  · exact .inr (.inl ⟨by omega, h2, rfl, by omega⟩)
  · exact .inr (.inr (.inl ⟨by omega, h3, rfl, by omega⟩))
  · exact .inr (.inr (.inr ⟨by omega, rfl⟩))

/-- The port grants an access exactly where the address ranges of the rules do not refuse it. -/
theorem grants_iff (s : State) (t : Txn) : s.grants t = true ↔ ¬ s.Refuses t := by
  cases t with
  | read size addr =>
    rw [State.grants, State.Refuses]
    rcases region_cases addr with ⟨h, hr, ho⟩ | ⟨h, h', hr, ho⟩ | ⟨h, h', hr, ho⟩ | ⟨h, hr⟩ <;> rw [hr]
    · have hlow : ¬ 0x40000000 ≤ addr.toNat ∧ ¬ 0x80000000 ≤ addr.toNat ∧ ¬ 0xC0000000 ≤ addr.toNat := by omega
      simp [ho, regAccessLegal_iff, h, hlow]
    · simp only [ho, memAccessLegal_sub rfl h]
      omega
    · simp only [ho, memAccessLegal_sub rfl h]
      omega
    · simp [h]
  | write size addr v =>
    rw [State.grants, State.Refuses]
    rcases region_cases addr with ⟨h, hr, ho⟩ | ⟨h, h', hr, ho⟩ | ⟨h, -, hr, -⟩ | ⟨h, hr⟩ <;> rw [hr]
    · have hlow : ¬ 0x40000000 ≤ addr.toNat ∧ ¬ 0x80000000 ≤ addr.toNat := by omega
      simp [ho, regAccessLegal_iff, h, hlow]
    · simp only [ho, memAccessLegal_sub rfl h]
      omega
    · simp [h]
    · simp [show 0x80000000 ≤ addr.toNat by omega]

/-- Settles O44: what the ranges refuse is what the port does not grant, and that alone is answered BUSERR. -/
theorem refusedAccessesGetBusErr : Obligations.RefusedAccessesGetBusErr := by
  intro s t
  refine ⟨fun h => transact_of_refused ?_, fun h => granted_transact ((grants_iff s t).2 h)⟩
  rw [← Bool.not_eq_true, grants_iff]
  exact not_not_intro h

/-! ### Accesses of the memories (R74, R75, R77) -/

/-- An offset within a capacity lies in its region. -/
theorem offset_lt_region {size : Size} {a : Nat} {c : Capacity} (h : a + size.bytes ≤ c.bytes) : a < 0x40000000 := by
  have hcap := capacity_bytes_le c
  rcases size_bytes size with hz | hz | hz <;> omega

theorem transact_read_inAddr {size : Size} {a : Nat} (h4 : a % size.bytes = 0) (h : a + size.bytes ≤ s.inCap.bytes) :
    transact (.read size (inAddr a)) s =
      s.answer (.data (littleEndian ((List.range size.bytes).map fun k => s.inByte (a + k)))) := by
  have hlt := offset_lt_region h
  rw [transact, regionOf_inAddr hlt, offsetOf_inAddr hlt]
  exact if_pos ((memAccessLegal_iff _ _ _).2 ⟨h4, h⟩)

theorem transact_write_inAddr {size : Size} {a : Nat} (v : Word) (h4 : a % size.bytes = 0)
    (h : a + size.bytes ≤ s.inCap.bytes) :
    transact (.write size (inAddr a) v) s =
      if s.status.busy then s.dropWrite
      else { s with inMem := Memory.writeBytes s.inMem a (bytesOfWord size.bytes v)
                    stage := Stage.none
                    reply := some .okay } := by
  have hlt := offset_lt_region h
  rw [transact, regionOf_inAddr hlt, offsetOf_inAddr hlt]
  exact if_pos ((memAccessLegal_iff _ _ _).2 ⟨h4, h⟩)

theorem transact_read_outAddr {size : Size} {a : Nat} (h4 : a % size.bytes = 0)
    (h : a + size.bytes ≤ s.outCap.bytes) :
    transact (.read size (outAddr a)) s =
      if s.status.busy then s.answerDraw size
      else s.answer (.data (littleEndian ((List.range size.bytes).map fun k => s.outByte (a + k)))) := by
  have hlt := offset_lt_region h
  rw [transact, regionOf_outAddr hlt, offsetOf_outAddr hlt]
  exact if_pos ((memAccessLegal_iff _ _ _).2 ⟨h4, h⟩)

/-- Byte `k` of the word that a read of `n` bytes answers (R70, R77). -/
theorem littleEndian_range_byte (f : Nat → Byte) (size : Size) {k : Nat} (hk : k < 4) :
    (littleEndian ((List.range size.bytes).map f)).extractLsb' (8 * k) 8 = if k < size.bytes then f k else 0 := by
  have hlen : ((List.range size.bytes).map f).length ≤ 4 := by cases size <;> simp [Size.bytes]
  rw [littleEndian_byte _ _ hlen hk]
  split_ifs with h
  · simp [h]
  · simp [h]

/-- The bytes of IN_MEM after a row of writes: the written ones, and around them those that stood there. -/
theorem inByte_writeBytes (s : State) (a : Nat) (l : List Byte) (b : Nat) :
    ({ s with inMem := Memory.writeBytes s.inMem a l } : State).inByte b =
      if a ≤ b then l[b - a]?.getD (s.inByte b) else s.inByte b := by
  simp only [State.inByte, Memory.stored_writeBytes]
  split_ifs
  · cases l[b - a]? <;> rfl
  · rfl

/-- Settles O51: a granted write while idle is a row of writes of the word's low bytes. -/
theorem inputWritesAreLittleEndian : Obligations.InputWritesAreLittleEndian := by
  intro s size a v hb h4 h
  refine ⟨Memory.writeBytes s.inMem a (bytesOfWord size.bytes v), ?_, fun k hk => ?_, fun b hout => ?_⟩
  · simp [transact_write_inAddr v h4 h, hb]
  · rw [inByte_writeBytes, if_pos (Nat.le_add_right a k), Nat.add_sub_cancel_left, bytesOfWord_get _ _ hk]
    rfl
  · rw [inByte_writeBytes]
    split_ifs with hle
    · rw [List.getElem?_eq_none (by rw [length_bytesOfWord]; omega)]
      rfl
    · rfl

/-- Settles O52: a granted read puts the bytes together, and OUT_MEM while busy answers a draw. -/
theorem memoryReadsAreLittleEndian : Obligations.MemoryReadsAreLittleEndian := by
  intro s size a h4
  exact ⟨fun h => ⟨_, transact_read_inAddr h4 h, fun k hk => littleEndian_range_byte _ size hk⟩,
    fun h hb => ⟨_, (transact_read_outAddr h4 h).trans (if_neg (by simp [hb])),
      fun k hk => littleEndian_range_byte _ size hk⟩,
    fun h hb => ⟨_, _, (transact_read_outAddr h4 h).trans (if_pos hb)⟩⟩

/-! ### Reads of registers (R73, R246) -/

/-- A register read is answered with the stored word, unless it is one that is unspecified while busy. -/
theorem transact_readsReg_specified {r : Reg} (h : s.status.busy = false ∨ r.unspecifiedWhileBusy = false) :
    transact (readsReg r) s = s.answer (.data (s.readReg r)) := by
  rw [transact_readsReg, if_neg (by simpa [← Bool.not_eq_true, imp_iff_not_or] using h)]

theorem transact_readsReg_unspecified {r : Reg} (hb : s.status.busy = true) (h : r.unspecifiedWhileBusy = true) :
    transact (readsReg r) s = s.answerDraw .b4 := by
  rw [transact_readsReg, hb, h]
  rfl

/-- STATUS while busy: BUSY and WR_BUSY alone (R131, R246). -/
theorem State.StatusOk.readReg_busy (h : s.StatusOk) (hb : s.status.busy = true) :
    s.readReg .errInfo = 0 ∧ s.readReg .status = if s.status.wrBusy then 0x00000009 else 0x00000001 := by
  obtain ⟨hdone, herr, hcode, hop, hinfo⟩ := h.busyClean hb
  refine ⟨hinfo, ?_⟩
  rw [State.readReg, Status.toWord, hb, hdone, herr, hcode, hop]
  cases s.status.wrBusy <;> rfl

/-- Settles O46: the registers of each list are specified while busy, or not. -/
theorem registerReadsHaveNoSideEffect : Obligations.RegisterReadsHaveNoSideEffect := by
  intro s r
  refine ⟨fun hb => transact_readsReg_specified (.inl hb), fun hr => transact_readsReg_specified (.inr ?_),
    fun hr hb => ⟨_, s.draws + 1, transact_readsReg_unspecified hb ?_⟩, fun h hb => h.readReg_busy hb⟩
  · rcases hr with rfl | rfl | rfl | rfl | rfl | rfl | rfl | rfl | rfl <;> rfl
  · rcases hr with rfl | rfl | rfl | rfl | rfl | rfl | rfl | ⟨_, rfl | rfl | ⟨_, rfl⟩⟩ <;> rfl

/-! ### What no transaction writes (R79, R81, R38) -/

/-- What no transaction writes: the products, OUT_MEM and the parameters. -/
structure EngineSideKept (s t : State) : Prop where
  freq        : FreqKept s t
  tree        : TreeKept s t
  code        : CodeKept s t
  hdrLen      : t.hdrLen = s.hdrLen
  outLen      : t.outLen = s.outLen
  payloadBits : t.payloadBits = s.payloadBits
  resid       : t.resid = s.resid
  outMem      : OutKept s t
  inCap       : t.inCap = s.inCap
  outCap      : t.outCap = s.outCap

/-- The host's registers, IN_MEM, STATUS, ERR_INFO, STAGE, what accept latches and the port's record are not of the
engine's side. -/
theorem engineSideKept_host (s : State) {c : Ctrl} {st : Status} {e n o w : Word} {g : Stage} {b : Bool} {m : Memory}
    {r : Option Reply} {d : Nat} :
    EngineSideKept s { s with ctrl := c, status := st, errInfo := e, stage := g, inLen := n, outLimit := o,
                              cmdl := w, limsnap := b, inMem := m, reply := r, draws := d } :=
  ⟨⟨rfl, rfl⟩, ⟨rfl, rfl⟩, ⟨rfl, rfl, rfl⟩, rfl, rfl, rfl, rfl, fun _ => rfl, rfl, rfl⟩

theorem engineSideKept_transact (t : Txn) (s : State) : EngineSideKept s (transact t s) := by
  rcases transact_cases t s with ⟨r, n, e⟩ | ⟨-, v, e⟩ | ⟨v, e⟩ | ⟨v, e⟩ | ⟨-, e⟩ | ⟨-, v, e⟩ | ⟨-, v, e⟩ |
    ⟨-, a, l, -, e⟩ <;> rw [e] <;> exact engineSideKept_host s

/-- A transaction leaves STAGE or clears it (R80). -/
theorem transact_stage (t : Txn) (s : State) :
    (transact t s).stage = s.stage ∨ (transact t s).stage = Stage.none := by
  rcases transact_cases t s with ⟨r, n, e⟩ | ⟨-, v, e⟩ | ⟨v, e⟩ | ⟨v, e⟩ | ⟨-, e⟩ | ⟨-, v, e⟩ | ⟨-, v, e⟩ |
    ⟨-, a, l, -, e⟩ <;> rw [e]
  · exact .inl rfl
  · exact .inl rfl
  · exact .inl rfl
  · exact .inl rfl
  · exact .inl rfl
  · exact .inr rfl
  · exact .inl rfl
  · exact .inr rfl

theorem stage_none_toWord : Stage.none.toWord = 0 := by decide

/-- Settles O53: the products are of the engine's side, and STAGE is kept or cleared. -/
theorem hostNeverWritesProducts : Obligations.HostNeverWritesProducts := by
  intro s t
  obtain ⟨hfreq, htree, hcode, hhdr, hlen, hbits, hresid, hout, hic, hoc⟩ := engineSideKept_transact t s
  refine ⟨hfreq, htree, hcode, hhdr, hlen, hbits, hresid, hout, hic, hoc, fun hne => ?_⟩
  rw [(transact_stage t s).resolve_left hne.symm, stage_none_toWord]

end Sys2Proof.Machine
end

section
/-! PROOFS. Every step keeps both memories in canonical form within their capacities
(20_memory.md R79, R88). -/

namespace Sys2Proof.Machine

variable {s t : State}

/-! ### What a command writes to OUT_MEM (R79, R88) -/

/-- OUT_MEM of `t` is that of `s` with one row of bytes, perhaps empty, written within OUT_CAP. -/
def WritesRow (s t : State) : Prop :=
  ∃ a l, a + l.length ≤ s.outCap.bytes ∧ t.outMem = Memory.writeBytes s.outMem a l

theorem writesRow_of_eq (h : t.outMem = s.outMem) : WritesRow s t :=
  ⟨0, [], Nat.zero_le _, h⟩

/-- A row written within OUT_CAP, and nothing else of the memories, keeps their invariant. -/
theorem State.MemoryOk.writesRow (h : s.MemoryOk) (hk : HostSideKept s t) (hw : WritesRow s t) : t.MemoryOk := by
  obtain ⟨a, l, hl, ho⟩ := hw
  constructor
  case inWf => rw [hk.inMem]; exact h.inWf
  case inWithin => rw [hk.inMem, hk.inCap]; exact h.inWithin
  case outWf => rw [ho]; exact Memory.writeBytes_wf l a h.outWf
  case outWithin => rw [ho, hk.outCap]; exact Memory.writeBytes_within l hl h.outWithin

theorem writesRow_encCodes (s : State) : WritesRow s (bodyEncCodes s).1 := by
  refine writesRow_of_eq ?_
  unfold bodyEncCodes
  split
  · rfl
  · rename_i k _
    obtain ⟨cl, cb, h⟩ := walkCodes_same s.arena s.arena.length k [] s
    rw [h]

theorem writesRow_encHeader (s : State) : WritesRow s (bodyEncHeader s).1 := by
  rcases hb : bodyEncHeader s with ⟨t, _ | e⟩
  · obtain ⟨hn, hfit⟩ := (bodyEncHeader_inv hb).2 rfl
    rw [bodyEncHeader_ok hn hfit] at hb
    injection hb with hb
    subst hb
    refine ⟨0, _, ?_, rfl⟩
    rw [headerSize_eq] at hfit
    rw [List.length_cons]
    omega
  · exact writesRow_of_eq (bodyEncHeader_outMem hb)

theorem writesRow_encPayload (s : State) : WritesRow s (bodyEncPayload s).1 := by
  rcases hb : bodyEncPayload s with ⟨t, _ | e⟩
  · have hfit := (bodyEncPayload_inv hb).2 rfl
    rw [bodyEncPayload_ok hfit] at hb
    injection hb with hb
    subst hb
    exact ⟨_, _, by rwa [length_pack], rfl⟩
  · exact writesRow_of_eq (bodyEncPayload_outMem hb)

theorem writesRow_decPayload (s : State) : WritesRow s (bodyDecPayload s).1 := by
  rcases hb : bodyDecPayload s with ⟨t, r⟩
  rcases bodyDecPayload_cases hb with ⟨-, l, hl, rfl⟩ | ⟨-, sym, n, -, hn, rfl⟩ | ⟨-, -, w, hw, rfl⟩
  · exact ⟨0, l, by rwa [Nat.zero_add], rfl⟩
  · exact ⟨0, List.replicate n sym, by rwa [Nat.zero_add, List.length_replicate], rfl⟩
  · obtain ⟨l, hl, ho⟩ := walkPayload_out s s.payloadSize s.payloadStart s.walk0 (Nat.zero_le _)
    rw [hw] at ho
    exact ⟨0, l, hl, ho⟩

/-! ### Commands keep the memories in order -/

/-- A stage keeps the memories in order where its body writes one row within OUT_CAP. -/
theorem memoryOk_runStage {op : StageOp} {body : State → State × Option Raise}
    (hk : ∀ s, BodyKeeps s (body s).1) (hw : ∀ s, WritesRow s (body s).1) (h : s.MemoryOk) :
    (runStage op body s).1.MemoryOk := by
  have hbody : (body (s.invalidate op)).1.MemoryOk := (h.invalidate op).writesRow (hk _).host (hw _)
  rcases runStage_cases op body s with ⟨-, e⟩ | ⟨-, -, -, e⟩ | ⟨-, -, t, r, hb, e⟩ | ⟨-, -, t, hb, e⟩ <;> rw [e]
  · exact h
  · exact h
  · rw [hb] at hbody
    exact hbody.invalidate op
  · rw [hb] at hbody
    exact { hbody with }

theorem memoryOk_encFreq (h : s.MemoryOk) : (stageEncFreq s).1.MemoryOk :=
  memoryOk_runStage bodyKeeps_encFreq (fun _ => writesRow_of_eq rfl) h

theorem memoryOk_encTree (h : s.MemoryOk) : (stageEncTree s).1.MemoryOk :=
  memoryOk_runStage bodyKeeps_encTree (fun _ => writesRow_of_eq rfl) h

theorem memoryOk_encCodes (h : s.MemoryOk) : (stageEncCodes s).1.MemoryOk :=
  memoryOk_runStage bodyKeeps_encCodes writesRow_encCodes h

theorem memoryOk_encHeader (h : s.MemoryOk) : (stageEncHeader s).1.MemoryOk :=
  memoryOk_runStage bodyKeeps_encHeader writesRow_encHeader h

theorem memoryOk_encPayload (h : s.MemoryOk) : (stageEncPayload s).1.MemoryOk :=
  memoryOk_runStage bodyKeeps_encPayload writesRow_encPayload h

theorem memoryOk_decTable (h : s.MemoryOk) : (stageDecTable s).1.MemoryOk :=
  memoryOk_runStage bodyKeeps_decTable (fun u => writesRow_of_eq (bodyDecTable_outMem u)) h

theorem memoryOk_decTree (h : s.MemoryOk) : (stageDecTree s).1.MemoryOk :=
  memoryOk_runStage bodyKeeps_decTree (fun _ => writesRow_of_eq rfl) h

theorem memoryOk_decPayload (h : s.MemoryOk) : (stageDecPayload s).1.MemoryOk :=
  memoryOk_runStage bodyKeeps_decPayload writesRow_decPayload h

theorem memoryOk_andThen {r : Result} {f : State → Result} (hr : r.1.MemoryOk)
    (hf : ∀ t : State, t.MemoryOk → (f t).1.MemoryOk) : (r.andThen f).1.MemoryOk := by
  obtain ⟨t, _ | e⟩ := r
  · exact hf t hr
  · exact hr

/-- Every command keeps the memories in order, from every state that has them so. -/
theorem memoryOk_resultOf (i : Instr) (h : s.MemoryOk) : (resultOf i s).1.MemoryOk := by
  cases i with
  | nop => exact h
  | clear => exact h.invalidate .encFreq
  | encFreq => exact memoryOk_encFreq h
  | encTree => exact memoryOk_encTree h
  | encCodes => exact memoryOk_encCodes h
  | encHeader => exact memoryOk_encHeader h
  | encPayload => exact memoryOk_encPayload h
  | encode =>
    exact memoryOk_andThen (memoryOk_andThen (memoryOk_andThen (memoryOk_andThen (memoryOk_encFreq h)
      fun _ => memoryOk_encTree) fun _ => memoryOk_encCodes) fun _ => memoryOk_encHeader) fun _ => memoryOk_encPayload
  | decTable => exact memoryOk_decTable h
  | decTree => exact memoryOk_decTree h
  | decPayload => exact memoryOk_decPayload h
  | decode =>
    exact memoryOk_andThen (memoryOk_andThen (memoryOk_decTable h) fun _ => memoryOk_decTree)
      fun _ => memoryOk_decPayload

theorem State.MemoryOk.completed {r : Result} (h : r.1.MemoryOk) : r.completed.MemoryOk :=
  h.writesRow (hostSideKept_completed r) (writesRow_of_eq (completed_outMem r))

/-! ### Every step keeps the memories in order -/

/-- The machine's invariant rule: every step keeps what each agent's move keeps, if taking a move off the list does. -/
theorem step_keeps {P : State → Prop} (pop : ∀ u is, P u → P { u with inputs := is })
    (command : ∀ i u, P u → P (resultOf i u).1) (completed : ∀ r : Result, P r.1 → P r.completed)
    (host : ∀ x u, P u → P (transact x u)) (reset : ∀ u, P u → P (resetMachine u)) (h : P s)
    (ht : step s = .next t) : P t := by
  have turn : ∀ u, P u → engineTurn u = .next t → P t := fun u hu hut => by
    unfold engineTurn at hut
    split_ifs at hut
    · rcases engineStep_cases u with ⟨i, he⟩ | ⟨e, he⟩ <;> rw [he] at hut <;> cases hut
      · exact completed _ (command i u hu)
      · exact completed (u, some e) hu
    · cases hut
      exact hu
  unfold step at ht
  split at ht
  · exact turn s h ht
  · cases ht
    exact host _ _ (pop _ _ h)
  · exact turn _ (pop _ _ h) ht
  · cases ht
    exact reset _ (pop _ _ h)

/-- A host transaction writes IN_MEM within IN_CAP, and OUT_MEM not at all (R74, R79). -/
theorem memoryOk_transact (x : Txn) (h : s.MemoryOk) : (transact x s).MemoryOk := by
  rcases transact_cases x s with ⟨r, n, e⟩ | ⟨-, v, e⟩ | ⟨v, e⟩ | ⟨v, e⟩ | ⟨-, e⟩ | ⟨-, v, e⟩ | ⟨-, v, e⟩ |
    ⟨-, a, l, hl, e⟩ <;> rw [e]
  any_goals exact h.congr rfl rfl rfl rfl
  exact { h with
    inWf := Memory.writeBytes_wf l a h.inWf
    inWithin := Memory.writeBytes_within l hl h.inWithin }

/-- Reset lists no byte. -/
theorem memoryOk_resetMachine (s : State) : (resetMachine s).MemoryOk := ⟨rfl, rfl, rfl, rfl⟩

/-- Settles O57: commands, completion, transactions and reset keep the memories in order. -/
theorem stepKeepsMemoryInBounds : Obligations.StepKeepsMemoryInBounds := fun _ _ =>
  step_keeps (fun _ _ h => { h with }) (fun i _ => memoryOk_resultOf i) (fun _ => State.MemoryOk.completed)
    (fun x _ => memoryOk_transact x) fun u _ => memoryOk_resetMachine u

end Sys2Proof.Machine
end

section
/-! The words of the opcode map (30_encoding.md R100 to R103): a word decodes to a command exactly when it is that
command's word. -/

namespace Sys2Proof

/-- The two fields of R100 are the whole word. -/
theorem toWord_ofWord (w : Word) : (Cmd32.ofWord w).toWord = w := by
  have hjoin : w.extractLsb' 8 24 ++ w.extractLsb' 0 8 = w.extractLsb' 0 32 :=
    BitVec.extractLsb'_append_extractLsb'_eq_extractLsb' rfl
  exact hjoin.trans BitVec.extractLsb'_eq_self

/-- The per-command lemmas, as one. -/
theorem encoding_statement (i : Instr) : Laws.Encoding.Statement i := by
  cases i with
  | nop => exact Laws.Encoding.nop
  | clear => exact Laws.Encoding.clear
  | encFreq => exact Laws.Encoding.encFreq
  | encTree => exact Laws.Encoding.encTree
  | encCodes => exact Laws.Encoding.encCodes
  | encHeader => exact Laws.Encoding.encHeader
  | encPayload => exact Laws.Encoding.encPayload
  | encode => exact Laws.Encoding.encode
  | decTable => exact Laws.Encoding.decTable
  | decTree => exact Laws.Encoding.decTree
  | decPayload => exact Laws.Encoding.decPayload
  | decode => exact Laws.Encoding.decode

theorem decode_encode (i : Instr) : decode (encode i) = .ok i := by
  obtain ⟨-, -, -, hdec⟩ := encoding_statement i
  exact hdec

/-- A word that decodes has RSVD = 0 and the opcode of its command. -/
theorem ofWord_of_decode {w : Word} {i : Instr} (h : decode w = .ok i) :
    Cmd32.ofWord w = { rsvd := 0, op := i.opcode } := by
  by_cases hr : w.extractLsb' 8 24 = 0
  · cases hl : opcodeMap.lookup (w.extractLsb' 0 8) with
    | none => simp [decode_zero hr, hl] at h
    | some j =>
      have hij : j = i := by simpa [decode_zero hr, hl] using h
      rw [Cmd32.ofWord, hr, lookup_opcode _ _ hl, hij]
  · simp [decode_reserved hr] at h

theorem encode_of_decode {w : Word} {i : Instr} (h : decode w = .ok i) : encode i = w := by
  rw [encode, ← ofWord_of_decode h, toWord_ofWord]

theorem decode_eq_ok_iff {w : Word} {i : Instr} : decode w = .ok i ↔ encode i = w :=
  ⟨encode_of_decode, fun h => h ▸ decode_encode i⟩

/-- Settles O2: RSVD and OP are the whole word, so the word of a decoded command has the bits it was decoded from. -/
theorem encodeAndDecodeAgree : Obligations.EncodeAndDecodeAgree :=
  ⟨fun i _ => decode_encode i, fun _ _ => encode_of_decode⟩

theorem mem_opcodeMap (i : Instr) : (i.opcode, i) ∈ opcodeMap := by cases i <;> decide

/-- The opcode map, each command with its whole word, holds a pair exactly when the word is the command's. -/
theorem mem_wordMap {w : Word} {i : Instr} :
    (w, i) ∈ opcodeMap.map (fun r => (encode r.2, r.2)) ↔ encode i = w := by
  constructor
  · intro h
    obtain ⟨r, -, hr⟩ := List.mem_map.1 h
    cases hr
    rfl
  · rintro rfl
    exact List.mem_map.2 ⟨_, mem_opcodeMap i, rfl⟩

/-- Settles O1: the rows written out in the statement are the opcode map with each command's own word. -/
theorem decodesExactlyTheOpcodeMap : Obligations.DecodesExactlyTheOpcodeMap :=
  ⟨fun _ _ => decode_eq_ok_iff.trans mem_wordMap.symm,
    fun _ => ⟨decode_reserved, decode_unknown, decode_known⟩⟩

/-- Settles O3: seven fixed words, each evaluated. -/
theorem wordsOfTheTableDecode : Obligations.WordsOfTheTableDecode := by
  unfold Obligations.WordsOfTheTableDecode
  decide

end Sys2Proof
end

section
/-! PROOFS. Steps and the life of a command (10_state.md R20, 40_common.md R130 to R135, R141), and the writes the
host makes while one runs (R132, 70_reset_and_hazards.md R247). -/

namespace Sys2Proof.Machine

variable {s : State} {rest : List Input}

/-! ### One step by its next move (log 1, log 2) -/

theorem step_of_nil (h : s.inputs = []) : step s = engineTurn s := by rw [step, h]

theorem step_of_host {x : Txn} (h : s.inputs = .host x :: rest) :
    step s = .next (transact x { s with inputs := rest }) := by rw [step, h]

theorem step_of_engine (h : s.inputs = .engine :: rest) : step s = engineTurn { s with inputs := rest } := by
  rw [step, h]

theorem step_of_reset (h : s.inputs = .reset :: rest) : step s = .next (resetMachine { s with inputs := rest }) := by
  rw [step, h]

/-! ### The engine's turn (R130, R133) -/

theorem engineTurn_of_idle (h : s.status.busy = false) : engineTurn s = .next s :=
  if_neg (by simp [h])

theorem engineTurn_of_busy (h : s.status.busy = true) : engineTurn s = engineStep s := if_pos h

theorem engineTurn_of_decode {i : Instr} (hb : s.status.busy = true) (hd : decode s.cmdl = .ok i) :
    engineTurn s = exec i s := by rw [engineTurn_of_busy hb, engineStep, hd]

theorem decodeTableWord_eq_some {nbits w : Nat} {i : Instr} (h : decodeTableWord nbits w = some i) :
    decode (tableWord nbits w) = .ok i := by
  unfold decodeTableWord at h
  split at h
  · rename_i j hj
    cases h
    exact hj
  · cases h

/-- Settles O4: the engine's move, or no move left, is the engine's turn, which runs what CMDL decodes to; after
`withFetchWord` CMDL is the word and the engine's move is the next. -/
theorem stepRunsTheDecodedCommand : Obligations.StepRunsTheDecodedCommand := fun _ _ _ hb hd =>
  ⟨fun h => (step_of_engine h).trans (engineTurn_of_decode hb hd),
    fun h => (step_of_nil h).trans (engineTurn_of_decode hb hd),
    fun u nbits w hw =>
      (step_of_engine (s := u.withFetchWord nbits w) (rest := u.inputs) rfl).trans
        (engineTurn_of_decode (s := u.accept (tableWord nbits w)) rfl (decodeTableWord_eq_some hw))⟩

/-- Settles O5: each clause is one case of the step, the last two with an engine's turn while idle. -/
theorem otherMovesAreOneStepEach : Obligations.OtherMovesAreOneStepEach := fun _ _ =>
  ⟨fun _ => step_of_host, step_of_reset, fun hb h => (step_of_engine h).trans (engineTurn_of_idle hb),
    fun hb h => (step_of_nil h).trans (engineTurn_of_idle hb)⟩

/-! ### Completion (R133, R134) -/

/-- BUSY = 0 and DONE = 1 after completion, with an error or without. -/
theorem completed_idle_done (r : Result) : r.completed.status.busy = false ∧ r.completed.status.done = true := by
  obtain ⟨t, _ | e⟩ := r <;> exact ⟨rfl, rfl⟩

@[simp] theorem completed_wrBusy (r : Result) : r.completed.status.wrBusy = r.1.status.wrBusy := by
  obtain ⟨t, _ | e⟩ := r <;> rfl

/-- The engine's turn answers a next state, in which a command in flight has completed. -/
theorem engineTurn_completes (s : State) : ∃ t, engineTurn s = .next t ∧
    (s.status.busy = true → t.status.busy = false ∧ t.status.done = true) := by
  cases hb : s.status.busy with
  | false => exact ⟨s, engineTurn_of_idle hb, nofun⟩
  | true =>
    rw [engineTurn_of_busy hb]
    rcases engineStep_cases s with ⟨i, h⟩ | ⟨e, h⟩
    · exact ⟨_, h, fun _ => completed_idle_done _⟩
    · exact ⟨_, h, fun _ => completed_idle_done _⟩

/-- Settles O8: by the next move; a host's or a reset is none of the moves that complete a command. -/
theorem everyStepAnswersAndCommandsComplete : Obligations.EveryStepAnswersAndCommandsComplete := by
  intro s
  cases hin : s.inputs with
  | nil =>
    obtain ⟨t, ht, hdone⟩ := engineTurn_completes s
    exact ⟨t, (step_of_nil hin).trans ht, fun hb _ => hdone hb⟩
  | cons move rest =>
    cases move with
    | host x => exact ⟨_, step_of_host hin, by simp⟩
    | reset => exact ⟨_, step_of_reset hin, by simp⟩
    | engine =>
      obtain ⟨t, ht, hdone⟩ := engineTurn_completes { s with inputs := rest }
      exact ⟨t, (step_of_engine hin).trans ht, fun hb _ => hdone hb⟩

/-- Settles O9: a command's result keeps the host's side and STATUS, and completion changes only the outcome. -/
theorem commandsKeepTheHostSide : Obligations.CommandsKeepTheHostSide := fun i s =>
  have hnext := exec_next i s
  have ⟨hbusy, hdone⟩ := completed_idle_done (resultOf i s)
  ⟨_, hnext, hostSideKept_exec hnext, hbusy, hdone, by rw [completed_wrBusy, (stageKeeps_resultOf i s).status]⟩

/-- Settles O11: NOP's result is the state itself. -/
theorem nopOnlyCompletes : Obligations.NopOnlyCompletes := ⟨rfl, fun _ => rfl⟩

/-! ### Host writes while idle and while busy (R131, R132, R247) -/

theorem transact_cmd_of_idle (hb : s.status.busy = false) (w : Word) :
    transact (writesReg .cmd w) s = (s.accept w).answer .okay := by
  rw [transact_writesReg, writeReg, if_neg (by simp [hb])]

/-- DONE and ERR are clear after an accept, so the interrupt is deasserted (R229). -/
theorem irq_accept_answer (s : State) (w : Word) (r : Reply) : ((s.accept w).answer r).irq = false := by
  simp [State.irq]

/-- Settles O6: the write is an accept with an OKAY reply. -/
theorem acceptLatchesTheWord : Obligations.AcceptLatchesTheWord := fun s w hb => by
  rw [transact_cmd_of_idle hb]
  exact ⟨rfl, irq_accept_answer s w .okay⟩

/-- The registers a running command depends on are not written while it runs. -/
theorem transact_of_busy (hb : s.status.busy = true) {r : Reg} (hr : r = .cmd ∨ r = .inLen ∨ r = .outLimit)
    (v : Word) : transact (writesReg r v) s = s.dropWrite := by
  rw [transact_writesReg]
  rcases hr with rfl | rfl | rfl <;> exact if_pos hb

/-- Settles O50: three registers and IN_MEM drop the write while busy; CTRL and STATUS do not look at BUSY. -/
theorem writesWhileBusy : Obligations.WritesWhileBusy := fun s v _ _ hb =>
  ⟨fun _ hr => transact_of_busy hb hr v,
    fun h4 hcap => (transact_write_inAddr v h4 hcap).trans (if_pos hb),
    transact_writesReg .ctrl v s, transact_writesReg .status v s⟩

end Sys2Proof.Machine
end

section
/-! PROOFS. Invalidation row by row, CLEAR, and what a failed stage leaves (40_common.md R137, R138, R142). -/

namespace Sys2Proof.Machine

variable {s t : State}

/-! ### The product groups at their reset values (R137) -/

theorem freqReset_of_fill (hf : s.freq = Table.fill 0) (hn : s.nsym = 0) : s.FreqReset :=
  ⟨fun sym => by rw [hf, Table.at_fill], hn⟩

theorem codeReset_of_fill (hl : s.codeLen = Table.fill CodeLen.absent) (hb : s.codeBits = Table.fill 0)
    (ho : s.order = []) : s.CodeReset :=
  ⟨fun sym => by rw [hl, Table.at_fill, CodeLen.absent], fun sym => by rw [hb, Table.at_fill], ho⟩

/-- CLEAR's invalidation resets STAGE and all five groups. -/
theorem invalidateAll_resets (s : State) : s.invalidateAll.stage.toWord = 0 ∧ s.invalidateAll.FreqReset ∧
    s.invalidateAll.TreeReset ∧ s.invalidateAll.CodeReset ∧ s.invalidateAll.OutputReset :=
  ⟨stage_none_toWord, freqReset_of_fill rfl rfl, ⟨rfl, rfl⟩, codeReset_of_fill rfl rfl rfl, rfl, rfl, rfl, rfl⟩

theorem outKept_of_eq (hm : t.outMem = s.outMem) (hr : t.resets = s.resets) : OutKept s t :=
  congrFun (outByte_congr hm hr)

theorem outKept_invalidate (s : State) (op : StageOp) : OutKept s (s.invalidate op) :=
  outKept_of_eq (invalidate_outMem s op) (invalidate_resets s op)

/-- Settles O13: the frame of every row, the two rows that are CLEAR's, and the others one by one. -/
theorem invalidationFollowsTheTable : Obligations.InvalidationFollowsTheTable := by
  intro s
  refine ⟨fun op => ⟨hostSideKept_invalidate s op, outKept_invalidate s op, invalidate_status s op,
    invalidate_errInfo s op⟩, rfl, fun op hop => ?all, ?encTree, ?encCodes, ?encHeader, ?encPayload, ?decTree,
    ?decPayload⟩
  case all => rcases hop with rfl | rfl <;> exact invalidateAll_resets s
  case encTree | encCodes =>
    exact ⟨rfl, ⟨rfl, rfl⟩, ⟨rfl, rfl⟩, codeReset_of_fill rfl rfl rfl, rfl, rfl, rfl, rfl⟩
  case encHeader | encPayload | decTree | decPayload =>
    exact ⟨rfl, ⟨rfl, rfl⟩, ⟨rfl, rfl⟩, ⟨rfl, rfl, rfl⟩, rfl, rfl, rfl, rfl⟩

/-- Settles O12: CLEAR is its invalidation, completed. -/
theorem clearResetsTheProducts : Obligations.ClearResetsTheProducts := by
  refine ⟨rfl, fun s => ⟨s.invalidateAll.finish, rfl, ?_⟩⟩
  obtain ⟨hstage, hfreq, htree, hcode, hhdr, hpay⟩ := invalidateAll_resets s
  exact ⟨hstage, { hfreq with }, { htree with }, { hcode with }, ⟨hhdr, { hpay with }⟩,
    endsOk_completed (stageKeeps_invalidateAll s), outKept_invalidate s .encFreq⟩

/-! ### A stage that fails in its body (R138, R226) -/

/-- The body of each stage (R150 to R157, R180 to R182). -/
def bodyOf : StageOp → State → State × Option Raise
  | .encFreq => bodyEncFreq
  | .encTree => bodyEncTree
  | .encCodes => bodyEncCodes
  | .encHeader => bodyEncHeader
  | .encPayload => bodyEncPayload
  | .decTable => bodyDecTable
  | .decTree => bodyDecTree
  | .decPayload => bodyDecPayload

theorem resultOf_of_stageOf {i : Instr} {op : StageOp} (h : stageOf i = some op) (s : State) :
    resultOf i s = runStage op (bodyOf op) s := by
  cases i <;> cases h <;> rfl

theorem invalidateAll_invalidateAll (s : State) : s.invalidateAll.invalidateAll = s.invalidateAll := by
  simp only [State.invalidateAll_eq]

theorem invalidate_invalidate (s : State) (op : StageOp) : (s.invalidate op).invalidate op = s.invalidate op := by
  cases op with
  | encFreq => exact invalidateAll_invalidateAll s
  | encTree => simp only [invalidate_encTree_eq, Stage.invalidate]
  | encCodes => simp only [invalidate_encCodes_eq, Stage.invalidate]
  | decTable => exact invalidateAll_invalidateAll s
  | _ => rfl

/-- What a body that raised had written, its invalidation resets, but for OUT_MEM. -/
theorem invalidate_of_raise {op : StageOp} {r : Raise} (h : bodyOf op s = (t, some r)) :
    t.invalidate op = { s.invalidate op with outMem := t.outMem } := by
  have raised : (bodyOf op s).2 = some r := by rw [h]
  cases op with
  | encFreq => cases raised
  | encTree => cases raised
  | encCodes => exact absurd (raised.symm.trans (bodyEncCodes_raise s)) nofun
  | encHeader => rw [(bodyEncHeader_inv h).1 nofun]; rfl
  | encPayload => rw [(bodyEncPayload_inv h).1 nofun]; rfl
  | decTable =>
    have hinv := bodyDecTable_invalidate s
    rw [show bodyDecTable s = (t, some r) from h] at hinv
    rw [hinv, ← invalidate_outMem t .decTable, hinv]
  | decTree =>
    have hinv := bodyDecTree_invalidate s
    rw [show bodyDecTree s = (t, some r) from h] at hinv
    rw [hinv, ← invalidate_outMem t .decTree, hinv]
  | decPayload =>
    rcases bodyDecPayload_cases h with ⟨-, l, -, rfl⟩ | ⟨hr, -⟩ | ⟨hr, -⟩
    · rfl
    · cases hr
    · cases hr

/-- Only DEC_PAYLOAD may have written OUT_MEM when it raises. -/
theorem outMem_of_raise {op : StageOp} {r : Raise} (h : bodyOf op s = (t, some r)) (hop : op ≠ .decPayload) :
    t.outMem = s.outMem := by
  have raised : (bodyOf op s).2 = some r := by rw [h]
  have hmem : (bodyOf op s).1.outMem = t.outMem := by rw [h]
  cases op with
  | encFreq => cases raised
  | encTree => cases raised
  | encCodes => exact absurd (raised.symm.trans (bodyEncCodes_raise s)) nofun
  | encHeader => exact bodyEncHeader_outMem h
  | encPayload => exact bodyEncPayload_outMem h
  | decTable => exact hmem.symm.trans (bodyDecTable_outMem s)
  | decTree => exact hmem.symm
  | decPayload => exact absurd rfl hop

/-- No body that raises has written at or beyond OUT_CAP (R79). -/
theorem stored_of_raise {op : StageOp} {r : Raise} (h : bodyOf op s = (t, some r)) {a : Nat}
    (ha : s.outCap.bytes ≤ a) : Memory.stored t.outMem a = Memory.stored s.outMem a := by
  by_cases hop : op = .decPayload
  · subst hop
    have hst := bodyDecPayload_stored s ha
    rwa [show bodyDecPayload s = (t, some r) from h] at hst
  · rw [outMem_of_raise h hop]

/-- Completion writes STATUS and ERR_INFO only (R133, R226). -/
theorem completed_eq (r : Result) :
    r.completed = { r.1 with status := r.completed.status, errInfo := r.completed.errInfo } := by
  obtain ⟨t, _ | e⟩ := r <;> rfl

/-- A stage command that newly ends with an error, neither of its wrapper's own two, has raised in its body. -/
theorem exec_raise {i : Instr} {op : StageOp} (hi : stageOf i = some op) (hs : s.status.err = false)
    (ht : exec i s = .next t) (herr : t.status.err = true) (hseq : t.status.errCode ≠ ErrCode.sequence.toByte)
    (hlen : t.status.errCode ≠ ErrCode.inLenRange.toByte) :
    ∃ w r e, bodyOf op (s.invalidate op) = (w, some r) ∧ t = Result.completed (w.invalidate op, some e) := by
  have hkeep := (stageKeeps_resultOf i s).status
  cases eq_of_exec ht
  rw [resultOf_of_stageOf hi] at hkeep herr hseq hlen ⊢
  rcases runStage_cases op (bodyOf op) s with ⟨-, h⟩ | ⟨-, -, -, h⟩ | ⟨-, -, w, r, hw, h⟩ | ⟨-, -, w, -, h⟩ <;>
    rw [h] at hkeep herr hseq hlen ⊢
  · exact absurd rfl hseq
  · exact absurd rfl hlen
  · exact ⟨w, r, _, hw, rfl⟩
  · exact absurd (herr.symm.trans ((congrArg Status.err hkeep).trans hs)) nofun

/-- Settles O16: the invalidation after the raise resets what the body wrote, but for OUT_MEM. -/
theorem failedStageLeavesNoProduct : Obligations.FailedStageLeavesNoProduct := by
  intro i op s t hi hs ht herr hseq hlen
  have hresets := (hostSideKept_exec ht).resets
  obtain ⟨w, r, e, hw, rfl⟩ := exec_raise hi hs ht herr hseq hlen
  have hmem : (Result.completed (w.invalidate op, some e)).outMem = w.outMem := by simp
  refine ⟨?_, fun hop => outKept_of_eq ?_ hresets, fun a ha => ?_⟩
  · rw [hmem]
    refine (completed_eq _).trans ?_
    rw [invalidate_of_raise hw, invalidate_invalidate]
  · rw [hmem, outMem_of_raise hw hop, invalidate_outMem]
  · have hcap : (s.invalidate op).outCap.bytes ≤ a := by
      rw [invalidate_outCap]
      exact ha.resolve_left (Nat.not_lt_zero a)
    rw [State.outByte, State.outByte, hmem, hresets, stored_of_raise hw hcap, invalidate_outMem]

end Sys2Proof.Machine
end

section
/-! PROOFS. The bit packer and the bit reader (40_common.md R143, R144). -/

namespace Sys2Proof.Machine

/-- A byte after a row of writes, by whether it lies in the row. -/
theorem stored_writeBytes_range (m : Memory) (a : Nat) (l : List Byte) (b : Nat) :
    Memory.stored (Memory.writeBytes m a l) b =
      if a ≤ b ∧ b < a + l.length then l[b - a]? else Memory.stored m b := by
  rw [Memory.stored_writeBytes]
  by_cases hle : a ≤ b
  · by_cases hlt : b < a + l.length
    · rw [if_pos hle, if_pos ⟨hle, hlt⟩, List.getElem?_eq_getElem (by omega), Option.some_or]
    · rw [if_pos hle, if_neg (by omega), List.getElem?_eq_none (by omega), Option.none_or]
  · rw [if_neg hle, if_neg (by omega)]

/-- Settles O42: the bits of the packed bytes, and a row of writes of `ceil8 |c|` bytes. -/
theorem packIsMostSignificantBitFirst : Obligations.PackIsMostSignificantBitFirst := by
  intro c m a
  refine ⟨length_pack c, fun j k hj hk => ?_, fun b => ?_⟩
  · have hbit := pack_bit c (8 * j + k) (by rw [length_pack]; omega)
    rwa [show (8 * j + k) / 8 = j by omega, show (8 * j + k) % 8 = k by omega] at hbit
  · rw [stored_writeBytes_range, length_pack]

/-- Bit `i` of what ReadBits gives. -/
theorem getElem_readBits (byte : Nat → Byte) (a : Nat) {n i : Nat} (h : i < (readBits byte a n).length) :
    (readBits byte a n)[i] = (byte (a + i / 8)).getLsbD (7 - i % 8) := by
  simp [readBits]

/-- Settles O43: bit by bit; the bits that `c` occupies are those of its packed bytes, whatever follows them. -/
theorem readBitsTakesBackWhatPackWrote : Obligations.ReadBitsTakesBackWhatPackWrote := by
  intro byte a c
  refine ⟨fun n i hi => ?_, length_readBits byte a, fun hbits => ?_⟩
  · rw [List.getD_eq_getElem _ _ (by rwa [length_readBits]), getElem_readBits]
  · refine List.ext_getElem (length_readBits byte a _) fun i hread hi => ?_
    have hpacked : i < 8 * (pack c).length := by
      rw [length_pack]
      exact hi.trans_le (le_eight_mul_ceil8 _)
    rw [getElem_readBits, hbits i hi, pack_bit c i hpacked, List.getD_eq_getElem _ _ hi]

end Sys2Proof.Machine
end

section
/-! PROOFS. Composites as chains of their stages (40_common.md R139), and the shape of a stage command that ends well
(R133, R138). -/

namespace Sys2Proof.Machine

variable {s : State}

/-! ### Chains of commands (R139) -/

/-- The completion of a command does not show to the next one. -/
theorem exec_finish (i : Instr) (s : State) : exec i s.finish = exec i s := by
  rw [exec_next, exec_next, completed_after_finish]

/-- The commands `is` after a result, up to the first that raises. -/
def Result.thenAll (r : Result) (is : List Instr) : Result := is.foldl (fun r i => r.andThen (resultOf i)) r

theorem Result.thenAll_some (is : List Instr) (s : State) (e : Err) :
    Result.thenAll (s, some e) is = (s, some e) := by
  induction is with
  | nil => rfl
  | cons i is ih => exact ih

/-- A chain of commands completes as the chain of their results. -/
theorem execChain_eq_thenAll (i : Instr) (is : List Instr) (s : State) (hs : s.status.err = false) :
    execChain (i :: is) s = complete ((resultOf i s).thenAll is) := by
  induction is generalizing i s with
  | nil =>
    rw [execChain_cons i _ s hs]
    rcases resultOf i s with ⟨t, _ | e⟩ <;> rfl
  | cons j is ih =>
    have hkeep := (stageKeeps_resultOf i s).status
    rw [execChain_cons i _ s hs]
    rcases hr : resultOf i s with ⟨t, _ | e⟩
    · rw [hr] at hkeep
      have ht : t.status.err = false := (congrArg Status.err hkeep).trans hs
      calc execChain (j :: is) t.finish
        _ = execChain (j :: is) t := by rw [execChain, execChain, exec_finish]
        _ = complete ((resultOf j t).thenAll is) := ih j t ht
    · rw [Result.thenAll_some]
      rfl

/-- Settles O17: both composites are the chains of their stages' results. -/
theorem compositesRunTheirStages : Obligations.CompositesRunTheirStages := by
  intro s hs
  rw [execChain_eq_thenAll _ _ s hs, execChain_eq_thenAll _ _ s hs, exec_eq, exec_eq]
  exact ⟨rfl, rfl⟩

/-! ### A stage command that ends without error (R133, R138) -/

theorem bodyKeeps_bodyOf (op : StageOp) (s : State) : BodyKeeps s (bodyOf op s).1 := by
  cases op with
  | encFreq => exact bodyKeeps_encFreq s
  | encTree => exact bodyKeeps_encTree s
  | encCodes => exact bodyKeeps_encCodes s
  | encHeader => exact bodyKeeps_encHeader s
  | encPayload => exact bodyKeeps_encPayload s
  | decTable => exact bodyKeeps_decTable s
  | decTree => exact bodyKeeps_decTree s
  | decPayload => exact bodyKeeps_decPayload s

/-- The state a stage command leaves whose body left `u` and raised nothing. -/
def State.endStage (u : State) (op : StageOp) : State := State.finish { u with stage := u.stage.mark op }

/-- A stage command whose checks pass and whose body raises nothing. -/
theorem exec_ok {i : Instr} {op : StageOp} {u : State} (hi : stageOf i = some op) (hm : s.stage.meets op = true)
    (hl : op.checksInLen = true → s.inLen.toNat ≤ s.inCap.bytes)
    (hb : bodyOf op (s.invalidate op) = (u, none)) :
    exec i s = .next (u.endStage op) ∧ (u.endStage op).stage = (s.stage.invalidate op).mark op ∧
      EndsOk s (u.endStage op) := by
  have hkeep := bodyKeeps_bodyOf op (s.invalidate op)
  rw [hb] at hkeep
  refine ⟨?_, ?_, ?_⟩
  · rw [exec_next, resultOf_of_stageOf hi, runStage_ok hm hl hb]
    rfl
  · show u.stage.mark op = _
    rw [hkeep.stage, invalidate_stage]
  · exact endsOk_completed (stageKeeps_stage _ ((stageKeeps_invalidate s op).trans hkeep.stageKeeps))

/-- What ENC_FREQ's body leaves of the products after its invalidation. -/
theorem bodyEncFreq_invalidate (s : State) : ∃ u, bodyEncFreq (s.invalidate .encFreq) = (u, none) ∧
    u.TreeReset ∧ u.CodeReset ∧ u.OutputReset ∧ u.outMem = s.outMem := by
  obtain ⟨-, -, htree, hcode, hout⟩ := invalidateAll_resets s
  exact ⟨_, rfl, { htree with }, { hcode with }, ⟨hout.hdrLen, { hout.pay with }⟩, rfl⟩

/-- Settles O18: the counts are of the input, and the invalidation has reset the rest. -/
theorem encFreqCountsTheInput : Obligations.EncFreqCountsTheInput := by
  intro s hlen
  obtain ⟨u, hb, htree, hcode, hout, hmem⟩ := bodyEncFreq_invalidate s
  obtain ⟨hnext, hstage, hends⟩ := exec_ok (i := .encFreq) (op := .encFreq) rfl rfl (fun _ => hlen) hb
  obtain ⟨hcount, hnsym⟩ := counted_encFreq hb
  exact ⟨_, hnext, hcount, hnsym, hstage, { htree with }, { hcode with }, ⟨hout.hdrLen, { hout.pay with }⟩, hends,
    outKept_of_eq hmem hends.host.resets⟩

end Sys2Proof.Machine
end

section
/-! PROOFS. ENC_TREE: the merges of its arena (41_encoder.md R151, R152), and the shape of its tree (R153). -/

namespace Sys2Proof.Machine

variable {s t : State}

/-! ### The merges (R151, R152) -/

/-- ENC_TREE's next state: the tree of the counts, and every later product of the encoder reset. -/
theorem exec_encTree (h : s.stage.freqV = true) : ∃ t, exec .encTree s = .next t ∧
    (t.arena, t.root) = buildTree s.freq ∧
    t.stage = { s.stage with treeV := true, codesV := false, hdrV := false, payV := false } ∧
    FreqKept s t ∧ t.CodeReset ∧ t.OutputReset ∧ EndsOk s t ∧ OutKept s t := by
  obtain ⟨hnext, hstage, hends⟩ := exec_ok (i := .encTree) (op := .encTree) rfl h nofun rfl
  exact ⟨_, hnext, rfl, hstage, ⟨rfl, rfl⟩, codeReset_of_fill rfl rfl rfl, ⟨rfl, rfl, rfl, rfl⟩, hends,
    outKept_of_eq rfl rfl⟩

theorem Merging.mergeTree {freq : Table Word} {ar : List Node}
    (h : Merging (mappedSymbols freq) freq ar [ar.length - 1]) : MergeTree freq ar :=
  ⟨Tree.length_eq ⟨h.forest⟩, h.leaves, h.merges⟩

/-- The tree of two symbols or more, as R152 makes it. -/
theorem buildTree_mergeTree {freq : Table Word} (h : 2 ≤ (mappedSymbols freq).length) :
    ∃ ar, buildTree freq = (ar, some (2 * (mappedSymbols freq).length - 2)) ∧ Tree (mappedSymbols freq) ar ∧
      MergeTree freq ar := by
  obtain ⟨ar, hb, hm⟩ := buildTree_merging h
  have hlast : ar.length - 1 = 2 * (mappedSymbols freq).length - 2 := by
    rw [hm.mergeTree.nodes]
    omega
  exact ⟨ar, hlast ▸ hb, ⟨hm.forest⟩, hm.mergeTree⟩

/-- Settles O19: by the number of symbols. -/
theorem encTreeMergesTheTwoSmallest : Obligations.EncTreeMergesTheTwoSmallest := by
  intro s hs
  obtain ⟨t, hnext, htree, hrest⟩ := exec_encTree hs
  refine ⟨t, hnext, fun h0 => ?_, fun sym h1 => ?_, fun h2 => ?_, hrest⟩
  · rw [buildTree_empty h0] at htree
    injection htree with ha hr
    exact ⟨hr, congrArg List.length ha⟩
  · rw [buildTree_one h1] at htree
    injection htree with ha hr
    exact ⟨hr, ha⟩
  · obtain ⟨ar, hb, -, hm⟩ := buildTree_mergeTree h2
    rw [hb] at htree
    injection htree with ha hr
    exact ⟨ha ▸ hm, hr⟩

/-! ### The shape of the tree (R153) -/

theorem CodeTree.mem_of_leadsTo {syms : List Byte} {ar : List Node} {r : Nat} (h : CodeTree syms ar r) {p : Bits}
    {sym : Byte} (hp : LeadsTo ar r p sym) : sym ∈ syms := by
  obtain ⟨x, -, hx⟩ := hp
  exact h.isLeaf hx

/-- A symbol has one path to a leaf of it. -/
theorem CodeTree.leadsTo_unique {syms : List Byte} {ar : List Node} {r : Nat} (h : CodeTree syms ar r) {p q : Bits}
    {sym : Byte} (hp : LeadsTo ar r p sym) (hq : LeadsTo ar r q sym) : p = q := by
  obtain ⟨x, hpx, hx⟩ := hp
  obtain ⟨y, hqy, hy⟩ := hq
  obtain rfl := h.oneLeaf hx hy
  exact follow_unique h.distinct h.noParent hpx hqy

/-- Going left from an entry of a forest ends at a leaf. -/
theorem Forest.leftmost {syms : List Byte} {ar : List Node} {q : List Nat} (h : Forest syms ar q) {k : Nat}
    (hk : k < ar.length) : ∃ d sym, LeadsTo ar k (List.replicate d false) sym := by
  induction k using Nat.strong_induction_on with
  | _ k ih =>
    by_cases hn : k < syms.length
    · exact ⟨0, syms[k], k, rfl, h.leaves k hn⟩
    · obtain ⟨x, hx⟩ := h.child_internal (by omega) hk false
      have hlt := (h.child_lt hx).2
      obtain ⟨d, sym, y, hy, hleaf⟩ := ih x hlt (by omega)
      refine ⟨d + 1, sym, y, ?_, hleaf⟩
      rw [List.replicate_succ, follow_cons, hx]
      exact hy

/-- A leaf of the tree of two symbols or more lies at a depth of at most `n - 1`. -/
theorem Tree.depth_le {syms : List Byte} {ar : List Node} (h : Tree syms ar) {p : Bits} {x : Nat}
    (hp : follow ar (2 * syms.length - 2) p = some x) : p.length ≤ syms.length - 1 := by
  have hpath := h.forest.path_length hp
  have hcount := h.forest.count
  rw [List.length_singleton] at hcount
  omega

/-- Every INTERNAL entry of the tree has two children. -/
theorem Tree.children {syms : List Byte} {ar : List Node} (h : Tree syms ar) {k : Nat} {l r : Option Nat} {f : Word}
    (hk : ar[k]? = some (.internal l r f)) : l ≠ none ∧ r ≠ none := by
  have hlt := (List.getElem?_eq_some_iff.1 hk).1
  by_cases hn : k < syms.length
  · exact absurd (h.forest.leaves k hn) (by simp [leafAt, hk])
  · obtain ⟨a, b, g, he, -⟩ := h.forest.internals k (by omega) hlt
    cases hk.symm.trans he
    exact ⟨nofun, nofun⟩

/-- A mapping with a symbol has a tree with one leaf for each of its symbols. -/
theorem buildTree_codeTree {freq : Table Word} (h : mappedSymbols freq ≠ []) :
    ∃ r, (buildTree freq).2 = some r ∧ CodeTree (mappedSymbols freq) (buildTree freq).1 r := by
  rcases hm : mappedSymbols freq with _ | ⟨a, _ | ⟨b, l⟩⟩
  · exact absurd hm h
  · rw [buildTree_one hm]
    exact ⟨1, rfl, codeTree_one a _ _⟩
  · rw [← hm]
    have h2 : 2 ≤ (mappedSymbols freq).length := by simp [hm]
    obtain ⟨ar, hb, ht⟩ := buildTree_many h2
    rw [hb]
    exact ⟨_, rfl, ht.codeTree (mappedSymbols_nodup _) h2 (length_mappedSymbols_le _)⟩

/-- `p` is the path of bits from the root of the tree of `freq` to a leaf of `sym`. -/
def BuiltPath (freq : Table Word) (p : Bits) (sym : Byte) : Prop :=
  ∃ r, (buildTree freq).2 = some r ∧ LeadsTo (buildTree freq).1 r p sym

/-- The leaf paths of a state are those of the tree it holds. -/
theorem leafPath_iff_builtPath {freq : Table Word} (h : (s.arena, s.root) = buildTree freq) (p : Bits) (sym : Byte) :
    s.LeafPath p sym ↔ BuiltPath freq p sym := by
  rw [BuiltPath, ← h]
  exact Iff.rfl

variable {freq : Table Word} {p q : Bits} {a b sym : Byte}

/-- A tree with a leaf path has a symbol, and is a code tree. -/
theorem BuiltPath.codeTree (h : BuiltPath freq p sym) : ∃ r, (buildTree freq).2 = some r ∧
    LeadsTo (buildTree freq).1 r p sym ∧ CodeTree (mappedSymbols freq) (buildTree freq).1 r := by
  obtain ⟨r, hr, hp⟩ := h
  have hne : mappedSymbols freq ≠ [] := fun h0 => by
    rw [buildTree_empty h0] at hr
    cases hr
  obtain ⟨r', hr', ht⟩ := buildTree_codeTree hne
  obtain rfl := Option.some.inj (hr.symm.trans hr')
  exact ⟨r, hr, hp, ht⟩

theorem BuiltPath.mem (h : BuiltPath freq p sym) : sym ∈ mappedSymbols freq := by
  obtain ⟨r, -, hp, ht⟩ := h.codeTree
  exact ht.mem_of_leadsTo hp

theorem BuiltPath.unique (hp : BuiltPath freq p sym) (hq : BuiltPath freq q sym) : p = q := by
  obtain ⟨r, hr, hp, ht⟩ := hp.codeTree
  obtain ⟨r', hr', hq⟩ := hq
  obtain rfl := Option.some.inj (hr.symm.trans hr')
  exact ht.leadsTo_unique hp hq

/-- No leaf path begins the leaf path of another symbol. -/
theorem BuiltPath.eq_of_prefix (hp : BuiltPath freq p a) (hq : BuiltPath freq q b) (h : p <+: q) : a = b := by
  obtain ⟨r, hr, x, hpx, hx⟩ := hp
  obtain ⟨r', hr', y, hqy, hy⟩ := hq
  obtain rfl := Option.some.inj (hr.symm.trans hr')
  obtain ⟨-, rfl⟩ := follow_prefix hpx hx hqy hy h
  exact Option.some.inj (hx.symm.trans hy)

theorem exists_builtPath (h : sym ∈ mappedSymbols freq) :
    ∃ p, BuiltPath freq p sym ∧ 1 ≤ p.length ∧ p.length ≤ 255 := by
  obtain ⟨r, hr, ht⟩ := buildTree_codeTree (List.ne_nil_of_mem h)
  obtain ⟨p, k, hp, hk, hpos, h255, -⟩ := ht.path sym h
  exact ⟨p, ⟨r, hr, k, hp, hk⟩, List.length_pos_of_ne_nil hpos, h255⟩

/-- The one leaf of a mapping with one symbol lies below the root, on its left. -/
theorem BuiltPath.of_one (h : mappedSymbols freq = [sym]) : BuiltPath freq [false] sym := by
  rw [BuiltPath, buildTree_one h]
  exact ⟨1, rfl, 0, rfl, rfl⟩

/-- Going left from the root of a mapping's tree reaches a leaf, and not at once. -/
theorem exists_builtPath_left (h : mappedSymbols freq ≠ []) :
    ∃ k0 sym, 1 ≤ k0 ∧ BuiltPath freq (List.replicate k0 false) sym := by
  rcases hm : mappedSymbols freq with _ | ⟨a, _ | ⟨b, l⟩⟩
  · exact absurd hm h
  · exact ⟨1, a, le_rfl, .of_one hm⟩
  · obtain ⟨ar, hb, ht⟩ := buildTree_many (freq := freq) (by simp [hm])
    have hcount := ht.forest.count
    rw [List.length_singleton] at hcount
    obtain ⟨d, sym, x, hx, hleaf⟩ := ht.forest.leftmost (k := ar.length - 1)
      (ht.forest.inRange _ List.mem_cons_self)
    refine ⟨d, sym, Nat.pos_of_ne_zero fun h0 => ?_, ?_⟩
    · subst h0
      obtain rfl := Option.some.inj hx
      obtain ⟨hlt, -⟩ := ht.leaf_index hleaf
      simp only [hm, List.length_cons] at hcount hlt
      omega
    · rw [BuiltPath, hb]
      exact ⟨_, rfl, x, hx, hleaf⟩

/-- Settles O20: the paths of the tree of the counts, and its entries where two symbols or more were merged. -/
theorem encoderTreeShape : Obligations.EncoderTreeShape := by
  intro s hs
  obtain ⟨t, hnext, htree, -⟩ := exec_encTree hs
  refine ⟨t, hnext, ?_⟩
  simp only [leafPath_iff_builtPath htree]
  refine ⟨fun _ => exists_builtPath, fun _ _ _ => BuiltPath.unique, fun _ _ => BuiltPath.mem,
    fun h1 => exists_builtPath_left (List.ne_nil_of_length_pos h1), fun h1 p sym hp => ?_, fun h2 => ?_⟩
  · obtain ⟨a, ha⟩ := List.length_eq_one_iff.1 h1
    obtain rfl : sym = a := List.mem_singleton.1 (ha ▸ hp.mem)
    rw [hp.unique (.of_one ha)]
    rfl
  · obtain ⟨ar, hb, ht, -⟩ := buildTree_mergeTree h2
    simp only [BuiltPath, hb] at htree ⊢
    injection htree with ha hr
    refine ⟨(congrArg List.length ha).trans ht.length_eq, hr, fun k l r f hk => ht.children (ha ▸ hk), ?_⟩
    rintro p sym ⟨r, hroot, x, hx, -⟩
    obtain rfl := Option.some.inj hroot
    exact ht.depth_le hx

end Sys2Proof.Machine
end

section
/-! PROOFS. The total length of an encoded input, and that no code, where none begins another, makes it shorter than
ENC_TREE's tree (41_encoder.md R153). -/

namespace Sys2Proof.Machine

variable {s : State}

/-! ### Sums over the symbols of the input -/

/-- What is summed over the symbols, with their counts, is what is summed over the input. -/
theorem encodedLength_eq (s : State) (len : Byte → Nat) : s.encodedLength len = (s.input.map len).sum := by
  have hnodup : s.inputSymbols.Nodup := symbols_nodup.filter _
  have hset : s.inputSymbols.toFinset = s.input.toFinset := by
    ext sym
    rw [List.mem_toFinset, List.mem_toFinset, mem_inputSymbols]
  rw [Finset.sum_list_map_count, ← hset, List.sum_toFinset _ hnodup]
  rfl

theorem sum_count_input (s : State) : (s.inputSymbols.map s.input.count).sum = s.inLen.toNat := by
  have h := encodedLength_eq s fun _ => 1
  simpa only [State.encodedLength, Nat.mul_one, List.map_const', List.sum_replicate, smul_eq_mul, length_input] using h

/-- The symbols of the input by their rank, 0 past the last. -/
def State.nthSymbol (s : State) (j : Nat) : Byte := s.inputSymbols.getD j 0

theorem nthSymbol_eq {j : Nat} (hj : j < s.inputSymbols.length) : s.nthSymbol j = s.inputSymbols[j] :=
  List.getD_eq_getElem _ _ hj

theorem nthSymbol_mem {j : Nat} (hj : j < s.inputSymbols.length) : s.nthSymbol j ∈ s.inputSymbols := by
  rw [nthSymbol_eq hj]
  exact List.getElem_mem hj

theorem nthSymbol_inj {i j : Nat} (hi : i < s.inputSymbols.length) (hj : j < s.inputSymbols.length)
    (h : s.nthSymbol i = s.nthSymbol j) : i = j := by
  rw [nthSymbol_eq hi, nthSymbol_eq hj] at h
  exact (List.Nodup.getElem_inj_iff (symbols_nodup.filter _)).1 h

/-- A sum over the symbols of the input as a sum over their ranks. -/
theorem sum_inputSymbols (s : State) (f : Byte → Nat) :
    (s.inputSymbols.map f).sum = ∑ j ∈ Finset.range s.inputSymbols.length, f (s.nthSymbol j) := by
  rw [Finset.sum_range, ← Fin.sum_univ_fun_getElem]
  exact Finset.sum_congr rfl fun j _ => by rw [nthSymbol_eq j.isLt]

/-- Codes, none of which begins another, of the input's symbols meet Kraft's inequality. -/
theorem kraft_inputSymbols {code : Byte → Bits} (h2 : 2 ≤ s.inputSymbols.length)
    (hfree : ∀ a ∈ s.inputSymbols, ∀ b ∈ s.inputSymbols, a ≠ b → ¬ code a <+: code b) :
    kraft (Finset.range s.inputSymbols.length) (fun j => (code (s.nthSymbol j)).length) ≤ 1 :=
  kraft_prefixFree h2 (fun j => code (s.nthSymbol j)) fun _ hi _ hj hne =>
    hfree _ (nthSymbol_mem hi) _ (nthSymbol_mem hj) fun he => hne (nthSymbol_inj hi hj he)

/-! ### The leaves of the tree of an input's counts (R152) -/

section Leaves

variable {freq : Table Word} {ar : List Node} (h : MergeTree freq ar)
  (hc : ∀ sym, (freq.at sym).toNat = s.input.count sym)
include h hc

/-- The leaves stand in the order of their symbols. -/
theorem MergeTree.leaf_nthSymbol {j : Nat} (hj : j < s.inputSymbols.length) :
    ar[j]? = some (.leaf (s.nthSymbol j) (freq.at (s.nthSymbol j))) := by
  have hsyms := mappedSymbols_eq_inputSymbols hc
  rw [h.leaves j (by rwa [hsyms]), nthSymbol_eq hj]
  simp only [hsyms]

theorem MergeTree.weightOf_leaf {j : Nat} (hj : j < s.inputSymbols.length) :
    weightOf ar j = s.input.count (s.nthSymbol j) := by
  rw [weightOf, weightAt, h.leaf_nthSymbol hc hj]
  exact hc _

/-- The weights of the leaves add up to the length of the input. -/
theorem MergeTree.sum_weights :
    ∑ j ∈ Finset.range s.inputSymbols.length, weightOf ar j = s.inLen.toNat := by
  rw [← sum_count_input, sum_inputSymbols]
  exact Finset.sum_congr rfl fun j hj => h.weightOf_leaf hc (Finset.mem_range.1 hj)

/-- The total length of the encoded input is the cost of the leaves at the lengths of their codes. -/
theorem MergeTree.cost_eq (len : Byte → Nat) :
    cost (Finset.range s.inputSymbols.length) (weightOf ar) (fun j => len (s.nthSymbol j)) =
      s.encodedLength len := by
  rw [State.encodedLength, sum_inputSymbols]
  exact Finset.sum_congr rfl fun j hj => by rw [h.weightOf_leaf hc (Finset.mem_range.1 hj)]

end Leaves

/-- Settles O21: the tree's lengths cost no more than any that meet Kraft's inequality. -/
theorem encoderTreeIsOptimal : Obligations.EncoderTreeIsOptimal := by
  intro s depth code hok htv h2 hdepth hfree
  have hc := (hok.stage.counted (hok.stage.tree htv)).1
  have hsyms := mappedSymbols_eq_inputSymbols hc
  have hbuilt := hok.products.tree htv
  obtain ⟨ar, hb, -, hm⟩ := buildTree_mergeTree (freq := s.freq) (by rwa [hsyms])
  obtain ⟨p, hp, hopt⟩ := hm.optimal (congrArg List.length hsyms.symm) (by omega)
    ((hm.sum_weights hc).trans_lt s.inLen.isLt)
  have hpath : ∀ j, j < s.inputSymbols.length → depth (s.nthSymbol j) = p j := fun j hj => by
    have hd := (leafPath_iff_builtPath hbuilt _ _).1 (hdepth _ (nthSymbol_mem hj))
    refine hd.unique ⟨_, by rw [hb, hsyms], j, by rw [hb]; exact hp j hj, ?_⟩
    rw [hb, leafAt, hm.leaf_nthSymbol hc hj]
  calc s.encodedLength (fun sym => (depth sym).length)
    _ = cost (Finset.range s.inputSymbols.length) (weightOf ar) (fun j => (p j).length) := by
      rw [← hm.cost_eq hc]
      exact Finset.sum_congr rfl fun j hj =>
        congrArg (fun c : Bits => weightOf ar j * c.length) (hpath j (Finset.mem_range.1 hj))
    _ ≤ cost (Finset.range s.inputSymbols.length) (weightOf ar) (fun j => (code (s.nthSymbol j)).length) :=
      hopt _ (kraft_inputSymbols h2 hfree)
    _ = s.encodedLength (fun sym => (code sym).length) := hm.cost_eq hc fun sym => (code sym).length

end Sys2Proof.Machine
end

section
/-! PROOFS. ENC_CODES in the states of the invariant: the codes are the leaf paths (41_encoder.md R154), and none
begins another (R155). -/

namespace Sys2Proof.Machine

variable {s t : State} {sym : Byte}

/-- A command keeps the invariant. -/
theorem ok_exec (h : s.Ok) {i : Instr} (ht : exec i s = .next t) : t.Ok := by
  rw [eq_of_exec ht]
  exact (ok_resultOf i h).completed

/-! ### The codes that CODES_V vouches for (R140, R154, R155) -/

/-- The symbols that the tree was built of are those of the input. -/
theorem State.Ok.mem_mappedSymbols (h : s.Ok) (hv : s.stage.treeV = true) :
    sym ∈ mappedSymbols s.freq ↔ sym ∈ s.input := by
  rw [mappedSymbols_eq_inputSymbols (h.stage.counted (h.stage.tree hv)).1, mem_inputSymbols]

/-- Each symbol's code is its leaf path in the tree of the counts. -/
theorem State.Ok.builtPath_codeOf (h : s.Ok) (hv : s.stage.codesV = true) (hs : sym ∈ s.input) :
    BuiltPath s.freq (s.codeOf sym) sym :=
  (leafPath_iff_builtPath (h.products.tree (h.stage.codes hv)) _ _).1 ((h.products.codes hv).2 sym hs)

/-- A symbol without entry has code bits 0. -/
theorem State.RangesOk.absent (h : s.RangesOk) (hp : s.present sym = false) :
    s.codeLen.at sym = { len := 0, present := false } ∧ s.codeBits.at sym = 0 := by
  have hlen := h.absentLen sym hp
  refine ⟨?_, BitVec.eq_of_getMsbD_eq fun i _ => ?_⟩
  · rw [← hlen, ← hp]
    rfl
  · rw [h.codeTail sym i (by simp [hlen])]
    simp

/-- ENC_CODES's body writes the code table only. -/
theorem bodyEncCodes_same (s : State) :
    ∃ cl cb, bodyEncCodes s = ({ s with codeLen := cl, codeBits := cb }, none) := by
  unfold bodyEncCodes
  split
  · exact ⟨s.codeLen, s.codeBits, rfl⟩
  · rename_i k _
    obtain ⟨cl, cb, h⟩ := walkCodes_same s.arena s.arena.length k [] s
    exact ⟨cl, cb, by rw [h]⟩

/-- Settles O22: the invariant holds after the command, and says what the code table is. -/
theorem encCodesRecordsTheTreePaths : Obligations.EncCodesRecordsTheTreePaths := by
  intro s hok htv
  obtain ⟨cl, cb, hb⟩ := bodyEncCodes_same (s.invalidate .encCodes)
  obtain ⟨hnext, hstage, hends⟩ := exec_ok (i := .encCodes) (op := .encCodes) rfl htv nofun hb
  have hok' := ok_exec hok hnext
  have hin := hends.host.input
  have hcv := congrArg Stage.codesV hstage
  have hpresent := (hok'.products.codes hcv).1
  have hbuilt := hok'.products.tree (hok'.stage.codes hcv)
  rw [hin] at hpresent
  refine ⟨_, hnext, fun sym hs => ?_, fun sym hs => ?_, hok'.ranges.codeTail, rfl, hstage, ⟨rfl, rfl⟩, ⟨rfl, rfl⟩,
    ⟨rfl, rfl, rfl, rfl⟩, hends, outKept_of_eq rfl rfl⟩
  · simp only [leafPath_iff_builtPath hbuilt]
    have hcode := hok'.builtPath_codeOf hcv (hin ▸ hs)
    obtain ⟨p, hp, hpos, h255⟩ := exists_builtPath hcode.mem
    obtain rfl := hp.unique hcode
    exact ⟨(hpresent sym).2 hs, hcode, fun q hq => hq.unique hcode, hpos, h255⟩
  · exact hok'.ranges.absent (Bool.eq_false_iff.2 (mt (hpresent sym).1 hs))

/-- A leaf path that is all zeros leads to the same symbol as any other. -/
theorem BuiltPath.eq_of_zeros {freq : Table Word} {a b : Byte} {m n : Nat}
    (ha : BuiltPath freq (List.replicate m false) a) (hb : BuiltPath freq (List.replicate n false) b) : a = b := by
  rcases Nat.le_total m n with h | h
  · exact ha.eq_of_prefix hb (List.prefix_replicate_iff.2 (by simpa using h))
  · exact (hb.eq_of_prefix ha (List.prefix_replicate_iff.2 (by simpa using h))).symm

/-- Settles O23: the codes are leaf paths of one tree. -/
theorem encoderCodesArePrefixFree : Obligations.EncoderCodesArePrefixFree := by
  intro s hok hcv
  have htv := hok.stage.codes hcv
  obtain ⟨hpresent, -⟩ := hok.products.codes hcv
  have hbuilt := hok.products.tree htv
  refine ⟨hpresent, fun a b ha hb hne hpre => hne ?_, fun hin => ?_⟩
  · exact (hok.builtPath_codeOf hcv ((hpresent a).1 ha)).eq_of_prefix
      (hok.builtPath_codeOf hcv ((hpresent b).1 hb)) hpre
  · obtain ⟨x, hx⟩ := List.exists_mem_of_ne_nil _ hin
    obtain ⟨k0, s0, hk0, h0⟩ := exists_builtPath_left (List.ne_nil_of_mem ((hok.mem_mappedSymbols htv).2 hx))
    have hs0 := (hok.mem_mappedSymbols htv).1 h0.mem
    refine ⟨k0, s0, hk0, hs0, (leafPath_iff_builtPath hbuilt _ _).2 h0, (hok.builtPath_codeOf hcv hs0).unique h0,
      fun sym hs hne => ?_⟩
    by_contra hzeros
    have hcode := hok.builtPath_codeOf hcv hs
    have hall : s.codeOf sym = List.replicate (s.codeOf sym).length false :=
      List.eq_replicate_of_mem fun b hb => Bool.eq_false_iff.2 fun h => hzeros ⟨b, hb, h⟩
    exact hne ((hall ▸ hcode).eq_of_zeros h0)

end Sys2Proof.Machine
end

section
/-! PROOFS. ENC_HEADER and ENC_PAYLOAD where their output fits (41_encoder.md R156, R157). -/

namespace Sys2Proof.Machine

variable {s t : State}

/-- Bytes written from offset `a`, and every byte outside them stands. -/
theorem outByte_writeBytes {a : Nat} {l : List Byte} (hm : t.outMem = Memory.writeBytes s.outMem a l)
    (hr : t.resets = s.resets) :
    (∀ j, j < l.length → t.outByte (a + j) = l.getD j 0) ∧ OutKeptOutside s t a (a + l.length) := by
  refine ⟨fun j hj => ?_, fun b hb => ?_⟩
  · rw [State.outByte, hm, stored_writeBytes_range, if_pos (by omega), Nat.add_sub_cancel_left,
      List.getElem?_eq_getElem hj, List.getD_eq_getElem _ _ hj, Option.getD_some]
  · rw [State.outByte, State.outByte, hm, hr, stored_writeBytes_range, if_neg (by omega)]

/-- The bytes of the entries, with each length as the code table holds it. -/
theorem entriesBytes_eq (s : State) : s.entriesBytes =
    s.presentSymbols.flatMap fun sym => sym :: (s.codeLen.at sym).len :: pack (s.codeOf sym) := by
  simp only [State.entriesBytes, entryBytes, ofNat_length_codeOf]

/-- Settles O24: the body writes the header's bytes from offset 0. -/
theorem encHeaderWritesTheEntries : Obligations.EncHeaderWritesTheEntries := by
  rintro s _ hcv h255 rfl hfit
  have hb := bodyEncHeader_ok (s := s.invalidate .encHeader) h255 hfit
  obtain ⟨hnext, hstage, hends⟩ := exec_ok (i := .encHeader) (op := .encHeader) rfl hcv nofun hb
  have hsize := toNat_ofNat_of_le_cap hfit
  obtain ⟨hout, hkept⟩ := output_writeBytes (s := s) (l := s.nsym.setWidth 8 :: s.entriesBytes)
    rfl hends.host.resets
  have hlen : (s.nsym.setWidth 8 :: s.entriesBytes).length = s.headerSize := by
    rw [headerSize_eq, List.length_cons, Nat.add_comm]
  rw [hlen] at hout hkept
  exact ⟨_, hnext, hout.trans (by rw [entriesBytes_eq]), hkept, hsize, hsize, rfl, rfl, hstage, ⟨rfl, rfl⟩, ⟨rfl, rfl⟩,
    ⟨rfl, rfl, rfl⟩, hends⟩

/-- What a payload that fits has of bits and pad bits fits a register. -/
theorem payload_sizes {n : Nat} {c : Capacity} (h : ceil8 n ≤ c.bytes) :
    (BitVec.ofNat 32 n).toNat = n ∧ (BitVec.ofNat 32 (8 * ceil8 n - n)).toNat = 8 * ceil8 n - n := by
  have hcap := bytes_le c
  have hle := le_eight_mul_ceil8 n
  exact ⟨Nat.mod_eq_of_lt (by omega), Nat.mod_eq_of_lt (by omega)⟩

/-- Settles O27: the body writes the packed codes from offset HDR_LEN. -/
theorem encPayloadPacksTheCodes : Obligations.EncPayloadPacksTheCodes := by
  rintro s _ hhv rfl hfit
  have hb := bodyEncPayload_ok (s := s.invalidate .encPayload) hfit
  obtain ⟨hnext, hstage, hends⟩ := exec_ok (i := .encPayload) (op := .encPayload) rfl hhv nofun hb
  obtain ⟨hbits, hresid⟩ := payload_sizes ((Nat.le_add_left _ _).trans hfit)
  obtain ⟨hout, hkept⟩ := outByte_writeBytes (s := s) (a := s.hdrLen.toNat) (l := pack s.payload) rfl hends.host.resets
  rw [length_pack] at hout hkept
  exact ⟨_, hnext, hout, hkept, hbits, hresid, toNat_ofNat_of_le_cap hfit, rfl, hstage, ⟨rfl, rfl⟩, ⟨rfl, rfl⟩,
    ⟨rfl, rfl, rfl⟩, hends⟩

end Sys2Proof.Machine
end

section
/-! PROOFS. ENCODE: the container it writes and what its outcome depends on (41_encoder.md R158, 30_encoding.md R106 to
R111). -/

namespace Sys2Proof.Machine

variable {s s' f f' : State}

/-! ### The code table the first three stages leave (R150 to R154) -/

theorem Front.mapped_eq (h : Front s f) : mappedSymbols f.freq = s.inputSymbols :=
  mappedSymbols_eq_inputSymbols h.counts

/-- Each symbol's code is its leaf path in the tree of the counts. -/
theorem Front.builtPath_codeOf (h : Front s f) {sym : Byte} (hs : sym ∈ s.inputSymbols) :
    BuiltPath f.freq (f.codeOf sym) sym := by
  obtain ⟨r, hr, -, hlead, -⟩ := h.code sym (h.mapped_eq ▸ hs)
  exact (leafPath_iff_builtPath h.tree _ _).1 ⟨r, hr, hlead⟩

/-- A table that counts the same input is the one of the front. -/
theorem Front.freq_eq (h : Front s f) {freq : Table Word} (hc : ∀ sym, (freq.at sym).toNat = s.input.count sym) :
    f.freq = freq :=
  Table.ext_at fun sym => BitVec.eq_of_toNat_eq ((h.counts sym).trans (hc sym).symm)

/-- The container's parts and their sizes, for the codes of the input's symbols. -/
theorem Front.container_parts (h : Front s f) {code : Byte → Bits}
    (hcode : ∀ sym ∈ s.inputSymbols, f.codeOf sym = code sym) :
    f.entries = s.inputSymbols.map (fun sym => (sym, code sym)) ∧ f.payload = s.input.flatMap code ∧
      f.headerSize = 1 + (s.inputSymbols.map fun sym => 2 + ceil8 (code sym).length).sum ∧
      f.payload.length = s.encodedLength (fun sym => (code sym).length) ∧
      f.container.length = 1 + (s.inputSymbols.map fun sym => 2 + ceil8 (code sym).length).sum +
        ceil8 (s.encodedLength fun sym => (code sym).length) := by
  have hsyms : f.presentSymbols = s.inputSymbols := h.presentSymbols.trans h.mapped_eq
  have hpay : f.payload = s.input.flatMap code := by
    rw [State.payload, h.input]
    exact List.flatMap_congr fun sym hs => hcode sym ((mem_inputSymbols s sym).2 hs)
  have hbits : f.payload.length = s.encodedLength fun sym => (code sym).length := by
    rw [hpay, encodedLength_eq, List.length_flatMap]
  have hhdr : f.headerSize = 1 + (s.inputSymbols.map fun sym => 2 + ceil8 (code sym).length).sum := by
    rw [State.headerSize, hsyms]
    congr 2
    exact List.map_congr_left fun sym hs => by rw [State.entrySize, ← length_codeOf, hcode sym hs]
  refine ⟨?_, hpay, hhdr, hbits, by rw [length_container, hhdr, hbits]⟩
  rw [State.entries, hsyms]
  exact List.map_congr_left fun sym hs => by rw [hcode sym hs]

/-! ### ENCODE where the container fits (R158) -/

/-- The STAGE bits after ENC_PAYLOAD. -/
def Stage.encoded : Stage := { Stage.coded with hdrV := true, payV := true }

theorem Stage.encoded_toWord : Stage.encoded.toWord = 0x01F := by decide

/-- What a state whose OUT_MEM holds the container of `f` records of it. -/
structure HoldsContainer (f u : State) : Prop where
  output      : u.output f.container.length = f.container
  outLen      : u.outLen.toNat = f.container.length
  hdrLen      : u.hdrLen.toNat = f.headerSize
  payloadBits : u.payloadBits.toNat = f.payload.length
  resid       : u.resid.toNat = 8 * ceil8 f.payload.length - f.payload.length
  stage       : u.stage = Stage.encoded

theorem holdsContainer_afterEncode (hfit : f.container.length ≤ f.outCap.bytes) :
    HoldsContainer f f.afterEncode.finish := by
  have hlen := length_container f
  obtain ⟨hbits, hresid⟩ := payload_sizes (n := f.payload.length) (c := f.outCap) (by omega)
  exact
    { output := output_afterEncode f
      outLen := toNat_ofNat_of_le_cap hfit
      hdrLen := toNat_ofNat_of_le_cap (c := f.outCap) (by omega)
      payloadBits := hbits
      resid := hresid
      stage := rfl }

/-- RESID is the number of pad bits after PAYLOAD_BITS. -/
theorem HoldsContainer.resid_eq {u : State} (h : HoldsContainer f u) :
    u.resid.toNat = 8 * ceil8 u.payloadBits.toNat - u.payloadBits.toNat := by
  rw [h.resid, h.payloadBits]

theorem HoldsContainer.stage_toWord {u : State} (h : HoldsContainer f u) : u.stage.toWord = 0x01F := by
  rw [h.stage, Stage.encoded_toWord]

/-- ENCODE on an input of at most 255 symbols whose container fits. -/
theorem exec_encode_fits (hlen : s.inLen.toNat ≤ s.inCap.bytes) :
    ∃ f, ((stageEncFreq s).andThen stageEncTree).andThen stageEncCodes = (f, none) ∧ Front s f ∧
      (s.inputSymbols.length ≤ 255 → f.container.length ≤ f.outCap.bytes →
        exec .encode s = .next f.afterEncode.finish ∧ HoldsContainer f f.afterEncode.finish ∧
        OutKeptOutside s f.afterEncode.finish 0 f.container.length ∧ EndsOk s f.afterEncode.finish) := by
  obtain ⟨f, hrun, hf, -, -, -, hok⟩ := runEncode_cases s hlen
  refine ⟨f, hrun, hf, fun h255 hfit => ?_⟩
  have hres : resultOf .encode s = (f.afterEncode, none) := hok (by rwa [hf.nsym, hf.mapped_eq]) hfit
  have hkeep := stageKeeps_resultOf .encode s
  rw [hres] at hkeep
  refine ⟨?_, holdsContainer_afterEncode hfit, (output_writeBytes ?_ hkeep.host.resets).2, endsOk_completed hkeep⟩
  · rw [exec_next, hres]
    rfl
  · exact congrArg (Memory.writeBytes · 0 f.container) hf.outMem

/-- Settles O28: the front's codes are the leaf paths, so the container is that of the codes given. -/
theorem encodeWritesTheContainer : Obligations.EncodeWritesTheContainer := by
  refine ⟨fun s freq code need _ hlen h255 hcount hpath hneed hfit => ?given,
    fun s t hs hlen hfront h255 hfit => ?front⟩
  case given =>
    obtain ⟨f, -, hf, hencode⟩ := exec_encode_fits hlen
    obtain rfl := hf.freq_eq hcount
    have hcode : ∀ sym ∈ s.inputSymbols, f.codeOf sym = code sym := fun sym hs =>
      (hf.builtPath_codeOf hs).unique (hpath sym hs)
    obtain ⟨hentries, hpay, hhdr, hbits, hlength⟩ := hf.container_parts hcode
    have hsize : f.container.length = need := hlength.trans hneed.symm
    obtain ⟨hnext, hu, hkept, hends⟩ := hencode h255 (by rwa [hsize, hf.keeps.host.outCap])
    rw [hsize] at hkept
    refine ⟨_, hnext, ?_, hkept, hu.outLen.trans hsize, hu.hdrLen.trans hhdr, hu.payloadBits.trans hbits,
      hu.resid_eq, rfl, hf.nsym.trans (congrArg List.length hf.mapped_eq), hf.tree,
      fun sym hs => ⟨(hf.present sym).2 (hf.mapped_eq ▸ hs), hcode sym hs⟩,
      fun sym hs => hf.absent sym (hf.mapped_eq ▸ hs), hf.order, hu.stage_toWord, hends⟩
    rw [← hentries, ← hpay, ← hsize]
    exact hu.output
  case front =>
    obtain ⟨f, hrun, hf, hencode⟩ := exec_encode_fits hlen
    cases hfront.symm.trans (execChain_front hs hrun)
    obtain ⟨-, -, -, hbits, hlength⟩ := hf.container_parts (code := f.codeOf) fun _ _ => rfl
    obtain ⟨hnext, hu, hkept, hends⟩ := hencode h255 hfit
    exact ⟨_, hnext, hu.output, hkept, hu.outLen, hlength, hu.hdrLen.trans (length_headerBytes_entries f).symm,
      hu.payloadBits.trans hbits, hu.resid_eq, hu.stage_toWord, ⟨rfl, rfl⟩, ⟨rfl, rfl⟩, ⟨rfl, rfl, rfl⟩, hends⟩

/-! ### What ENCODE depends on (R158) -/

/-- The error ENCODE ends with after its first three stages left `f`. -/
def State.encodeError (f : State) : Option Err :=
  if 255 < f.nsym.toNat then some { code := .symbolOverflow, op := 0x13, info := f.nsym.toNat }
  else if f.outCap.bytes < f.headerSize then some { code := .outOverflow, op := 0x13, info := f.headerSize }
  else if f.outCap.bytes < f.container.length then
    some { code := .outOverflow, op := 0x14, info := f.container.length }
  else none

/-- How ENCODE ends: with the error of its front, or with the container written. -/
theorem runEncode_eq (hlen : s.inLen.toNat ≤ s.inCap.bytes) :
    ∃ f, Front s f ∧ (runEncode s).2 = f.encodeError ∧
      (f.encodeError = none → (runEncode s).1 = f.afterEncode ∧ f.container.length ≤ f.outCap.bytes) := by
  obtain ⟨f, -, hf, hsym, hhdr, hpay, hok⟩ := runEncode_cases s hlen
  refine ⟨f, hf, ?_⟩
  unfold State.encodeError
  split_ifs with h1 h2 h3
  · exact ⟨congrArg Prod.snd (hsym h1), nofun⟩
  · exact ⟨congrArg Prod.snd (hhdr (by omega) h2), nofun⟩
  · exact ⟨congrArg Prod.snd (hpay (by omega) (by omega) h3), nofun⟩
  · have hrun := hok (by omega) (by omega)
    exact ⟨congrArg Prod.snd hrun, fun _ => ⟨congrArg Prod.fst hrun, by omega⟩⟩

/-- ENCODE on an input beyond IN_CAP ends in ENC_FREQ (R214). -/
theorem runEncode_beyond (h : s.inCap.bytes < s.inLen.toNat) :
    (runEncode s).2 = some { code := .inLenRange, op := 0x10, info := s.inLen.toNat } := by
  have hstage : stageEncFreq s = (s, some { code := .inLenRange, op := 0x10, info := s.inLen.toNat }) := by
    simp [stageEncFreq, runStage, Stage.meets, StageOp.checksInLen, h, StageOp.opcode]
  rw [runEncode, hstage]
  rfl

/-- A result that raised nothing completes as its state. -/
theorem completed_of_none {r : Result} (h : r.2 = none) : r.completed = r.1.finish := by
  obtain ⟨t, _ | e⟩ := r
  · rfl
  · cases h

/-- Two fronts of the same input make the same container. -/
theorem Front.congr (h : Front s f) (h' : Front s' f') (hin : s.input = s'.input) :
    f.nsym.toNat = f'.nsym.toNat ∧ f.headerSize = f'.headerSize ∧ f.container = f'.container := by
  have hsyms : s.inputSymbols = s'.inputSymbols := by rw [State.inputSymbols, hin]; rfl
  have hfreq : f.freq = f'.freq := h.freq_eq fun sym => hin ▸ h'.counts sym
  obtain ⟨he, hp, hsize, -⟩ := h.container_parts (code := f'.codeOf) fun sym hs =>
    (h.builtPath_codeOf hs).unique (hfreq ▸ h'.builtPath_codeOf (hsyms ▸ hs))
  obtain ⟨he', hp', hsize', -⟩ := h'.container_parts (code := f'.codeOf) fun _ _ => rfl
  refine ⟨by rw [h.nsym, h'.nsym, hfreq], by rw [hsize, hsize', hsyms], ?_⟩
  rw [State.container, State.container, he, he', hp, hp', hsyms, hin]

/-- ENCODE on the same input with the same capacities raises the same error, or writes the same container. -/
theorem runEncode_congr (hin : s.input = s'.input) (hic : s.inCap = s'.inCap) (hoc : s.outCap = s'.outCap) :
    (runEncode s).2 = (runEncode s').2 ∧ ((runEncode s).2 = none → ∃ f f', f.container = f'.container ∧
      HoldsContainer f (runEncode s).1.finish ∧ HoldsContainer f' (runEncode s').1.finish) := by
  have hlen : s.inLen.toNat = s'.inLen.toNat := by rw [← length_input, ← length_input, hin]
  by_cases hle : s.inLen.toNat ≤ s.inCap.bytes
  · obtain ⟨f, hf, herr, hok⟩ := runEncode_eq hle
    obtain ⟨f', hf', herr', hok'⟩ := runEncode_eq (s := s') (by rwa [← hlen, ← hic])
    obtain ⟨hnsym, hhdr, hcont⟩ := hf.congr hf' hin
    have hcap : f.outCap = f'.outCap := by rw [hf.keeps.host.outCap, hf'.keeps.host.outCap, hoc]
    have hsame : f.encodeError = f'.encodeError := by
      simp only [State.encodeError, hnsym, hhdr, hcont, hcap]
    refine ⟨by rw [herr, herr', hsame], fun hnone => ⟨f, f', hcont, ?_, ?_⟩⟩
    · obtain ⟨hrun, hfit⟩ := hok (herr ▸ hnone)
      rw [hrun]
      exact holdsContainer_afterEncode hfit
    · obtain ⟨hrun, hfit⟩ := hok' (hsame ▸ herr ▸ hnone)
      rw [hrun]
      exact holdsContainer_afterEncode hfit
  · have hbeyond := runEncode_beyond (Nat.lt_of_not_le hle)
    have hbeyond' := runEncode_beyond (s := s') (by rw [← hlen, ← hic]; omega)
    exact ⟨by rw [hbeyond, hbeyond', hlen], fun hnone => by rw [hbeyond] at hnone; cases hnone⟩

/-- Settles O29: both runs raise the same error, or hold the same container. -/
theorem encodeDependsOnTheInputOnly : Obligations.EncodeDependsOnTheInputOnly := by
  intro s s' t t' hs hs' hin hic hoc ht ht'
  obtain ⟨hsame, hheld⟩ := runEncode_congr hin hic hoc
  have hstatus := exec_status .encode s
  have hstatus' := exec_status .encode s'
  rw [← eq_of_exec ht] at hstatus
  rw [← eq_of_exec ht'] at hstatus'
  rcases hstatus with ⟨hnone, hst, -⟩ | ⟨e, he, hst, hinfo⟩
  · rcases hstatus' with ⟨hnone', hst', -⟩ | ⟨e', he', -⟩
    · have herr : t.status.err = false := (congrArg Status.err hst).trans hs
      have herr' : t'.status.err = false := (congrArg Status.err hst').trans hs'
      have hfin : t = (runEncode s).1.finish := (eq_of_exec ht).trans (completed_of_none hnone)
      have hfin' : t' = (runEncode s').1.finish := (eq_of_exec ht').trans (completed_of_none hnone')
      obtain ⟨f, f', hcont, hu, hu'⟩ := hheld hnone
      rw [← hfin] at hu
      rw [← hfin'] at hu'
      refine ⟨herr.trans herr'.symm, fun h => absurd (herr.symm.trans h) nofun, fun _ => ⟨?_, ?_⟩⟩
      · exact BitVec.eq_of_toNat_eq (by rw [hu.outLen, hu'.outLen, hcont])
      · rw [hu.outLen, hu'.outLen, hu.output, hu'.output, hcont]
    · exact absurd (hnone.symm.trans (hsame.trans he')) nofun
  · rcases hstatus' with ⟨hnone', -⟩ | ⟨e', he', hst', hinfo'⟩
    · exact absurd (he.symm.trans (hsame.trans hnone')) nofun
    · obtain rfl := Option.some.inj (he.symm.trans (hsame.trans he'))
      rw [hst, hst', hinfo, hinfo']
      exact ⟨rfl, fun _ => ⟨rfl, rfl, rfl⟩, nofun⟩

end Sys2Proof.Machine
end

section
/-! PROOFS. DEC_TABLE on a header of complete entries, and DEC_TREE on codes free of each other (42_decoder.md R180,
R181). -/

namespace Sys2Proof.Machine

variable {s t : State} {l : List (Byte × Bits)} {q : Nat}

/-! ### DEC_TABLE (R180) -/

/-- The input holds a header of the entries `l` up to offset `q`, each symbol once, an empty code only alone (R180). -/
structure State.HeaderAt (s : State) (l : List (Byte × Bits)) (q : Nat) : Prop where
  nonempty : 1 ≤ s.inLen.toNat
  count    : (s.inByte 0).toNat = l.length
  entries  : s.EntriesAt 1 l q
  nodup    : (l.map Prod.fst).Nodup
  alone    : ∀ e ∈ l, e.2 = [] → l.length = 1

theorem State.HeaderAt.congr (h : s.HeaderAt l q) (hk : HostSideKept s t) : t.HeaderAt l q :=
  ⟨hk.inLen ▸ h.nonempty, hk.inByte ▸ h.count, (entriesAt_congr hk.inByte hk.inLen _ _ _).2 h.entries, h.nodup,
    h.alone⟩

theorem State.HeaderAt.length_le (h : s.HeaderAt l q) : l.length ≤ 255 := by
  have := (s.inByte 0).isLt
  have := h.count
  omega

theorem State.HeaderAt.bounds (h : s.HeaderAt l q) : 1 ≤ q ∧ q ≤ s.inLen.toNat :=
  entriesAt_bounds h.entries h.nonempty

/-- The state after the entries `l` of a header that ends at offset `q` were taken in. -/
def State.withTable (s : State) (l : List (Byte × Bits)) (q : Nat) : State :=
  { l.foldl State.addEntry s with nsym := BitVec.ofNat 9 l.length, hdrLen := BitVec.ofNat 32 q }

/-- The body of DEC_TABLE, begun with an empty code table, takes in the whole header. -/
theorem bodyDecTable_of_headerAt (h : s.HeaderAt l q) (hnew : ∀ sym, s.present sym = false) :
    bodyDecTable s = (s.withTable l q, none) := by
  have hlen := h.nonempty
  have hread := readEntries_entries l.length 0 l 1 q s h.entries h.alone (fun e _ => hnew e.1) h.nodup
  rw [bodyDecTable, if_neg (by omega), h.count, State.withTable]
  exact hread

/-- What DEC_TABLE leaves of a header of the entries `l` that ends at offset `q`. -/
structure TableOf (l : List (Byte × Bits)) (q : Nat) (t : State) : Prop where
  order  : t.order = l.map Prod.fst
  codes  : ∀ e ∈ l, t.codeLen.at e.1 = { len := BitVec.ofNat 8 e.2.length, present := true } ∧
    t.codeOf e.1 = e.2
  absent : ∀ sym, sym ∉ l.map Prod.fst → t.codeLen.at sym = { len := 0, present := false } ∧ t.codeBits.at sym = 0
  tail   : ∀ sym i, (t.codeLen.at sym).len.toNat ≤ i → (t.codeBits.at sym).getMsbD i = false
  nsym   : t.nsym.toNat = l.length
  hdrLen : t.hdrLen.toNat = q
  freq   : ∀ sym, t.freq.at sym = 0

/-- The entries taken in after DEC_TABLE's invalidation are the table, and what it reset stays so. -/
theorem tableOf_withTable (h : s.HeaderAt l q) :
    TableOf l q ((s.invalidate .decTable).withTable l q) ∧ ((s.invalidate .decTable).withTable l q).TreeReset ∧
      ((s.invalidate .decTable).withTable l q).PayReset ∧
      ((s.invalidate .decTable).withTable l q).outMem = s.outMem := by
  obtain ⟨-, hfreq, htree, hcode, hout⟩ := invalidateAll_resets s
  have hlen := entriesAt_length h.entries
  have hentry : ∀ sym, (s.invalidate .decTable).EntryOk sym := fun sym =>
    ⟨fun _ => congrArg CodeLen.len (hcode.codeLen sym), fun i _ => by
      rw [show (s.invalidate .decTable).codeBits.at sym = 0 from hcode.codeBits sym]
      simp⟩
  have htail := entryOk_foldl_addEntry hentry h.nodup hlen
  have hhas := hasCode_foldl_addEntry l (s.invalidate .decTable) h.nodup
  obtain ⟨horder, -, hother⟩ := foldl_addEntry l (s.invalidate .decTable) h.nodup hlen
  have hn : (BitVec.ofNat 9 l.length).toNat = l.length := by
    have := h.length_le
    rw [BitVec.toNat_ofNat, Nat.mod_eq_of_lt (by omega)]
  have hq : (BitVec.ofNat 32 q).toNat = q := by
    have := h.bounds
    have := s.inLen.isLt
    rw [BitVec.toNat_ofNat, Nat.mod_eq_of_lt (by omega)]
  obtain ⟨cl, cb, o, hsame⟩ := foldl_addEntry_same l (s.invalidate .decTable)
  rw [State.withTable]
  rw [hsame] at htail hhas horder hother ⊢
  exact ⟨⟨horder, fun e he => ⟨(hhas e he).1, (hhas e he).codeOf (hlen e he)⟩,
    fun sym hs => ⟨(hother sym hs).1.trans (hcode.codeLen sym), (hother sym hs).2.trans (hcode.codeBits sym)⟩,
    fun sym => (htail sym).2, hn, hq, hfreq.freq⟩, { htree with }, { hout.pay with }, rfl⟩

theorem present_invalidate_decTable (s : State) (sym : Byte) : (s.invalidate .decTable).present sym = false := by
  simp [State.present, State.invalidate, CodeLen.absent]

/-- Settles O30: the loop takes in the entries, into the tables that the invalidation emptied. -/
theorem decTableReadsTheHeader : Obligations.DecTableReadsTheHeader := by
  intro s l q hlen hcap hcount hat hdup halone
  have h : s.HeaderAt l q := ⟨hlen, hcount, hat, hdup, halone⟩
  have hb := bodyDecTable_of_headerAt (h.congr (hostSideKept_invalidate s .decTable)) (present_invalidate_decTable s)
  obtain ⟨hnext, hstage, hends⟩ := exec_ok (i := .decTable) (op := .decTable) rfl rfl (fun _ => hcap) hb
  obtain ⟨htable, htree, hpay, hmem⟩ := tableOf_withTable h
  exact ⟨_, hnext, htable.order, htable.codes, htable.absent, htable.tail, htable.nsym, htable.hdrLen, h.bounds.2,
    hstage, htable.freq, { htree with }, { hpay with }, hends, outKept_of_eq hmem hends.host.resets⟩

/-! ### DEC_TREE (R181) -/

/-- Codes free of each other are all inserted. -/
theorem State.CodesFree.exists_insertAll {l : List Byte} (h : s.CodesFree l) :
    ∃ ar, insertAll s l 0 [bareNode] = (ar, none) := by
  rcases h.empty with hne | ⟨sym, rfl, he⟩
  · obtain ⟨ar, hins, -⟩ := built_bare.insertAll s l 0 hne (by simp) h
    exact ⟨ar, hins⟩
  · exact ⟨[.leaf sym 0], by rw [insertAll, he]; rfl⟩

theorem bodyDecTree_of_insertAll {ar : List Node} (h : insertAll s s.order 0 [bareNode] = (ar, none)) :
    bodyDecTree s = ({ s with arena := ar, root := some 0 }, none) := by
  rw [bodyDecTree, h]

/-- The arena that holds every code of ORDER is the tree of the codes, of one entry and at most one for each code
bit. -/
theorem treeMade_of_insertAll (h : insertAll s s.order 0 [bareNode] = (t.arena, none)) (hr : t.root = some 0)
    (hc : CodeKept s t) : t.TreeMade ∧ 1 ≤ t.nodes ∧
      t.nodes ≤ 1 + (s.order.map fun sym => (s.codeOf sym).length).sum := by
  have hcode : ∀ sym, t.codeOf sym = s.codeOf sym := fun sym => by
    rw [State.codeOf, State.codeOf, hc.codeLen, hc.codeBits]
  rcases insertAll_built h with ⟨hbuilt, hlen⟩ | ⟨sym, ho, he, ha⟩
  · exact ⟨treeMade_of_built hr (by simpa only [hc.order, hcode] using hbuilt), hbuilt.nonempty, hlen⟩
  · refine ⟨treeMade_of_leaf hr ha (hc.order.trans ho) ((hcode sym).trans he), ?_⟩
    simp [State.nodes, ha]

/-- Settles O32: every code is inserted, and the arena they leave is their tree. -/
theorem decTreeLeadsCodesToSymbols : Obligations.DecTreeLeadsCodesToSymbols := by
  intro s htab hfree
  obtain ⟨ar, hins⟩ := State.CodesFree.exists_insertAll (s := s.invalidate .decTree) hfree
  obtain ⟨hnext, hstage, hends⟩ :=
    exec_ok (i := .decTree) (op := .decTree) rfl htab nofun (bodyDecTree_of_insertAll hins)
  obtain ⟨⟨-, hleads, honly, -⟩, hpos, hnodes⟩ := treeMade_of_insertAll
    (t := State.endStage { s.invalidate .decTree with arena := ar, root := some 0 } .decTree) hins rfl
    ⟨rfl, rfl, rfl⟩
  refine ⟨_, hnext, rfl, hleads, honly, fun h0 => ?_, hpos, hnodes, hstage, ⟨rfl, rfl⟩, ⟨rfl, rfl, rfl⟩, rfl,
    ⟨rfl, rfl, rfl⟩, hends, outKept_of_eq rfl rfl⟩
  replace hins : insertAll (s.invalidate .decTree) s.order 0 [bareNode] = (ar, none) := hins
  rw [h0] at hins
  injection hins with ha
  exact ha.symm

end Sys2Proof.Machine
end

section
/-! PROOFS. DEC_PAYLOAD where it ends without error, and with a LEAF as ROOT (42_decoder.md R182). -/

namespace Sys2Proof.Machine

variable {s t u : State}

/-! ### What DEC_PAYLOAD puts out -/

/-- `t` is `s` with the bytes `l` put out, `p` payload bits read and `r` of them left over. -/
structure PutOut (s t : State) (l : List Byte) (p r : Nat) : Prop where
  output      : t.output l.length = l
  kept        : OutKeptOutside s t 0 l.length
  outLen      : t.outLen.toNat = l.length
  payloadBits : t.payloadBits = BitVec.ofNat 32 p
  resid       : t.resid = BitVec.ofNat 32 r

theorem putOut_emitted {l : List Byte} (hl : l.length ≤ s.outCap.bytes) (p r : Nat) :
    PutOut s (s.emitted l p r) l p r := by
  obtain ⟨hout, hkept⟩ := output_writeBytes (s := s) (t := s.emitted l p r) (l := l) rfl rfl
  exact ⟨hout, hkept, outLen_emitted hl p r, rfl, rfl⟩

/-- DEC_PAYLOAD's next state where its body puts out `l` and raises nothing. -/
theorem exec_decPayload_emitted {l : List Byte} {p r : Nat} (hv : s.stage.dtreeV = true)
    (hl : l.length ≤ s.outCap.bytes)
    (hb : bodyDecPayload (s.invalidate .decPayload) = ((s.invalidate .decPayload).emitted l p r, none)) :
    ∃ t, exec .decPayload s = .next t ∧ PutOut s t l p r ∧ t.hdrLen = s.hdrLen ∧
      t.stage = { s.stage with decV := true } ∧ FreqKept s t ∧ TreeKept s t ∧ CodeKept s t ∧ EndsOk s t := by
  obtain ⟨hnext, hstage, hends⟩ := exec_ok (i := .decPayload) (op := .decPayload) rfl hv nofun hb
  have hput := putOut_emitted (s := s.invalidate .decPayload) hl p r
  exact ⟨_, hnext, ⟨hput.output, hput.kept, hput.outLen, rfl, rfl⟩, rfl, hstage, ⟨rfl, rfl⟩, ⟨rfl, rfl⟩,
    ⟨rfl, rfl, rfl⟩, hends⟩

/-! ### The walk over codes and the beginning of one (R182) -/

/-- Where ROOT is no LEAF, the body ends as its walk does. -/
theorem bodyDecPayload_of_walk {w : Walk} (hroot : s.rootLeaf = none)
    (hw : walkPayload s s.payloadSize s.payloadStart s.walk0 = (w, none)) :
    bodyDecPayload s = ({ s with outMem := w.out, outLen := BitVec.ofNat 32 w.count
                                 payloadBits := BitVec.ofNat 32 w.examined
                                 resid := BitVec.ofNat 32 w.depth }, none) := by
  rw [State.payloadSize, State.payloadStart, State.walk0] at hw
  simp only [bodyDecPayload, hroot, hw]

/-- The walk over the codes of `l` and the beginning `d` of another stands where `d` leads. -/
theorem walkPayload_codes_inner {l : List Byte} {c d : Bits} {k : Nat} (hroot : s.rootLeaf = none)
    (hsp : s.Spells l c) (hd : s.InnerPath d k) (hcap : l.length ≤ s.outCap.bytes)
    (hbits : s.BitsAt s.payloadStart (c ++ d)) (hsize : (c ++ d).length ≤ s.payloadSize)
    (hlim : s.limsnap = true → l.length ≤ s.outLimit.toNat) (hgo : s.GoesOn l.length ∨ d = []) :
    walkPayload s s.payloadSize s.payloadStart s.walk0 =
      walkPayload s (s.payloadSize - (c ++ d).length) (s.payloadStart + (c ++ d).length)
        { out := Memory.writeBytes s.outMem 0 l, count := l.length, cur := some k, depth := d.length,
          examined := (c ++ d).length } := by
  obtain ⟨r, hr, hrk, hk⟩ := hd
  obtain ⟨hc, hdbits⟩ := hbits.append
  have hspells := walkPayload_spells s hroot l c (d.length + (s.payloadSize - (c ++ d).length)) s.payloadStart
    s.outMem 0 0 hsp hc (by simpa using hlim) (by simpa using hcap)
  have hinner := walkPayload_inner s d r k (s.payloadSize - (c ++ d).length) (s.payloadStart + c.length)
    (Walk.atRoot s (Memory.writeBytes s.outMem 0 l) (0 + l.length) (0 + c.length)) hr hrk hk hdbits
    (by simpa [Walk.atRoot] using hgo)
  rw [hinner] at hspells
  simp only [Walk.atRoot, Nat.zero_add, List.length_append] at hspells hsize ⊢
  rw [show c.length + (d.length + (s.payloadSize - (c.length + d.length))) = s.payloadSize by omega] at hspells
  rw [State.walk0, hspells, Nat.add_assoc]

/-- The payload is the codes of `l` and the beginning `d` of another, up to the limit or to the last bit: the walk
ends without error and has put out `l`. -/
theorem bodyDecPayload_spells {l : List Byte} {c d : Bits} {k : Nat} (hroot : s.rootLeaf = none)
    (hsp : s.Spells l c) (hd : s.InnerPath d k) (hcap : l.length ≤ s.outCap.bytes)
    (hbits : s.BitsAt s.payloadStart (c ++ d)) (hsize : (c ++ d).length ≤ s.payloadSize)
    (hend : (s.limsnap = true ∧ l.length = s.outLimit.toNat ∧ d = []) ∨
      ((c ++ d).length = s.payloadSize ∧ (s.limsnap = true → l.length < s.outLimit.toNat))) :
    bodyDecPayload s = (s.emitted l (c ++ d).length d.length, none) := by
  rcases hend with ⟨hlim, hcount, rfl⟩ | ⟨hlast, hlim⟩
  · have hwalk := walkPayload_codes_inner hroot hsp hd hcap hbits hsize (fun _ => hcount.le) (.inr rfl)
    exact bodyDecPayload_of_walk hroot (hwalk.trans (walkPayload_limit s _ _ _ hlim hcount))
  · have hwalk := walkPayload_codes_inner hroot hsp hd hcap hbits hsize (fun h => (hlim h).le)
      (.inl fun h => (hlim h).ne)
    rw [hlast, Nat.sub_self] at hwalk
    rw [hlast]
    exact bodyDecPayload_of_walk hroot hwalk

/-- DEC_PAYLOAD's next state on such a payload: what the tree and the payload are, the invalidation leaves. -/
theorem exec_decPayload_spells {l : List Byte} {c d : Bits} {k : Nat} (hv : s.stage.dtreeV = true)
    (hroot : s.rootLeaf = none) (hsp : s.Spells l c) (hd : s.InnerPath d k) (hcap : l.length ≤ s.outCap.bytes)
    (hbits : s.BitsAt s.payloadStart (c ++ d)) (hsize : (c ++ d).length ≤ s.payloadSize)
    (hend : (s.limsnap = true ∧ l.length = s.outLimit.toNat ∧ d = []) ∨
      ((c ++ d).length = s.payloadSize ∧ (s.limsnap = true → l.length < s.outLimit.toNat))) :
    ∃ t, exec .decPayload s = .next t ∧ PutOut s t l (c ++ d).length d.length ∧ t.hdrLen = s.hdrLen ∧
      t.stage = { s.stage with decV := true } ∧ FreqKept s t ∧ TreeKept s t ∧ CodeKept s t ∧ EndsOk s t := by
  have hsp' : (s.invalidate .decPayload).Spells l c := (spells_congr (by rfl) (by rfl) l c).2 hsp
  exact exec_decPayload_emitted hv hcap
    (bodyDecPayload_spells (s := s.invalidate .decPayload) hroot hsp' hd hcap hbits hsize hend)

/-- Settles O34: the walk puts out the symbols. -/
theorem decPayloadEmitsTheSymbols : Obligations.DecPayloadEmitsTheSymbols := by
  intro s l c d k hv hroot hsp hd hcap hbits hsize hend
  obtain ⟨t, hnext, hput, hrest⟩ := exec_decPayload_spells hv hroot hsp hd hcap hbits hsize hend
  exact ⟨t, hnext, hput.output, hput.kept, hput.outLen, hput.payloadBits, hput.resid, hrest⟩

/-! ### A LEAF as ROOT (R182, R216) -/

/-- The copies a LEAF as ROOT puts out: all of them, or OUT_CAP of them and then an error. -/
theorem bodyDecPayload_leaf {sym : Byte} {n : Nat} (hroot : s.rootLeaf = some sym)
    (hn : n = if s.limsnap then s.outLimit.toNat else 0) :
    (n ≤ s.outCap.bytes → bodyDecPayload s = (s.emitted (List.replicate n sym) 0 0, none)) ∧
    (s.outCap.bytes < n → bodyDecPayload s =
      ({ s with outMem := Memory.writeBytes s.outMem 0 (List.replicate s.outCap.bytes sym) },
        some { code := .outOverflow, info := 8 * s.hdrLen.toNat })) := by
  have hbody : bodyDecPayload s = bodyLeafRoot s sym := by rw [bodyDecPayload, hroot]
  have hcopies := emitCopies_eq s.outCap.bytes sym n 0 s.outMem (Nat.zero_le _)
  simp only [Nat.sub_zero, Nat.zero_add] at hcopies
  constructor <;> intro hcap
  · rw [Nat.min_eq_left hcap, decide_eq_false (by omega)] at hcopies
    simp only [hbody, bodyLeafRoot, ← hn, hcopies, State.emitted, List.length_replicate]
    rfl
  · rw [Nat.min_eq_right hcap.le, decide_eq_true hcap] at hcopies
    simp only [hbody, bodyLeafRoot, ← hn, hcopies]

/-- A stage command whose checks pass and whose body raises: its invalidation, but for OUT_MEM, is what it leaves. -/
theorem exec_raised {i : Instr} {op : StageOp} {r : Raise} (hi : stageOf i = some op) (hm : s.stage.meets op = true)
    (hl : op.checksInLen = true → s.inLen.toNat ≤ s.inCap.bytes)
    (hb : bodyOf op (s.invalidate op) = (u, some r)) :
    EndsWithError (exec i s) { s.invalidate op with outMem := u.outMem } r.code op.opcode r.info := by
  rw [exec_eq, resultOf_of_stageOf hi, runStage_raise hm hl hb, invalidate_of_raise hb, invalidate_invalidate]
  exact endsWithError_complete _ _

/-- Settles O35: the copies fit, or OUT_CAP of them are written. -/
theorem leafRootEmitsTheLimit : Obligations.LeafRootEmitsTheLimit := by
  intro s sym n hv hroot hn
  obtain ⟨hfits, hover⟩ := bodyDecPayload_leaf (s := s.invalidate .decPayload) hroot hn
  refine ⟨fun hcap => ?_, fun hcap => ⟨_, exec_raised (i := .decPayload) rfl hv nofun (hover hcap), ?_⟩⟩
  · obtain ⟨t, hnext, hput, hrest⟩ := exec_decPayload_emitted hv (by rwa [List.length_replicate]) (hfits hcap)
    have hlen := List.length_replicate (n := n) (a := sym)
    refine ⟨t, hnext, ?_, ?_, ?_, hput.payloadBits, hput.resid, hrest⟩
    · simpa only [hlen] using hput.output
    · simpa only [hlen] using hput.kept
    · exact hput.outLen.trans hlen
  · have hwritten := output_writeBytes (s := s) (l := List.replicate s.outCap.bytes sym)
      (t := { s with outMem := Memory.writeBytes s.outMem 0 (List.replicate s.outCap.bytes sym) }) rfl rfl
    rwa [List.length_replicate] at hwritten

end Sys2Proof.Machine
end

section
/-! PROOFS. DECODE of a header and a payload in its codes (42_decoder.md R183). -/

namespace Sys2Proof.Machine

variable {s t u v w : State} {l coded : List (Byte × Bits)} {q : Nat} {d : Bits}

/-! ### The first two stages (R180, R181) -/

/-- A stage whose checks pass and whose body raises nothing. -/
theorem runStage_bodyOf {op : StageOp} (hm : s.stage.meets op = true)
    (hl : op.checksInLen = true → s.inLen.toNat ≤ s.inCap.bytes) (hb : bodyOf op (s.invalidate op) = (u, none)) :
    runStage op (bodyOf op) s = ({ u with stage := (s.stage.invalidate op).mark op }, none) ∧
      StageKeeps s { u with stage := (s.stage.invalidate op).mark op } := by
  have hkeep := bodyKeeps_bodyOf op (s.invalidate op)
  rw [hb] at hkeep
  refine ⟨?_, stageKeeps_stage _ ((stageKeeps_invalidate s op).trans hkeep.stageKeeps)⟩
  rw [runStage_ok hm hl hb, hkeep.stage, invalidate_stage]

/-- The codes of a table, one for each symbol of ORDER, are the entries read. -/
theorem TableOf.entries_eq (h : TableOf l q v) : (v.order.map fun sym => (sym, v.codeOf sym)) = l := by
  rw [h.order, List.map_map]
  calc l.map ((fun sym => (sym, v.codeOf sym)) ∘ Prod.fst)
    _ = l.map id := List.map_congr_left fun e he => by simp [(h.codes e he).2]
    _ = l := List.map_id l

theorem TableOf.codesFree (h : TableOf l q v) (hg : GoodTable l) : v.CodesFree v.order := by
  rw [State.CodesFree, h.order, List.pairwise_map]
  refine hg.free.imp_of_mem fun {a b} ha hb hab => ?_
  rwa [(h.codes a ha).2, (h.codes b hb).2]

theorem TableOf.congr (h : TableOf l q v) (hf : FreqKept v t) (hc : CodeKept v t) (hl : t.hdrLen = v.hdrLen) :
    TableOf l q t where
  order := hc.order.trans h.order
  codes := by simpa only [State.codeOf, hc.codeLen, hc.codeBits] using h.codes
  absent := by simpa only [hc.codeLen, hc.codeBits] using h.absent
  tail := by simpa only [hc.codeLen, hc.codeBits] using h.tail
  nsym := hf.nsym ▸ h.nsym
  hdrLen := hl ▸ h.hdrLen
  freq := hf.freq ▸ h.freq

/-- What DEC_TABLE and DEC_TREE leave of `s` in `w`, on a header of the entries `l` that ends at offset `q`. -/
structure DecFront (s w : State) (l : List (Byte × Bits)) (q : Nat) : Prop where
  keeps  : StageKeeps s w
  outMem : w.outMem = s.outMem
  stage  : w.stage = { Stage.none with tabV := true, dtreeV := true }
  root   : w.root = some 0
  tree   : Built w.arena l []
  table  : TableOf l q w

/-- A table of codes that are not empty is inserted as the tree of its entries. -/
theorem TableOf.exists_built (h : TableOf l q v) (hg : GoodTable l) :
    ∃ ar, insertAll v v.order 0 [bareNode] = (ar, none) ∧ Built ar l [] := by
  obtain ⟨ar, hins⟩ := (h.codesFree hg).exists_insertAll
  rcases insertAll_built hins with ⟨hbuilt, -⟩ | ⟨sym, ho, he, -⟩
  · exact ⟨ar, hins, h.entries_eq ▸ hbuilt⟩
  · have hmem : (sym, v.codeOf sym) ∈ l := by
      rw [← h.entries_eq, ho]
      exact List.mem_singleton_self _
    exact absurd he (hg.codes _ hmem).1

/-- DEC_TABLE and DEC_TREE on a header of a table that a decoder can use. -/
theorem exists_decFront (h : s.HeaderAt l q) (hcap : s.inLen.toNat ≤ s.inCap.bytes) (hg : GoodTable l) :
    ∃ v w, stageDecTable s = (v, none) ∧ stageDecTree v = (w, none) ∧ DecFront s w l q := by
  obtain ⟨htable, -, -, hmem⟩ := tableOf_withTable h
  obtain ⟨hrun, hkeep⟩ := runStage_bodyOf (op := .decTable) rfl (fun _ => hcap)
    (bodyDecTable_of_headerAt (h.congr (hostSideKept_invalidate s .decTable)) (present_invalidate_decTable s))
  generalize hv : ({ (s.invalidate .decTable).withTable l q with
    stage := (s.stage.invalidate .decTable).mark .decTable } : State) = v at hrun hkeep
  have hstage : v.stage = { Stage.none with tabV := true } := by rw [← hv]; rfl
  have htable' : TableOf l q (v.invalidate .decTree) := by rw [← hv]; exact { htable with }
  obtain ⟨ar, hins, hbuilt⟩ := htable'.exists_built hg
  obtain ⟨hrun', hkeep'⟩ := runStage_bodyOf (op := .decTree) (by rw [hstage]; rfl) nofun
    (bodyDecTree_of_insertAll hins)
  exact ⟨v, _, hrun, hrun',
    { keeps := hkeep.trans hkeep'
      outMem := by rw [← hv]; exact hmem
      stage := by rw [hstage]; rfl
      root := rfl
      tree := hbuilt
      table := { htable' with } }⟩

/-! ### The tree of the codes -/

/-- The leaf paths of the tree are the entries inserted. -/
theorem DecFront.leafPath_iff (h : DecFront s w l q) (p : Bits) (sym : Byte) : w.LeafPath p sym ↔ (sym, p) ∈ l := by
  constructor
  · rintro ⟨r, hr, x, hx, hleaf⟩
    obtain rfl : 0 = r := Option.some.inj (h.root.symm.trans hr)
    exact h.tree.leaves hx hleaf
  · exact fun hmem => ⟨0, h.root, h.tree.leads _ hmem⟩

theorem DecFront.rootLeaf_eq_none (h : DecFront s w l q) : w.rootLeaf = none := by
  rw [State.rootLeaf, h.root]
  exact h.tree.rootInner

/-- `d` is empty, or begins a code of `l` and is not all of it. -/
def Begins (l : List (Byte × Bits)) (d : Bits) : Prop := d = [] ∨ ∃ e ∈ l, d <+: e.2 ∧ d ≠ e.2

/-- The beginning of a code leads to an entry that is no LEAF. -/
theorem DecFront.innerPath (h : DecFront s w l q) (hd : Begins l d) : ∃ k, w.InnerPath d k := by
  rcases hd with rfl | ⟨e, he, ⟨p, hp⟩, hne⟩
  · exact ⟨0, 0, h.root, rfl, h.tree.rootInner⟩
  · obtain ⟨x, hx, -⟩ := h.tree.leads e he
    rw [← hp, follow_append] at hx
    obtain ⟨k, hk, hkx⟩ := Option.bind_eq_some_iff.1 hx
    refine ⟨k, 0, h.root, hk, ?_⟩
    cases p with
    | nil => exact absurd (by simpa using hp) hne
    | cons b p =>
      rw [follow_cons] at hkx
      obtain ⟨y, hy, -⟩ := Option.bind_eq_some_iff.1 hkx
      exact leafAt_of_childAt hy

/-- Leaf paths one after the other spell their symbols. -/
theorem spells_of_leafPaths (h : ∀ e ∈ coded, w.LeafPath e.2 e.1) :
    w.Spells (coded.map Prod.fst) (coded.flatMap Prod.snd) := by
  induction coded with
  | nil => rfl
  | cons e coded ih =>
    rw [List.forall_mem_cons] at h
    exact ⟨e.2, coded.flatMap Prod.snd, List.flatMap_cons, h.1, ih h.2⟩

theorem DecFront.spells (h : DecFront s w l q) (hc : ∀ e ∈ coded, e ∈ l) :
    w.Spells (coded.map Prod.fst) (coded.flatMap Prod.snd) :=
  spells_of_leafPaths fun e he => (h.leafPath_iff e.2 e.1).2 (hc e he)

/-! ### The three stages (R183) -/

/-- After its first two stages, DECODE is DEC_PAYLOAD. -/
theorem exec_decode_eq (h1 : stageDecTable s = (v, none)) (h2 : stageDecTree v = (w, none)) :
    exec .decode s = exec .decPayload w := by
  have hrun : runDecode s = stageDecPayload w := by rw [runDecode, h1, andThen_none, h2, andThen_none]
  exact congrArg complete hrun

/-- A payload in codes of the table `l`, from offset `q` of the input: the codes `coded` and the beginning `d` of
another, up to the limit or to the last bit. -/
structure State.CodedAt (s : State) (l : List (Byte × Bits)) (q : Nat) (coded : List (Byte × Bits)) (d : Bits) :
    Prop where
  mem    : ∀ e ∈ coded, e ∈ l
  begins : Begins l d
  fits   : coded.length ≤ s.outCap.bytes
  bits   : s.BitsAt (8 * q) (coded.flatMap Prod.snd ++ d)
  size   : (coded.flatMap Prod.snd ++ d).length ≤ 8 * (s.inLen.toNat - q)
  ends   : (s.limsnap = true ∧ coded.length = s.outLimit.toNat ∧ d = []) ∨
    ((coded.flatMap Prod.snd ++ d).length = 8 * (s.inLen.toNat - q) ∧
      (s.limsnap = true → coded.length < s.outLimit.toNat))

/-- What DECODE makes of a header of the entries `l` that ends at offset `q`, the codes `coded` and the beginning `d` of
another. -/
structure Decoded (s t : State) (l : List (Byte × Bits)) (q : Nat) (coded : List (Byte × Bits)) (d : Bits) :
    Prop where
  output : t.output coded.length = coded.map Prod.fst
  kept   : OutKeptOutside s t 0 coded.length
  outLen : t.outLen.toNat = coded.length
  bits   : t.payloadBits.toNat = (coded.flatMap Prod.snd ++ d).length
  resid  : t.resid.toNat = d.length
  table  : TableOf l q t
  paths  : ∀ e ∈ l, t.LeafPath e.2 e.1
  stage  : t.stage.toWord = 0x700
  ends   : EndsOk s t

/-- DECODE of such an input. -/
theorem exists_decoded (h : s.HeaderAt l q) (hcap : s.inLen.toNat ≤ s.inCap.bytes) (hg : GoodTable l)
    (hc : s.CodedAt l q coded d) : ∃ t, exec .decode s = .next t ∧ Decoded s t l q coded d := by
  obtain ⟨v, w, hrun, hrun', hw⟩ := exists_decFront h hcap hg
  obtain ⟨k, hinner⟩ := hw.innerPath hc.begins
  have hhost := hw.keeps.host
  have hstart : w.payloadStart = 8 * q := by rw [State.payloadStart, hw.table.hdrLen]
  have hsize : w.payloadSize = 8 * (s.inLen.toNat - q) := by rw [State.payloadSize, hw.table.hdrLen, hhost.inLen]
  have hlen : (coded.map Prod.fst).length = coded.length := List.length_map _
  obtain ⟨t, hnext, hput, hhdr, hstage, hfreq, htree, hcode, hends⟩ :=
    exec_decPayload_spells (by rw [hw.stage]) hw.rootLeaf_eq_none (hw.spells hc.mem) hinner
      (by rw [hlen, hhost.outCap]; exact hc.fits) (hstart ▸ hc.bits.congr hhost.inByte) (hsize ▸ hc.size)
      (by rw [hlen, hsize, hhost.limsnap, hhost.outLimit]; exact hc.ends)
  have hpaths : ∀ e ∈ l, t.LeafPath e.2 e.1 := fun e he => by
    rw [State.LeafPath, htree.root, htree.arena]
    exact (hw.leafPath_iff e.2 e.1).2 he
  have hlt : (coded.flatMap Prod.snd ++ d).length < 2 ^ 32 := by
    have := bytes_le s.inCap
    have := hc.size
    omega
  have hd : d.length ≤ (coded.flatMap Prod.snd ++ d).length := by simp
  have hkept : OutKeptOutside s t 0 coded.length := fun a ha =>
    (hput.kept a (hlen.symm ▸ ha)).trans (congrFun (outByte_congr hw.outMem hhost.resets) a)
  exact ⟨t, (exec_decode_eq hrun hrun').trans hnext,
    { output := hlen ▸ hput.output
      kept := hkept
      outLen := hput.outLen.trans hlen
      bits := by rw [hput.payloadBits, BitVec.toNat_ofNat, Nat.mod_eq_of_lt hlt]
      resid := by rw [hput.resid, BitVec.toNat_ofNat, Nat.mod_eq_of_lt (by omega)]
      table := hw.table.congr hfreq hcode hhdr
      paths := hpaths
      stage := by rw [hstage, hw.stage]; decide
      ends := ⟨hhost.trans hends.host, hends.status.trans (by rw [hw.keeps.status]),
        hends.errInfo.trans hw.keeps.errInfo⟩ }⟩

/-- Settles O38: the header is a table that a decoder can use, so the three stages run one after the other. -/
theorem decodeReadsTheContainer : Obligations.DecodeReadsTheContainer := by
  intro s entries coded q d _ hlen hcap hcount hat hdup hne hfree hmem hbegins hfits hbits hsize hend
  have h : s.HeaderAt entries q := ⟨hlen, hcount, hat, hdup, fun e he h0 => absurd h0 (hne e he)⟩
  have hg : GoodTable entries := ⟨h.length_le, hdup, fun e he => ⟨hne e he, entriesAt_length hat e he⟩, hfree⟩
  obtain ⟨t, hnext, ht⟩ := exists_decoded h hcap hg ⟨hmem, hbegins, hfits, hbits, hsize, hend⟩
  exact ⟨t, hnext, ht.output, ht.kept, ht.outLen, ht.bits, ht.resid, ht.table.nsym, ht.table.hdrLen, ht.table.order,
    fun e he => ⟨(ht.table.codes e he).2, ht.paths e he⟩, ht.table.freq, ht.stage, ht.ends⟩

end Sys2Proof.Machine
end

section
/-! PROOFS. What the decoder makes of a container that ENCODE wrote (42_decoder.md R184, R185, R186). -/

namespace Sys2Proof.Machine

variable {s t u v w f : State} {l coded : List (Byte × Bits)} {q : Nat}

/-! ### The container as a header and a payload -/

/-- ENCODE that ends without error has written the container of its front. -/
theorem exec_encode_inv (ht : exec .encode s = .next t) (herr : t.status.err = false) :
    ∃ f, Front s f ∧ f.nsym.toNat ≤ 255 ∧ t = f.afterEncode.finish ∧ HoldsContainer f t := by
  have hstatus := exec_status .encode s
  rw [← eq_of_exec ht] at hstatus
  rcases hstatus with ⟨hnone, -⟩ | ⟨e, -, hst, -⟩
  · replace hnone : (runEncode s).2 = none := hnone
    have hle : s.inLen.toNat ≤ s.inCap.bytes := by
      by_contra hlt
      rw [runEncode_beyond (by omega)] at hnone
      cases hnone
    obtain ⟨f, hf, hend, hok⟩ := runEncode_eq hle
    have hnoerr : f.encodeError = none := hend ▸ hnone
    obtain ⟨hrun, hfit⟩ := hok hnoerr
    have hn : f.nsym.toNat ≤ 255 := by
      by_contra hlt
      rw [State.encodeError, if_pos (by omega)] at hnoerr
      cases hnoerr
    have hfin : t = f.afterEncode.finish := by
      rw [← hrun]
      exact (eq_of_exec ht).trans (completed_of_none hnone)
    exact ⟨f, hf, hn, hfin, hfin ▸ holdsContainer_afterEncode hfit⟩
  · rw [hst] at herr
    cases herr

theorem length_le_of_inputStarts {bytes : List Byte} (h : u.inputStarts bytes) : bytes.length ≤ u.inLen.toNat :=
  length_input u ▸ h.length_le

/-- Bytes behind others in the input. -/
theorem inByte_of_append {pre mid post : List Byte} (h : u.inputStarts (pre ++ (mid ++ post))) {j : Nat}
    (hj : j < mid.length) : u.inByte (pre.length + j) = mid.getD j 0 := by
  rw [inByte_of_input h (by simp only [List.length_append]; omega)]
  simp only [List.getD_eq_getElem?_getD]
  rw [List.getElem?_append_right (by omega), Nat.add_sub_cancel_left, List.getElem?_append_left hj]

/-- Entries written one after the other behind `pre` stand there. -/
theorem entriesAt_of_inputStarts {pre : List Byte} (hlen : ∀ e ∈ l, e.2.length ≤ 255)
    (h : u.inputStarts (pre ++ l.flatMap fun e => entryBytes e.1 e.2)) :
    u.EntriesAt pre.length l (pre.length + (l.flatMap fun e => entryBytes e.1 e.2).length) := by
  induction l generalizing pre with
  | nil => rfl
  | cons e l ih =>
    rw [List.forall_mem_cons] at hlen
    rw [List.flatMap_cons] at h ⊢
    have hentry := length_entryBytes e.1 e.2
    have hbyte : ∀ j, j < 2 + ceil8 e.2.length → u.inByte (pre.length + j) = (entryBytes e.1 e.2).getD j 0 :=
      fun j hj => inByte_of_append h (hentry ▸ hj)
    have hrest := ih (pre := pre ++ entryBytes e.1 e.2) hlen.2 (by rwa [List.append_assoc])
    have hfit := length_le_of_inputStarts h
    simp only [List.length_append, hentry, ← Nat.add_assoc] at hrest hfit ⊢
    refine ⟨by omega, hbyte 0 (by omega), ?_, readBits_pack _ _ _ fun j hj => ?_, hrest⟩
    · rw [hbyte 1 (by omega)]
      exact Nat.mod_eq_of_lt (by omega)
    · rw [length_pack] at hj
      rw [Nat.add_assoc, hbyte (2 + j) (by omega), Nat.add_comm 2 j]
      rfl

/-- The header of a good table is one that DEC_TABLE reads. -/
theorem headerAt_of_inputStarts (hg : GoodTable l) (h : u.inputStarts (headerBytes l)) :
    u.HeaderAt l (headerBytes l).length := by
  have hlen := length_headerBytes l
  have hfit := length_le_of_inputStarts h
  have hl := hg.length
  refine ⟨by omega, ?_, ?_, hg.nodup, fun e he h0 => absurd h0 (hg.codes e he).1⟩
  · rw [inByte_of_input h (by omega)]
    exact Nat.mod_eq_of_lt (by omega)
  · rw [hlen]
    exact entriesAt_of_inputStarts (pre := [BitVec.ofNat 8 l.length]) (fun e he => (hg.codes e he).2) h

/-- The number of pad bits of the container's payload (R157). -/
def State.padBits (f : State) : Nat := 8 * ceil8 f.payload.length - f.payload.length

/-- What an input that is a container of `f` holds: the header of its table, and its payload with the pad bits. -/
theorem contents_of_container (hf : Front s f) (hn : f.nsym.toNat ≤ 255) (hin : u.input = f.container) :
    u.HeaderAt f.entries (headerBytes f.entries).length ∧
      u.BitsAt (8 * (headerBytes f.entries).length) (f.payload ++ List.replicate f.padBits false) ∧
      (f.payload ++ List.replicate f.padBits false).length =
        8 * (u.inLen.toNat - (headerBytes f.entries).length) := by
  have hstarts : u.inputStarts (headerBytes f.entries ++ pack f.payload) := ⟨[], by rw [hin, List.append_nil]; rfl⟩
  refine ⟨headerAt_of_inputStarts (hf.goodTable hn) ((List.prefix_append _ _).trans hstarts),
    bitsAt_payload hstarts, ?_⟩
  have hle := le_eight_mul_ceil8 f.payload.length
  rw [← length_input, hin, State.container, State.padBits]
  simp only [List.length_append, List.length_replicate, length_pack]
  omega

/-! ### The payload as codes of the table -/

/-- The entries of the table that code the input, in its order. -/
def State.inputEntries (f : State) : List (Byte × Bits) := f.input.map fun sym => (sym, f.codeOf sym)

theorem map_fst_inputEntries (f : State) : f.inputEntries.map Prod.fst = f.input := by
  rw [State.inputEntries, List.map_map]
  exact List.map_id _

theorem flatMap_snd_inputEntries (f : State) : f.inputEntries.flatMap Prod.snd = f.payload := by
  rw [State.inputEntries, List.flatMap_map]
  rfl

/-- The entries of the encoder's table are the leaf paths of its tree. -/
theorem Front.mem_entries_iff (h : Front s f) (p : Bits) (sym : Byte) :
    (sym, p) ∈ f.entries ↔ f.LeafPath p sym := by
  have hpresent : f.presentSymbols = s.inputSymbols := h.presentSymbols.trans h.mapped_eq
  rw [leafPath_iff_builtPath h.tree, State.entries, hpresent, List.mem_map]
  constructor
  · rintro ⟨a, ha, he⟩
    obtain ⟨rfl, rfl⟩ := Prod.mk.inj he
    exact h.builtPath_codeOf ha
  · intro hp
    have hs : sym ∈ s.inputSymbols := h.mapped_eq ▸ hp.mem
    exact ⟨sym, hs, Prod.ext rfl ((h.builtPath_codeOf hs).unique hp)⟩

theorem Front.inputEntries_mem (h : Front s f) : ∀ e ∈ f.inputEntries, e ∈ f.entries := by
  intro e he
  obtain ⟨sym, hs, rfl⟩ := List.mem_map.1 he
  rw [h.input, ← mem_inputSymbols] at hs
  exact (h.mem_entries_iff _ _).2 ((leafPath_iff_builtPath h.tree _ _).2 (h.builtPath_codeOf hs))

/-- The codes of the input, and then `n` times the code of `k0` zeros. -/
def State.paddedEntries (f : State) (k0 : Nat) (s0 : Byte) (n : Nat) : List (Byte × Bits) :=
  f.inputEntries ++ List.replicate n (s0, List.replicate k0 false)

theorem flatMap_snd_replicate (n k0 : Nat) (s0 : Byte) :
    (List.replicate n (s0, List.replicate k0 false)).flatMap Prod.snd = List.replicate (n * k0) false := by
  rw [List.flatMap_replicate, List.flatten_replicate_replicate]

/-- The payload with `p` pad bits is codes of the table and the beginning of one: the pad bits hold the code of the
leftmost leaf, `k0` zeros, `p / k0` times (R185). -/
theorem Front.paddedEntries_padBits (h : Front s f) {k0 : Nat} {s0 : Byte} (hk : 1 ≤ k0)
    (h0 : f.LeafPath (List.replicate k0 false) s0) (p : Nat) :
    (∀ e ∈ f.paddedEntries k0 s0 (p / k0), e ∈ f.entries) ∧ Begins f.entries (List.replicate (p % k0) false) ∧
      (f.paddedEntries k0 s0 (p / k0)).flatMap Prod.snd ++ List.replicate (p % k0) false =
        f.payload ++ List.replicate p false := by
  have hmem := (h.mem_entries_iff _ _).2 h0
  have hlt := Nat.mod_lt p hk
  refine ⟨fun e he => ?_, .inr ⟨_, hmem, ?_, fun he => ?_⟩, ?_⟩
  · rcases List.mem_append.1 he with he | he
    · exact h.inputEntries_mem e he
    · rwa [List.eq_of_mem_replicate he]
  · exact List.prefix_replicate_iff.2 (by simpa using hlt.le)
  · have := congrArg List.length he
    simp only [List.length_replicate] at this
    omega
  · rw [State.paddedEntries, List.flatMap_append, flatMap_snd_inputEntries, flatMap_snd_replicate, List.append_assoc,
      List.replicate_append_replicate, Nat.div_add_mod']

/-- The payload with its pad bits is codes of the table and the beginning of one. -/
theorem Front.exists_coded (h : Front s f) : ∃ (coded : List (Byte × Bits)) (d : Bits),
    (∀ e ∈ coded, e ∈ f.entries) ∧ Begins f.entries d ∧
      coded.flatMap Prod.snd ++ d = f.payload ++ List.replicate f.padBits false := by
  by_cases hin : s.input = []
  · have hpay : f.payload = [] := by rw [State.payload, h.input, hin]; rfl
    exact ⟨[], [], nofun, .inl rfl, by simp [State.padBits, hpay]⟩
  · obtain ⟨x, hx⟩ := List.exists_mem_of_ne_nil _ hin
    obtain ⟨k0, s0, hk, h0⟩ := exists_builtPath_left (List.ne_nil_of_mem ((h.mapped_iff x).2 hx))
    exact ⟨_, _, h.paddedEntries_padBits hk ((leafPath_iff_builtPath h.tree _ _).2 h0) f.padBits⟩

/-! ### DECODE of a container (R184, R185) -/

/-- Settles O40: the limit ends the walk behind the codes of the input. -/
theorem decodeInvertsEncode : Obligations.DecodeInvertsEncode := by
  intro s t u _ ht herr hcap hin hlim hcount hfit
  obtain ⟨f, hf, hn, -, hheld⟩ := exec_encode_inv ht herr
  rw [hheld.outLen, hheld.output] at hin
  obtain ⟨hhdr, hbits, hsize⟩ := contents_of_container hf hn hin
  have hlen : f.inputEntries.length = s.input.length := by rw [State.inputEntries, List.length_map, hf.input]
  have hcodes : f.inputEntries.flatMap Prod.snd ++ [] = f.payload := by
    rw [List.append_nil, flatMap_snd_inputEntries]
  have hcoded : u.CodedAt f.entries (headerBytes f.entries).length f.inputEntries [] :=
    { mem := hf.inputEntries_mem
      begins := .inl rfl
      fits := hlen ▸ hfit
      bits := hcodes ▸ hbits.append.1
      size := by
        rw [hcodes, ← hsize, List.length_append]
        exact Nat.le_add_right _ _
      ends := .inl ⟨hlim, hlen.trans hcount.symm, rfl⟩ }
  obtain ⟨v, hnext, hv⟩ := exists_decoded hhdr hcap (hf.goodTable hn) hcoded
  refine ⟨v, hnext, hv.ends, hv.outLen.trans hlen, ?_, hlen ▸ hv.kept, BitVec.eq_of_toNat_eq ?_,
    BitVec.eq_of_toNat_eq hv.resid, hv.stage⟩
  · rw [← hlen, hv.output, map_fst_inputEntries, hf.input]
  · rw [hv.bits, hcodes, hheld.payloadBits]

/-- Settles O41: the walk reads every bit, and the pad bits are codes of the leftmost leaf and the beginning of one. -/
theorem padBitsRepeatTheLeftmostSymbol : Obligations.PadBitsRepeatTheLeftmostSymbol := by
  intro s t u _ ht herr hne hcap hin hlim
  obtain ⟨f, hf, hn, rfl, hheld⟩ := exec_encode_inv ht herr
  rw [hheld.outLen, hheld.output] at hin
  obtain ⟨hhdr, hbits, hsize⟩ := contents_of_container hf hn hin
  obtain ⟨x, hx⟩ := List.exists_mem_of_ne_nil _ hne
  obtain ⟨k0, s0, hk, h0⟩ := exists_builtPath_left (List.ne_nil_of_mem ((hf.mapped_iff x).2 hx))
  have h0' := (leafPath_iff_builtPath hf.tree _ _).2 h0
  have hpad := eight_mul_ceil8_lt f.payload.length
  rw [hheld.resid]
  refine ⟨k0, s0, hk, h0', by omega, fun hfit => ?_⟩
  obtain ⟨hmem, hbegins, hcodes⟩ := hf.paddedEntries_padBits hk h0' f.padBits
  have hlen : (f.paddedEntries k0 s0 (f.padBits / k0)).length = s.input.length + f.padBits / k0 := by
    rw [State.paddedEntries, List.length_append, State.inputEntries, List.length_map, hf.input, List.length_replicate]
  have hcoded : u.CodedAt f.entries (headerBytes f.entries).length (f.paddedEntries k0 s0 (f.padBits / k0))
      (List.replicate (f.padBits % k0) false) :=
    { mem := hmem
      begins := hbegins
      fits := hlen ▸ hfit
      bits := hcodes ▸ hbits
      size := (hcodes ▸ hsize).le
      ends := .inr ⟨hcodes ▸ hsize, fun h => nomatch hlim.symm.trans h⟩ }
  obtain ⟨v, hnext, hv⟩ := exists_decoded hhdr hcap (hf.goodTable hn) hcoded
  refine ⟨v, hnext, hv.ends, hv.outLen.trans hlen, ?_, hv.resid.trans List.length_replicate, hv.stage⟩
  rw [hv.outLen, hv.output, State.paddedEntries, List.map_append, map_fst_inputEntries, hf.input, List.map_replicate]
  rfl

end Sys2Proof.Machine
end

section
/-! PROOFS. The decoder accepts every container that ENCODE wrote (42_decoder.md R186). -/

namespace Sys2Proof.Machine

variable {s t u v w f : State} {l coded : List (Byte × Bits)} {q : Nat}

/-! ### Payload bits that go on along the tree -/

/-- From the entry `cur` on, and again from ROOT after each LEAF, every bit leads to a child. -/
def State.Walkable (s : State) : Option Nat → Bits → Prop
  | _, [] => True
  | cur, b :: c =>
    ∃ nx, s.childOf cur b = some nx ∧ s.Walkable (if (leafAt s.arena nx).isSome then s.root else some nx) c

/-- On such bits the walk raises OUT_OVERFLOW or nothing. -/
theorem walkPayload_of_walkable {c : Bits} {x : Nat} {w : Walk} {r : Raise} (hbits : s.BitsAt x c)
    (hc : s.Walkable w.cur c) (h : (walkPayload s c.length x w).2 = some r) : r.code = .outOverflow := by
  induction c generalizing x w with
  | nil => cases h
  | cons b c ih =>
    obtain ⟨nx, hnx, hc⟩ := hc
    rw [List.length_cons, walkPayload, hbits.head, hnx] at h
    split at h
    · cases h
    · dsimp only at h
      cases hleaf : leafAt s.arena nx with
      | some sym =>
        rw [hleaf] at h hc
        dsimp only at h
        split at h
        · injection h with h
          rw [← h]
        · exact ih hbits.tail hc h
      | none =>
        rw [hleaf] at h hc
        exact ih hbits.tail hc h

/-- An entry from which a path leads to an entry that is no LEAF is none. -/
theorem leafAt_of_follow {ar : List Node} {k x : Nat} {p : Bits} (h : follow ar k p = some x)
    (hx : leafAt ar x = none) : leafAt ar k = none := by
  cases hk : leafAt ar k with
  | none => rfl
  | some sym =>
    obtain ⟨-, rfl⟩ := follow_leaf hk h
    rw [hx] at hk
    cases hk

/-- The bits to an entry that is no LEAF. -/
theorem walkable_of_inner {k k' : Nat} {d : Bits} (hd : follow s.arena k d = some k')
    (hk : leafAt s.arena k' = none) : s.Walkable (some k) d := by
  induction d generalizing k with
  | nil => trivial
  | cons b d ih =>
    rw [follow_cons] at hd
    obtain ⟨nx, hnx, hd⟩ := Option.bind_eq_some_iff.1 hd
    refine ⟨nx, hnx, ?_⟩
    rw [leafAt_of_follow hd hk]
    exact ih hd

/-- The bits of a code, and then bits from ROOT on. -/
theorem walkable_of_code {k : Nat} {c d : Bits} {sym : Byte} (hc : LeadsTo s.arena k c sym) (hne : c ≠ [])
    (hd : s.Walkable s.root d) : s.Walkable (some k) (c ++ d) := by
  obtain ⟨x, hx, hleaf⟩ := hc
  induction c generalizing k with
  | nil => exact absurd rfl hne
  | cons b c ih =>
    rw [follow_cons] at hx
    obtain ⟨nx, hnx, hx⟩ := Option.bind_eq_some_iff.1 hx
    refine ⟨nx, hnx, ?_⟩
    cases c with
    | nil =>
      obtain rfl := Option.some.inj hx
      rw [hleaf]
      exact hd
    | cons b' c =>
      have hinner : leafAt s.arena nx = none := by
        rw [follow_cons] at hx
        obtain ⟨y, hy, -⟩ := Option.bind_eq_some_iff.1 hx
        exact leafAt_of_childAt hy
      rw [hinner]
      exact ih (by simp) hx

/-- Codes one after the other and the beginning of another. -/
theorem walkable_of_spells {l : List Byte} {c d : Bits} {k : Nat} (hroot : s.rootLeaf = none) (hsp : s.Spells l c)
    (hd : s.InnerPath d k) : s.Walkable s.root (c ++ d) := by
  induction l generalizing c with
  | nil =>
    obtain rfl : c = [] := hsp
    obtain ⟨r, hr, hrk, hk⟩ := hd
    rw [hr]
    exact walkable_of_inner hrk hk
  | cons sym l ih =>
    obtain ⟨p, c', rfl, hp, hsp'⟩ := hsp
    have hne := leafPath_ne_nil hroot hp
    obtain ⟨r, hr, hlead⟩ := hp
    rw [List.append_assoc, hr]
    exact walkable_of_code hlead hne (ih hsp')

/-- Where ROOT is no LEAF, the body raises what its walk does. -/
theorem bodyDecPayload_raise_walk (hroot : s.rootLeaf = none) :
    (bodyDecPayload s).2 = (walkPayload s s.payloadSize s.payloadStart s.walk0).2 := by
  rw [State.payloadSize, State.payloadStart, State.walk0]
  simp only [bodyDecPayload, hroot]
  rcases walkPayload s (8 * (s.inLen.toNat - s.hdrLen.toNat)) (8 * s.hdrLen.toNat)
    { out := s.outMem, count := 0, cur := s.root, depth := 0, examined := 0 } with ⟨w, _ | e⟩ <;> rfl

/-- DEC_PAYLOAD on a payload that is codes and the beginning of another to its last bit. -/
theorem decPayload_error_of_spells {l : List Byte} {c d : Bits} {k : Nat} {e : Err} (hv : s.stage.dtreeV = true)
    (hroot : s.rootLeaf = none) (hsp : s.Spells l c) (hd : s.InnerPath d k)
    (hbits : s.BitsAt s.payloadStart (c ++ d)) (hsize : (c ++ d).length = s.payloadSize)
    (he : (stageDecPayload s).2 = some e) : e.code = .outOverflow ∧ e.op = 0x22 := by
  have hsp' : (s.invalidate .decPayload).Spells l c := (spells_congr (by rfl) (by rfl) l c).2 hsp
  have hwalk : (s.invalidate .decPayload).Walkable (s.invalidate .decPayload).walk0.cur (c ++ d) :=
    walkable_of_spells hroot hsp' hd
  obtain ⟨hop, ⟨-, hno⟩ | ⟨-, hno⟩ | hcode⟩ := stage_error (l := [.outOverflow]) he fun r hr => by
    rw [bodyDecPayload_raise_walk (s := s.invalidate .decPayload) hroot] at hr
    rw [show (s.invalidate .decPayload).payloadSize = (c ++ d).length from hsize.symm] at hr
    exact List.mem_singleton.2 (walkPayload_of_walkable (s := s.invalidate .decPayload) hbits hwalk hr)
  · exact nomatch hv.symm.trans hno
  · cases hno
  · exact ⟨List.mem_singleton.1 hcode, hop⟩

/-! ### The number of entries of a tree (R153, R186) -/

/-- The beginnings of the codes of `l`, and the empty path. -/
def pathsOf (l : List (Byte × Bits)) : Set Bits := { p | p = [] ∨ ∃ e ∈ l, p <+: e.2 }

/-- The beginning of a path is one. -/
theorem follow_of_prefix {ar : List Node} {k x : Nat} {p q : Bits} (h : follow ar k q = some x) (hp : p <+: q) :
    ∃ y, follow ar k p = some y := by
  obtain ⟨r, rfl⟩ := hp
  rw [follow_append] at h
  obtain ⟨y, hy, -⟩ := Option.bind_eq_some_iff.1 h
  exact ⟨y, hy⟩

/-- The paths of a tree whose leaf paths are the codes of `l`, and where every path can be carried on to a leaf. -/
theorem pathsFrom_eq {ar : List Node} {r : Nat} (hleads : ∀ e ∈ l, LeadsTo ar r e.2 e.1)
    (hcover : ∀ p x, follow ar r p = some x → p ∈ pathsOf l) : pathsFrom ar r = pathsOf l := by
  ext p
  refine ⟨fun ⟨x, hx⟩ => hcover p x hx, ?_⟩
  rintro (rfl | ⟨e, he, hp⟩)
  · exact ⟨r, rfl⟩
  · obtain ⟨x, hx, -⟩ := hleads e he
    exact follow_of_prefix hx hp

/-- The decoder's tree has an entry for each beginning of a code. -/
theorem Built.length_eq {ar : List Node} (h : Built ar l []) : ar.length = (pathsOf l).ncard := by
  rw [← pathsFrom_eq h.leads fun p x hx => ?_, ncard_pathsFrom h.distinct h.noParent h.reached_lt h.reached]
  by_cases hp : p = []
  · exact .inl hp
  · exact .inr ((h.covered hx hp).resolve_right fun hn => hp (List.prefix_nil.1 hn))

/-- An entry of the encoder's tree of two symbols or more that a path leads to is live. -/
theorem Tree.reached_lt {syms : List Byte} {ar : List Node} {p : Bits} {x : Nat} (h : Tree syms ar)
    (hp : follow ar (ar.length - 1) p = some x) : x < ar.length := by
  rcases List.eq_nil_or_concat p with rfl | ⟨p, b, rfl⟩
  · obtain rfl := Option.some.inj hp
    exact h.forest.inRange _ List.mem_cons_self
  · rw [List.concat_eq_append, follow_concat] at hp
    obtain ⟨y, -, hy⟩ := Option.bind_eq_some_iff.1 hp
    exact (h.forest.child_lt hy).2.trans (childAt_lt hy)

/-- The encoder's tree of two symbols or more has an entry for each beginning of a code: every path goes on to the left
until it ends at a leaf. -/
theorem Tree.length_eq_ncard {syms : List Byte} {ar : List Node} (h : Tree syms ar)
    (hl : ∀ p sym, (sym, p) ∈ l ↔ LeadsTo ar (ar.length - 1) p sym) : ar.length = (pathsOf l).ncard := by
  have hroot : ar.length - 1 ∈ [ar.length - 1] := List.mem_cons_self
  rw [← pathsFrom_eq (fun e he => (hl e.2 e.1).1 he) fun p x hx => ?_,
    ncard_pathsFrom h.forest.distinct (h.forest.noParent _ hroot) h.reached_lt fun x hx => ?_]
  · obtain ⟨r, hr, p, hp⟩ := h.forest.reached x hx
    exact ⟨p, List.mem_singleton.1 hr ▸ hp⟩
  · obtain ⟨n, sym, y, hy, hleaf⟩ := h.forest.leftmost (h.reached_lt hx)
    have hmem : (sym, p ++ List.replicate n false) ∈ l :=
      (hl _ _).2 ⟨y, by rw [follow_append, hx]; exact hy, hleaf⟩
    exact .inr ⟨_, hmem, List.prefix_append _ _⟩

/-- The number of entries of the two trees, by the number of symbols (R186). -/
theorem Front.card_nodes (h : Front s f) :
    (2 ≤ s.inputSymbols.length → (pathsOf f.entries).ncard = 2 * s.inputSymbols.length - 1 ∧
      f.nodes = 2 * s.inputSymbols.length - 1) ∧
    (s.inputSymbols.length = 1 → (pathsOf f.entries).ncard = 2 ∧ f.nodes = 2) ∧
    (s.input = [] → f.nodes = 0 ∧ (pathsOf f.entries).ncard = 1) := by
  have htree := h.tree
  have hentries := h.mem_entries_iff
  rw [← h.mapped_eq]
  refine ⟨fun h2 => ?_, fun h1 => ?_, fun h0 => ?_⟩
  · obtain ⟨ar, hb, ht⟩ := buildTree_many h2
    obtain ⟨ha, hr⟩ := Prod.mk.inj (htree.trans hb)
    have hlen : f.nodes = 2 * (mappedSymbols f.freq).length - 1 := by rw [State.nodes, ha, ht.length_eq]
    have hcard := ht.length_eq_ncard (l := f.entries) fun p sym => by simp [hentries, State.LeafPath, ha, hr]
    exact ⟨by rw [← hcard, ht.length_eq], hlen⟩
  · obtain ⟨a, hm⟩ := List.length_eq_one_iff.1 h1
    have hcode : f.codeOf a = [false] := (h.builtPath_codeOf (h.mapped_eq ▸ hm ▸ List.mem_singleton_self a)).unique
      (.of_one hm)
    have he : f.entries = [(a, [false])] := by rw [State.entries, h.presentSymbols, hm, List.map_singleton, hcode]
    obtain ⟨ha, -⟩ := Prod.mk.inj (htree.trans (buildTree_one hm))
    have hset : pathsOf f.entries = {[], [false]} := by
      ext p
      simp [he, pathsOf, List.prefix_cons_iff]
    exact ⟨by rw [hset, Set.ncard_pair (List.cons_ne_nil _ _).symm], by rw [State.nodes, ha]; rfl⟩
  · have hm : mappedSymbols f.freq = [] := List.eq_nil_iff_forall_not_mem.2 fun sym hs => by
      rw [h.mapped_iff, h0] at hs
      cases hs
    have he : f.entries = [] := by rw [State.entries, h.presentSymbols, hm]; rfl
    obtain ⟨ha, -⟩ := Prod.mk.inj (htree.trans (buildTree_empty hm))
    have hset : pathsOf f.entries = {[]} := by
      ext p
      simp [he, pathsOf]
    exact ⟨by rw [State.nodes, ha]; rfl, by rw [hset, Set.ncard_singleton]⟩

/-! ### The decoder on a container (R186) -/

theorem exec_of_resultOf {i : Instr} (h : resultOf i s = (t, none)) : exec i s = .next t.finish := by
  rw [exec_next, h]
  rfl

/-- A command that newly ends with an error has raised it. -/
theorem exec_error {i : Instr} (hs : s.status.err = false) (herr : (resultOf i s).completed.status.err = true) :
    ∃ e, (resultOf i s).2 = some e ∧ (resultOf i s).completed.status.errCode = e.code.toByte ∧
      (resultOf i s).completed.status.errOp = e.op := by
  rcases exec_status i s with ⟨-, hst, -⟩ | ⟨e, he, hst, -⟩
  · rw [hst] at herr
    exact nomatch hs.symm.trans herr
  · exact ⟨e, he, by rw [hst]; rfl, by rw [hst]; rfl⟩

/-- Settles O39: the header is a table that a decoder can use, the two trees have the same paths, and every payload bit
leads to a child. -/
theorem decoderAcceptsEveryContainer : Obligations.DecoderAcceptsEveryContainer := by
  intro s t u _ ht herr hu hcap hin
  obtain ⟨f, hf, hn, rfl, hheld⟩ := exec_encode_inv ht herr
  rw [hheld.outLen, hheld.output] at hin
  obtain ⟨hhdr, hbits, hsize⟩ := contents_of_container hf hn hin
  obtain ⟨v, w, hrun, hrun', hw⟩ := exists_decFront hhdr hcap (hf.goodTable hn)
  have hverr : v.status.err = false := by
    have hkeep := stageKeeps_resultOf .decTable u
    rw [show resultOf .decTable u = (v, none) from hrun] at hkeep
    exact hkeep.status ▸ hu
  have hwerr : w.status.err = false := hw.keeps.status ▸ hu
  have hnodes : w.nodes = (pathsOf f.entries).ncard := hw.tree.length_eq
  refine ⟨⟨v.finish, w.finish, exec_of_resultOf hrun, hverr, ?_, hwerr, fun p sym => ?_, ?_⟩,
    (resultOf .decPayload w).completed, (exec_decode_eq hrun hrun').trans (exec_next _ _), fun hv => ?_⟩
  · rw [exec_finish]
    exact exec_of_resultOf hrun'
  · exact (hw.leafPath_iff p sym).trans (hf.mem_entries_iff p sym)
  · have hcount := hf.card_nodes
    rwa [← hnodes] at hcount
  · obtain ⟨e, he, hcode, hop⟩ := exec_error hwerr hv
    obtain ⟨coded, d, hmem, hbegins, hcodes⟩ := hf.exists_coded
    obtain ⟨k, hinner⟩ := hw.innerPath hbegins
    have hstart : w.payloadStart = 8 * (headerBytes f.entries).length := by rw [State.payloadStart, hw.table.hdrLen]
    have hall : (coded.flatMap Prod.snd ++ d).length = w.payloadSize := by
      rw [hcodes, hsize, State.payloadSize, hw.table.hdrLen, hw.keeps.host.inLen]
    obtain ⟨h1, h2⟩ := decPayload_error_of_spells (by rw [hw.stage]) hw.rootLeaf_eq_none (hw.spells hmem) hinner
      (hstart ▸ hcodes ▸ hbits.congr hw.keeps.host.inByte) hall he
    exact ⟨by rw [hcode, h1], hop.trans h2⟩

end Sys2Proof.Machine
end

section
/-! PROOFS. How a command ends with an error (40_common.md R133, R138; 60_exceptions.md R210 to R216, R222): an illegal
word, the stage wrapper's two refusals, and the encoder bodies that raise. -/

namespace Sys2Proof.Machine

variable {s t : State}

/-! ### Codes and ERR_OPs (R211, R222) -/

/-- Settles O10: a command that raised records its error, which stands in its rows, and one that did not leaves ERR
clear and the record alone. -/
theorem errorsAreThoseOfTheTable : Obligations.ErrorsAreThoseOfTheTable := by
  refine ⟨by decide, fun i s t hs ht => ?_⟩
  cases eq_of_exec ht
  rcases exec_status i s with ⟨-, hstatus, hinfo⟩ | ⟨e, he, hstatus, -⟩ <;> rw [hstatus]
  · exact ⟨fun herr => absurd (herr.symm.trans hs) nofun, fun _ => ⟨rfl, rfl, hinfo⟩⟩
  · exact ⟨fun _ => ⟨_, resultOf_error he, rfl, rfl⟩, nofun⟩

/-! ### An illegal word (R103, R212) -/

theorem engineStep_of_illegal (h : s.cmdl.extractLsb' 8 24 ≠ 0 ∨ s.cmdl.extractLsb' 0 8 ∉ opcodes) :
    EndsWithError (engineStep s) s .illegalCmd (s.cmdl.extractLsb' 0 8) s.cmdl.toNat := by
  obtain ⟨e, he⟩ := decode_illegal h
  rw [engineStep, he]
  exact endsWithError_complete s (illegalErr s.cmdl)

/-- A word is its own ERR_INFO. -/
theorem ofNat_min_toNat (w : Word) : BitVec.ofNat 32 (min w.toNat 0xFFFFFFFF) = w := by
  have := w.isLt
  rw [Nat.min_eq_left (by omega), BitVec.ofNat_toNat, BitVec.setWidth_eq]

/-- Settles O7: the engine's turn completes the word as the error of R212. -/
theorem illegalWordCompletesWithItsError : Obligations.IllegalWordCompletesWithItsError := by
  intro s rest hb hin hword
  have hstep := engineStep_of_illegal (s := { s with inputs := rest }) hword
  rw [step_of_engine hin, engineTurn_of_busy (s := { s with inputs := rest }) hb, hstep, ofNat_min_toNat]
  rfl

/-! ### The stage wrapper's refusals (R213, R214) -/

theorem runStage_sequence {op : StageOp} {body : State → State × Option Raise} (hm : s.stage.meets op = false) :
    runStage op body s = (s, some { code := .sequence, op := op.opcode, info := s.stage.toWord.toNat }) :=
  if_pos hm

theorem runStage_inLenRange {op : StageOp} {body : State → State × Option Raise} (hm : s.stage.meets op = true)
    (hc : op.checksInLen = true) (hl : s.inCap.bytes < s.inLen.toNat) :
    runStage op body s = (s, some { code := .inLenRange, op := op.opcode, info := s.inLen.toNat }) := by
  simp [runStage, hm, hc, hl]

theorem exec_sequence {i : Instr} {op : StageOp} (hi : stageOf i = some op) (hm : s.stage.meets op = false) :
    EndsWithError (exec i s) s .sequence op.opcode s.stage.toWord.toNat := by
  rw [exec_eq, resultOf_of_stageOf hi, runStage_sequence hm]
  exact endsWithError_complete _ _

/-- Settles O14: each bit is the prerequisite of its stage. -/
theorem missingPrerequisiteIsRefused : Obligations.MissingPrerequisiteIsRefused := fun _ =>
  ⟨exec_sequence (i := .encTree) (op := .encTree) rfl, exec_sequence (i := .encCodes) (op := .encCodes) rfl,
    exec_sequence (i := .encHeader) (op := .encHeader) rfl, exec_sequence (i := .encPayload) (op := .encPayload) rfl,
    exec_sequence (i := .decTree) (op := .decTree) rfl, exec_sequence (i := .decPayload) (op := .decPayload) rfl⟩

/-- Settles O15: the first stage refuses, and a composite ends with its first stage's error. -/
theorem inputBeyondCapacityIsRefused : Obligations.InputBeyondCapacityIsRefused := by
  intro s hlen
  have hfreq : stageEncFreq s = _ := runStage_inLenRange rfl rfl hlen
  have htable : stageDecTable s = _ := runStage_inLenRange rfl rfl hlen
  refine ⟨?encFreq, ?encode, ?decTable, ?decode⟩ <;> rw [exec_eq, resultOf]
  case encFreq => rw [hfreq]; exact endsWithError_complete _ _
  case encode => rw [runEncode, hfreq]; exact endsWithError_complete _ _
  case decTable => rw [htable]; exact endsWithError_complete _ _
  case decode => rw [runDecode, htable]; exact endsWithError_complete _ _

/-! ### ENC_HEADER and ENC_PAYLOAD (R215, R216) -/

/-- A stage command whose body raises, any but DEC_PAYLOAD: its invalidation is what it leaves. -/
theorem exec_raised_unwritten {i : Instr} {op : StageOp} {r : Raise} {u : State} (hi : stageOf i = some op)
    (hop : op ≠ .decPayload) (hm : s.stage.meets op = true)
    (hl : op.checksInLen = true → s.inLen.toNat ≤ s.inCap.bytes) (hb : bodyOf op (s.invalidate op) = (u, some r)) :
    EndsWithError (exec i s) (s.invalidate op) r.code op.opcode r.info := by
  have hends := exec_raised hi hm hl hb
  rwa [outMem_of_raise hb hop] at hends

theorem bodyEncHeader_symbolOverflow (h : 255 < s.nsym.toNat) :
    bodyEncHeader s = (s, some { code := .symbolOverflow, info := s.nsym.toNat }) := if_pos h

theorem bodyEncHeader_outOverflow (h : s.nsym.toNat ≤ 255) (hsize : s.outCap.bytes < s.headerSize) :
    bodyEncHeader s = (s, some { code := .outOverflow, info := s.headerSize }) := by
  rw [bodyEncHeader, if_neg h.not_gt, if_pos hsize]

theorem bodyEncPayload_outOverflow (h : s.outCap.bytes < s.hdrLen.toNat + ceil8 s.payload.length) :
    bodyEncPayload s =
      (s, some { code := .outOverflow, info := s.hdrLen.toNat + ceil8 s.payload.length }) := if_pos h

/-- STAGE with the first three encoder bits alone (R29). -/
theorem stage_toWord_codes {g : Stage} (h : g = { Stage.none with freqV := true, treeV := true, codesV := true }) :
    g.toWord = 0x007 := by
  rw [h]
  decide

/-- Settles O25: NSYM is 256 after the invalidation too, and the body raises before it writes. -/
theorem allSymbolsOverflowTheHeader : Obligations.AllSymbolsOverflowTheHeader := by
  intro s hcv hn
  have h255 : 255 < s.nsym.toNat := by omega
  have hb := bodyEncHeader_symbolOverflow (s := s.invalidate .encHeader) h255
  have hends := exec_raised_unwritten (i := .encHeader) (op := .encHeader) rfl nofun hcv nofun hb
  refine ⟨_, hends, rfl, ?info, rfl, fun hf ht htab hdt hd => stage_toWord_codes ?stage, ⟨rfl, rfl, rfl, rfl⟩, ⟨rfl, rfl⟩,
    ⟨rfl, rfl⟩, ⟨rfl, rfl, rfl⟩, hostSideKept_exec hends, fun _ => rfl⟩
  case info =>
    show BitVec.ofNat 32 (min s.nsym.toNat 0xFFFFFFFF) = 256
    rw [hn]
    rfl
  case stage =>
    show s.stage.invalidate .encHeader = _
    rw [Stage.invalidate, hf, ht, hcv, htab, hdt, hd]
    rfl

/-- Settles O26: the bodies raise before they write. -/
theorem encoderOverflowWritesNothing : Obligations.EncoderOverflowWritesNothing := by
  rintro s _
  refine ⟨?header, ?payload⟩
  case header =>
    rintro hcv hn rfl hsize
    exact exec_raised_unwritten (i := .encHeader) rfl nofun hcv nofun
      (bodyEncHeader_outOverflow (s := s.invalidate .encHeader) hn hsize)
  case payload =>
    rintro hhv rfl hsize
    exact exec_raised_unwritten (i := .encPayload) rfl nofun hhv nofun
      (bodyEncPayload_outOverflow (s := s.invalidate .encPayload) hsize)

end Sys2Proof.Machine
end

section
/-! PROOFS. The headers, codes and payloads the decoder refuses (60_exceptions.md R216 to R221, R227). -/

namespace Sys2Proof.Machine

variable {s : State}

/-! ### The checks of one header entry (R217, R218, R219, R227) -/

section
variable {n left p : Nat}

theorem readEntries_headCut (h : s.inLen.toNat < p + 2) :
    readEntries n (left + 1) p s = (s, some { code := .fmtTruncated, info := p }) := if_pos h

theorem readEntries_zeroLength (h : p + 2 ≤ s.inLen.toNat) (h0 : s.inByte (p + 1) = 0) (hn : n ≠ 1) :
    readEntries n (left + 1) p s = (s, some { code := .fmtCodeLen, info := p }) := by
  rw [readEntries, if_neg h.not_gt, if_pos ⟨by rw [h0]; rfl, hn⟩]

theorem readEntries_codeCut (h : p + 2 ≤ s.inLen.toNat) (h0 : s.inByte (p + 1) ≠ 0)
    (hcut : s.inLen.toNat < p + 2 + ceil8 (s.inByte (p + 1)).toNat) :
    readEntries n (left + 1) p s = (s, some { code := .fmtTruncated, info := p }) := by
  have hlen : (s.inByte (p + 1)).toNat ≠ 0 := fun h => h0 (BitVec.eq_of_toNat_eq h)
  rw [readEntries, if_neg h.not_gt, if_neg fun h => hlen h.1, if_pos hcut]

theorem readEntries_duplicate (h : p + 2 + ceil8 (s.inByte (p + 1)).toNat ≤ s.inLen.toNat)
    (h0 : s.inByte (p + 1) ≠ 0) (hdup : s.present (s.inByte p) = true) :
    readEntries n (left + 1) p s = (s, some { code := .fmtDupSymbol, info := p }) := by
  have hlen : (s.inByte (p + 1)).toNat ≠ 0 := fun h => h0 (BitVec.eq_of_toNat_eq h)
  have hhead : ¬ s.inLen.toNat < p + 2 := by omega
  rw [readEntries, if_neg hhead, if_neg fun h => hlen h.1, if_neg h.not_gt, if_pos hdup]

end

/-! ### The first bad entry (R180, R217) -/

/-- The state of DEC_TABLE's loop after the entries `l`. -/
def State.afterEntries (s : State) (l : List (Byte × Bits)) : State := l.foldl State.addEntry (s.invalidate .decTable)

theorem hostSideKept_afterEntries (s : State) (l : List (Byte × Bits)) : HostSideKept s (s.afterEntries l) := by
  obtain ⟨cl, cb, o, h⟩ := foldl_addEntry_same l (s.invalidate .decTable)
  have hk := hostSideKept_invalidate s .decTable
  rw [State.afterEntries, h]
  exact { hk with }

/-- The symbols taken in are present. -/
theorem present_afterEntries {l : List (Byte × Bits)} (hnodup : (l.map Prod.fst).Nodup)
    {sym : Byte} (hs : sym ∈ l.map Prod.fst) : (s.afterEntries l).present sym = true := by
  obtain ⟨e, he, rfl⟩ := List.mem_map.1 hs
  exact (hasCode_foldl_addEntry l _ hnodup e he).present

/-- A raise at offset `p`, after good entries, with more to come, ends DEC_TABLE. -/
theorem exec_decTable_badEntry {l : List (Byte × Bits)} {p : Nat} {r : Raise} (hcap : s.inLen.toNat ≤ s.inCap.bytes)
    (hlen : 1 ≤ s.inLen.toNat) (hmore : l.length < (s.inByte 0).toNat) (hat : s.EntriesAt 1 l p)
    (hnodup : (l.map Prod.fst).Nodup) (hne : ∀ e ∈ l, e.2 ≠ [])
    (hbad : ∀ left, readEntries (s.inByte 0).toNat (left + 1) p (s.afterEntries l) = (s.afterEntries l, some r)) :
    EndsWithError (exec .decTable s) s.invalidateAll r.code 0x20 r.info := by
  obtain ⟨left, hleft⟩ := Nat.exists_eq_add_of_lt hmore
  have hk := hostSideKept_invalidate s .decTable
  have hread := readEntries_entries (s.inByte 0).toNat (left + 1) l 1 p (s.invalidate .decTable)
    ((entriesAt_congr hk.inByte hk.inLen 1 l p).2 hat) (fun e he h => absurd h (hne e he))
    (fun e _ => present_invalidate_decTable s e.1) hnodup
  have hb : bodyDecTable (s.invalidate .decTable) = (s.afterEntries l, some r) := by
    rw [bodyDecTable, if_neg (by rw [invalidate_inLen]; omega), hk.inByte]
    rw [← Nat.add_assoc, ← hleft] at hread
    exact hread.trans (hbad left)
  exact exec_raised_unwritten (i := .decTable) (op := .decTable) rfl nofun rfl (fun _ => hcap) hb

theorem bodyDecTable_empty (h : s.inLen.toNat = 0) :
    bodyDecTable s = (s, some { code := .fmtTruncated, info := 0 }) := if_pos (by omega)

/-- Settles O31: each check of the entry at `p`, on the input and the table that the entries before it left. -/
theorem firstBadEntryEndsDecTable : Obligations.FirstBadEntryEndsDecTable := by
  intro s l p hcap
  refine ⟨fun h0 => ?_, fun hlen hmore hat hnodup hne => ?_⟩
  · exact exec_raised_unwritten (i := .decTable) (op := .decTable) rfl nofun rfl (fun _ => hcap)
      (bodyDecTable_empty (s := s.invalidate .decTable) h0)
  · have hk := hostSideKept_afterEntries s l
    have bad {r : Raise} := exec_decTable_badEntry (r := r) hcap hlen hmore hat hnodup hne
    rw [← hk.inByte] at bad
    rw [← hk.inByte, ← hk.inLen]
    exact ⟨fun hcut => bad fun _ => readEntries_headCut hcut,
      fun hhead hzero hn => bad fun _ => readEntries_zeroLength hhead hzero hn,
      fun hhead hpos hcut => bad fun _ => readEntries_codeCut hhead hpos hcut,
      fun hfit hpos hdup => bad fun _ => readEntries_duplicate hfit hpos (present_afterEntries hnodup hdup)⟩

/-! ### DEC_TREE (R181, R220) -/

/-- A code in conflict with an earlier one is not inserted; after the empty code none is. -/
theorem insertCode_conflict {done : List Byte} {sym : Byte} {ar : List Node} (hfree : s.CodesFree done)
    (hins : insertAll s done 0 [bareNode] = (ar, none))
    (hbad : ∃ a ∈ done, s.codeOf a <+: s.codeOf sym ∨ s.codeOf sym <+: s.codeOf a) :
    insertCode ar sym (s.codeOf sym) = none := by
  obtain ⟨a, ha, hpre⟩ := hbad
  rcases hfree.empty with hne | ⟨e, rfl, he⟩
  · obtain ⟨ar', hins', hbuilt, -⟩ := built_bare.insertAll s done 0 hne (by simp) hfree
    cases hins.symm.trans hins'
    by_contra hsome
    obtain ⟨ar', hi⟩ := Option.ne_none_iff_exists'.1 hsome
    obtain ⟨h1, h2⟩ := hbuilt.free_of_insertCode (by simpa using hne) hi (a, s.codeOf a) (by simpa using ha)
    exact hpre.elim h1 h2
  · have har : insertAll s [e] 0 [bareNode] = ([.leaf e 0], none) := by rw [insertAll, he]; rfl
    cases hins.symm.trans har
    rfl

theorem bodyDecTree_of_conflict {ar : List Node} {i : Nat} (h : insertAll s s.order 0 [bareNode] = (ar, some i)) :
    bodyDecTree s = ({ s with arena := ar, root := some 0 }, some { code := .fmtPrefix, info := i }) := by
  rw [bodyDecTree, h]

/-- Settles O33: the codes before the position are all inserted, and the one at it is not. -/
theorem conflictingCodesEndDecTree : Obligations.ConflictingCodesEndDecTree := by
  intro s done sym rest htab horder hfree hbad
  replace hfree : (s.invalidate .decTree).CodesFree done := hfree
  obtain ⟨ar, hins⟩ := hfree.exists_insertAll
  have hstop := insertAll_stop _ done sym rest 0 _ ar hins (insertCode_conflict hfree hins hbad)
  rw [← horder, Nat.zero_add] at hstop
  exact exec_raised_unwritten (i := .decTree) (op := .decTree) rfl nofun htab nofun
    (bodyDecTree_of_conflict (s := s.invalidate .decTree) hstop)

/-! ### DEC_PAYLOAD (R182, R216, R221) -/

theorem bodyDecPayload_of_walk_raise {w : Walk} {e : Raise} (hroot : s.rootLeaf = none)
    (hw : walkPayload s s.payloadSize s.payloadStart s.walk0 = (w, some e)) :
    bodyDecPayload s = ({ s with outMem := w.out }, some e) := by
  rw [State.payloadSize, State.payloadStart, State.walk0] at hw
  simp only [bodyDecPayload, hroot, hw]

/-- The payload is the codes of `l`, a path to entry `k`, which is no LEAF, and one bit more, on which the walk
raises. -/
theorem bodyDecPayload_stops {l : List Byte} {c d : Bits} {b : Bool} {k : Nat} {e : Raise} (hroot : s.rootLeaf = none)
    (hsp : s.Spells l c) (hd : s.InnerPath d k) (hcap : l.length ≤ s.outCap.bytes)
    (hlim : s.limsnap = true → l.length < s.outLimit.toNat) (hbits : s.BitsAt s.payloadStart (c ++ d ++ [b]))
    (hsize : (c ++ d ++ [b]).length ≤ s.payloadSize)
    (hstop : ∀ (w : Walk) left, w.cur = some k → w.count = l.length → s.bitAt (s.payloadStart + (c ++ d).length) = b →
      s.GoesOn w.count → walkPayload s (left + 1) (s.payloadStart + (c ++ d).length) w =
        ({ w with examined := w.examined + 1 }, some e)) :
    bodyDecPayload s = ({ s with outMem := Memory.writeBytes s.outMem 0 l }, some e) := by
  obtain ⟨hcd, hb⟩ := hbits.append
  rw [List.length_append, List.length_singleton] at hsize
  have hgo : s.GoesOn l.length := fun h => (hlim h).ne
  have hwalk := walkPayload_codes_inner hroot hsp hd hcap hcd (by omega) (fun h => (hlim h).le) (.inl hgo)
  obtain ⟨left, hleft⟩ : ∃ left, s.payloadSize - (c ++ d).length = left + 1 :=
    ⟨s.payloadSize - (c ++ d).length - 1, by omega⟩
  rw [hleft, hstop _ left rfl rfl hb.head hgo] at hwalk
  exact bodyDecPayload_of_walk_raise hroot hwalk

/-- DEC_PAYLOAD where its body raises after the symbols `l`. -/
theorem exec_decPayload_raised {l : List Byte} {r : Raise} (hv : s.stage.dtreeV = true)
    (hb : bodyDecPayload (s.invalidate .decPayload) =
      ({ s.invalidate .decPayload with outMem := Memory.writeBytes s.outMem 0 l }, some r)) :
    ∃ m, EndsWithError (exec .decPayload s) { s.invalidate .decPayload with outMem := m } r.code 0x22 r.info ∧
      ({ s with outMem := m } : State).output l.length = l ∧
      OutKeptOutside s { s with outMem := m } 0 l.length :=
  ⟨_, exec_raised (i := .decPayload) (op := .decPayload) rfl hv nofun hb, output_writeBytes rfl rfl⟩

theorem spells_invalidate_decPayload {l : List Byte} {c : Bits} (h : s.Spells l c) :
    (s.invalidate .decPayload).Spells l c := (spells_congr (by rfl) (by rfl) l c).2 h

/-- Settles O36: the walk raises on the bit that leads nowhere. -/
theorem missingChildEndsDecPayload : Obligations.MissingChildEndsDecPayload := by
  intro s l c d b k hv hroot hsp hd hnil hcap hlim hbits hsize
  exact exec_decPayload_raised hv
    (bodyDecPayload_stops (s := s.invalidate .decPayload) hroot (spells_invalidate_decPayload hsp) hd hcap hlim hbits
      hsize fun w left hcur _ hbit hgo => walkPayload_malformed _ b k left _ w hcur hnil hbit hgo)

/-- A code that is not empty is a path to an entry that is no LEAF, and a bit more. -/
theorem State.LeafPath.last {p : Bits} {sym : Byte} (h : s.LeafPath p sym) (hp : p ≠ []) :
    ∃ d b k z, p = d ++ [b] ∧ s.InnerPath d k ∧ childAt s.arena k b = some z ∧ leafAt s.arena z = some sym := by
  obtain ⟨r, hr, z, hz, hzl⟩ := h
  obtain ⟨d, b, rfl⟩ := (List.eq_nil_or_concat p).resolve_left hp
  rw [List.concat_eq_append, follow_concat] at hz
  obtain ⟨k, hk, hkz⟩ := Option.bind_eq_some_iff.1 hz
  exact ⟨d, b, k, z, List.concat_eq_append, ⟨r, hr, hk, leafAt_of_childAt hkz⟩, hkz, hzl⟩

/-- Settles O37: the walk raises on the last bit of the code that is one too many. -/
theorem decoderOverflowKeepsTheOutput : Obligations.DecoderOverflowKeepsTheOutput := by
  intro s l c p sym hv hroot hsp hp hl hlim hbits hsize
  obtain ⟨d, b, k, z, rfl, hd, hkz, hzl⟩ := hp.last (leafPath_ne_nil hroot hp)
  rw [← List.append_assoc] at hbits hsize ⊢
  have hb := bodyDecPayload_stops (s := s.invalidate .decPayload) hroot (spells_invalidate_decPayload hsp) hd hl.le hlim
    hbits hsize fun w left hcur hcount hbit hgo =>
      walkPayload_overflow _ b k z left _ sym w hcur hkz hzl hbit hgo (hcount.trans hl)
  have hends := exec_decPayload_raised hv hb
  rw [hl] at hends
  rw [List.length_append (bs := [b])]
  exact hends

end Sys2Proof.Machine
end

section
/-! PROOFS. The interrupt output (60_exceptions.md R229, R230), and STATUS and ERR_INFO under every step (R222). -/

namespace Sys2Proof.Machine

variable {s t : State}

/-! ### The interrupt output (R229, R230) -/

theorem irq_of_done (h : s.status.done = true) : s.irq = s.ctrl.ie := by simp [State.irq, h]

/-- After a CTRL write with IE = `v[0]` (R25). -/
theorem irq_transact_ctrl (s : State) (v : Word) :
    (transact (writesReg .ctrl v) s).irq = (v.getLsbD 0 && (s.status.done || s.status.err)) := by
  rw [transact_writesReg]
  rfl

/-- After a STATUS write that clears DONE by `v[1]` and ERR by `v[2]` (R27). -/
theorem irq_transact_status (s : State) (v : Word) : (transact (writesReg .status v) s).irq =
    (s.ctrl.ie && (s.status.done && !v.getLsbD 1 || s.status.err && !v.getLsbD 2)) := by
  rw [transact_writesReg]
  rfl

theorem irq_dropWrite (s : State) : s.dropWrite.irq = s.irq := rfl

/-- Settles O55: DONE is set by every completion, a CTRL write sets IE, a STATUS write clears, and WR_BUSY does not
count. -/
theorem interruptFollowsStatus : Obligations.InterruptFollowsStatus := by
  intro s t i v
  rw [irq_transact_ctrl, irq_transact_status]
  refine ⟨fun ht => ?completed, fun h => by rw [h, Bool.true_and], fun h => by rw [h, Bool.false_and],
    fun h1 h2 => by simp only [h1, h2, Bool.not_true, Bool.and_false, Bool.or_self],
    fun h2 he => by simp only [h2, he, Bool.not_false, Bool.and_true, Bool.or_true], fun w hb => ?dropped, rfl, rfl⟩
  case completed =>
    have hctrl := (hostSideKept_exec ht).ctrl
    cases eq_of_exec ht
    rw [irq_of_done (completed_idle_done _).2, hctrl]
  case dropped => rw [transact_of_busy hb (.inl rfl), irq_dropWrite]

/-! ### STATUS and ERR_INFO (R131, R222) -/

/-- A host transaction leaves STATUS legal: an accept clears the record, and a STATUS write only clears. -/
theorem statusOk_transact (x : Txn) (h : s.StatusOk) : (transact x s).StatusOk := by
  rcases transact_cases x s with ⟨r, n, e⟩ | ⟨-, v, e⟩ | ⟨v, e⟩ | ⟨v, e⟩ | ⟨-, e⟩ | ⟨-, v, e⟩ | ⟨-, v, e⟩ |
    ⟨-, a, l, -, e⟩ <;> rw [e]
  case inr.inl => exact ⟨fun _ => ⟨rfl, rfl, rfl, rfl, rfl⟩, Nat.zero_le _, nofun⟩
  case inr.inr.inr.inl => exact h.acknowledge v
  all_goals exact ⟨h.busyClean, h.codeLegal, h.errCoded⟩

theorem statusOk_resetMachine (s : State) : (resetMachine s).StatusOk := ⟨nofun, Nat.zero_le _, nofun⟩

/-- Settles O58: commands, completion, transactions and reset keep STATUS legal. -/
theorem stepKeepsStatusLegal : Obligations.StepKeepsStatusLegal := fun _ _ =>
  step_keeps (fun _ _ h => { h with }) (fun i u => (stageKeeps_resultOf i u).statusOk)
    (fun _ => State.StatusOk.completed) (fun x _ => statusOk_transact x) fun u _ => statusOk_resetMachine u

end Sys2Proof.Machine
end
